-- ==== Sys2Proof/Word.lean ====
section
/-! DEFINITION. The words of the GW464 and fixed-size tables of like things, with the two laws every table has. -/

namespace Sys2Proof

/-- A byte of an access or of a management frame. -/
abbrev Byte := BitVec 8

/-- A requester address, or 32 data lines (00, 6.2). -/
abbrev Word := BitVec 32

/-- A target address (00, 6.2). -/
abbrev TargetAddr := BitVec 28

/-- A fixed number of like things: the 64 slots, the 16 contexts, the 8 profiles, the four ports and channels. -/
abbrev Table (α : Type) (n : Nat) := Vector α n

/-- The entry of a table at an index. -/
def Table.look {α : Type} {n : Nat} (t : Table α n) (i : Fin n) : α := t[i.1]'i.2

/-- The table with one entry replaced. -/
def Table.put {α : Type} {n : Nat} (t : Table α n) (i : Fin n) (x : α) : Table α n := t.set i.1 x i.2

/-- The table with every entry changed by the same function. -/
def Table.mapAll {α : Type} {n : Nat} (f : α → α) (t : Table α n) : Table α n :=
  ⟨⟨t.toList.map f⟩, by simp⟩

@[simp] theorem Table.look_put_same {α : Type} {n : Nat} (t : Table α n) (i : Fin n) (x : α) :
    (t.put i x).look i = x := by simp [Table.look, Table.put]

theorem Table.look_put_ne {α : Type} {n : Nat} (t : Table α n) {i j : Fin n} (x : α) (h : j ≠ i) :
    (t.put i x).look j = t.look j := by
  have : (i : Nat) ≠ j := fun e => h (Fin.ext e.symm)
  simp [Table.look, Table.put, this]

theorem Table.look_put {α : Type} {n : Nat} (t : Table α n) (i j : Fin n) (x : α) :
    (t.put i x).look j = if j = i then x else t.look j := by
  by_cases h : j = i
  · subst h; simp
  · simp [h, Table.look_put_ne t x h]

@[simp] theorem Table.look_mapAll {α : Type} {n : Nat} (f : α → α) (t : Table α n) (i : Fin n) :
    (t.mapAll f).look i = f (t.look i) := by
  simp [Table.look, Table.mapAll]

theorem Table.ext_look {α : Type} {n : Nat} {t u : Table α n} (h : ∀ i, t.look i = u.look i) : t = u := by
  apply Vector.ext
  intro i hi
  exact h ⟨i, hi⟩

@[simp] theorem Table.look_replicate {α : Type} {n : Nat} (x : α) (i : Fin n) :
    Table.look (Vector.replicate n x) i = x := by simp [Table.look]

end Sys2Proof
end

