-- ==== Sys2Proof/Syntax.lean ====
section
/-! DEFINITION. The commands of the GW464: one constructor for each row of spec/opcode_table.json, with what the outside gives at that event. -/

namespace Sys2Proof

/-- The levels of the straps BOOTEN, BOOTW and BOOTSZ (R181), true for high. -/
structure Straps where
  booten : Bool
  bootw : Bool
  bootsz : Bool
  deriving DecidableEq, Repr

/-- The events and commands that reach the part, in the table's order. A port or channel operand says at which port or channel the event falls; the commands of the management link carry no operand, since their payload is the one the link dispatched (R163, R169). -/
inductive Instr where
  /-- RST_ASSERTED (R182). -/
  | rstAsserted
  /-- RST_RELEASED (R183), with the strap levels sampled there (R181). -/
  | rstReleased (straps : Straps)
  /-- REINITIALISATION under RESET_ALL (R187), with the levels at which the strap lines stand for its sample (R181). -/
  | reinitialisation (straps : Straps)
  /-- STARTUP_COMPLETION (R183). -/
  | startupCompletion
  /-- REQUEST_PRESENTED (R44, R45): the levels of PKR and PKW and the lines PA, PSZ, PTAG and PWD. -/
  | requestPresented (port : Fin 4) (pkr pkw : Bool) (pa : Word) (psz : BitVec 3) (ptag : Fin 4) (pwd : Word)
  /-- RESPONSE_TAKEN (R53): PRTK sampled high. -/
  | responseTaken (port : Fin 4)
  /-- PRSTN_ASSERTED (R54). -/
  | prstnAsserted (port : Fin 4)
  /-- PRSTN_DEASSERTED (R56). -/
  | prstnDeasserted (port : Fin 4)
  /-- PORT_LEAVES_IN_RESET (R56). -/
  | portLeavesInReset (port : Fin 4)
  /-- STROBE_ASSERT (R83): the end of the setup periods. -/
  | strobeAssert (channel : Fin 4)
  /-- MINIMUM_STROBE_END (R83, R84), with the levels of CRDY, CERR and CD at the end of that period. -/
  | minimumStrobeEnd (channel : Fin 4) (crdy cerr : Bool) (cd : Word)
  /-- EXTENSION_PERIOD_END (R84), with the levels of CRDY, CERR and CD at the end of that period. -/
  | extensionPeriodEnd (channel : Fin 4) (crdy cerr : Bool) (cd : Word)
  /-- BEAT_TIMEOUT (R85): CRDY low at sample tau. -/
  | beatTimeout (channel : Fin 4)
  /-- RECOVERY_END (R89). -/
  | recoveryEnd (channel : Fin 4)
  /-- APPLY (R130). -/
  | applySet
  /-- COMMAND_FRAME (R161): a command exchange with the bytes clocked after its type byte 01h. -/
  | commandFrame (bytes : List Byte)
  /-- MCS_RELEASE (R161). -/
  | mcsRelease
  /-- COLLISION (R164). -/
  | collision
  /-- RESPONSE_EXCHANGE (R165). -/
  | responseExchange
  /-- ATTENTION_EXCHANGE (R154, R167). -/
  | attentionExchange
  /-- UNKNOWN_TYPE_EXCHANGE (R157), with its type byte. -/
  | unknownTypeExchange (typeByte : Byte)
  /-- IDENTIFY (R177). -/
  | identify
  /-- RESET_ALL (R186). -/
  | resetAll
  /-- STAGE_INSTALL (R117, R118). -/
  | stageInstall
  /-- STAGE_AMEND (R117, R118). -/
  | stageAmend
  /-- STAGE_RETIRE (R117, R118). -/
  | stageRetire
  /-- COMMIT (R122). -/
  | commit
  /-- DISCARD (R133). -/
  | discard
  /-- QUERY_SET (R121). -/
  | querySet
  /-- QUERY_WINDOW (R20). -/
  | queryWindow
  /-- FIND_ADDRESS (R38). -/
  | findAddress
  /-- SET_PORT (R58). -/
  | setPort
  /-- RESET_PORT (R57). -/
  | resetPort
  /-- QUERY_PORT (R59). -/
  | queryPort
  /-- SET_PROFILE (R78). -/
  | setProfile
  /-- QUERY_PROFILE (R79). -/
  | queryProfile
  /-- SET_CHANNEL (R95). -/
  | setChannel
  /-- RESTORE_CHANNEL (R109). -/
  | restoreChannel
  /-- QUERY_CHANNEL (R110). -/
  | queryChannel
  /-- READ_FAULT (R145). -/
  | readFault
  /-- CLEAR_FAULT (R146). -/
  | clearFault
  /-- ACK_ATTENTION (R151). -/
  | ackAttention
  /-- SET_ATTENTION_MASK (R152). -/
  | setAttentionMask
  /-- REQUEST_REMOVED (R44): PKR and PKW both sampled deasserted. -/
  | requestRemoved (port : Fin 4)
  /-- PRTK_SAMPLED_LOW (R53). -/
  | prtkSampledLow (port : Fin 4)
  deriving DecidableEq, Repr

end Sys2Proof
end

