-- ==== Sys2Proof/Machine/Crc.lean ====
section
/-! DEFINITION. The CRC-8 of the management frames (R168). -/

namespace Sys2Proof.Machine

/-- One of the eight shifts: the register moves towards its most significant end, and 07h is combined in when a 1 was shifted out (R168). -/
def crcShift (r : Byte) : Byte := if r.getLsbD 7 then (r <<< 1) ^^^ 0x07 else r <<< 1

/-- One byte taken into the register (R168). -/
def crcByte (r b : Byte) : Byte :=
  crcShift (crcShift (crcShift (crcShift (crcShift (crcShift (crcShift (crcShift (r ^^^ b))))))))

/-- The CRC-8 of the covered bytes: the register starts at FFh, and its final value is not inverted (R168). -/
def crc8 (bytes : List Byte) : Byte := bytes.foldl crcByte 0xFF

end Sys2Proof.Machine
end

