-- ==== Sys2Proof/Config.lean ====
section
/-! DEFINITION. What the part fixes: its identification, its capacities, its bounds and its power-on numbers. The spec leaves no value open, so no free value stands here. -/

namespace Sys2Proof.Config

/-- The vendor code (R177). -/
def vendorCode : BitVec 16 := 0x4942
/-- The part code (R177). -/
def partCode : BitVec 16 := 0x0464
/-- The silicon revision "for the silicon described in this document" (R177). -/
def siliconRevision : Byte := 0x01
/-- Window slots (R1, R177). -/
def slotCount : Nat := 64
/-- Requester ports (R177). -/
def portCount : Nat := 4
/-- Target channels (R177). -/
def channelCount : Nat := 4
/-- Timing profiles (R76, R177). -/
def profileCount : Nat := 8
/-- Entries of a change set (R114). -/
def setCapacity : Nat := 8
/-- The pass count at which age promotion applies (R97, R98). -/
def passLimit : Nat := 8
/-- The consecutive timeouts that take a channel OFFLINE (R107). -/
def timeoutLimit : Nat := 3
/-- The bound of the further count (R140). -/
def furtherLimit : Nat := 255
/-- The longest command payload (R161). -/
def payloadLimit : Nat := 48
/-- The divisor at power-on (R92, R111). -/
def powerOnDivisor : Nat := 4

end Sys2Proof.Config
end

