-- ==== Sys2Proof/Machine/State.lean ====
section
/-! DEFINITION. The state of the GW464 as plain data, block by block, the reasons a step could stop, and the state after reset. -/

namespace Sys2Proof.Machine

/-! ### Window Table (chapter 1) -/

/-- Slot states (R8). -/
inductive SlotState where
  | free | live | frozen
  deriving DecidableEq, Repr

/-- The data width of a target device, 1, 2 or 4 bytes (R4). -/
inductive Width where
  | w1 | w2 | w4
  deriving DecidableEq, Repr

/-- The rights value of one port (R5). -/
inductive Rights where
  | none | read | readWrite
  deriving DecidableEq, Repr

/-- The window fields, from base to label (Table 1-1). -/
structure Window where
  base : Word
  sizeExp : Nat
  rank : Fin 8
  channel : Fin 4
  targetBase : TargetAddr
  width : Width
  profile : Fin 8
  rights : Table Rights 4
  swapAllowed : Bool
  label : Option Word
  deriving DecidableEq, Repr

/-- One window slot (Table 1-1). -/
structure Slot where
  state : SlotState
  window : Window
  generation : Byte
  inFlight : Nat
  deriving DecidableEq, Repr

/-! ### Contexts (chapters 3 and 4) -/

/-- Access kinds (00, 6.3). -/
inductive AccessKind where
  | read | write | swap
  deriving DecidableEq, Repr

/-- The phase of a beat (R63). -/
inductive Phase where
  | read | write
  deriving DecidableEq, Repr

/-- One beat of a plan (R63): its phase, its unit address and its lane set, bit L for lane L. -/
structure Beat where
  phase : Phase
  unit : TargetAddr
  lanes : BitVec 4
  deriving DecidableEq, Repr

/-- A context is named by its port and its tag (R48). -/
structure CtxId where
  port : Fin 4
  tag : Fin 4
  deriving DecidableEq, Repr

/-- The slot, generation and label that name one window (R14, R33). -/
structure WindowRef where
  slot : Fin 64
  generation : Byte
  label : Option Word
  deriving DecidableEq, Repr

/-- What a context records at bind and keeps after it (Table 3-4). -/
structure Binding where
  window : WindowRef
  channel : Fin 4
  target : TargetAddr
  plan : List Beat
  completed : Nat
  readData : Table (Option Byte) 4
  deriving DecidableEq, Repr

/-- What a requester presented (Table 3-4): the write data has one byte for each byte of a WRITE or SWAP and none for a READ. -/
structure Request where
  kind : AccessKind
  size : Nat
  address : Word
  data : List Byte
  deriving DecidableEq, Repr

/-- The statuses of a DONE context (Table 3-4). -/
inductive Status where
  | ok | noWindow | span | denied | channelOffline | targetTimeout | targetError
  deriving DecidableEq, Repr

/-- What a DONE context still records for reporting: nothing, the window of SPAN or DENIED, or its binding (R49). -/
inductive DoneRecord where
  | unbound
  | window (w : WindowRef)
  | bound (b : Binding)
  deriving DecidableEq, Repr

/-- The states of a context, each with the fields Table 3-4 gives it there. The hold order of a HELD context and the queue position of a DONE one are its positions in the hold list and the response queue. -/
inductive CtxState where
  | held
  | bound (b : Binding) (stamp : Nat) (passes : Nat)
  | onBus (b : Binding) (stamp : Nat) (abandoned : Bool)
  | done (status : Status) (rec : DoneRecord)
  deriving DecidableEq, Repr

/-- A transaction context (R49). -/
structure Context where
  request : Request
  state : CtxState
  deriving DecidableEq, Repr

/-! ### Port Units (chapter 3) -/

/-- Port states (R42). -/
inductive PortState where
  | off | on | inReset
  deriving DecidableEq, Repr

/-- Urgency classes (R43). -/
inductive UrgencyClass where
  | normal | urgent
  deriving DecidableEq, Repr

/-- Refusal reasons on PRC (Table 3-2). -/
inductive RefusalReason where
  | portOff | portReset | tagBusy | badSize
  deriving DecidableEq, Repr

/-- The answer to a presentation: PTKN, or PRFS with its reason (R44). -/
inductive PortAnswer where
  | taken
  | refused (reason : RefusalReason)
  deriving DecidableEq, Repr

/-- One Port Unit with the lines it watches: `prstn` is true while PRSTn is asserted, `presenting` while PKR or PKW was last sampled asserted, `prtk` while PRTK was last sampled high. -/
structure PortUnit where
  state : PortState
  enable : Bool
  cls : UrgencyClass
  queue : List (Fin 4)
  prstn : Bool
  presenting : Bool
  answer : Option PortAnswer
  prtk : Bool
  deriving DecidableEq, Repr

/-! ### Profiles and channels (chapters 5 and 6) -/

/-- Ready policies (R76). -/
inductive ReadyPolicy where
  | ignore | extend
  deriving DecidableEq, Repr

/-- A timing profile (Table 5-1). -/
structure Profile where
  setup : Nat
  strobe : Nat
  policy : ReadyPolicy
  timeout : Nat
  recovery : Nat
  deriving DecidableEq, Repr

/-- What a beat copies at its start (R80). -/
structure BeatCopy where
  profile : Profile
  divisor : Nat
  deriving DecidableEq, Repr

/-- Where a beat in progress stands (Table 5-3): `extension n` after n extension periods, sample n taken. -/
inductive BeatStage where
  | setup
  | strobe
  | extension (periods : Nat)
  deriving DecidableEq, Repr

/-- Channel states (R93); BEAT and RECOVERY keep what the beat copied. -/
inductive ChanState where
  | idle
  | beat (copy : BeatCopy) (stage : BeatStage)
  | recovery (copy : BeatCopy)
  | offline
  deriving DecidableEq, Repr

/-- The output lines of a target channel (Table 5-2): `cstbn` is the level of CSTBn, `cd` is none while the channel does not drive CD. -/
structure ChanLines where
  ca : TargetAddr
  cle : BitVec 4
  cwr : Bool
  cstbn : Bool
  cd : Option Word
  deriving DecidableEq, Repr

/-- One Channel Unit (Table 6-1) and its lines. -/
structure Channel where
  state : ChanState
  divisor : Nat
  timeouts : Nat
  urgentPtr : Fin 4
  normalPtr : Fin 4
  onBus : Option CtxId
  lines : ChanLines
  deriving DecidableEq, Repr

/-! ### Change Set Unit (chapter 7) -/

/-- Change set states (R114). -/
inductive SetState where
  | closed | opened | committing
  deriving DecidableEq, Repr

/-- A requester range, as in a window record (R125). -/
structure Range where
  base : Word
  sizeExp : Nat
  deriving DecidableEq, Repr

/-- A change set entry (Table 7-1). -/
inductive Entry where
  | install (slot : Fin 64) (w : Window)
  | amend (slot : Fin 64) (w : Window) (expected : Option Byte)
  | retire (slot : Fin 64) (expected : Option Byte)
  deriving DecidableEq, Repr

/-- The change set with its footprint and hold list (R114). -/
structure ChangeSet where
  state : SetState
  entries : List Entry
  footprint : List Range
  holdList : List CtxId
  deriving DecidableEq, Repr

/-! ### Fault Unit (chapter 8) -/

/-- Fault kinds (Table 8-1). -/
inductive FaultKind where
  | noWindow | span | denied | channelOffline | targetTimeout | targetError | tagBusy | badSize
  deriving DecidableEq, Repr

/-- The target part of a fault record (Table 8-1). -/
structure TargetPart where
  channel : Fin 4
  byteAddress : TargetAddr
  beatIndex : Nat
  deriving DecidableEq, Repr

/-- A full fault record (Table 8-1). -/
structure FaultRecord where
  kind : FaultKind
  tag : Fin 4
  access : AccessKind
  size : Nat
  address : Word
  window : Option WindowRef
  target : Option TargetPart
  further : Nat
  deriving DecidableEq, Repr

/-- The latched flags and the mask (R148, R152); bit n of the mask enables flag n. The level flags have no value of their own. -/
structure Attention where
  startDone : Bool
  commitApplied : Bool
  linkCollision : Bool
  mask : BitVec 11
  deriving DecidableEq, Repr

/-! ### Management Link Unit (chapter 9) -/

/-- Response statuses (Table 9-5). -/
inductive AnswerStatus where
  | done | accepted | empty | pending | none
  | badLength | badCrc | unknownCommand
  | badField | badSlot | badState | stale | noSet | commitBusy | duplicateSlot | setFull | overlap
  deriving DecidableEq, Repr

/-- The commands of Table 9-6. -/
inductive CommandCode where
  | identify | resetAll
  | stageInstall | stageAmend | stageRetire | commit | discard | querySet
  | queryWindow | findAddress
  | setPort | resetPort | queryPort
  | setProfile | queryProfile
  | setChannel | restoreChannel | queryChannel
  | readFault | clearFault | ackAttention | setAttentionMask
  deriving DecidableEq, Repr

/-- A response (R159): its sequence number, status, flags and payload. -/
structure Response where
  sequence : Byte
  status : AnswerStatus
  collided : Bool
  lineHeld : Bool
  payload : List Byte
  deriving DecidableEq, Repr

/-- The command being executed, as dispatched (R163); `taken` once its owner has taken it and it waits (R169). -/
structure Executing where
  code : CommandCode
  payload : List Byte
  taken : Bool
  deriving DecidableEq, Repr

/-- Link states (R159); a response is stored exactly in ANSWERED. -/
inductive LinkState where
  | starting
  | idle
  | executing (x : Executing)
  | answered (r : Response)
  deriving DecidableEq, Repr

/-- The exchange in progress (R157): none while MCS is high; ignored; a command frame still undecided, with the bytes received after the type byte; a command frame decided; or the frame being returned on MDO. -/
inductive Exchange where
  | none
  | ignored
  | undecided (received : List Byte)
  | decided
  | returning (frame : List Byte)
  deriving DecidableEq, Repr

/-- The Management Link Unit (R159). -/
structure Link where
  state : LinkState
  lastSequence : Byte
  collisionMark : Bool
  exchange : Exchange
  deriving DecidableEq, Repr

/-! ### Start-Up Control (chapter 10) -/

/-- The origin of a start-up run (R180). -/
inductive Origin where
  | rst | resetAll
  deriving DecidableEq, Repr

/-- Start-up states (R180). -/
inductive StartState where
  | reset
  | running (origin : Origin)
  | waiting
  | ready
  deriving DecidableEq, Repr

/-- Start-Up Control: its state, the straps last sampled (R180), and the levels at which the strap lines stand (R181). -/
structure StartUp where
  state : StartState
  straps : Straps
  levels : Straps
  deriving DecidableEq, Repr

/-! ### The whole part -/

/-- The state of the GW464, and the commands that wait, first in first out. -/
structure State where
  slots : Table Slot 64
  ports : Table PortUnit 4
  ctxs : Table (Option Context) 16
  profiles : Table Profile 8
  chans : Table Channel 4
  changeSet : ChangeSet
  faults : Table (Option FaultRecord) 4
  attention : Attention
  link : Link
  startUp : StartUp
  pending : List Instr
  deriving DecidableEq, Repr

/-- No command of the part faults: what the spec calls a fault is a status and a record (R140), not a stop. -/
inductive Fault where
  deriving DecidableEq, Repr

/-- Why a command would be refused. -/
inductive Refusal where
  /-- Raised by exec's arm of a command that has no meaning yet (safe); no arm of this model raises it. -/
  | notModelled (mnemonic : String)
  deriving DecidableEq, Repr

/-- The outcome of one command. -/
abbrev Result := Host.Outcome State Fault Refusal

/-! ### Power-on values -/

/-- The cleared window fields of R22. -/
def Window.cleared : Window :=
  { base := 0, sizeExp := 10, rank := 0, channel := 0, targetBase := 0, width := .w1, profile := 0,
    rights := Vector.replicate 4 .none, swapAllowed := false, label := none }

/-- A slot at its power-on values (R22). -/
def Slot.cleared : Slot := { state := .free, window := Window.cleared, generation := 0, inFlight := 0 }

/-- A profile at its power-on values (R77). -/
def Profile.powerOn : Profile := { setup := 3, strobe := 31, policy := .extend, timeout := 4095, recovery := 3 }

/-- The lines of a channel before its first beat (R90, R91). -/
def ChanLines.powerOn : ChanLines := { ca := 0, cle := 0, cwr := false, cstbn := true, cd := none }

/-- A channel at its power-on values (R111). -/
def Channel.powerOn : Channel :=
  { state := .idle, divisor := Config.powerOnDivisor, timeouts := 0, urgentPtr := 3, normalPtr := 3, onBus := none,
    lines := ChanLines.powerOn }

/-- The change set after RST (R139). -/
def ChangeSet.closedEmpty : ChangeSet := { state := .closed, entries := [], footprint := [], holdList := [] }

/-- The attention set and mask after RST (R155). -/
def Attention.powerOn : Attention :=
  { startDone := false, commitApplied := false, linkCollision := false, mask := BitVec.allOnes 11 }

/-- The Management Link Unit after RST (R159, R178). -/
def Link.starting : Link :=
  { state := .starting, lastSequence := 0, collisionMark := false, exchange := .none }

/-- The held straps while RST is asserted (R181); the strap lines stand low at reset (LOG 5). -/
def Straps.low : Straps := { booten := false, bootw := false, bootsz := false }

/-- A Port Unit under RST (R60) with its input lines quiet (LOG 5): IN_RESET, NORMAL, and the given power-on enable. -/
def PortUnit.powerOn (enable : Bool) : PortUnit :=
  { state := .inReset, enable := enable, cls := .normal, queue := [], prstn := false, presenting := false,
    answer := none, prtk := false }

/-- The part right after reset: RST is asserted and every block holds its power-on values (R182). -/
def State.reset : State :=
  { slots := Vector.replicate 64 Slot.cleared
    ports := #v[PortUnit.powerOn true, PortUnit.powerOn false, PortUnit.powerOn false, PortUnit.powerOn false]
    ctxs := Vector.replicate 16 none
    profiles := Vector.replicate 8 Profile.powerOn
    chans := Vector.replicate 4 Channel.powerOn
    changeSet := ChangeSet.closedEmpty
    faults := Vector.replicate 4 none
    attention := Attention.powerOn
    link := Link.starting
    startUp := { state := .reset, straps := Straps.low, levels := Straps.low }
    pending := [] }

end Sys2Proof.Machine
end

