-- ==== Sys2Proof/Machine/Ops.lean ====
section
/-! DEFINITION. The one home of every read and write of State: the tables' entries, the contexts by name, the in-flight counts. The queue of commands is touched by none of them. -/

namespace Sys2Proof.Machine

/-- The four ports, channels or tags in increasing order. -/
def fours : List (Fin 4) := [0, 1, 2, 3]

/-- The 64 slots in increasing order. -/
def slotIds : List (Fin 64) := (List.range 64).map (Fin.ofNat 64)

/-- Where a context stands in the table: four for each port (R48). -/
def CtxId.idx (id : CtxId) : Fin 16 := ⟨4 * id.port.1 + id.tag.1, by omega⟩

/-- The contexts of one port, in order of tag. -/
def portIds (p : Fin 4) : List CtxId := fours.map fun t => ⟨p, t⟩

/-- The sixteen contexts, by port and then by tag. -/
def ctxIds : List CtxId := fours.flatMap portIds

/-! ### Entries of the tables -/

def State.slotAt (s : State) (i : Fin 64) : Slot := s.slots.look i
def State.putSlot (s : State) (i : Fin 64) (x : Slot) : State := { s with slots := s.slots.put i x }

def State.portAt (s : State) (p : Fin 4) : PortUnit := s.ports.look p
def State.putPort (s : State) (p : Fin 4) (x : PortUnit) : State := { s with ports := s.ports.put p x }

def State.ctxAt (s : State) (id : CtxId) : Option Context := s.ctxs.look id.idx
def State.putCtx (s : State) (id : CtxId) (c : Option Context) : State := { s with ctxs := s.ctxs.put id.idx c }

def State.profileAt (s : State) (i : Fin 8) : Profile := s.profiles.look i
def State.putProfile (s : State) (i : Fin 8) (x : Profile) : State := { s with profiles := s.profiles.put i x }

def State.chanAt (s : State) (c : Fin 4) : Channel := s.chans.look c
def State.putChan (s : State) (c : Fin 4) (x : Channel) : State := { s with chans := s.chans.put c x }

def State.faultAt (s : State) (p : Fin 4) : Option FaultRecord := s.faults.look p
def State.putFault (s : State) (p : Fin 4) (x : Option FaultRecord) : State := { s with faults := s.faults.put p x }

/-! ### Whole blocks -/

def State.putChangeSet (s : State) (x : ChangeSet) : State := { s with changeSet := x }
def State.putAttention (s : State) (x : Attention) : State := { s with attention := x }
def State.putLink (s : State) (x : Link) : State := { s with link := x }
def State.putStartUp (s : State) (x : StartUp) : State := { s with startUp := x }

/-- Every context changed by the same function. -/
def State.mapCtxs (s : State) (f : Option Context → Option Context) : State := { s with ctxs := s.ctxs.mapAll f }

/-- Every port changed by the same function. -/
def State.mapPorts (s : State) (f : PortUnit → PortUnit) : State := { s with ports := s.ports.mapAll f }

/-- Every fault record empty, with further count 0 (R140). -/
def State.emptyFaults (s : State) : State := { s with faults := Vector.replicate 4 none }

/-! ### Contexts -/

/-- The binding of a context in BOUND or ON_BUS. -/
def Context.liveBinding (c : Context) : Option Binding :=
  match c.state with
  | .bound b _ _ => some b
  | .onBus b _ _ => some b
  | .held => none
  | .done _ _ => none

/-- The bind stamp of a context in BOUND or ON_BUS. -/
def Context.stamp (c : Context) : Option Nat :=
  match c.state with
  | .bound _ n _ => some n
  | .onBus _ n _ => some n
  | .held => none
  | .done _ _ => none

/-- The port has no contexts (R56). -/
def State.portEmpty (s : State) (p : Fin 4) : Bool := (portIds p).all fun id => (s.ctxAt id).isNone

/-- No context exists (R187). -/
def State.noContexts (s : State) : Bool := fours.all s.portEmpty

/-- The device width in bytes (R4). -/
def Width.bytes : Width → Nat
  | .w1 => 1
  | .w2 => 2
  | .w4 => 4

/-! ### In-flight counts (R17, R18) -/

def State.raiseCount (s : State) (i : Fin 64) : State :=
  s.putSlot i { s.slotAt i with inFlight := (s.slotAt i).inFlight + 1 }

def State.lowerCount (s : State) (i : Fin 64) : State :=
  s.putSlot i { s.slotAt i with inFlight := (s.slotAt i).inFlight - 1 }

/-! ### Response queues (R51) -/

def State.enqueue (s : State) (id : CtxId) : State :=
  s.putPort id.port { s.portAt id.port with queue := (s.portAt id.port).queue ++ [id.tag] }

end Sys2Proof.Machine
end

