-- ==== Sys2Proof/Machine/Flags.lean ====
section
/-! DEFINITION. The Fault Unit: fault records, the attention set and ATN (chapter 8). -/

namespace Sys2Proof.Machine

/-- A fault reaches its port's record: it fills an empty one with further count 0, and raises the further count of a full one, saturating (R143). -/
def State.recordFault (s : State) (p : Fin 4) (r : FaultRecord) : State :=
  match s.faultAt p with
  | none => s.putFault p (some { r with further := 0 })
  | some f => s.putFault p (some { f with further := min (f.further + 1) Config.furtherLimit })

/-- The channel is OFFLINE. -/
def ChanState.isOffline : ChanState → Bool
  | .offline => true
  | .idle => false
  | .beat _ _ => false
  | .recovery _ => false

/-- The flags of Table 8-3 by their numbers: the level flags show the records and the channels. -/
def State.flag (s : State) (n : Nat) : Bool :=
  match n with
  | 0 => (s.faultAt 0).isSome
  | 1 => (s.faultAt 1).isSome
  | 2 => (s.faultAt 2).isSome
  | 3 => (s.faultAt 3).isSome
  | 4 => (s.chanAt 0).state.isOffline
  | 5 => (s.chanAt 1).state.isOffline
  | 6 => (s.chanAt 2).state.isOffline
  | 7 => (s.chanAt 3).state.isOffline
  | 8 => s.attention.startDone
  | 9 => s.attention.commitApplied
  | 10 => s.attention.linkCollision
  | _ => false

/-- The attention set as a number, bit n for flag n (R148). -/
def State.attentionSet (s : State) : Nat :=
  ((List.range 11).map fun n => if s.flag n then 2 ^ n else 0).sum

/-- ATN is high while at least one flag is both true and enabled (R153). -/
def State.atn (s : State) : Bool := (List.range 11).any fun n => s.flag n && s.attention.mask.getLsbD n

/-- START_DONE is latched (R150). -/
def State.latchStartDone (s : State) : State := s.putAttention { s.attention with startDone := true }

/-- COMMIT_APPLIED is latched (R150). -/
def State.latchCommitApplied (s : State) : State := s.putAttention { s.attention with commitApplied := true }

/-- LINK_COLLISION is latched (R150). -/
def State.latchLinkCollision (s : State) : State := s.putAttention { s.attention with linkCollision := true }

/-- The latched flags named by their bits are cleared, the others kept (R151). -/
def State.clearLatched (s : State) (named : Nat) : State :=
  s.putAttention { s.attention with
    startDone := s.attention.startDone && !named.testBit 8
    commitApplied := s.attention.commitApplied && !named.testBit 9
    linkCollision := s.attention.linkCollision && !named.testBit 10 }

end Sys2Proof.Machine
end

