-- ==== Sys2Proof/Machine/Operands.lean ====
section
/-! DEFINITION. What management payloads carry and how answers carry it: bytes, little-endian fields, the codes of enumerated values, and the window fields of a staging request. -/

namespace Sys2Proof.Machine

/-! ### Bytes and little-endian fields (00, 6.7) -/

/-- The byte at an offset of a payload, as a number. -/
def byteAt (p : List Byte) (i : Nat) : Nat := (p.getD i 0).toNat

/-- The byte at an offset of a payload. -/
def rawAt (p : List Byte) (i : Nat) : Byte := p.getD i 0

/-- Four bytes, least significant first. -/
def wordAt (p : List Byte) (i : Nat) : Word := rawAt p (i + 3) ++ rawAt p (i + 2) ++ rawAt p (i + 1) ++ rawAt p i

/-- Two bytes, least significant first, as a number. -/
def halfAt (p : List Byte) (i : Nat) : Nat := byteAt p i + 256 * byteAt p (i + 1)

/-- One byte of an answer. -/
def byteOf (n : Nat) : Byte := BitVec.ofNat 8 n

/-- A 16-bit field of an answer. -/
def bytes16 (n : Nat) : List Byte := [byteOf n, byteOf (n / 256)]

/-- Byte k of a 32-bit value. -/
def byteOfWord (w : Word) (k : Nat) : Byte := (w >>> (8 * k)).setWidth 8

/-- A 32-bit field of an answer. -/
def bytes32 (w : Word) : List Byte := [byteOfWord w 0, byteOfWord w 1, byteOfWord w 2, byteOfWord w 3]

/-- A target address sent in four bytes. -/
def bytesTarget (t : TargetAddr) : List Byte := bytes32 (t.setWidth 32)

/-- The bytes of an item that is absent, sent as FFh (R173, R174, R176). -/
def absent (n : Nat) : List Byte := List.replicate n 0xFF

/-- A label, or FFh in each of its bytes. -/
def labelBytes : Option Word → List Byte
  | some w => bytes32 w
  | none => absent 4

/-- A bit of an options byte. -/
def bitIf (b : Bool) (n : Nat) : Nat := if b then 2 ^ n else 0

/-! ### Codes -/

/-- SlotState coded FREE 0, LIVE 1, FROZEN 2 (R172, R173). -/
def SlotState.code : SlotState → Nat
  | .free => 0 | .live => 1 | .frozen => 2

/-- Rights codes (R5). -/
def Rights.code : Rights → Nat
  | .none => 0 | .read => 1 | .readWrite => 3

/-- The rights value of a two-bit code; the code 2 is no rights value (R5). -/
def rightsOf : Nat → Option Rights
  | 0 => some .none
  | 1 => some .read
  | 3 => some .readWrite
  | _ => none

/-- Access kinds coded READ 1, WRITE 2, SWAP 3 (R171). -/
def AccessKind.code : AccessKind → Nat
  | .read => 1 | .write => 2 | .swap => 3

/-- The access kind of a code (R171). -/
def accessKindOf : Nat → Option AccessKind
  | 1 => some .read
  | 2 => some .write
  | 3 => some .swap
  | _ => none

/-- OFF 0, ON 1 (R171). -/
def enableOf : Nat → Option Bool
  | 0 => some false
  | 1 => some true
  | _ => none

/-- NORMAL 0, URGENT 1 (R171). -/
def classOf : Nat → Option UrgencyClass
  | 0 => some .normal
  | 1 => some .urgent
  | _ => none

def UrgencyClass.code : UrgencyClass → Nat
  | .normal => 0 | .urgent => 1

/-- IGNORE 0, EXTEND 1 (R171). -/
def policyOf : Nat → Option ReadyPolicy
  | 0 => some .ignore
  | 1 => some .extend
  | _ => none

def ReadyPolicy.code : ReadyPolicy → Nat
  | .ignore => 0 | .extend => 1

/-- PSTAT codes (Table 3-2). -/
def Status.code : Status → Nat
  | .ok => 0 | .noWindow => 1 | .span => 2 | .denied => 3 | .channelOffline => 4 | .targetTimeout => 5 | .targetError => 6

/-- PRC codes (Table 3-2). -/
def RefusalReason.code : RefusalReason → Nat
  | .portOff => 0 | .portReset => 1 | .tagBusy => 2 | .badSize => 3

/-- Fault kind codes (Table 9-9). -/
def FaultKind.code : FaultKind → Nat
  | .noWindow => 1 | .span => 2 | .denied => 3 | .channelOffline => 4 | .targetTimeout => 5 | .targetError => 6
  | .tagBusy => 8 | .badSize => 9

/-- Status codes of responses (Table 9-5). -/
def AnswerStatus.code : AnswerStatus → Byte
  | .done => 0x00 | .accepted => 0x01 | .empty => 0x02 | .pending => 0x03 | .none => 0x04
  | .badLength => 0x10 | .badCrc => 0x11 | .unknownCommand => 0x12
  | .badField => 0x20 | .badSlot => 0x21 | .badState => 0x22 | .stale => 0x23 | .noSet => 0x24
  | .commitBusy => 0x25 | .duplicateSlot => 0x26 | .setFull => 0x27 | .overlap => 0x28

/-- Port states coded OFF 0, ON 1, IN_RESET 2 (Table 9-11). -/
def PortState.code : PortState → Nat
  | .off => 0 | .on => 1 | .inReset => 2

/-- Context states coded HELD 0, BOUND 1, ON_BUS 2, DONE 3 (Table 9-11). -/
def CtxState.code : CtxState → Nat
  | .held => 0
  | .bound _ _ _ => 1
  | .onBus _ _ _ => 2
  | .done _ _ => 3

/-- Channel states coded IDLE 0, BEAT 1, RECOVERY 2, OFFLINE 3 (Table 9-12). -/
def ChanState.code : ChanState → Nat
  | .idle => 0
  | .beat _ _ => 1
  | .recovery _ => 2
  | .offline => 3

/-- Set states coded CLOSED 0, OPEN 1, COMMITTING 2 (Table 9-13). -/
def SetState.code : SetState → Nat
  | .closed => 0 | .opened => 1 | .committing => 2

/-- The command of a code byte (Table 9-6). -/
def commandOf (b : Byte) : Option CommandCode :=
  match b.toNat with
  | 0x01 => some .identify
  | 0x02 => some .resetAll
  | 0x10 => some .stageInstall
  | 0x11 => some .stageAmend
  | 0x12 => some .stageRetire
  | 0x13 => some .commit
  | 0x14 => some .discard
  | 0x15 => some .querySet
  | 0x18 => some .queryWindow
  | 0x19 => some .findAddress
  | 0x20 => some .setPort
  | 0x21 => some .resetPort
  | 0x22 => some .queryPort
  | 0x28 => some .setProfile
  | 0x29 => some .queryProfile
  | 0x30 => some .setChannel
  | 0x31 => some .restoreChannel
  | 0x32 => some .queryChannel
  | 0x38 => some .readFault
  | 0x39 => some .clearFault
  | 0x3A => some .ackAttention
  | 0x3B => some .setAttentionMask
  | _ => none

/-- The request payload length of each command (Table 9-6). -/
def CommandCode.payloadLength : CommandCode → Nat
  | .identify | .resetAll | .commit | .discard | .querySet => 0
  | .stageInstall => 20
  | .stageAmend => 21
  | .stageRetire => 3
  | .findAddress => 7
  | .setPort => 3
  | .setProfile => 7
  | .setChannel | .clearFault | .ackAttention | .setAttentionMask => 2
  | .queryWindow | .resetPort | .queryPort | .queryProfile | .restoreChannel | .queryChannel | .readFault => 1

/-! ### Window fields of a staging request (R172, Table 9-7) -/

/-- The window items as the values the payload's bytes carry, before any check. -/
structure RawWindow where
  base : Word
  sizeExp : Nat
  rank : Nat
  channel : Nat
  width : Nat
  profile : Nat
  rights : Nat
  targetBase : Word
  swapAllowed : Bool
  label : Option Word
  deriving DecidableEq, Repr

/-- The window items of a STAGE_INSTALL or STAGE_AMEND payload (Table 9-7). -/
def rawWindowOf (p : List Byte) : RawWindow :=
  { base := wordAt p 2
    sizeExp := byteAt p 6
    rank := byteAt p 7
    channel := byteAt p 8
    width := byteAt p 9
    profile := byteAt p 10
    rights := byteAt p 11
    targetBase := wordAt p 12
    swapAllowed := (rawAt p 1).getLsbD 1
    label := if (rawAt p 1).getLsbD 0 then some (wordAt p 16) else none }

/-- The rights code of one port in the rights byte (Table 9-7). -/
def rightsCode (rights : Nat) (p : Nat) : Nat := rights / 4 ^ p % 4

/-- The number of the first field check that fails (Table 1-4). -/
def fieldCheck (r : RawWindow) : Option Nat :=
  if r.sizeExp < 10 ∨ 28 < r.sizeExp then some 1
  else if r.base.toNat % 2 ^ r.sizeExp ≠ 0 then some 2
  else if r.targetBase.toNat % 0x400 ≠ 0 then some 3
  else if 2 ^ 28 < r.targetBase.toNat + 2 ^ r.sizeExp then some 4
  else if r.width ≠ 1 ∧ r.width ≠ 2 ∧ r.width ≠ 4 then some 5
  else if 7 < r.profile then some 6
  else if 3 < r.channel then some 7
  else if 7 < r.rank then some 8
  else if rightsCode r.rights 0 = 2 ∨ rightsCode r.rights 1 = 2 ∨ rightsCode r.rights 2 = 2 ∨ rightsCode r.rights 3 = 2
    then some 9
  else none

/-- The rights value a checked code stands for. -/
def rightsAt (rights : Nat) (p : Nat) : Rights := (rightsOf (rightsCode rights p)).getD .none

/-- The width a checked width byte stands for. -/
def widthOf : Nat → Width
  | 1 => .w1
  | 2 => .w2
  | _ => .w4

/-- The window of a request whose items passed every field check. -/
def RawWindow.window (r : RawWindow) : Window :=
  { base := r.base
    sizeExp := r.sizeExp
    rank := Fin.ofNat 8 r.rank
    channel := Fin.ofNat 4 r.channel
    targetBase := r.targetBase.setWidth 28
    width := widthOf r.width
    profile := Fin.ofNat 8 r.profile
    rights := #v[rightsAt r.rights 0, rightsAt r.rights 1, rightsAt r.rights 2, rightsAt r.rights 3]
    swapAllowed := r.swapAllowed
    label := r.label }

/-- The rights byte of a window (Table 9-7). -/
def rightsByte (w : Window) : Nat :=
  (w.rights.look 0).code + 4 * (w.rights.look 1).code + 16 * (w.rights.look 2).code + 64 * (w.rights.look 3).code

/-- Base to rights, as the answers of QUERY_WINDOW and QUERY_SET carry them (Tables 9-8 and 9-13). -/
def windowBytes (w : Window) : List Byte :=
  bytes32 w.base ++
    [byteOf w.sizeExp, byteOf w.rank.1, byteOf w.channel.1, byteOf w.width.bytes, byteOf w.profile.1, byteOf (rightsByte w)] ++
    bytesTarget w.targetBase ++ labelBytes w.label

end Sys2Proof.Machine
end

