-- ==== Sys2Proof/Machine/Plan.lean ====
section
/-! DEFINITION. The Beat Planner: the cut of an access into beats, and the steering of its bytes (chapter 4). Addresses are numbers here; a plan holds them in 28 bits. -/

namespace Sys2Proof.Machine

/-- The unit of W bytes that contains target byte x begins here (R64). -/
def unitOf (x W : Nat) : Nat := x - x % W

/-- The number of distinct units met by n bytes from t on (R64). -/
def unitCount (n t W : Nat) : Nat := (t + n - 1) / W - t / W + 1

/-- Lane L carries a byte of the access in the beat with unit address u (R65). -/
def laneUsed (n t W u L : Nat) : Bool := decide (L < W) && decide (t ≤ u + L) && decide (u + L < t + n)

/-- The lane set of the beat with unit address u (R65). -/
def laneSet (n t W u : Nat) : BitVec 4 :=
  BitVec.ofNat 4 (bitIf (laneUsed n t W u 0) 0 + bitIf (laneUsed n t W u 1) 1 +
    bitIf (laneUsed n t W u 2) 2 + bitIf (laneUsed n t W u 3) 3)

/-- The beats of one phase: one for each unit met, in increasing order of unit address (R64). -/
def planPhase (ph : Phase) (n t W : Nat) : List Beat :=
  (List.range (unitCount n t W)).map fun j =>
    { phase := ph, unit := BitVec.ofNat 28 (unitOf t W + j * W), lanes := laneSet n t W (unitOf t W + j * W) }

/-- The plan of an access; a SWAP reads every unit and then writes the same units (R64, R70). -/
def planFor (kind : AccessKind) (n t W : Nat) : List Beat :=
  match kind with
  | .read => planPhase .read n t W
  | .write => planPhase .write n t W
  | .swap => planPhase .read n t W ++ planPhase .write n t W

/-- The byte of the access carried on lane L of a beat: k = u + L - t (R65). -/
def laneByte (b : Beat) (target : TargetAddr) (L : Nat) : Nat := b.unit.toNat + L - target.toNat

/-- What a WRITE beat drives on lane L: the write data byte, or FFh outside the lane set (R67). -/
def writeLane (b : Beat) (target : TargetAddr) (data : List Byte) (L : Nat) : Byte :=
  if b.lanes.getLsbD L then data.getD (laneByte b target L) 0xFF else 0xFF

/-- What the channel drives on CD in a beat: the write lanes, or nothing in a READ beat (R67, R68, R82). -/
def driveData (b : Beat) (target : TargetAddr) (data : List Byte) : Option Word :=
  match b.phase with
  | .read => none
  | .write => some (writeLane b target data 3 ++ writeLane b target data 2 ++ writeLane b target data 1 ++
      writeLane b target data 0)

/-- One lane of CD captured by address (R68). -/
def captureLane (b : Beat) (target : TargetAddr) (cd : Word) (d : Table (Option Byte) 4) (L : Nat) :
    Table (Option Byte) 4 :=
  if b.lanes.getLsbD L then
    if h : laneByte b target L < 4 then d.put ⟨laneByte b target L, h⟩ (some (byteOfWord cd L)) else d
  else d

/-- The lanes of the lane set captured into the read data at the normal end of a READ beat; a WRITE beat captures nothing (R68, R87). -/
def capture (b : Beat) (target : TargetAddr) (cd : Word) (d : Table (Option Byte) 4) : Table (Option Byte) 4 :=
  match b.phase with
  | .read => captureLane b target cd (captureLane b target cd (captureLane b target cd (captureLane b target cd d 0) 1) 2) 3
  | .write => d

/-- The lowest lane of a lane set. -/
def lowestLane (lanes : BitVec 4) : Nat :=
  if lanes.getLsbD 0 then 0 else if lanes.getLsbD 1 then 1 else if lanes.getLsbD 2 then 2 else 3

/-- The byte address of a beat: its unit address plus the lowest lane of its lane set (R71). -/
def Beat.byteAddress (b : Beat) : TargetAddr := b.unit + BitVec.ofNat 28 (lowestLane b.lanes)

end Sys2Proof.Machine
end

