-- ==== Sys2Proof/Machine/Resolver.lean ====
section
/-! DEFINITION. The Resolver: ranges and overlap, selection, the six steps, and what FIND_ADDRESS reports (chapters 1 and 2). It reads the state and writes nothing. -/

namespace Sys2Proof.Machine

/-! ### Ranges (R2) -/

/-- The requester range of a window. -/
def Window.range (w : Window) : Range := { base := w.base, sizeExp := w.sizeExp }

/-- A requester address lies in a range when the quotients by 2^e agree (R2, R125); a byte beyond the top lies in none, since no base has such a quotient (R27). -/
def Range.contains (r : Range) (x : Nat) : Bool := x / 2 ^ r.sizeExp == r.base.toNat / 2 ^ r.sizeExp

/-- Two ranges share an address exactly when their bases agree from the larger exponent upward (R2). -/
def Range.overlaps (r q : Range) : Bool :=
  r.base.toNat / 2 ^ max r.sizeExp q.sizeExp == q.base.toNat / 2 ^ max r.sizeExp q.sizeExp

/-- Any byte of an access lies in any of the ranges (R27, R28). -/
def touches (rs : List Range) (a : Word) (n : Nat) : Bool :=
  (List.range n).any fun k => rs.any fun r => r.contains (a.toNat + k)

/-! ### Selection (R15, R29) -/

/-- A slot may be selected for an address: it is LIVE and its range contains the address. -/
def State.candidate (s : State) (x : Nat) (i : Fin 64) : Bool :=
  (s.slotAt i).state == .live && (s.slotAt i).window.range.contains x

/-- The better of what was found so far and one more slot: the candidate of higher rank. -/
def State.better (s : State) (x : Nat) (best : Option (Fin 64)) (i : Fin 64) : Option (Fin 64) :=
  if s.candidate x i then
    match best with
    | none => some i
    | some j => if (s.slotAt j).window.rank < (s.slotAt i).window.rank then some i else some j
  else best

/-- The LIVE window of highest rank whose range contains the address (R29). -/
def State.select (s : State) (x : Nat) : Option (Fin 64) := slotIds.foldl (s.better x) none

/-! ### Rights (R31, Table 1-3) -/

/-- The access kinds granted by a rights value and the swap permission (Table 1-3). -/
def granted (r : Rights) (swapAllowed : Bool) (kind : AccessKind) : Bool :=
  match r, kind with
  | .none, _ => false
  | .read, .read => true
  | .read, .write => false
  | .read, .swap => false
  | .readWrite, .read => true
  | .readWrite, .write => true
  | .readWrite, .swap => swapAllowed

/-! ### Binding (R33, R34) -/

/-- The slot, generation and label that name a slot's window. -/
def State.windowRef (s : State) (i : Fin 64) : WindowRef :=
  { slot := i, generation := (s.slotAt i).generation, label := (s.slotAt i).window.label }

/-- The target address of a requester address: target base + (a - base) (R3). -/
def Window.targetOf (w : Window) (a : Word) : TargetAddr :=
  BitVec.ofNat 28 (w.targetBase.toNat + (a.toNat - w.base.toNat))

/-- The binding of an access under a slot: window, channel, target address and plan, nothing completed, no read data (R33). -/
def State.bindingFor (s : State) (i : Fin 64) (r : Request) : Binding :=
  let w := (s.slotAt i).window
  { window := s.windowRef i
    channel := w.channel
    target := w.targetOf r.address
    plan := planFor r.kind r.size (w.targetOf r.address).toNat w.width.bytes
    completed := 0
    readData := Vector.replicate 4 none }

/-- The stamp of a context that is BOUND or ON_BUS on a channel. -/
def stampOn (c : Fin 4) (x : Option Context) : Option Nat :=
  match x with
  | some cx => if (cx.liveBinding.map (·.channel)) = some c then cx.stamp else none
  | none => none

/-- A stamp later than that of every context BOUND or ON_BUS on the channel (R34; LOG 15). -/
def State.nextStamp (s : State) (c : Fin 4) : Nat :=
  ctxIds.foldl (fun m id => match stampOn c (s.ctxAt id) with | some n => max m (n + 1) | none => m) 0

/-! ### The six steps (Table 2-1) -/

/-- How a resolution ends (R25), with what each outcome names (R39). -/
inductive Verdict where
  | held
  | noWindow
  | span (w : WindowRef)
  | denied (w : WindowRef)
  | channelOffline (w : WindowRef) (channel : Fin 4)
  | bound (b : Binding)
  deriving DecidableEq, Repr

/-- Step 1: while COMMITTING, any byte in the footprint holds the access (R28). -/
def State.footprintHit (s : State) (r : Request) : Bool :=
  s.changeSet.state == .committing && touches s.changeSet.footprint r.address r.size

/-- Step 3: every later byte resolves to the window selected for byte 0 (R30). -/
def State.spanOk (s : State) (i : Fin 64) (r : Request) : Bool :=
  (List.range r.size).all fun k => s.select (r.address.toNat + k) == some i

/-- Resolution of an access of a port: the first failing step decides (R25, R28 to R33). -/
def State.resolve (s : State) (p : Fin 4) (r : Request) : Verdict :=
  if s.footprintHit r then .held
  else
    match s.select r.address.toNat with
    | none => .noWindow
    | some i =>
      if s.spanOk i r = false then .span (s.windowRef i)
      else if granted ((s.slotAt i).window.rights.look p) (s.slotAt i).window.swapAllowed r.kind = false then
        .denied (s.windowRef i)
      else if (s.chanAt (s.slotAt i).window.channel).state.isOffline then
        .channelOffline (s.windowRef i) (s.slotAt i).window.channel
      else .bound (s.bindingFor i r)

end Sys2Proof.Machine
end

