-- ==== Sys2Proof/Machine/Arbiter.lean ====
section
/-! DEFINITION. The arbiter of a channel, the grant, and the start of a beat (R80, R82, R96 to R98). -/

namespace Sys2Proof.Machine

/-- The context is BOUND on the channel: its stamp and pass count. -/
def waitingOn (c : Fin 4) (x : Option Context) : Option (Nat × Nat) :=
  match x with
  | some ⟨_, .bound b stamp passes⟩ => if b.channel = c then some (stamp, passes) else none
  | some ⟨_, .onBus _ _ _⟩ => none
  | some ⟨_, .held⟩ => none
  | some ⟨_, .done _ _⟩ => none
  | none => none

/-- The waiting set of a channel: the BOUND contexts whose recorded channel it is (R92). -/
def State.waiting (s : State) (c : Fin 4) : List CtxId := ctxIds.filter fun id => (waitingOn c (s.ctxAt id)).isSome

/-- The stamp of a waiting context. -/
def State.waitStamp (s : State) (c : Fin 4) (id : CtxId) : Nat := ((waitingOn c (s.ctxAt id)).map (·.1)).getD 0

/-- The pass count of a waiting context. -/
def State.waitPasses (s : State) (c : Fin 4) (id : CtxId) : Nat := ((waitingOn c (s.ctxAt id)).map (·.2)).getD 0

/-- The context with the oldest bind stamp of a list. -/
def State.oldest (s : State) (c : Fin 4) : List CtxId → Option CtxId
  | [] => none
  | id :: rest =>
    match s.oldest c rest with
    | none => some id
    | some other => if s.waitStamp c id ≤ s.waitStamp c other then some id else some other

/-- The ports after a pointer in the cyclic order, the pointer's own port last (R97). -/
def cyclicAfter (p : Fin 4) : List (Fin 4) := [p + 1, p + 2, p + 3, p]

/-- A port of the class has a context in the list. -/
def State.classWaits (s : State) (cls : UrgencyClass) (w : List CtxId) (p : Fin 4) : Bool :=
  (s.portAt p).cls == cls && w.any fun id => id.port == p

/-- What an arbitration decides: the context, and the pointer moved, by its class. -/
structure Choice where
  id : CtxId
  moved : Option UrgencyClass
  deriving DecidableEq, Repr

/-- The oldest context of the port chosen by a class step (R97, step 4). -/
def State.classChoice (s : State) (c : Fin 4) (w : List CtxId) (cls : UrgencyClass) (ptr : Fin 4) : Option Choice :=
  match (cyclicAfter ptr).find? (s.classWaits cls w) with
  | none => none
  | some p => (s.oldest c (w.filter fun id => id.port == p)).map fun id => { id := id, moved := some cls }

/-- The choice of R97: age promotion, then the URGENT class, then the NORMAL class. -/
def State.choose (s : State) (c : Fin 4) : Option Choice :=
  let w := s.waiting c
  match s.oldest c (w.filter fun id => s.waitPasses c id == Config.passLimit) with
  | some id => some { id := id, moved := none }
  | none =>
    match s.classChoice c w .urgent (s.chanAt c).urgentPtr with
    | some ch => some ch
    | none => s.classChoice c w .normal (s.chanAt c).normalPtr

/-- The pointer of the class that chose moves to the chosen port (R97). -/
def Channel.movePointer (x : Channel) (ch : Choice) : Channel :=
  match ch.moved with
  | none => x
  | some .urgent => { x with urgentPtr := ch.id.port }
  | some .normal => { x with normalPtr := ch.id.port }

/-- A context of the waiting set loses a grant (R98). -/
def passOver (c : Fin 4) (x : Option Context) : Option Context :=
  match x with
  | some ⟨r, .bound b stamp passes⟩ =>
    if b.channel = c then some ⟨r, .bound b stamp (min (passes + 1) Config.passLimit)⟩ else some ⟨r, .bound b stamp passes⟩
  | some ⟨r, .onBus b stamp ab⟩ => some ⟨r, .onBus b stamp ab⟩
  | some ⟨r, .held⟩ => some ⟨r, .held⟩
  | some ⟨r, .done st d⟩ => some ⟨r, .done st d⟩
  | none => none

/-- The lines in the first period of a beat: the strobe is deasserted through the setup periods, and asserted at once with setup 0 (R82). -/
def beatLines (beat : Beat) (target : TargetAddr) (data : List Byte) (setup : Nat) : ChanLines :=
  { ca := beat.unit
    cle := beat.lanes
    cwr := beat.phase == .write
    cstbn := setup != 0
    cd := driveData beat target data }

/-- The stage in which a beat begins (R82, R83). -/
def firstStage (setup : Nat) : BeatStage := if setup = 0 then .strobe else .setup

/-- The next beat of the context ON_BUS starts: the profile its window names and the channel's divisor are copied, and the lines driven (R80, R82). -/
def State.startBeat (s : State) (c : Fin 4) : State :=
  match (s.chanAt c).onBus with
  | none => s
  | some id =>
    match s.ctxAt id with
    | none => s
    | some cx =>
      match cx.liveBinding with
      | none => s
      | some b =>
        match b.plan[b.completed]? with
        | none => s
        | some beat =>
          let pr := s.profileAt (s.slotAt b.window.slot).window.profile
          s.putChan c { s.chanAt c with
            state := .beat { profile := pr, divisor := (s.chanAt c).divisor } (firstStage pr.setup)
            lines := beatLines beat b.target cx.request.data pr.setup }

/-- A grant: the others are passed over, the granted context becomes ON_BUS, the reference is set and its first beat starts (R98). -/
def State.grant (s : State) (c : Fin 4) (ch : Choice) : State :=
  match s.ctxAt ch.id with
  | some ⟨r, .bound b stamp _⟩ =>
    let s1 := (s.mapCtxs (passOver c)).putCtx ch.id (some ⟨r, .onBus b stamp false⟩)
    (s1.putChan c { (s.chanAt c).movePointer ch with onBus := some ch.id }).startBeat c
  | some ⟨_, .onBus _ _ _⟩ => s
  | some ⟨_, .held⟩ => s
  | some ⟨_, .done _ _⟩ => s
  | none => s

/-- The channel arbitrates if it is IDLE and its waiting set is not empty (R96). -/
def State.arbitrate (s : State) (c : Fin 4) : State :=
  match (s.chanAt c).state with
  | .idle =>
    match s.choose c with
    | some ch => s.grant c ch
    | none => s
  | .beat _ _ => s
  | .recovery _ => s
  | .offline => s

end Sys2Proof.Machine
end

