-- ==== Sys2Proof/Machine/ChangeSets.lean ====
section
/-! DEFINITION. What a resolution does to its context, and the Change Set Unit: footprint, overlap test, drain check, apply, discard and re-resolution (R25 to R37, chapter 7). -/

namespace Sys2Proof.Machine

/-! ### A context after its resolution (R28, R33, R35) -/

/-- The fault an access hands to the Fault Unit, with its window part and target part (R141). -/
def faultOf (kind : FaultKind) (id : CtxId) (r : Request) (w : Option WindowRef) (t : Option TargetPart) : FaultRecord :=
  { kind := kind, tag := id.tag, access := r.kind, size := r.size, address := r.address, window := w, target := t,
    further := 0 }

/-- The context becomes DONE and joins the tail of its port's response queue, and the fault reaches the port's record (R35, R105). -/
def State.endWithFault (s : State) (id : CtxId) (r : Request) (st : Status) (d : DoneRecord) (f : FaultRecord) : State :=
  ((s.putCtx id (some ⟨r, .done st d⟩)).enqueue id).recordFault id.port f

/-- The context is BOUND, its slot counts it, and its channel arbitrates at once if it is IDLE (R33, R34, R96). -/
def State.bind (s : State) (id : CtxId) (r : Request) (b : Binding) : State :=
  ((s.putCtx id (some ⟨r, .bound b (s.nextStamp b.channel) 0⟩)).raiseCount b.window.slot).arbitrate b.channel

/-- The outcome of a resolution written into the part: HELD at the tail of the hold list, DONE with a fault status, or BOUND (R25). -/
def State.settle (s : State) (id : CtxId) (r : Request) : Verdict → State
  | .held =>
    (s.putCtx id (some ⟨r, .held⟩)).putChangeSet { s.changeSet with holdList := s.changeSet.holdList ++ [id] }
  | .noWindow => s.endWithFault id r .noWindow .unbound (faultOf .noWindow id r none none)
  | .span w => s.endWithFault id r .span (.window w) (faultOf .span id r (some w) none)
  | .denied w => s.endWithFault id r .denied (.window w) (faultOf .denied id r (some w) none)
  | .channelOffline _ _ => s.endWithFault id r .channelOffline .unbound (faultOf .channelOffline id r none none)
  | .bound b => s.bind id r b

/-- One resolution of a context (R25). -/
def State.resolveInto (s : State) (id : CtxId) (r : Request) : State := s.settle id r (s.resolve id.port r)

/-- The contexts taken off the hold list are resolved again one after another, in hold order; each leaves the list as it is resolved (R36, R131). -/
def State.reResolve (s : State) : List CtxId → State
  | [] => s
  | id :: rest =>
    let s1 := s.putChangeSet { s.changeSet with holdList := rest }
    match s1.ctxAt id with
    | some ⟨r, .held⟩ => (s1.resolveInto id r).reResolve rest
    | some ⟨_, .bound _ _ _⟩ => s1.reResolve rest
    | some ⟨_, .onBus _ _ _⟩ => s1.reResolve rest
    | some ⟨_, .done _ _⟩ => s1.reResolve rest
    | none => s1.reResolve rest

/-! ### Entries and the resulting table (R115, R123) -/

/-- The slot an entry names. -/
def Entry.slot : Entry → Fin 64
  | .install i _ => i
  | .amend i _ _ => i
  | .retire i _ => i

/-- The window fields an entry carries. -/
def Entry.window : Entry → Option Window
  | .install _ w => some w
  | .amend _ w _ => some w
  | .retire _ _ => none

/-- The entry freezes its slot at acceptance: AMEND and RETIRE (R9). -/
def Entry.freezes : Entry → Bool
  | .install _ _ => false
  | .amend _ _ _ => true
  | .retire _ _ => true

/-- The entry that names a slot, with its entry index (R114). -/
def entryNaming (es : List Entry) (i : Fin 64) : Option (Nat × Entry) :=
  (es.zipIdx.find? fun x => x.1.slot == i).map fun x => (x.2, x.1)

/-- The window a slot would hold LIVE if the set were applied now (R123). -/
def State.resultWindow (s : State) (es : List Entry) (i : Fin 64) : Option Window :=
  match entryNaming es i with
  | some (_, e) => e.window
  | none => if (s.slotAt i).state = .live then some (s.slotAt i).window else none

/-- Two windows of equal rank whose ranges overlap (R16). -/
def Window.conflicts (w v : Window) : Bool := w.rank == v.rank && w.range.overlaps v.range

/-- The slots a new window conflicts with in the resulting table, in increasing slot order (R123). -/
def State.conflictsOf (s : State) (es : List Entry) (i : Fin 64) (w : Window) : List (Fin 64) :=
  slotIds.filter fun j => j != i && match s.resultWindow es j with | some v => w.conflicts v | none => false

/-- A conflict as COMMIT reports it: two slots, each with the index of the entry naming it if there is one (R123). -/
structure Conflict where
  first : Fin 64
  firstIndex : Nat
  second : Fin 64
  secondIndex : Option Nat
  deriving DecidableEq, Repr

/-- The first conflict of one entry. -/
def State.entryConflict (s : State) (es : List Entry) (x : Entry × Nat) : Option Conflict :=
  match x.1.window with
  | none => none
  | some w =>
    match s.conflictsOf es x.1.slot w with
    | [] => none
    | j :: _ => some { first := x.1.slot, firstIndex := x.2, second := j, secondIndex := (entryNaming es j).map (·.1) }

/-- The first conflict found, entries in order of entry index (R123). -/
def State.firstConflict (s : State) (es : List Entry) : Option Conflict := es.zipIdx.findSome? (s.entryConflict es)

/-! ### Footprint and drain (R125, R127) -/

/-- The ranges an entry adds to the footprint (R125). -/
def State.entryRanges (s : State) : Entry → List Range
  | .install _ w => [w.range]
  | .amend i w _ => [(s.slotAt i).window.range, w.range]
  | .retire i _ => [(s.slotAt i).window.range]

/-- The footprint, entries in order (R125). -/
def State.footprintFor (s : State) (es : List Entry) : List Range := es.flatMap s.entryRanges

/-- A context in BOUND or ON_BUS any of whose bytes lies in the footprint (R127). -/
def blocks (fp : List Range) (x : Option Context) : Bool :=
  match x with
  | some c => c.liveBinding.isSome && touches fp c.request.address c.request.size
  | none => false

/-- The number of blocking contexts (R127). -/
def State.blockingCount (s : State) : Nat :=
  (ctxIds.filter fun id => blocks s.changeSet.footprint (s.ctxAt id)).length

/-! ### Apply (R11, R130) -/

/-- One entry taking effect in its slot (R11, R13). -/
def State.applyEntry (s : State) (e : Entry) : State :=
  match e with
  | .install i w =>
    s.putSlot i { state := .live, window := w, generation := (s.slotAt i).generation + 1, inFlight := 0 }
  | .amend i w _ =>
    s.putSlot i { state := .live, window := w, generation := (s.slotAt i).generation + 1, inFlight := 0 }
  | .retire i _ => s.putSlot i { s.slotAt i with state := .free, inFlight := 0 }

/-- Every entry takes effect in the table at one moment (R11). -/
def State.applyEntries (s : State) (es : List Entry) : State := es.foldl State.applyEntry s

/-- The set is emptied and CLOSED; the hold list stays until it is resolved again (R130, R134). -/
def State.closeSet (s : State) : State :=
  s.putChangeSet { state := .closed, entries := [], footprint := [], holdList := s.changeSet.holdList }

/-- Apply, as one event: table, set, COMMIT_APPLIED, re-resolution (R130). -/
def State.applyNow (s : State) : State :=
  (((s.applyEntries s.changeSet.entries).closeSet).latchCommitApplied).reResolve s.changeSet.holdList

/-- The drain check is made while the set is COMMITTING, and not from the taking of RESET_ALL until reinitialisation (R127, R138). -/
def State.drainOn (s : State) : Bool := s.changeSet.state == .committing && s.startUp.state != .waiting

/-- The check of R127: with no blocking context left the set is applied in the same event. -/
def State.drainCheck (s : State) : State :=
  if s.drainOn && s.blockingCount == 0 then s.applyNow else s

/-! ### Acceptance and discard (R124, R133, R134) -/

/-- A slot named by an AMEND or RETIRE entry becomes FROZEN, all else unchanged (R124). -/
def State.freeze (s : State) (e : Entry) : State :=
  if e.freezes then s.putSlot e.slot { s.slotAt e.slot with state := .frozen } else s

/-- Acceptance up to its drain check: COMMITTING, the footprint, the FROZEN slots, an empty hold list (R124). -/
def State.accept (s : State) : State :=
  let es := s.changeSet.entries
  (es.foldl State.freeze s).putChangeSet
    { state := .committing, entries := es, footprint := s.footprintFor es, holdList := [] }

/-- A FROZEN slot becomes LIVE again (R12). -/
def Slot.thaw (x : Slot) : Slot := { x with state := if x.state = .frozen then .live else x.state }

/-- Discard of a COMMITTING set, as one event (R134). -/
def State.discardCommitting (s : State) : State :=
  ({ s with slots := s.slots.mapAll Slot.thaw }.closeSet).reResolve s.changeSet.holdList

end Sys2Proof.Machine
end

