-- ==== Sys2Proof/Machine/StartUp.lean ====
section
/-! DEFINITION. Start-Up Control inside other events: power-on values, the boot window, the reinitialisation event and the end of the wait of RESET_ALL (R181 to R184, R187, R188). -/

namespace Sys2Proof.Machine

/-! ### Power-on values and the boot window -/

/-- A Port Unit at its power-on values, its input lines as they are (R60; LOG 5). -/
def PortUnit.restart (p : PortUnit) (enable : Bool) : PortUnit :=
  { p with state := .inReset, enable := enable, cls := .normal, queue := [] }

/-- The ports at their power-on values: the enable ON for P0 and OFF for the others (R60). -/
def restartPorts (t : Table PortUnit 4) : Table PortUnit 4 :=
  #v[(t.look 0).restart true, (t.look 1).restart false, (t.look 2).restart false, (t.look 3).restart false]

/-- The boot window of Table 10-1. -/
def bootWindow (st : Straps) : Window :=
  { base := if st.bootsz then 0xFFF00000 else 0xFFFF0000
    sizeExp := if st.bootsz then 20 else 16
    rank := 0
    channel := 0
    targetBase := 0
    width := if st.bootw then .w2 else .w1
    profile := 7
    rights := #v[.read, .none, .none, .none]
    swapAllowed := false
    label := none }

/-- Step 4: with BOOTEN held high slot 0 becomes LIVE with the boot window and generation 1 (R184). -/
def State.installBoot (s : State) (st : Straps) : State :=
  if st.booten then s.putSlot 0 { state := .live, window := bootWindow st, generation := 1, inFlight := 0 } else s

/-- Steps 2 and 3: every block but the link at its power-on values, and no context (R183, R188); at the reinitialisation event none exists anyway (R60, R187). -/
def State.powerOnBlocks (s : State) : State :=
  { s with
    slots := Vector.replicate 64 Slot.cleared
    ports := restartPorts s.ports
    ctxs := Vector.replicate 16 none
    profiles := Vector.replicate 8 Profile.powerOn
    chans := Vector.replicate 4 Channel.powerOn
    changeSet := ChangeSet.closedEmpty
    faults := Vector.replicate 4 none
    attention := Attention.powerOn }

/-! ### The reinitialisation event -/

/-- The strap lines stand at these levels; a change between samples has no effect (R181). -/
def State.strapsAt (s : State) (st : Straps) : State := s.putStartUp { s.startUp with levels := st }

/-- The reinitialisation event: the straps sampled, steps 2 to 4, and Start-Up Control RUNNING (R181, R183, R188). -/
def State.reinitialise (s : State) (o : Origin) : State :=
  (s.powerOnBlocks.installBoot s.startUp.levels).putStartUp
    { state := .running o, straps := s.startUp.levels, levels := s.startUp.levels }

/-- No channel is in BEAT (R187). -/
def State.noBeat (s : State) : Bool := fours.all fun c => (s.chanAt c).state.code != 1

/-- The wait of RESET_ALL is over (R187). -/
def State.reinitDue (s : State) : Bool := s.startUp.state == .waiting && s.noBeat && s.noContexts

/-- The end of an event that may end the wait of RESET_ALL: with both conditions of R187 met, reinitialisation takes place in it. Those events are the taking of RESET_ALL and every freeing of an abandoned context, since each context left in the wait bears the mark (R186) and every channel in BEAT has one on its bus (R94). -/
def State.endWait (s : State) : State := if s.reinitDue then s.reinitialise .resetAll else s

end Sys2Proof.Machine
end

