-- ==== Sys2Proof/Machine/BeatEnds.lean ====
section
/-! DEFINITION. The end of a beat and of a recovery: what becomes of the context, of the channel, of the ports and of a committing set (R55, R56, R86 to R90, R101 to R107). -/

namespace Sys2Proof.Machine

/-- The link's answer to the command it executes: stored with its sequence number, the collision mark becoming COLLIDED (R163). -/
def State.answer (s : State) (status : AnswerStatus) (payload : List Byte) (lineHeld : Bool := false) : State :=
  let r : Response :=
    { sequence := s.link.lastSequence, status := status, collided := s.link.collisionMark, lineHeld := lineHeld,
      payload := payload }
  s.putLink { s.link with state := .answered r }

/-- A RESET_PORT of this port has been taken and waits for its answer (R57, R169). -/
def State.awaitsReset (s : State) (p : Fin 4) : Bool :=
  match s.link.state with
  | .executing x => x.code == .resetPort && x.taken && byteAt x.payload 0 == p.1
  | .starting => false
  | .idle => false
  | .answered _ => false

/-- The state a port's enable gives (R42). -/
def stateOfEnable (enable : Bool) : PortState := if enable then .on else .off

/-- The port leaves IN_RESET for its enable, and a waiting RESET_PORT is answered DONE (R56, R57). -/
def State.leaveReset (s : State) (p : Fin 4) : State :=
  let s1 := s.putPort p { s.portAt p with state := stateOfEnable (s.portAt p).enable }
  if s.awaitsReset p then s1.answer .done [] else s1

/-- A port may leave IN_RESET: it has no contexts, PRSTn is deasserted, and start-up does not hold it (R56, R60, R61). -/
def State.mayLeave (s : State) (p : Fin 4) : Bool :=
  (s.portAt p).state == .inReset && !(s.portAt p).prstn && s.portEmpty p && s.startUp.state == .ready

/-- The check whether the port may leave IN_RESET (R56, R105). -/
def State.portCheck (s : State) (p : Fin 4) : State := if s.mayLeave p then s.leaveReset p else s

/-- The outcomes of a beat (R86). -/
inductive BeatOutcome where
  | normal | error | timeout
  deriving DecidableEq, Repr

/-- How a beat end acts on the consecutive-timeout count (R106). -/
def countAfter (o : BeatOutcome) (n : Nat) : Nat :=
  match o with
  | .normal => 0
  | .error => 0
  | .timeout => min (n + 1) Config.timeoutLimit

/-- The lines when a beat ends: CSTBn high, CLE low, CD released, CA and CWR held (R88). -/
def ChanLines.quiet (l : ChanLines) : ChanLines := { l with cle := 0, cstbn := true, cd := none }

/-- The lines fall quiet and the count is acted on, at the end of any beat (R88, R106). -/
def State.endBeatLines (s : State) (c : Fin 4) (o : BeatOutcome) : State :=
  s.putChan c { s.chanAt c with
    lines := (s.chanAt c).lines.quiet, timeouts := countAfter o (s.chanAt c).timeouts }

/-- The on-bus reference is cleared (R94). -/
def State.clearOnBus (s : State) (c : Fin 4) : State := s.putChan c { s.chanAt c with onBus := none }

/-- The channel takes a state. -/
def State.chanState (s : State) (c : Fin 4) (x : ChanState) : State := s.putChan c { s.chanAt c with state := x }

/-- The end of RECOVERY for a channel whose context, if it still has one, goes on: the next beat starts, or the channel is IDLE and arbitrates (R80, R89). -/
def State.afterRecovery (s : State) (c : Fin 4) : State :=
  match (s.chanAt c).onBus with
  | some _ => s.startBeat c
  | none => (s.chanState c .idle).arbitrate c

/-- The channel's own next state at a beat end: OFFLINE after the third timeout, else RECOVERY, passed through at once with recovery 0 (R89, R105, R107). -/
def State.settleChannel (s : State) (c : Fin 4) (copy : BeatCopy) : State :=
  if (s.chanAt c).timeouts = Config.timeoutLimit then s.chanState c .offline
  else if copy.profile.recovery = 0 then s.afterRecovery c
  else s.chanState c (.recovery copy)

/-- One context of the OFFLINE sweep, with the drain check after it (R107, steps 2 and 3). -/
def State.sweepOne (s : State) (id : CtxId) : State :=
  match s.ctxAt id with
  | some ⟨r, .bound b _ _⟩ =>
    ((s.lowerCount b.window.slot).endWithFault id r .channelOffline (.bound b)
      (faultOf .channelOffline id r (some b.window) none)).drainCheck
  | some ⟨_, .onBus _ _ _⟩ => s
  | some ⟨_, .held⟩ => s
  | some ⟨_, .done _ _⟩ => s
  | none => s

/-- Insertion into a list kept in bind order. -/
def State.insertByStamp (s : State) (c : Fin 4) (id : CtxId) : List CtxId → List CtxId
  | [] => [id]
  | x :: xs => if s.waitStamp c id ≤ s.waitStamp c x then id :: x :: xs else x :: s.insertByStamp c id xs

/-- The waiting set in bind order, oldest stamp first (R107). -/
def State.inBindOrder (s : State) (c : Fin 4) : List CtxId := (s.waiting c).foldr (s.insertByStamp c) []

/-- The sweep of a channel that has entered OFFLINE (R107). -/
def State.sweep (s : State) (c : Fin 4) : State :=
  match (s.chanAt c).state with
  | .offline => (s.inBindOrder c).foldl State.sweepOne s
  | .idle => s
  | .beat _ _ => s
  | .recovery _ => s

/-- The status and fault kind of a beat that failed (R103). -/
def BeatOutcome.status : BeatOutcome → Status
  | .normal => .ok
  | .error => .targetError
  | .timeout => .targetTimeout

def BeatOutcome.faultKind : BeatOutcome → FaultKind
  | .normal => .targetError
  | .error => .targetError
  | .timeout => .targetTimeout

/-- The target part of a failed beat: channel, byte address, beat index (R103, R141). -/
def targetPartOf (b : Binding) : Option TargetPart :=
  (b.plan[b.completed]?).map fun beat =>
    { channel := b.channel, byteAddress := beat.byteAddress, beatIndex := b.completed }

/-- The binding after a normal beat end: one beat more completed, a READ beat's lanes captured (R87, R102). -/
def Binding.afterBeat (b : Binding) (cd : Word) : Binding :=
  { b with
    completed := b.completed + 1
    readData := match b.plan[b.completed]? with
      | some beat => capture beat b.target cd b.readData
      | none => b.readData }

/-- The context leaves ON_BUS as DONE with OK: it joins its port's response queue (R102, R105). -/
def State.endOk (s : State) (id : CtxId) (r : Request) (b : Binding) : State :=
  (s.putCtx id (some ⟨r, .done .ok (.bound b)⟩)).enqueue id

/-- The end of a beat of a context without the abandon mark whose plan ends with it: the context is DONE, then the channel's next state, the drain check and, OFFLINE, the sweep (R102, R103, R105, R107). -/
def State.planEnds (s : State) (c : Fin 4) (copy : BeatCopy) (id : CtxId) (r : Request) (b : Binding) (o : BeatOutcome) :
    State :=
  let s1 := (s.lowerCount b.window.slot).clearOnBus c
  let s2 := match o with
    | .normal => s1.endOk id r b
    | .error => s1.endWithFault id r .targetError (.bound b) (faultOf .targetError id r (some b.window) (targetPartOf b))
    | .timeout =>
      s1.endWithFault id r .targetTimeout (.bound b) (faultOf .targetTimeout id r (some b.window) (targetPartOf b))
  ((s2.settleChannel c copy).drainCheck).sweep c

/-- An abandoned context is freed: no response and no fault (R104). -/
def State.freeAbandoned (s : State) (c : Fin 4) (id : CtxId) (b : Binding) : State :=
  ((s.putCtx id none).lowerCount b.window.slot).clearOnBus c

/-- The end of a beat with its outcome (R88, R102 to R107, R187). -/
def State.beatEnd (s : State) (c : Fin 4) (copy : BeatCopy) (o : BeatOutcome) (cd : Word) : State :=
  match (s.chanAt c).onBus with
  | none => s
  | some id =>
    match s.ctxAt id with
    | some ⟨r, .onBus b stamp ab⟩ =>
      let s1 := s.endBeatLines c o
      if ab then
        (((((s1.freeAbandoned c id b).settleChannel c copy).drainCheck).sweep c).portCheck id.port).endWait
      else
        match o with
        | .normal =>
          let b' := b.afterBeat cd
          if b'.completed < b.plan.length then
            (s1.putCtx id (some ⟨r, .onBus b' stamp false⟩)).settleChannel c copy
          else s1.planEnds c copy id r b' .normal
        | .error => s1.planEnds c copy id r b .error
        | .timeout => s1.planEnds c copy id r b .timeout
    | some ⟨_, .bound _ _ _⟩ => s
    | some ⟨_, .held⟩ => s
    | some ⟨_, .done _ _⟩ => s
    | none => s

/-- The outcome of a beat that ends with the device's answer: CERR is sampled in that period and in no other (R86). -/
def answeredOutcome (cerr : Bool) : BeatOutcome := if cerr then .error else .normal

/-- The end of the last recovery period (R89, R104). For a context freed here R105 gives no order; the channel becomes IDLE and arbitrates first, then the drain check is made, then the port check, as at a beat end (LOG 21). -/
def State.recoveryEnds (s : State) (c : Fin 4) : State :=
  match (s.chanAt c).onBus with
  | none => s.afterRecovery c
  | some id =>
    match s.ctxAt id with
    | some ⟨_, .onBus b _ true⟩ =>
      ((((s.freeAbandoned c id b).afterRecovery c).drainCheck).portCheck id.port).endWait
    | some ⟨_, .onBus _ _ false⟩ => s.afterRecovery c
    | some ⟨_, .bound _ _ _⟩ => s.afterRecovery c
    | some ⟨_, .held⟩ => s.afterRecovery c
    | some ⟨_, .done _ _⟩ => s.afterRecovery c
    | none => s.afterRecovery c

end Sys2Proof.Machine
end

