-- ==== Sys2Proof/Machine/PortUnits.lean ====
section
/-! DEFINITION. The Port Units: the request phase, the response lines, and the start of a port reset (chapter 3). -/

namespace Sys2Proof.Machine

/-! ### The request phase (R44 to R47) -/

/-- The access kind PKR and PKW present; neither asserted presents nothing (R44). -/
def kindOfLines (pkr pkw : Bool) : Option AccessKind :=
  match pkr, pkw with
  | true, false => some .read
  | false, true => some .write
  | true, true => some .swap
  | false, false => none

/-- The write data bytes 0 to size minus 1 of a WRITE or SWAP, from PWD (R44, R47). -/
def dataOfLines (kind : AccessKind) (size : Nat) (pwd : Word) : List Byte :=
  match kind with
  | .read => []
  | .write => (List.range size).map (byteOfWord pwd)
  | .swap => (List.range size).map (byteOfWord pwd)

/-- A size the part takes: 1, 2 or 4 (R45). -/
def sizeOk (n : Nat) : Bool := n == 1 || n == 2 || n == 4

/-- The request checks in order: the reason of the first that fails (Table 3-3). -/
def State.requestCheck (s : State) (id : CtxId) (size : Nat) : Option RefusalReason :=
  match (s.portAt id.port).state with
  | .off => some .portOff
  | .inReset => some .portReset
  | .on =>
    if (s.ctxAt id).isSome then some .tagBusy
    else if sizeOk size then none
    else some .badSize

/-- The fault a refusal hands to the Fault Unit: TAG_BUSY and BAD_SIZE alone (R46). -/
def refusalKind : RefusalReason → Option FaultKind
  | .portOff => none
  | .portReset => none
  | .tagBusy => some .tagBusy
  | .badSize => some .badSize

/-- The answer of a port to the presentation under way. -/
def State.answerRequest (s : State) (p : Fin 4) (a : PortAnswer) : State :=
  s.putPort p { s.portAt p with presenting := true, answer := some a }

/-- The presentation of a request, checked and then taken or refused at once (R45 to R47). -/
def State.present (s : State) (id : CtxId) (r : Request) : State :=
  match s.requestCheck id r.size with
  | some why =>
    let s1 := s.answerRequest id.port (.refused why)
    match refusalKind why with
    | some k => s1.recordFault id.port (faultOf k id r none none)
    | none => s1
  | none => (s.answerRequest id.port .taken).resolveInto id r

/-! ### The response lines (R52) -/

/-- The response lines of a port. -/
structure ResponseLines where
  prv : Bool
  prtag : BitVec 2
  pstat : BitVec 3
  prdata : Word
  deriving DecidableEq, Repr

/-- Byte k of the response data: the byte gathered by address, FFh from the size upward (R52, R69). -/
def responseByte (size : Nat) (d : Table (Option Byte) 4) (k : Fin 4) : Byte :=
  if k.1 < size then (d.look k).getD 0xFF else 0xFF

/-- PRDATA of a DONE context: the read data of a READ or SWAP that ended OK, else all-ones (R52). -/
def Context.prdata (c : Context) : Word :=
  match c.state, c.request.kind with
  | .done .ok (.bound b), .read =>
    responseByte c.request.size b.readData 3 ++ responseByte c.request.size b.readData 2 ++
      responseByte c.request.size b.readData 1 ++ responseByte c.request.size b.readData 0
  | .done .ok (.bound b), .swap =>
    responseByte c.request.size b.readData 3 ++ responseByte c.request.size b.readData 2 ++
      responseByte c.request.size b.readData 1 ++ responseByte c.request.size b.readData 0
  | _, _ => BitVec.allOnes 32

/-- PSTAT of a context (Table 3-2). -/
def Context.pstat (c : Context) : BitVec 3 :=
  match c.state with
  | .done st _ => BitVec.ofNat 3 st.code
  | _ => 7

/-- What the port offers: the head of its response queue, or all-ones with PRV deasserted (R52). -/
def State.responseLines (s : State) (p : Fin 4) : ResponseLines :=
  match (s.portAt p).queue with
  | [] => { prv := false, prtag := 3, pstat := 7, prdata := BitVec.allOnes 32 }
  | t :: _ =>
    match s.ctxAt ⟨p, t⟩ with
    | some c => { prv := true, prtag := BitVec.ofNat 2 t.1, pstat := c.pstat, prdata := c.prdata }
    | none => { prv := true, prtag := BitVec.ofNat 2 t.1, pstat := 7, prdata := BitVec.allOnes 32 }

/-- PTKN, PRFS and PRC: the answer to the presentation under way (R44). -/
def State.ptkn (s : State) (p : Fin 4) : Bool := (s.portAt p).answer == some .taken

/-- The refusal reason on PRC, valid with PRFS (Table 3-1). -/
def State.prc (s : State) (p : Fin 4) : Option Nat :=
  match (s.portAt p).answer with
  | some (.refused why) => some why.code
  | some .taken => none
  | none => none

/-- The take of the offered response: the head is freed and leaves the queue (R53). -/
def State.takeHead (s : State) (p : Fin 4) : State :=
  match (s.portAt p).queue with
  | [] => s
  | t :: rest => (s.putCtx ⟨p, t⟩ none).putPort p { s.portAt p with queue := rest }

/-! ### Port reset (R54) -/

/-- Step 2: a HELD context is freed. -/
def State.freeHeld (s : State) (id : CtxId) : State :=
  match s.ctxAt id with
  | some ⟨_, .held⟩ => s.putCtx id none
  | _ => s

/-- Step 3: a BOUND context is freed, its slot's count lowered, and the drain check made as it leaves BOUND (R54, R136). -/
def State.freeBound (s : State) (id : CtxId) : State :=
  match s.ctxAt id with
  | some ⟨_, .bound b _ _⟩ => ((s.putCtx id none).lowerCount b.window.slot).drainCheck
  | _ => s

/-- Step 4: a DONE context is freed. -/
def State.freeDone (s : State) (id : CtxId) : State :=
  match s.ctxAt id with
  | some ⟨_, .done _ _⟩ => s.putCtx id none
  | _ => s

/-- Step 5: a context ON_BUS receives the abandon mark. -/
def State.markAbandoned (s : State) (id : CtxId) : State :=
  match s.ctxAt id with
  | some ⟨r, .onBus b stamp _⟩ => s.putCtx id (some ⟨r, .onBus b stamp true⟩)
  | _ => s

/-- The hold list without the contexts of a port, the others in their order. -/
def ChangeSet.dropPort (x : ChangeSet) (p : Fin 4) : ChangeSet :=
  { x with holdList := x.holdList.filter fun id => id.port != p }

/-- The event that starts a port reset, in the order of R54. -/
def State.startPortReset (s : State) (p : Fin 4) : State :=
  let s1 := s.putPort p { s.portAt p with state := .inReset }
  let s2 := ((portIds p).foldl State.freeHeld s1).putChangeSet (s1.changeSet.dropPort p)
  let s3 := (portIds p).foldl State.freeBound s2
  let s4 := (portIds p).foldl State.freeDone s3
  let s5 := s4.putPort p { s4.portAt p with queue := [] }
  ((portIds p).foldl State.markAbandoned s5).putFault p none

end Sys2Proof.Machine
end

