-- ==== Sys2Proof/Machine/LinkUnit.lean ====
section
/-! DEFINITION. The Management Link Unit: frames, decisions, dispatch and the exchanges (chapter 9). -/

namespace Sys2Proof.Machine

/-! ### Lines and frames -/

/-- MRDY is high in IDLE and ANSWERED (R159). -/
def State.mrdy (s : State) : Bool :=
  match s.link.state with
  | .starting => false
  | .idle => true
  | .executing _ => false
  | .answered _ => true

/-- The byte the part returns on MDO in byte k of an exchange, counted from 0. Byte 0 is all-ones in every exchange and every state, since the type is not known until it has been received (R157); the exchange is taken at its receipt (R158), and from byte 1 on its frame is returned, then FFh; all-ones in every exchange without one. -/
def State.mdoByte (s : State) (k : Nat) : Byte :=
  match k with
  | 0 => 0xFF
  | n + 1 =>
    match s.link.exchange with
    | .returning frame => frame.getD n 0xFF
    | _ => 0xFF

/-- A response frame after its type byte: marker, covered bytes, CRC (Table 9-3). -/
def responseFrame (seq : Byte) (st : AnswerStatus) (collided lineHeld : Bool) (payload : List Byte) : List Byte :=
  let covered := [seq, st.code, byteOf (bitIf collided 0 + bitIf lineHeld 1), byteOf payload.length] ++ payload
  [0x02] ++ covered ++ [crc8 covered]

/-- The response frame by the link state (R165). In STARTING no exchange is answered. -/
def State.currentResponse (s : State) : List Byte :=
  match s.link.state with
  | .starting => []
  | .idle => responseFrame 0 .none false false []
  | .executing _ => responseFrame s.link.lastSequence .pending s.link.collisionMark false []
  | .answered r => responseFrame r.sequence r.status r.collided r.lineHeld r.payload

/-- The attention frame (Table 9-4). -/
def State.attentionFrame (s : State) : List Byte :=
  let covered := bytes16 s.attentionSet ++ bytes16 s.attention.mask.toNat
  [0x03] ++ covered ++ [crc8 covered]

/-- The set and the mask as ACK_ATTENTION and SET_ATTENTION_MASK answer them (R151, R152, R171). -/
def State.attentionBytes (s : State) : List Byte := bytes16 s.attentionSet ++ bytes16 s.attention.mask.toNat

/-! ### Command frames (R161 to R163) -/

/-- How a command frame stands. -/
inductive FrameDecision where
  | undecided
  | rejected (status : AnswerStatus)
  | taken (code : CommandCode) (payload : List Byte)
  deriving DecidableEq, Repr

/-- The decision on the bytes received after the type byte, by the first condition that applies (R161). -/
def frameDecision (b : List Byte) : FrameDecision :=
  let len := byteAt b 2
  if 3 ≤ b.length ∧ Config.payloadLimit < len then .rejected .badLength
  else if b.length < 3 ∨ b.length < 4 + len then .undecided
  else if rawAt b (3 + len) ≠ crc8 (b.take (3 + len)) then .rejected .badCrc
  else
    match commandOf (rawAt b 0) with
    | none => .rejected .unknownCommand
    | some code =>
      if len ≠ code.payloadLength then .rejected .badLength
      else .taken code ((b.drop 3).take len)

/-- The sequence number a rejection echoes: the frame's if it was received, else 0 (R162). -/
def frameSequence (b : List Byte) : Byte := rawAt b 1

/-- The exchange in progress becomes x. -/
def State.putExchange (s : State) (x : Exchange) : State := s.putLink { s.link with exchange := x }

/-- A rejected frame is answered by the link itself (R162). -/
def State.rejectFrame (s : State) (status : AnswerStatus) (seq : Byte) : State :=
  let r : Response := { sequence := seq, status := status, collided := false, lineHeld := false, payload := [] }
  s.putLink { s.link with state := .answered r, lastSequence := seq }

/-- The 9 bytes of IDENTIFY (R177). -/
def identifyBytes : List Byte :=
  bytes16 Config.vendorCode.toNat ++ bytes16 Config.partCode.toNat ++
    [Config.siliconRevision, byteOf Config.slotCount, byteOf Config.portCount, byteOf Config.channelCount,
      byteOf Config.profileCount]

/-- Dispatch: the stored response is discarded, the mark cleared, the link EXECUTING, the command with its owner (R163). -/
def State.dispatch (s : State) (code : CommandCode) (payload : List Byte) (seq : Byte) : State :=
  let x : Executing := { code := code, payload := payload, taken := false }
  s.putLink { s.link with state := .executing x, lastSequence := seq, collisionMark := false }

/-- A command frame taken or rejected, or left undecided; IDENTIFY is carried out in the event of its dispatch (R161, R177). -/
def State.decideFrame (s : State) (b : List Byte) : State :=
  match frameDecision b with
  | .undecided => s.putExchange (.undecided b)
  | .rejected status => (s.rejectFrame status (frameSequence b)).putExchange .decided
  | .taken code payload =>
    let s1 := (s.dispatch code payload (frameSequence b)).putExchange .decided
    if code = .identify then s1.answer .done identifyBytes else s1

/-! ### Exchanges (R157, R158, R164, R165, R167) -/

/-- The release of MCS: a command frame that stopped short is answered BAD_LENGTH, and the exchange is over (R161). -/
def State.releaseMcs (s : State) : State :=
  match s.link.exchange with
  | .undecided b => (s.rejectFrame .badLength (frameSequence b)).putExchange .none
  | _ => s.putExchange .none

/-- A collision: the exchange is discarded, the mark set, LINK_COLLISION latched (R164). -/
def State.collide (s : State) : State :=
  (s.putLink { s.link with collisionMark := true, exchange := .ignored }).latchLinkCollision

/-- A command exchange by the link state (R160). -/
def State.commandExchange (s : State) (b : List Byte) : State :=
  match s.link.state with
  | .starting => s.putExchange .ignored
  | .executing _ => s.collide
  | .idle => s.decideFrame b
  | .answered _ => s.decideFrame b

/-- The exchange a type byte opens, once the link is out of STARTING (R157). -/
def State.typedExchange (s : State) (t : Byte) (b : List Byte) : State :=
  if t = 0x01 then s.commandExchange b
  else if t = 0x02 then s.putExchange (.returning s.currentResponse)
  else if t = 0x03 then s.putExchange (.returning s.attentionFrame)
  else s.putExchange .ignored

/-- A new exchange: the one before it has been released, and while STARTING every exchange is ignored (R157; LOG 11). -/
def State.beginExchange (s : State) (t : Byte) (b : List Byte) : State :=
  let s1 := s.releaseMcs
  match s1.link.state with
  | .starting => s1.putExchange .ignored
  | .idle => s1.typedExchange t b
  | .executing _ => s1.typedExchange t b
  | .answered _ => s1.typedExchange t b

/-! ### Owners (R169) -/

/-- The payload of the command of this code that the link has dispatched and whose owner has not yet taken it. -/
def State.handed (s : State) (code : CommandCode) : Option (List Byte) :=
  match s.link.state with
  | .executing x => if x.code = code ∧ x.taken = false then some x.payload else none
  | _ => none

/-- The owner of a command takes it in an event of its own; with no such command dispatched the event does not take place (R169; LOG 3). -/
def State.own (s : State) (code : CommandCode) (f : List Byte → State) : State :=
  match s.handed code with
  | some payload => f payload
  | none => s

/-- The owner has taken the command and waits before it answers (R169). -/
def State.markTaken (s : State) : State :=
  match s.link.state with
  | .executing x => s.putLink { s.link with state := .executing { x with taken := true } }
  | _ => s

/-- A command refused by a field check carries the number of the check (Table 9-5). -/
def State.badField (s : State) (n : Nat) : State := s.answer .badField [byteOf n]

end Sys2Proof.Machine
end

