-- ==== Sys2Proof/Machine/Reset.lean ====
section
/-! DEFINITION. Start-Up Control and the family of board and start-up events: RST, the reinitialisation, the completion, RESET_ALL (chapter 10). -/

namespace Sys2Proof.Machine

/-! ### RST -/

/-- The answer lines fall when all activity stops (LOG 12). -/
def PortUnit.dropAnswer (p : PortUnit) : PortUnit := { p with answer := none }

/-- RST asserted: all activity stops and every block takes its power-on values (R182). -/
def State.assertRst (s : State) : State :=
  { s.powerOnBlocks with
    ports := (restartPorts s.ports).mapAll PortUnit.dropAnswer
    link := Link.starting
    startUp := { state := .reset, straps := Straps.low, levels := s.startUp.levels } }

/-- RST_ASSERTED (R182). -/
def execRstAsserted (s : State) : Result := .next s.assertRst

/-- RST_RELEASED: from RESET the straps are sampled and steps 1 to 4 carried out (R181, R183). -/
def execRstReleased (st : Straps) (s : State) : Result :=
  .next (if s.startUp.state = .reset then (s.strapsAt st).reinitialise .rst else s)

/-! ### Reinitialisation and completion -/

/-- REINITIALISATION under RESET_ALL (R187, R188; LOG 7): the strap lines stand at these levels, and reinitialisation takes place if the wait is over. Where the wait ends inside another event, that event reinitialises under the levels given last. -/
def execReinitialisation (st : Straps) (s : State) : Result := .next (s.strapsAt st).endWait

/-- Step 7 for one port: it leaves IN_RESET unless its PRSTn is asserted (R183). -/
def PortUnit.release (p : PortUnit) : PortUnit := if p.prstn then p else { p with state := stateOfEnable p.enable }

/-- The held straps as RESET_ALL answers them (R188). -/
def strapBytes (st : Straps) : List Byte :=
  [byteOf (bitIf st.booten 0), byteOf (bitIf st.bootw 0), byteOf (bitIf st.bootsz 0)]

/-- The completion event: START_DONE, the link or the answer, the ports, READY (R183, R188). -/
def State.completeStartUp (s : State) (o : Origin) : State :=
  let s1 := (s.latchStartDone.mapPorts PortUnit.release).putStartUp { s.startUp with state := .ready }
  match o with
  | .rst => s1.putLink { s1.link with state := .idle }
  | .resetAll => s1.answer .done (strapBytes s.startUp.straps)

/-- STARTUP_COMPLETION (R183). -/
def execStartupCompletion (s : State) : Result :=
  .next (match s.startUp.state with
    | .running o => s.completeStartUp o
    | _ => s)

/-! ### RESET_ALL -/

/-- One context at the taking of RESET_ALL: HELD, BOUND and DONE ones are freed, a BOUND one lowering its slot's count, and an ON_BUS one is marked (R186). -/
def State.resetAllCtx (s : State) (id : CtxId) : State :=
  match s.ctxAt id with
  | some ⟨_, .bound b _ _⟩ => (s.putCtx id none).lowerCount b.window.slot
  | some ⟨r, .onBus b stamp _⟩ => s.putCtx id (some ⟨r, .onBus b stamp true⟩)
  | some ⟨_, .held⟩ => s.putCtx id none
  | some ⟨_, .done _ _⟩ => s.putCtx id none
  | none => s

/-- A port enters IN_RESET with an empty response queue (R186). -/
def PortUnit.enterReset (p : PortUnit) : PortUnit := { p with state := .inReset, queue := [] }

/-- The event in which Start-Up Control takes RESET_ALL, up to the end of the wait (R186). -/
def State.takeResetAll (s : State) : State :=
  let s1 := (ctxIds.foldl State.resetAllCtx s).mapPorts PortUnit.enterReset
  let s2 := s1.putChangeSet { s1.changeSet with holdList := [] }
  (s2.emptyFaults.putStartUp { s.startUp with state := .waiting }).markTaken

/-- RESET_ALL (R186); with nothing to wait for, reinitialisation follows directly (R187). -/
def execResetAll (s : State) : Result := .next (s.own .resetAll fun _ => s.takeResetAll.endWait)

end Sys2Proof.Machine
end

