-- ==== Sys2Proof/Machine/ChannelEvents.lean ====
section
/-! DEFINITION. The family of timed events of a target channel, and APPLY (chapters 5 to 7). -/

namespace Sys2Proof.Machine

/-- STROBE_ASSERT: at the end of the setup periods CSTBn goes low (R82, R83). -/
def execStrobeAssert (channel : Fin 4) (s : State) : Result :=
  .next (match (s.chanAt channel).state with
    | .beat copy .setup =>
      s.putChan channel { s.chanAt channel with
        state := .beat copy .strobe, lines := { (s.chanAt channel).lines with cstbn := false } }
    | _ => s)

/-- MINIMUM_STROBE_END: under IGNORE the beat ends; under EXTEND CRDY is sample 0 (R83, R84, R86). -/
def execMinimumStrobeEnd (channel : Fin 4) (crdy cerr : Bool) (cd : Word) (s : State) : Result :=
  .next (match (s.chanAt channel).state with
    | .beat copy .strobe =>
      match copy.profile.policy with
      | .ignore => s.beatEnd channel copy (answeredOutcome cerr) cd
      | .extend =>
        if crdy then s.beatEnd channel copy (answeredOutcome cerr) cd
        else s.chanState channel (.beat copy (.extension 0))
    | _ => s)

/-- EXTENSION_PERIOD_END: the sample at the end of the next extension period; at sample tau CRDY low ends the beat by timeout (R84 to R86). -/
def execExtensionPeriodEnd (channel : Fin 4) (crdy cerr : Bool) (cd : Word) (s : State) : Result :=
  .next (match (s.chanAt channel).state with
    | .beat copy (.extension n) =>
      if crdy then s.beatEnd channel copy (answeredOutcome cerr) cd
      else if copy.profile.timeout ≤ n + 1 then s.beatEnd channel copy .timeout cd
      else s.chanState channel (.beat copy (.extension (n + 1)))
    | _ => s)

/-- BEAT_TIMEOUT: sample tau, CRDY low there and at every sample before it; at an earlier sample there is no such event (R85; LOG 3, LOG 8). Nothing is captured, so CD plays no part. -/
def execBeatTimeout (channel : Fin 4) (s : State) : Result :=
  .next (match (s.chanAt channel).state with
    | .beat copy (.extension n) => if copy.profile.timeout ≤ n + 1 then s.beatEnd channel copy .timeout 0 else s
    | _ => s)

/-- RECOVERY_END: the last recovery period ends (R89). -/
def execRecoveryEnd (channel : Fin 4) (s : State) : Result :=
  .next (match (s.chanAt channel).state with
    | .recovery _ => s.recoveryEnds channel
    | _ => s)

/-- APPLY: the check of R127, which applies a COMMITTING set with no blocking context left (R130; LOG 6). -/
def execApplySet (s : State) : Result := .next s.drainCheck

end Sys2Proof.Machine
end

