-- ==== Sys2Proof/Machine/Exchanges.lean ====
section
/-! DEFINITION. The family of exchanges on the management link, and IDENTIFY (chapter 9). -/

namespace Sys2Proof.Machine

/-- COMMAND_FRAME: a command exchange with the bytes received after its type byte (R161). -/
def execCommandFrame (bytes : List Byte) (s : State) : Result := .next (s.beginExchange 0x01 bytes)

/-- MCS_RELEASE: the exchange in progress ends (R161). -/
def execMcsRelease (s : State) : Result := .next s.releaseMcs

/-- COLLISION: a command exchange whose type byte is received while the link is EXECUTING (R164). -/
def execCollision (s : State) : Result :=
  .next (match s.link.state with
    | .executing _ => s.beginExchange 0x01 []
    | _ => s)

/-- RESPONSE_EXCHANGE (R165). -/
def execResponseExchange (s : State) : Result := .next (s.beginExchange 0x02 [])

/-- ATTENTION_EXCHANGE (R154, R167). -/
def execAttentionExchange (s : State) : Result := .next (s.beginExchange 0x03 [])

/-- UNKNOWN_TYPE_EXCHANGE: the type byte decides what the exchange is (R157). -/
def execUnknownTypeExchange (typeByte : Byte) (s : State) : Result := .next (s.beginExchange typeByte [])

/-- IDENTIFY, taken by the Management Link Unit (R177; LOG 10). -/
def execIdentify (s : State) : Result := .next (s.own .identify fun _ => s.answer .done identifyBytes)

end Sys2Proof.Machine
end

