-- ==== Sys2Proof/Machine/PortEvents.lean ====
section
/-! DEFINITION. The family of events at the requester ports: requests, responses, and the line PRSTn (chapter 3). -/

namespace Sys2Proof.Machine

/-- REQUEST_PRESENTED: a presentation begins when neither PKR nor PKW was asserted before; later levels belong to it and are not answered again (R44, R45). -/
def execRequestPresented (port : Fin 4) (pkr pkw : Bool) (pa : Word) (psz : BitVec 3) (ptag : Fin 4) (pwd : Word)
    (s : State) : Result :=
  .next (match kindOfLines pkr pkw with
    | none => s
    | some kind =>
      if (s.portAt port).presenting then s
      else s.present ⟨port, ptag⟩
        { kind := kind, size := psz.toNat, address := pa, data := dataOfLines kind psz.toNat pwd })

/-- REQUEST_REMOVED: PKR and PKW are both sampled deasserted, and the next presentation may begin (R44). -/
def execRequestRemoved (port : Fin 4) (s : State) : Result :=
  .next (s.putPort port { s.portAt port with presenting := false, answer := none })

/-- RESPONSE_TAKEN: an assertion of PRTK takes the offered response, or nothing while PRV is deasserted; PRTK held high takes nothing more (R53). -/
def execResponseTaken (port : Fin 4) (s : State) : Result :=
  .next (if (s.portAt port).prtk then s
    else (s.putPort port { s.portAt port with prtk := true }).takeHead port)

/-- PRTK_SAMPLED_LOW: the next take may begin (R53). -/
def execPrtkSampledLow (port : Fin 4) (s : State) : Result :=
  .next (s.putPort port { s.portAt port with prtk := false })

/-- A RESET_PORT that waits for this port is answered DONE with LINE_HELD (R57). -/
def State.answerLineHeld (s : State) (p : Fin 4) : State :=
  if s.awaitsReset p then s.answer .done [] true else s

/-- PRSTN_ASSERTED: a port reset starts unless the port is IN_RESET already; a waiting RESET_PORT is answered with LINE_HELD (R54, R56, R57). -/
def execPrstnAsserted (port : Fin 4) (s : State) : Result :=
  let s1 := s.putPort port { s.portAt port with prstn := true }
  let s2 := if (s.portAt port).state = .inReset then s1 else s1.startPortReset port
  .next (s2.answerLineHeld port)

/-- PRSTN_DEASSERTED: a port without contexts leaves IN_RESET (R56). -/
def execPrstnDeasserted (port : Fin 4) (s : State) : Result :=
  .next ((s.putPort port { s.portAt port with prstn := false }).portCheck port)

/-- PORT_LEAVES_IN_RESET: the check of R56 at the port (LOG 6). -/
def execPortLeavesInReset (port : Fin 4) (s : State) : Result := .next (s.portCheck port)

end Sys2Proof.Machine
end

