-- ==== Sys2Proof/Machine/SetCommands.lean ====
section
/-! DEFINITION. The family of change set commands: staging, COMMIT, DISCARD, QUERY_SET (chapter 7). -/

namespace Sys2Proof.Machine

/-! ### Staging (R117 to R119) -/

/-- The status and payload of a refusal. -/
abbrev Refused := AnswerStatus × List Byte

/-- Check 3: a window field of an INSTALL or AMEND fails a field check (R118). -/
def fieldRefusal (fields : Option RawWindow) : Option Refused :=
  match fields with
  | none => none
  | some r => (fieldCheck r).map fun n => (.badField, [byteOf n])

/-- Check 4: an entry already names the slot (R118). -/
def State.duplicateRefusal (s : State) (i : Fin 64) : Option Refused :=
  (entryNaming s.changeSet.entries i).map fun x => (.duplicateSlot, [byteOf x.1])

/-- Check 5: the set is full (R118). -/
def State.fullRefusal (s : State) : Option Refused :=
  if Config.setCapacity ≤ s.changeSet.entries.length then some (.setFull, [byteOf Config.setCapacity]) else none

/-- Check 6: the slot is not in the state the entry needs, FREE for an INSTALL and LIVE for the others (R118). -/
def State.stateRefusal (s : State) (i : Fin 64) (needs : SlotState) : Option Refused :=
  if (s.slotAt i).state = needs then none else some (.badState, [byteOf (s.slotAt i).state.code])

/-- Check 7: an expected generation is present and differs from the slot's (R118). -/
def State.staleRefusal (s : State) (i : Fin 64) (expected : Option Byte) : Option Refused :=
  match expected with
  | none => none
  | some g => if g = (s.slotAt i).generation then none else some (.stale, [(s.slotAt i).generation])

/-- The staging checks in order (Table 7-3). -/
def State.stagingRefusal (s : State) (slot : Nat) (fields : Option RawWindow) (needs : SlotState)
    (expected : Option Byte) : Option Refused :=
  if s.changeSet.state = .committing then some (.commitBusy, [])
  else if 63 < slot then some (.badSlot, [])
  else
    let i := Fin.ofNat 64 slot
    (fieldRefusal fields).or ((s.duplicateRefusal i).or (s.fullRefusal.or
      ((s.stateRefusal i needs).or (s.staleRefusal i expected))))

/-- An entry joins the tail of the set, which is then OPEN, and the answer carries the entry count (R119). -/
def State.appendEntry (s : State) (e : Entry) : State :=
  (s.putChangeSet { s.changeSet with state := .opened, entries := s.changeSet.entries ++ [e] }).answer .done
    [byteOf (s.changeSet.entries.length + 1)]

/-- A staging command: refused with its first failing check, or its entry appended (R118, R119). -/
def State.stage (s : State) (refusal : Option Refused) (e : Entry) : State :=
  match refusal with
  | some (st, payload) => s.answer st payload
  | none => s.appendEntry e

/-- The expected generation of a request: present when options bit 2 is set (R172). -/
def expectedOf (options generation : Byte) : Option Byte := if options.getLsbD 2 then some generation else none

/-- The slot a request names, as a number of a slot. -/
def slotOf (p : List Byte) : Fin 64 := Fin.ofNat 64 (byteAt p 0)

/-- STAGE_INSTALL (R117, R118, R172). -/
def execStageInstall (s : State) : Result :=
  .next (s.own .stageInstall fun p =>
    s.stage (s.stagingRefusal (byteAt p 0) (some (rawWindowOf p)) .free none)
      (.install (slotOf p) (rawWindowOf p).window))

/-- STAGE_AMEND (R117, R118, R172). -/
def execStageAmend (s : State) : Result :=
  .next (s.own .stageAmend fun p =>
    s.stage (s.stagingRefusal (byteAt p 0) (some (rawWindowOf p)) .live (expectedOf (rawAt p 1) (rawAt p 20)))
      (.amend (slotOf p) (rawWindowOf p).window (expectedOf (rawAt p 1) (rawAt p 20))))

/-- STAGE_RETIRE (R117, R118, R172). -/
def execStageRetire (s : State) : Result :=
  .next (s.own .stageRetire fun p =>
    s.stage (s.stagingRefusal (byteAt p 0) none .live (expectedOf (rawAt p 1) (rawAt p 2)))
      (.retire (slotOf p) (expectedOf (rawAt p 1) (rawAt p 2))))

/-! ### COMMIT and DISCARD (R122 to R124, R133) -/

/-- The payload of OVERLAP: two slots with their entry indexes, -1 as FFh (R123, Table 9-5). -/
def Conflict.bytes (c : Conflict) : List Byte :=
  [byteOf c.first.1, byteOf c.firstIndex, byteOf c.second.1, match c.secondIndex with | some n => byteOf n | none => 0xFF]

/-- COMMIT of an OPEN set with entries: refused with its first conflict, or accepted, the drain check made and the answer stored (R123, R124). -/
def State.commitOpen (s : State) : State :=
  match s.firstConflict s.changeSet.entries with
  | some c => s.answer .overlap c.bytes
  | none =>
    let s1 := s.accept
    s1.drainCheck.answer .accepted [byteOf s1.changeSet.footprint.length, byteOf s1.blockingCount]

/-- COMMIT (R122). -/
def execCommit (s : State) : Result :=
  .next (s.own .commit fun _ =>
    match s.changeSet.state with
    | .closed => s.answer .noSet []
    | .opened => if s.changeSet.entries = [] then s.answer .noSet [] else s.commitOpen
    | .committing => s.answer .commitBusy [])

/-- DISCARD (R133). -/
def execDiscard (s : State) : Result :=
  .next (s.own .discard fun _ =>
    match s.changeSet.state with
    | .closed => s.answer .noSet []
    | .opened => s.closeSet.answer .done []
    | .committing => s.discardCommitting.answer .done [])

/-! ### QUERY_SET (R121, Table 9-13) -/

/-- The kind code of an entry (Table 9-13). -/
def Entry.code : Entry → Nat
  | .install _ _ => 0
  | .amend _ _ _ => 1
  | .retire _ _ => 2

/-- The expected generation an entry carries. -/
def Entry.expected : Entry → Option Byte
  | .install _ _ => none
  | .amend _ _ g => g
  | .retire _ g => g

/-- The options byte of an entry (Table 9-13; LOG 14). -/
def Entry.options (e : Entry) : Nat :=
  bitIf ((e.window.map fun w => w.label.isSome).getD false) 0 + bitIf ((e.window.map (·.swapAllowed)).getD false) 1 +
    bitIf e.expected.isSome 2

/-- The 22 bytes of an entry (Table 9-13). -/
def Entry.bytes (e : Entry) : List Byte :=
  [byteOf e.code, byteOf e.slot.1, byteOf e.options, e.expected.getD 0xFF] ++
    match e.window with
    | some w => windowBytes w
    | none => absent 18

/-- A footprint range: its base with its size exponent in bits 4 to 0 of the lowest byte (R176). -/
def Range.bytes (r : Range) : List Byte := bytes32 (r.base ||| BitVec.ofNat 32 r.sizeExp)

/-- The answer of QUERY_SET (Table 9-13). -/
def State.querySetBytes (s : State) : List Byte :=
  let cs := s.changeSet
  let counts := match cs.state with
    | .committing => [byteOf cs.footprint.length, byteOf s.blockingCount, byteOf cs.holdList.length]
    | .closed => [0, 0xFF, 0xFF]
    | .opened => [0, 0xFF, 0xFF]
  let ranges := match cs.state with
    | .committing => cs.footprint.flatMap Range.bytes
    | .closed => []
    | .opened => []
  [byteOf cs.state.code, byteOf cs.entries.length] ++ counts ++ cs.entries.flatMap Entry.bytes ++ ranges

/-- QUERY_SET (R121). -/
def execQuerySet (s : State) : Result := .next (s.own .querySet fun _ => s.answer .done s.querySetBytes)

end Sys2Proof.Machine
end

