-- ==== Sys2Proof/Machine/UnitCommands.lean ====
section
/-! DEFINITION. The families of commands of the Window Table, the Resolver, the Port Units, the Profile Table, the Channel Units and the Fault Unit. -/

namespace Sys2Proof.Machine

/-! ### Window Table (R20, R173) -/

/-- The QUERY_WINDOW answer of a slot: three bytes for a FREE slot, else the window and the count (Tables 1-8 and 9-8). -/
def State.queryWindowBytes (s : State) (i : Fin 64) : List Byte :=
  let x := s.slotAt i
  let head := [byteOf i.1, byteOf x.state.code, x.generation]
  let full := head ++ [byteOf (bitIf x.window.label.isSome 0 + bitIf x.window.swapAllowed 1)] ++ windowBytes x.window ++
    [byteOf x.inFlight]
  match x.state with
  | .free => head
  | .live => full
  | .frozen => full

/-- QUERY_WINDOW (R20). -/
def execQueryWindow (s : State) : Result :=
  .next (s.own .queryWindow fun p =>
    if 63 < byteAt p 0 then s.answer .badSlot []
    else s.answer .done (s.queryWindowBytes (Fin.ofNat 64 (byteAt p 0))))

/-! ### Resolver (R38 to R40, R175) -/

/-- Options, slot, generation and label of a window named by an outcome (Table 9-10). -/
def WindowRef.bytes (w : WindowRef) : List Byte :=
  [byteOf (bitIf w.label.isSome 0), byteOf w.slot.1, w.generation] ++ labelBytes w.label

/-- One beat of a plan in the FIND_ADDRESS answer (Table 9-10). -/
def Beat.bytes (b : Beat) : List Byte :=
  [byteOf (b.lanes.toNat + match b.phase with | .read => 0 | .write => 16)] ++ bytesTarget b.unit

/-- The FIND_ADDRESS answer of an outcome (R39, Table 9-10). -/
def Verdict.bytes : Verdict → List Byte
  | .held => [7]
  | .noWindow => [1]
  | .span w => [2] ++ w.bytes
  | .denied w => [3] ++ w.bytes
  | .channelOffline w c => [4] ++ w.bytes ++ [byteOf c.1]
  | .bound b =>
    [0] ++ b.window.bytes ++ [byteOf b.channel.1] ++ bytesTarget b.target ++ [byteOf b.plan.length] ++
      b.plan.flatMap Beat.bytes

/-- FIND_ADDRESS (R38): the checks of port, kind and size, then the resolution the access would meet. -/
def execFindAddress (s : State) : Result :=
  .next (s.own .findAddress fun p =>
    if 3 < byteAt p 0 then s.badField 1
    else
      match accessKindOf (byteAt p 1) with
      | none => s.badField 2
      | some kind =>
        if sizeOk (byteAt p 2) then
          s.answer .done (s.resolve (Fin.ofNat 4 (byteAt p 0))
            { kind := kind, size := byteAt p 2, address := wordAt p 3, data := [] }).bytes
        else s.badField 3)

/-! ### Port Units (R57 to R59) -/

/-- SET_PORT (R58). -/
def execSetPort (s : State) : Result :=
  .next (s.own .setPort fun p =>
    if 3 < byteAt p 0 then s.badField 1
    else
      match enableOf (byteAt p 1), classOf (byteAt p 2) with
      | none, _ => s.badField 2
      | some _, none => s.badField 3
      | some enable, some cls =>
        let port := Fin.ofNat 4 (byteAt p 0)
        if (s.portAt port).state = .inReset then s.answer .badState []
        else (s.putPort port { s.portAt port with
          enable := enable, cls := cls, state := stateOfEnable enable }).answer .done [])

/-- RESET_PORT at a port: the reset starts unless the port is IN_RESET; with PRSTn asserted the answer is DONE with LINE_HELD, else it is stored when the port leaves IN_RESET, at once if no context is left (R57). -/
def State.resetPort (s : State) (port : Fin 4) : State :=
  let s1 := if (s.portAt port).state = .inReset then s else s.startPortReset port
  if (s.portAt port).prstn then s1.answer .done [] true
  else s1.markTaken.portCheck port

/-- RESET_PORT (R57). -/
def execResetPort (s : State) : Result :=
  .next (s.own .resetPort fun p =>
    if 3 < byteAt p 0 then s.badField 1 else s.resetPort (Fin.ofNat 4 (byteAt p 0)))

/-- The window a context records: BOUND, ON_BUS, DONE after binding, DONE with SPAN or DENIED (R59). -/
def Context.windowRef (c : Context) : Option WindowRef :=
  match c.state with
  | .held => none
  | .bound b _ _ => some b.window
  | .onBus b _ _ => some b.window
  | .done _ .unbound => none
  | .done _ (.window w) => some w
  | .done _ (.bound b) => some b.window

/-- The binding a context records, kept after DONE for reporting (R49). -/
def Context.binding (c : Context) : Option Binding :=
  match c.state with
  | .held => none
  | .bound b _ _ => some b
  | .onBus b _ _ => some b
  | .done _ .unbound => none
  | .done _ (.window _) => none
  | .done _ (.bound b) => some b

/-- The context is HELD. -/
def Context.isHeld (c : Context) : Bool :=
  match c.state with
  | .held => true
  | _ => false

/-- The context bears the abandon mark. -/
def Context.isMarked (c : Context) : Bool :=
  match c.state with
  | .onBus _ _ ab => ab
  | _ => false

/-- The status of a DONE context. -/
def Context.status (c : Context) : Option Status :=
  match c.state with
  | .done st _ => some st
  | _ => none

/-- An item of an entry, or FFh (R176). -/
def itemOr (x : Option Nat) : Byte :=
  match x with
  | some n => byteOf n
  | none => 0xFF

/-- The 17 bytes of one tag's entry (Table 9-11; LOG 13). -/
def State.queryPortEntry (s : State) (id : CtxId) : List Byte :=
  match s.ctxAt id with
  | none => [byteOf id.tag.1, 0] ++ absent 15
  | some c =>
    [byteOf id.tag.1,
      byteOf (1 + bitIf c.isHeld 1 + bitIf c.windowRef.isSome 2 + bitIf c.binding.isSome 3 + bitIf c.isMarked 4 +
        bitIf c.status.isSome 5),
      byteOf c.request.kind.code, byteOf c.request.size] ++ bytes32 c.request.address ++
    [byteOf c.state.code,
      itemOr (if c.isHeld then some (s.changeSet.holdList.idxOf id) else none),
      itemOr (c.windowRef.map fun w => w.slot.1),
      itemOr (c.windowRef.map fun w => w.generation.toNat),
      itemOr (c.binding.map fun b => b.channel.1),
      itemOr (c.binding.map fun b => b.completed),
      itemOr (c.binding.map fun b => b.plan.length),
      itemOr (c.status.map Status.code),
      itemOr (c.status.map fun _ => (s.portAt id.port).queue.idxOf id.tag)]

/-- The QUERY_PORT answer (Table 9-11). -/
def State.queryPortBytes (s : State) (p : Fin 4) : List Byte :=
  let u := s.portAt p
  [byteOf u.state.code, byteOf (bitIf u.enable 0), byteOf u.cls.code, byteOf (bitIf u.prstn 0), byteOf u.queue.length] ++
    (portIds p).flatMap s.queryPortEntry

/-- QUERY_PORT (R59). -/
def execQueryPort (s : State) : Result :=
  .next (s.own .queryPort fun p =>
    if 3 < byteAt p 0 then s.badField 1
    else s.answer .done (s.queryPortBytes (Fin.ofNat 4 (byteAt p 0))))

/-! ### Profile Table (R78, R79) -/

/-- The first check of SET_PROFILE that fails (R78). -/
def profileCheck (index setup strobe policy timeout recovery : Nat) : Option Nat :=
  if 7 < index then some 1
  else if 7 < setup then some 2
  else if strobe = 0 ∨ 31 < strobe then some 3
  else if (policyOf policy).isNone then some 4
  else if timeout < 16 ∨ 4095 < timeout then some 5
  else if 7 < recovery then some 6
  else none

/-- SET_PROFILE (R78). -/
def execSetProfile (s : State) : Result :=
  .next (s.own .setProfile fun p =>
    match profileCheck (byteAt p 0) (byteAt p 1) (byteAt p 2) (byteAt p 3) (halfAt p 4) (byteAt p 6) with
    | some n => s.badField n
    | none =>
      (s.putProfile (Fin.ofNat 8 (byteAt p 0))
        { setup := byteAt p 1, strobe := byteAt p 2, policy := (policyOf (byteAt p 3)).getD .extend,
          timeout := halfAt p 4, recovery := byteAt p 6 }).answer .done [])

/-- The five fields of a profile in the order of Table 5-1 (R79, R171; LOG 19). -/
def Profile.bytes (x : Profile) : List Byte :=
  [byteOf x.setup, byteOf x.strobe, byteOf x.policy.code] ++ bytes16 x.timeout ++ [byteOf x.recovery]

/-- QUERY_PROFILE (R79). -/
def execQueryProfile (s : State) : Result :=
  .next (s.own .queryProfile fun p =>
    if 7 < byteAt p 0 then s.badField 1
    else s.answer .done (s.profileAt (Fin.ofNat 8 (byteAt p 0))).bytes)

/-! ### Channel Units (R95, R109, R110) -/

/-- SET_CHANNEL (R95). -/
def execSetChannel (s : State) : Result :=
  .next (s.own .setChannel fun p =>
    if 3 < byteAt p 0 then s.badField 1
    else if byteAt p 1 = 0 ∨ 16 < byteAt p 1 then s.badField 2
    else
      let c := Fin.ofNat 4 (byteAt p 0)
      (s.putChan c { s.chanAt c with divisor := byteAt p 1 }).answer .done [])

/-- RESTORE_CHANNEL (R109). -/
def execRestoreChannel (s : State) : Result :=
  .next (s.own .restoreChannel fun p =>
    if 3 < byteAt p 0 then s.badField 1
    else
      let c := Fin.ofNat 4 (byteAt p 0)
      match (s.chanAt c).state with
      | .offline => (s.putChan c { s.chanAt c with state := .idle, timeouts := 0 }).answer .done []
      | _ => s.answer .badState [])

/-- The context on the bus as QUERY_CHANNEL reports it: options, port, tag, beats completed, plan length (Table 9-12). -/
def State.onBusBytes (s : State) (c : Fin 4) : List Byte :=
  match (s.chanAt c).onBus with
  | none => [0] ++ absent 4
  | some id =>
    match s.ctxAt id with
    | none => [1, byteOf id.port.1, byteOf id.tag.1] ++ absent 2
    | some x =>
      [byteOf (1 + bitIf x.isMarked 1), byteOf id.port.1, byteOf id.tag.1, itemOr (x.binding.map fun b => b.completed),
        itemOr (x.binding.map fun b => b.plan.length)]

/-- The QUERY_CHANNEL answer (Table 9-12). -/
def State.queryChannelBytes (s : State) (c : Fin 4) : List Byte :=
  let x := s.chanAt c
  [byteOf x.state.code, byteOf x.divisor, byteOf x.timeouts, byteOf x.urgentPtr.1, byteOf x.normalPtr.1] ++
    s.onBusBytes c ++ [byteOf (s.waiting c).length]

/-- QUERY_CHANNEL (R110). -/
def execQueryChannel (s : State) : Result :=
  .next (s.own .queryChannel fun p =>
    if 3 < byteAt p 0 then s.badField 1
    else s.answer .done (s.queryChannelBytes (Fin.ofNat 4 (byteAt p 0))))

/-! ### Fault Unit (R145, R146, R151, R152) -/

/-- The window part of a READ_FAULT answer: slot, generation, label (Table 9-9). -/
def windowPartBytes : Option WindowRef → List Byte
  | some w => [byteOf w.slot.1, w.generation] ++ labelBytes w.label
  | none => absent 6

/-- The target part of a READ_FAULT answer: channel, byte address, beat index (Table 9-9). -/
def targetPartBytes : Option TargetPart → List Byte
  | some t => [byteOf t.channel.1] ++ bytesTarget t.byteAddress ++ [byteOf t.beatIndex]
  | none => absent 6

/-- The 22 bytes of a full record (Table 9-9). -/
def FaultRecord.bytes (r : FaultRecord) : List Byte :=
  [byteOf r.kind.code, byteOf r.tag.1, byteOf r.access.code, byteOf r.size] ++ bytes32 r.address ++
    [byteOf (bitIf r.window.isSome 0 + bitIf ((r.window.map fun w => w.label.isSome).getD false) 1 +
      bitIf r.target.isSome 2)] ++
    windowPartBytes r.window ++ targetPartBytes r.target ++ [byteOf r.further]

/-- READ_FAULT (R145). -/
def execReadFault (s : State) : Result :=
  .next (s.own .readFault fun p =>
    if 3 < byteAt p 0 then s.badField 1
    else
      match s.faultAt (Fin.ofNat 4 (byteAt p 0)) with
      | none => s.answer .empty []
      | some r => s.answer .done r.bytes)

/-- CLEAR_FAULT (R146). -/
def execClearFault (s : State) : Result :=
  .next (s.own .clearFault fun p =>
    if 3 < byteAt p 0 then s.badField 1
    else
      match s.faultAt (Fin.ofNat 4 (byteAt p 0)) with
      | none => s.answer .done []
      | some r =>
        if byteAt p 1 = r.further then (s.putFault (Fin.ofNat 4 (byteAt p 0)) none).answer .done []
        else s.answer .stale [byteOf r.further])

/-- ACK_ATTENTION (R151). -/
def execAckAttention (s : State) : Result :=
  .next (s.own .ackAttention fun p =>
    if 2 ^ 11 ≤ halfAt p 0 then s.badField 1
    else if halfAt p 0 % 2 ^ 8 ≠ 0 then s.badField 2
    else
      let s1 := s.clearLatched (halfAt p 0)
      s1.answer .done s1.attentionBytes)

/-- SET_ATTENTION_MASK (R152). -/
def execSetAttentionMask (s : State) : Result :=
  .next (s.own .setAttentionMask fun p =>
    if 2 ^ 11 ≤ halfAt p 0 then s.badField 1
    else
      let s1 := s.putAttention { s.attention with mask := BitVec.ofNat 11 (halfAt p 0) }
      s1.answer .done s1.attentionBytes)

end Sys2Proof.Machine
end

