-- ==== Sys2Proof/Machine/Dispatch.lean ====
section
/-! DEFINITION. One arm per command: the direct call of its meaning. -/

namespace Sys2Proof.Machine

def exec (i : Instr) (s : State) : Host.Outcome State Fault Refusal :=
  match i with
  | .rstAsserted => Sys2Proof.Machine.execRstAsserted s
  | .rstReleased straps => Sys2Proof.Machine.execRstReleased straps s
  | .reinitialisation straps => Sys2Proof.Machine.execReinitialisation straps s
  | .startupCompletion => Sys2Proof.Machine.execStartupCompletion s
  | .requestPresented port pkr pkw pa psz ptag pwd => Sys2Proof.Machine.execRequestPresented port pkr pkw pa psz ptag pwd s
  | .responseTaken port => Sys2Proof.Machine.execResponseTaken port s
  | .prstnAsserted port => Sys2Proof.Machine.execPrstnAsserted port s
  | .prstnDeasserted port => Sys2Proof.Machine.execPrstnDeasserted port s
  | .portLeavesInReset port => Sys2Proof.Machine.execPortLeavesInReset port s
  | .strobeAssert channel => Sys2Proof.Machine.execStrobeAssert channel s
  | .minimumStrobeEnd channel crdy cerr cd => Sys2Proof.Machine.execMinimumStrobeEnd channel crdy cerr cd s
  | .extensionPeriodEnd channel crdy cerr cd => Sys2Proof.Machine.execExtensionPeriodEnd channel crdy cerr cd s
  | .beatTimeout channel => Sys2Proof.Machine.execBeatTimeout channel s
  | .recoveryEnd channel => Sys2Proof.Machine.execRecoveryEnd channel s
  | .applySet => Sys2Proof.Machine.execApplySet s
  | .commandFrame bytes => Sys2Proof.Machine.execCommandFrame bytes s
  | .mcsRelease => Sys2Proof.Machine.execMcsRelease s
  | .collision => Sys2Proof.Machine.execCollision s
  | .responseExchange => Sys2Proof.Machine.execResponseExchange s
  | .attentionExchange => Sys2Proof.Machine.execAttentionExchange s
  | .unknownTypeExchange typeByte => Sys2Proof.Machine.execUnknownTypeExchange typeByte s
  | .identify => Sys2Proof.Machine.execIdentify s
  | .resetAll => Sys2Proof.Machine.execResetAll s
  | .stageInstall => Sys2Proof.Machine.execStageInstall s
  | .stageAmend => Sys2Proof.Machine.execStageAmend s
  | .stageRetire => Sys2Proof.Machine.execStageRetire s
  | .commit => Sys2Proof.Machine.execCommit s
  | .discard => Sys2Proof.Machine.execDiscard s
  | .querySet => Sys2Proof.Machine.execQuerySet s
  | .queryWindow => Sys2Proof.Machine.execQueryWindow s
  | .findAddress => Sys2Proof.Machine.execFindAddress s
  | .setPort => Sys2Proof.Machine.execSetPort s
  | .resetPort => Sys2Proof.Machine.execResetPort s
  | .queryPort => Sys2Proof.Machine.execQueryPort s
  | .setProfile => Sys2Proof.Machine.execSetProfile s
  | .queryProfile => Sys2Proof.Machine.execQueryProfile s
  | .setChannel => Sys2Proof.Machine.execSetChannel s
  | .restoreChannel => Sys2Proof.Machine.execRestoreChannel s
  | .queryChannel => Sys2Proof.Machine.execQueryChannel s
  | .readFault => Sys2Proof.Machine.execReadFault s
  | .clearFault => Sys2Proof.Machine.execClearFault s
  | .ackAttention => Sys2Proof.Machine.execAckAttention s
  | .setAttentionMask => Sys2Proof.Machine.execSetAttentionMask s
  | .requestRemoved port => Sys2Proof.Machine.execRequestRemoved port s
  | .prtkSampledLow port => Sys2Proof.Machine.execPrtkSampledLow port s

end Sys2Proof.Machine
end

