-- ==== Sys2Proof/Safety.lean ====
section
/-! DEFINITION. The words the statements are written in: power-on values, commands handed over and answered, selection and outcomes of a resolution in the spec's own terms, beat ends, and the laws the spec says hold at all times. -/

namespace Sys2Proof

open Machine

/-- A command is carried out: it answers a next state. -/
def Completes (c : Instr) (s : State) : Prop := ∃ t, exec c s = .next t

/-! ### Power-on values -/

/-- A slot at the values of R22. -/
def freshSlot : Slot :=
  { state := .free
    window := { base := 0, sizeExp := 10, rank := 0, channel := 0, targetBase := 0, width := .w1, profile := 0,
                rights := #v[.none, .none, .none, .none], swapAllowed := false, label := none }
    generation := 0
    inFlight := 0 }

/-- Slot 0 with the boot window of Table 10-1 for the held straps BOOTW and BOOTSZ. -/
def bootSlot (bootw bootsz : Bool) : Slot :=
  { state := .live
    window := { base := if bootsz then 0xFFF00000 else 0xFFFF0000, sizeExp := if bootsz then 20 else 16, rank := 0,
                channel := 0, targetBase := 0, width := if bootw then .w2 else .w1, profile := 7,
                rights := #v[.read, .none, .none, .none], swapAllowed := false, label := none }
    generation := 1
    inFlight := 0 }

/-- A profile at the values of R77. -/
def freshProfile : Profile := { setup := 3, strobe := 31, policy := .extend, timeout := 4095, recovery := 3 }

/-- A channel at the values of R111, its lines quiet with CA 0000000h and CWR low (R91). -/
def freshChannel : Channel :=
  { state := .idle, divisor := 4, timeouts := 0, urgentPtr := 3, normalPtr := 3, onBus := none,
    lines := { ca := 0, cle := 0, cwr := false, cstbn := true, cd := none } }

/-- Every slot at its power-on values (R22). -/
def SlotsFresh (s : State) : Prop := ∀ i, s.slotAt i = freshSlot

/-- The slots after step 4 of start-up: slot 0 holds the boot window if BOOTEN is held high, every other slot is as R22 gives (R183, R184). -/
def SlotsBooted (st : Straps) (s : State) : Prop :=
  s.slotAt 0 = (if st.booten then bootSlot st.bootw st.bootsz else freshSlot) ∧ ∀ i, i ≠ 0 → s.slotAt i = freshSlot

/-- The blocks that step 3 of start-up names at their power-on values: profiles, channels, change set, fault records, attention set and mask, port enables and classes; every port IN_RESET with an empty queue (R183). -/
structure BlocksFresh (s : State) : Prop where
  profiles : ∀ i, s.profileAt i = freshProfile
  channels : ∀ c, s.chanAt c = freshChannel
  set : s.changeSet = { state := .closed, entries := [], footprint := [], holdList := [] }
  faults : ∀ p, s.faultAt p = none
  attention : s.attention = { startDone := false, commitApplied := false, linkCollision := false, mask := 0x7FF }
  atn : s.atn = false
  portState : ∀ p, (s.portAt p).state = .inReset
  portEnable : ∀ p, (s.portAt p).enable = decide (p = 0)
  portClass : ∀ p, (s.portAt p).cls = .normal
  portQueue : ∀ p, (s.portAt p).queue = []

/-! ### Commands of the link -/

/-- The link has dispatched this command with this payload, and its owner has not yet taken it (R163, R169). -/
def Dispatched (code : CommandCode) (payload : List Byte) (s : State) : Prop :=
  s.link.state = .executing { code := code, payload := payload, taken := false }

/-- The state in which this answer is stored with the sequence number of the command and the collision mark as its COLLIDED flag, and nothing else has changed (R163). -/
def answeredWith (s : State) (st : AnswerStatus) (payload : List Byte) (lineHeld : Bool) : State :=
  let r : Response :=
    { sequence := s.link.lastSequence, status := st, collided := s.link.collisionMark, lineHeld := lineHeld,
      payload := payload }
  { s with link := { s.link with state := .answered r } }

/-- A RESET_PORT naming this port has been taken and waits for its answer (R57). -/
def ResetWaits (s : State) (p : Fin 4) (payload : List Byte) : Prop :=
  s.link.state = .executing { code := .resetPort, payload := payload, taken := true } ∧ byteAt payload 0 = p.1

/-- No RESET_PORT naming this port waits for its answer; another command may be under way (R57). -/
def NoResetWaitsFor (s : State) (p : Fin 4) : Prop := ∀ payload, ¬ ResetWaits s p payload

/-- What a rejected command frame leaves in the link (R162). -/
def rejectedWith (l : Link) (status : AnswerStatus) (seq : Byte) : Link :=
  let r : Response := { sequence := seq, status := status, collided := false, lineHeld := false, payload := [] }
  { l with state := .answered r, lastSequence := seq }

/-- The link with another exchange in progress. -/
def withExchange (l : Link) (x : Exchange) : Link := { l with exchange := x }

/-- The bytes a response exchange returns after its type byte (Table 9-3): marker, sequence number, status, flags, length, payload, CRC. -/
def returnedFrame (seq : Byte) (st : AnswerStatus) (collided lineHeld : Bool) (payload : List Byte) : List Byte :=
  let flags : Byte := (if collided then 1 else 0) + (if lineHeld then 2 else 0)
  let covered := [seq, st.code, flags, byteOf payload.length] ++ payload
  0x02 :: (covered ++ [crc8 covered])

/-- The link is IDLE or ANSWERED, and so takes command frames (R161). -/
def TakesFrames (s : State) : Prop := s.link.state = .idle ∨ ∃ r, s.link.state = .answered r

/-! ### Ranges, selection and outcomes (R2, R27 to R33) -/

/-- An address lies in the naturally aligned block of 2^e bytes at base (R2). -/
def InRange (base : Word) (e : Nat) (x : Nat) : Prop := x / 2 ^ e = base.toNat / 2 ^ e

/-- A LIVE window contains the address. -/
def LiveAt (s : State) (i : Fin 64) (x : Nat) : Prop :=
  (s.slotAt i).state = .live ∧ InRange (s.slotAt i).window.base (s.slotAt i).window.sizeExp x

/-- Slot i holds the LIVE window of highest rank that contains the address (R29). -/
def Selects (s : State) (x : Nat) (i : Fin 64) : Prop :=
  LiveAt s i x ∧ ∀ j, j ≠ i → LiveAt s j x → (s.slotAt j).window.rank < (s.slotAt i).window.rank

/-- No LIVE window contains the address. -/
def NoWindowAt (s : State) (x : Nat) : Prop := ∀ i, ¬ LiveAt s i x

/-- The kind is granted by the rights value and the swap permission (Table 1-3). -/
def Allows (r : Rights) (swapAllowed : Bool) (k : AccessKind) : Prop :=
  match k with
  | .read => r = .read ∨ r = .readWrite
  | .write => r = .readWrite
  | .swap => r = .readWrite ∧ swapAllowed = true

/-- Any byte of an access lies in any range of the footprint (R28). -/
def MeetsFootprint (s : State) (a : Word) (n : Nat) : Prop :=
  ∃ k, k < n ∧ ∃ f ∈ s.changeSet.footprint, InRange f.base f.sizeExp (a.toNat + k)

/-- Every byte of the access selects slot i (R29, R30). -/
def SelectsWhole (s : State) (r : Request) (i : Fin 64) : Prop := ∀ k, k < r.size → Selects s (r.address.toNat + k) i

/-- The access is held at step 1 (R28). -/
def HeldAtStep1 (s : State) (r : Request) : Prop := s.changeSet.state = .committing ∧ MeetsFootprint s r.address r.size

/-- The ways a resolution of a port's access ends with a fault, with the status, what the context records, the fault kind and its window part (R29 to R32, R35, Table 8-2). -/
inductive FaultsAs (s : State) (p : Fin 4) (r : Request) : Status → DoneRecord → FaultKind → Option WindowRef → Prop where
  | noWindow (h : NoWindowAt s r.address.toNat) : FaultsAs s p r .noWindow .unbound .noWindow none
  | span (i : Fin 64) (h : Selects s r.address.toNat i)
      (later : ∃ k, k < r.size ∧ (NoWindowAt s (r.address.toNat + k) ∨ ∃ j, j ≠ i ∧ Selects s (r.address.toNat + k) j)) :
      FaultsAs s p r .span (.window (s.windowRef i)) .span (some (s.windowRef i))
  | denied (i : Fin 64) (h : SelectsWhole s r i)
      (no : ¬ Allows ((s.slotAt i).window.rights.look p) (s.slotAt i).window.swapAllowed r.kind) :
      FaultsAs s p r .denied (.window (s.windowRef i)) .denied (some (s.windowRef i))
  | channelOffline (i : Fin 64) (h : SelectsWhole s r i)
      (yes : Allows ((s.slotAt i).window.rights.look p) (s.slotAt i).window.swapAllowed r.kind)
      (off : (s.chanAt (s.slotAt i).window.channel).state = .offline) :
      FaultsAs s p r .channelOffline .unbound .channelOffline none

/-- Steps 1 to 5 pass for the access under slot i (R28 to R32). -/
structure PassesUnder (s : State) (p : Fin 4) (r : Request) (i : Fin 64) : Prop where
  footprint : ¬ HeldAtStep1 s r
  selects : SelectsWhole s r i
  rights : Allows ((s.slotAt i).window.rights.look p) (s.slotAt i).window.swapAllowed r.kind
  channel : (s.chanAt (s.slotAt i).window.channel).state ≠ .offline

/-- What binding under slot i records (R33): the window, its channel, the target address, the plan, nothing completed, no read data. -/
def boundUnder (s : State) (i : Fin 64) (r : Request) : Binding :=
  let w := (s.slotAt i).window
  let t : TargetAddr := BitVec.ofNat 28 (w.targetBase.toNat + (r.address.toNat - w.base.toNat))
  { window := { slot := i, generation := (s.slotAt i).generation, label := w.label }
    channel := w.channel
    target := t
    plan := planFor r.kind r.size t.toNat w.width.bytes
    completed := 0
    readData := #v[none, none, none, none] }

/-- A fault record after one more fault: an empty one is filled with further count 0, a full one counts it, saturating at 255 (R143). -/
def recordAfter (old : Option FaultRecord) (f : FaultRecord) : Option FaultRecord :=
  match old with
  | none => some { f with further := 0 }
  | some g => some { g with further := min (g.further + 1) 255 }

/-! ### Requests (R44, R45) -/

/-- The access a presentation carries. -/
def presented (kind : AccessKind) (pa : Word) (psz : BitVec 3) (pwd : Word) : Request :=
  { kind := kind, size := psz.toNat, address := pa, data := dataOfLines kind psz.toNat pwd }

/-- A new presentation that passes every request check (Table 3-3). -/
structure Takeable (s : State) (p tag : Fin 4) (psz : BitVec 3) : Prop where
  fresh : (s.portAt p).presenting = false
  on : (s.portAt p).state = .on
  free : s.ctxAt ⟨p, tag⟩ = none
  size : psz.toNat = 1 ∨ psz.toNat = 2 ∨ psz.toNat = 4

/-- The port after it has answered a presentation. -/
def portAnswering (u : PortUnit) (a : PortAnswer) : PortUnit := { u with presenting := true, answer := some a }

/-! ### Beats -/

/-- The level a beat ends with: how a command at the end of a period ends the beat in progress (R83 to R86). -/
inductive EndsBeat (s : State) (c : Fin 4) (copy : BeatCopy) : Instr → BeatOutcome → Word → Prop where
  | ignoreNormal (crdy : Bool) (cd : Word) (st : (s.chanAt c).state = .beat copy .strobe)
      (pol : copy.profile.policy = .ignore) : EndsBeat s c copy (.minimumStrobeEnd c crdy false cd) .normal cd
  | ignoreError (crdy : Bool) (cd : Word) (st : (s.chanAt c).state = .beat copy .strobe)
      (pol : copy.profile.policy = .ignore) : EndsBeat s c copy (.minimumStrobeEnd c crdy true cd) .error cd
  | readyNormal (cd : Word) (st : (s.chanAt c).state = .beat copy .strobe)
      (pol : copy.profile.policy = .extend) : EndsBeat s c copy (.minimumStrobeEnd c true false cd) .normal cd
  | readyError (cd : Word) (st : (s.chanAt c).state = .beat copy .strobe)
      (pol : copy.profile.policy = .extend) : EndsBeat s c copy (.minimumStrobeEnd c true true cd) .error cd
  | extendedNormal (n : Nat) (cd : Word) (st : (s.chanAt c).state = .beat copy (.extension n)) :
      EndsBeat s c copy (.extensionPeriodEnd c true false cd) .normal cd
  | extendedError (n : Nat) (cd : Word) (st : (s.chanAt c).state = .beat copy (.extension n)) :
      EndsBeat s c copy (.extensionPeriodEnd c true true cd) .error cd
  | lastSampleLow (n : Nat) (cerr : Bool) (cd : Word) (st : (s.chanAt c).state = .beat copy (.extension n))
      (last : copy.profile.timeout ≤ n + 1) : EndsBeat s c copy (.extensionPeriodEnd c false cerr cd) .timeout cd
  | timeout (n : Nat) (st : (s.chanAt c).state = .beat copy (.extension n)) (last : copy.profile.timeout ≤ n + 1) :
      EndsBeat s c copy (.beatTimeout c) .timeout 0

/-- The context that a channel has on its bus. -/
def OnBus (s : State) (c : Fin 4) (id : CtxId) (r : Request) (b : Binding) (stamp : Nat) (marked : Bool) : Prop :=
  (s.chanAt c).onBus = some id ∧ s.ctxAt id = some ⟨r, .onBus b stamp marked⟩

/-- A context is BOUND on a channel, in its waiting set (R92). -/
def WaitsOn (s : State) (c : Fin 4) (id : CtxId) (r : Request) (b : Binding) (stamp passes : Nat) : Prop :=
  s.ctxAt id = some ⟨r, .bound b stamp passes⟩ ∧ b.channel = c

/-- The waiting set of a channel is empty. -/
def NoneWaits (s : State) (c : Fin 4) : Prop := ∀ id r b stamp passes, ¬ WaitsOn s c id r b stamp passes

/-- The lines a channel drives in the first period of a beat (R82). -/
def drivenLines (beat : Beat) (b : Binding) (r : Request) (setup : Nat) : ChanLines :=
  { ca := beat.unit, cle := beat.lanes, cwr := decide (beat.phase = .write), cstbn := decide (setup ≠ 0),
    cd := driveData beat b.target r.data }

/-- A channel that has just started a beat of a context: the profile its window names and the channel's divisor copied, the lines driven (R80, R82). -/
def startedBeat (s : State) (x : Channel) (beat : Beat) (b : Binding) (r : Request) : Channel :=
  let pr := s.profileAt (s.slotAt b.window.slot).window.profile
  { x with
    state := .beat { profile := pr, divisor := x.divisor } (if pr.setup = 0 then .strobe else .setup)
    lines := drivenLines beat b r pr.setup }

/-- The count a beat end leaves (R106). -/
def timeoutsAfter (o : BeatOutcome) (n : Nat) : Nat :=
  match o with
  | .normal => 0
  | .error => 0
  | .timeout => n + 1

/-- A channel at a beat end, with the state it takes: strobe high, lane enables low, data released, address and direction held (R88), the count acted on (R106). -/
def endedBeat (x : Channel) (o : BeatOutcome) (st : ChanState) (onBus : Option CtxId) : Channel :=
  { x with
    state := st
    timeouts := timeoutsAfter o x.timeouts
    onBus := onBus
    lines := { x.lines with cle := 0, cstbn := true, cd := none } }

/-- A slot with one context fewer in flight (R18). -/
def oneFewer (x : Slot) : Slot := { x with inFlight := x.inFlight - 1 }

/-- A slot with some contexts fewer in flight. -/
def fewerInFlight (x : Slot) (n : Nat) : Slot := { x with inFlight := x.inFlight - n }

/-- The set CLOSED with no entries, no footprint and an empty hold list. -/
def emptySet : ChangeSet := { state := .closed, entries := [], footprint := [], holdList := [] }

/-- A set just accepted: COMMITTING with its entries and footprint, nothing held (R124). -/
def committingSet (es : List Entry) (fp : List Range) : ChangeSet :=
  { state := .committing, entries := es, footprint := fp, holdList := [] }

/-- Every entry of the set has taken effect in its slot, and every slot that no entry names is as it was (R11, R13). -/
structure EntriesTakeEffect (s t : State) : Prop where
  install : ∀ i w, Entry.install i w ∈ s.changeSet.entries →
    t.slotAt i = { state := .live, window := w, generation := (s.slotAt i).generation + 1, inFlight := 0 }
  amend : ∀ i w g, Entry.amend i w g ∈ s.changeSet.entries →
    t.slotAt i = { state := .live, window := w, generation := (s.slotAt i).generation + 1, inFlight := 0 }
  retire : ∀ i g, Entry.retire i g ∈ s.changeSet.entries → t.slotAt i = { s.slotAt i with state := .free, inFlight := 0 }
  others : ∀ i, (∀ e ∈ s.changeSet.entries, e.slot ≠ i) → t.slotAt i = s.slotAt i

/-- A port whose response queue a context has joined (R51). -/
def queueJoined (u : PortUnit) (tag : Fin 4) : PortUnit := { u with queue := u.queue ++ [tag] }

/-- The pointer of a class (R97). -/
def pointerOf (x : Channel) (cls : UrgencyClass) : Fin 4 :=
  match cls with
  | .urgent => x.urgentPtr
  | .normal => x.normalPtr

/-- A channel whose pointer of a class has moved to a port (R97). -/
def pointerMoved (x : Channel) (cls : UrgencyClass) (p : Fin 4) : Channel :=
  match cls with
  | .urgent => { x with urgentPtr := p }
  | .normal => { x with normalPtr := p }

/-- How many places after a pointer a port stands in the cyclic order, the pointer's own port last (R97). -/
def placesAfter (ptr p : Fin 4) : Nat := (p.1 + 3 - ptr.1) % 4

/-- What a binding holds after a beat of its plan has ended normally (R87, R102). -/
def afterNormalBeat (b : Binding) (beat : Beat) (cd : Word) : Binding :=
  { b with completed := b.completed + 1, readData := capture beat b.target cd b.readData }

/-- A grant at the end of a recovery, on a channel whose pointers then are those of x: the granted context is ON_BUS and its first beat has started, every other context that waited is passed over once more, and nothing else has changed (R80, R97, R98). -/
structure Granted (s t : State) (c : Fin 4) (x : Channel) (id : CtxId) (r : Request) (b : Binding) (stamp : Nat) : Prop where
  onBus : t.ctxAt id = some ⟨r, .onBus b stamp false⟩
  passedOver : ∀ k q w n m, k ≠ id → WaitsOn s c k q w n m → t.ctxAt k = some ⟨q, .bound w n (min (m + 1) 8)⟩
  otherContexts : ∀ k, k ≠ id → (∀ q w n m, ¬ WaitsOn s c k q w n m) → t.ctxAt k = s.ctxAt k
  reference : (t.chanAt c).onBus = some id
  urgentPtr : (t.chanAt c).urgentPtr = x.urgentPtr
  normalPtr : (t.chanAt c).normalPtr = x.normalPtr
  started : ∀ beat, b.plan[b.completed]? = some beat → t.chanAt c = startedBeat s { x with onBus := some id } beat b r
  otherChannels : ∀ d, d ≠ c → t.chanAt d = s.chanAt d
  slots : t.slots = s.slots
  ports : t.ports = s.ports
  profiles : t.profiles = s.profiles
  set : t.changeSet = s.changeSet
  faults : t.faults = s.faults
  attention : t.attention = s.attention
  link : t.link = s.link
  startUp : t.startUp = s.startUp
  pending : t.pending = s.pending

/-- The number of contexts of a list that are BOUND under a slot. -/
def boundUnderSlot (s : State) (ids : List CtxId) (i : Fin 64) : Nat :=
  (ids.filter fun id => match s.ctxAt id with
    | some ⟨_, .bound b _ _⟩ => b.window.slot == i
    | _ => false).length

/-! ### A context leaving the bus (R102 to R107) -/

/-- The state a normal end of a plan's last beat leaves before anything follows from it: DONE with OK at the tail of its port's queue, the slot's count lowered, the channel as given (R102, R105). -/
def accessEndedOk (s : State) (c : Fin 4) (id : CtxId) (r : Request) (b : Binding) (beat : Beat) (cd : Word) (x : Channel) : State :=
  (((s.putCtx id (some ⟨r, .done .ok (.bound (afterNormalBeat b beat cd))⟩)).putSlot b.window.slot
    (oneFewer (s.slotAt b.window.slot))).putPort id.port (queueJoined (s.portAt id.port) id.tag)).putChan c x

/-- The target part of a beat that failed: its channel, byte address and beat index (R71, R103). -/
def failedPart (b : Binding) : Option TargetPart :=
  (b.plan[b.completed]?).map fun beat =>
    { channel := b.channel, byteAddress := beat.byteAddress, beatIndex := b.completed }

/-- The state a failed beat leaves before anything follows from it: DONE with TARGET_ERROR or TARGET_TIMEOUT, the beats completed unraised, the slot's count lowered, the fault recorded, the channel as given (R103, R105). -/
def accessEndedFailed (s : State) (c : Fin 4) (id : CtxId) (r : Request) (b : Binding) (o : BeatOutcome) (x : Channel) : State :=
  ((((s.putCtx id (some ⟨r, .done (if o = .error then .targetError else .targetTimeout) (.bound b)⟩)).putSlot
    b.window.slot (oneFewer (s.slotAt b.window.slot))).putPort id.port (queueJoined (s.portAt id.port) id.tag)).putFault id.port
    (recordAfter (s.faultAt id.port)
      { kind := if o = .error then .targetError else .targetTimeout, tag := id.tag, access := r.kind, size := r.size,
        address := r.address, window := some b.window, target := failedPart b, further := 0 })).putChan c x

/-- The state the freeing of an abandoned context leaves before anything follows from it: no context, no response, no fault, the slot's count lowered, the channel as given (R104). -/
def abandonedFreed (s : State) (c : Fin 4) (id : CtxId) (b : Binding) (x : Channel) : State :=
  ((s.putCtx id none).putSlot b.window.slot (oneFewer (s.slotAt b.window.slot))).putChan c x

/-- The port of a context just freed: it takes the state of its enable if that was its last context, PRSTn is deasserted and start-up is READY (R56, R104). -/
def portAfterFreeing (s : State) (id : CtxId) : PortUnit :=
  { s.portAt id.port with state :=
      if (s.portAt id.port).state = .inReset ∧ (s.portAt id.port).prstn = false ∧ s.startUp.state = .ready ∧
          (∀ tag, tag ≠ id.tag → s.ctxAt ⟨id.port, tag⟩ = none)
        then (if (s.portAt id.port).enable then .on else .off) else (s.portAt id.port).state }

/-- What follows from the freeing of an abandoned context, in order: the drain check, the check whether its port leaves IN_RESET, and while RESET_ALL waits the check whether the wait is over (R105, R187). Each check is the one that the rows APPLY, PORT_LEAVES_IN_RESET and REINITIALISATION make. -/
def FreeingGoesOn (levels : Straps) (p : Fin 4) (u t : State) : Prop :=
  ∃ v w, exec .applySet u = .next v ∧ exec (.portLeavesInReset p) v = .next w ∧ exec (.reinitialisation levels) w = .next t

/-- The fault of a context swept to CHANNEL_OFFLINE: with a window part, without a target part (R107). -/
def sweptFault (k : CtxId) (q : Request) (b : Binding) : FaultRecord :=
  { kind := .channelOffline, tag := k.tag, access := q.kind, size := q.size, address := q.address, window := some b.window,
    target := none, further := 0 }

/-- One context of the waiting set swept (R107, step 2). -/
def sweptOne (s : State) (k : CtxId) (q : Request) (b : Binding) : State :=
  (((s.putCtx k (some ⟨q, .done .channelOffline (.bound b)⟩)).putSlot b.window.slot (oneFewer (s.slotAt b.window.slot))).putPort
    k.port (queueJoined (s.portAt k.port) k.tag)).putFault k.port (recordAfter (s.faultAt k.port) (sweptFault k q b))

/-- A list of the waiting set of a channel in bind order, oldest stamp first (R107). -/
def WaitingInBindOrder (s : State) (c : Fin 4) (order : List CtxId) : Prop :=
  order.Nodup ∧ (∀ k, k ∈ order ↔ ∃ q b n m, WaitsOn s c k q b n m) ∧
    order.Pairwise fun j k => ∀ q b n m q' b' n' m', WaitsOn s c j q b n m → WaitsOn s c k q' b' n' m' → n ≤ n'

/-- The sweep of a list of waiting contexts, one after another, each with the drain check as it leaves BOUND (R107, steps 2 and 3). -/
inductive Sweeps : State → List CtxId → State → Prop where
  | done (s : State) : Sweeps s [] s
  | next (s t u : State) (k : CtxId) (rest : List CtxId) (q : Request) (b : Binding) (n m : Nat)
      (waits : s.ctxAt k = some ⟨q, .bound b n m⟩) (check : exec .applySet (sweptOne s k q b) = .next t)
      (more : Sweeps t rest u) : Sweeps s (k :: rest) u

/-- What a sweep leaves while no set is COMMITTING, entry by entry (R107, R108). -/
structure SweptInBindOrder (u t : State) (c : Fin 4) (order : List CtxId) : Prop where
  swept : ∀ k q b n m, WaitsOn u c k q b n m → t.ctxAt k = some ⟨q, .done .channelOffline (.bound b)⟩
  otherContexts : ∀ k, k ∉ order → t.ctxAt k = u.ctxAt k
  slots : ∀ i, t.slotAt i = fewerInFlight (u.slotAt i) (boundUnderSlot u order i)
  ports : ∀ p, t.portAt p = { u.portAt p with
    queue := (u.portAt p).queue ++ (order.filter fun k => k.port == p).map CtxId.tag }
  faults : ∀ p, t.faultAt p = (order.filter fun k => k.port == p).foldl (fun rec k => match u.ctxAt k with
    | some ⟨q, .bound b _ _⟩ => recordAfter rec (sweptFault k q b)
    | _ => rec) (u.faultAt p)
  chans : t.chans = u.chans
  changeSet : t.changeSet = u.changeSet
  profiles : t.profiles = u.profiles
  attention : t.attention = u.attention
  link : t.link = u.link
  startUp : t.startUp = u.startUp
  pending : t.pending = u.pending

/-! ### Re-resolution (R36, R131) -/

/-- One held context resolved, with the set CLOSED: DONE with a fault as a new access would be, or BOUND with a stamp later than every one on its channel, which then arbitrates if it is IDLE. -/
inductive Resolved (s : State) (id : CtxId) (r : Request) : State → Prop where
  | faults (st : Status) (d : DoneRecord) (k : FaultKind) (w : Option WindowRef) (h : FaultsAs s id.port r st d k w) :
      Resolved s id r (((s.putPort id.port (queueJoined (s.portAt id.port) id.tag)).putCtx id (some ⟨r, .done st d⟩)).putFault
        id.port (recordAfter (s.faultAt id.port)
          { kind := k, tag := id.tag, access := r.kind, size := r.size, address := r.address, window := w, target := none,
            further := 0 }))
  | binds (i : Fin 64) (stamp : Nat) (h : PassesUnder s id.port r i)
      (later : ∀ k m, stampOn (s.slotAt i).window.channel (s.ctxAt k) = some m → m < stamp) :
      Resolved s id r (((s.putCtx id (some ⟨r, .bound (boundUnder s i r) stamp 0⟩)).putSlot i
        { s.slotAt i with inFlight := (s.slotAt i).inFlight + 1 }).arbitrate (s.slotAt i).window.channel)

/-- The contexts of a hold list resolved one after another, each taken from the head and leaving the list as it is resolved. -/
inductive ResolvedInOrder : State → List CtxId → State → Prop where
  | done (s : State) : ResolvedInOrder s [] s
  | next (s t u : State) (id : CtxId) (rest : List CtxId) (r : Request) (held : s.ctxAt id = some ⟨r, .held⟩)
      (one : Resolved (s.putChangeSet { s.changeSet with holdList := rest }) id r t) (more : ResolvedInOrder t rest u) :
      ResolvedInOrder s (id :: rest) u

/-- The set CLOSED and emptied, with a hold list still to be resolved again (R130, R134). -/
def closedSet (hold : List CtxId) : ChangeSet := { state := .closed, entries := [], footprint := [], holdList := hold }

/-- The first two steps of an apply: every entry has taken effect, the set is CLOSED with its hold list still to be resolved, COMMIT_APPLIED is latched, and nothing else has changed (R130). -/
structure AppliedBeforeHoldList (s u : State) : Prop where
  table : EntriesTakeEffect s u
  set : u.changeSet = closedSet s.changeSet.holdList
  attention : u.attention = { s.attention with commitApplied := true }
  ctxs : u.ctxs = s.ctxs
  ports : u.ports = s.ports
  profiles : u.profiles = s.profiles
  chans : u.chans = s.chans
  faults : u.faults = s.faults
  link : u.link = s.link
  startUp : u.startUp = s.startUp
  pending : u.pending = s.pending

/-! ### Port resets and reinitialisation -/

/-- No drain check of this port's reset can apply a set: none is COMMITTING, or a context blocks it that the reset does not free, one of another port or one ON_BUS, which its mark leaves blocking (R127, R136). -/
def ResetDrainsNothing (s : State) (p : Fin 4) : Prop :=
  s.changeSet.state ≠ .committing ∨ ∃ id, blocks s.changeSet.footprint (s.ctxAt id) = true ∧
    (id.port = p → ∃ r b stamp m, s.ctxAt id = some ⟨r, .onBus b stamp m⟩)

/-- The reset of this port frees the last blocking context: a set is COMMITTING, and what blocks it are BOUND contexts of this port (R127, R136). -/
def ResetDrainsTheSet (s : State) (p : Fin 4) : Prop :=
  s.changeSet.state = .committing ∧ s.startUp.state ≠ .waiting ∧
    (∃ id, blocks s.changeSet.footprint (s.ctxAt id) = true) ∧
    ∀ id, blocks s.changeSet.footprint (s.ctxAt id) = true →
      id.port = p ∧ ∃ r b stamp passes, s.ctxAt id = some ⟨r, .bound b stamp passes⟩

/-- Steps 1 and 2 of a port reset: the port is IN_RESET with its line at this level, and its HELD contexts have left the hold list unresolved and are freed; nothing else has changed (R54, R136). -/
structure HeldLeaves (s u : State) (p : Fin 4) (prstn : Bool) : Prop where
  port : u.portAt p = { s.portAt p with state := .inReset, prstn := prstn }
  otherPorts : ∀ q, q ≠ p → u.portAt q = s.portAt q
  freed : ∀ tag r, s.ctxAt ⟨p, tag⟩ = some ⟨r, .held⟩ → u.ctxAt ⟨p, tag⟩ = none
  contexts : ∀ id, (id.port = p → ∀ r, s.ctxAt id ≠ some ⟨r, .held⟩) → u.ctxAt id = s.ctxAt id
  set : u.changeSet = { s.changeSet with holdList := s.changeSet.holdList.filter fun id => id.port != p }
  slots : u.slots = s.slots
  profiles : u.profiles = s.profiles
  chans : u.chans = s.chans
  faults : u.faults = s.faults
  attention : u.attention = s.attention
  link : u.link = s.link
  startUp : u.startUp = s.startUp
  pending : u.pending = s.pending

/-- Step 3 of a port reset over a list of contexts: each BOUND one is freed, its slot's count is lowered, and the drain check is made as it leaves BOUND; the others are passed by (R54, R136). -/
inductive BoundLeaves : State → List CtxId → State → Prop where
  | done (s : State) : BoundLeaves s [] s
  | freed (s t u : State) (k : CtxId) (rest : List CtxId) (q : Request) (b : Binding) (n m : Nat)
      (bound : s.ctxAt k = some ⟨q, .bound b n m⟩)
      (check : exec .applySet ((s.putCtx k none).putSlot b.window.slot (oneFewer (s.slotAt b.window.slot))) = .next t)
      (more : BoundLeaves t rest u) : BoundLeaves s (k :: rest) u
  | other (s u : State) (k : CtxId) (rest : List CtxId) (no : ∀ q b n m, s.ctxAt k ≠ some ⟨q, .bound b n m⟩)
      (more : BoundLeaves s rest u) : BoundLeaves s (k :: rest) u

/-- Steps 4 to 6 of a port reset: the port's ON_BUS contexts are marked, no other of its contexts is left, its queue and its record are empty; nothing else has changed (R54). -/
structure ResetEnds (v t : State) (p : Fin 4) : Prop where
  port : t.portAt p = { v.portAt p with queue := [] }
  otherPorts : ∀ q, q ≠ p → t.portAt q = v.portAt q
  marked : ∀ tag r b stamp m, v.ctxAt ⟨p, tag⟩ = some ⟨r, .onBus b stamp m⟩ →
    t.ctxAt ⟨p, tag⟩ = some ⟨r, .onBus b stamp true⟩
  freed : ∀ tag, (∀ r b stamp m, v.ctxAt ⟨p, tag⟩ ≠ some ⟨r, .onBus b stamp m⟩) → t.ctxAt ⟨p, tag⟩ = none
  otherContexts : ∀ id, id.port ≠ p → t.ctxAt id = v.ctxAt id
  fault : t.faultAt p = none
  otherFaults : ∀ q, q ≠ p → t.faultAt q = v.faultAt q
  slots : t.slots = v.slots
  set : t.changeSet = v.changeSet
  profiles : t.profiles = v.profiles
  chans : t.chans = v.chans
  attention : t.attention = v.attention
  link : t.link = v.link
  startUp : t.startUp = v.startUp
  pending : t.pending = v.pending

/-- The event that starts a port reset, step by step, in every state of the change set (R54, R136). -/
def PortResetSteps (s t : State) (p : Fin 4) (prstn : Bool) : Prop :=
  ∃ u order v, HeldLeaves s u p prstn ∧ (order.Nodup ∧ ∀ id, id ∈ order ↔ id.port = p) ∧ BoundLeaves u order v ∧ ResetEnds v t p

/-- The event that starts a port reset, but for the port itself and the link, where no drain check of it applies a set: HELD, BOUND and DONE contexts are freed with their slots' counts lowered, ON_BUS ones are marked, the hold list loses the port's contexts, the record is emptied, and nothing else changes (R24, R54, R62). -/
structure PortResetStarts (s t : State) (p : Fin 4) : Prop where
  otherPorts : ∀ q, q ≠ p → t.portAt q = s.portAt q
  marked : ∀ tag r b stamp m, s.ctxAt ⟨p, tag⟩ = some ⟨r, .onBus b stamp m⟩ →
    t.ctxAt ⟨p, tag⟩ = some ⟨r, .onBus b stamp true⟩
  freed : ∀ tag, (∀ r b stamp m, s.ctxAt ⟨p, tag⟩ ≠ some ⟨r, .onBus b stamp m⟩) → t.ctxAt ⟨p, tag⟩ = none
  otherContexts : ∀ id, id.port ≠ p → t.ctxAt id = s.ctxAt id
  slots : ∀ i, t.slotAt i = fewerInFlight (s.slotAt i) (boundUnderSlot s (portIds p) i)
  set : t.changeSet = { s.changeSet with holdList := s.changeSet.holdList.filter fun id => id.port != p }
  fault : t.faultAt p = none
  otherFaults : ∀ q, q ≠ p → t.faultAt q = s.faultAt q
  profiles : t.profiles = s.profiles
  chans : t.chans = s.chans
  attention : t.attention = s.attention
  startUp : t.startUp = s.startUp
  pending : t.pending = s.pending

/-- The reinitialisation event: every block but the link at its power-on values, the boot window by the straps sampled, no context, and start-up RUNNING (R181, R183, R184, R188). -/
structure Reinitialised (s t : State) (st : Straps) (o : Origin) : Prop where
  slots : SlotsBooted st t
  blocks : BlocksFresh t
  contexts : ∀ id, t.ctxAt id = none
  startUp : t.startUp = { state := .running o, straps := st, levels := st }
  link : t.link = s.link
  pending : t.pending = s.pending

/-! ### Conflicts (R2, R123) -/

/-- Two windows of equal rank whose ranges share an address (R2, R16). -/
def Clash (w v : Window) : Prop :=
  w.rank = v.rank ∧
    w.base.toNat / 2 ^ max w.sizeExp v.sizeExp = v.base.toNat / 2 ^ max w.sizeExp v.sizeExp

/-- The window of the entry with this index meets a clash with a slot of the resulting table. -/
def EntryClashes (s : State) (es : List Entry) (n : Nat) (i j : Fin 64) : Prop :=
  ∃ e w v, es[n]? = some e ∧ e.slot = i ∧ e.window = some w ∧ j ≠ i ∧ s.resultWindow es j = some v ∧ Clash w v

/-! ### Laws of the spec that every step keeps -/

/-- While a port is not IN_RESET its state equals its enable (R42). -/
def PortsFollowEnables (s : State) : Prop :=
  ∀ p, (s.portAt p).state ≠ .inReset → (s.portAt p).state = (if (s.portAt p).enable then .on else .off)

/-- A channel's count is 3 while it is OFFLINE and between 0 and 2 otherwise (R94); outside a beat its lines are quiet (R90). -/
def ChannelLaw (s : State) : Prop :=
  ∀ c, ((s.chanAt c).state = .offline → (s.chanAt c).timeouts = 3) ∧
    ((s.chanAt c).state ≠ .offline → (s.chanAt c).timeouts ≤ 2) ∧
    ((∀ copy stage, (s.chanAt c).state ≠ .beat copy stage) →
      (s.chanAt c).lines.cstbn = true ∧ (s.chanAt c).lines.cle = 0 ∧ (s.chanAt c).lines.cd = none)

/-- The change set holds at most 8 entries, each naming a different slot, and is empty exactly when it is CLOSED (R114); footprint and hold list exist only while COMMITTING. -/
def ChangeSetLaw (s : State) : Prop :=
  s.changeSet.entries.length ≤ 8 ∧ (s.changeSet.entries.map Entry.slot).Nodup ∧
    (s.changeSet.state = .closed ↔ s.changeSet.entries = []) ∧
    (s.changeSet.state ≠ .committing → s.changeSet.footprint = [] ∧ s.changeSet.holdList = [])

/-- A response queue holds exactly the port's DONE contexts, without a duplicate (R51). -/
def QueueLaw (s : State) : Prop :=
  ∀ p, (s.portAt p).queue.Nodup ∧ ∀ t, t ∈ (s.portAt p).queue ↔ ∃ r st d, s.ctxAt ⟨p, t⟩ = some ⟨r, .done st d⟩

/-- The hold list holds exactly the HELD contexts, without a duplicate (R126), and only while the set is COMMITTING. -/
def HoldListLaw (s : State) : Prop :=
  s.changeSet.holdList.Nodup ∧ (∀ id, id ∈ s.changeSet.holdList ↔ ∃ r, s.ctxAt id = some ⟨r, .held⟩) ∧
    (s.changeSet.state ≠ .committing → s.changeSet.holdList = [])

/-- No two slots that are LIVE or FROZEN hold windows of equal rank whose ranges overlap (R16). -/
def NoOverlap (s : State) : Prop :=
  ∀ i j, i ≠ j → (s.slotAt i).state ≠ .free → (s.slotAt j).state ≠ .free →
    ¬ Clash (s.slotAt i).window (s.slotAt j).window

/-- The slots FROZEN are those a COMMITTING set amends or retires (R9); until then what a set amends or retires is LIVE, and once accepted the set has no conflict in its resulting table (R118, R120, R123). -/
def SetFitsTable (s : State) : Prop :=
  (∀ i, (s.slotAt i).state = .frozen ↔
    s.changeSet.state = .committing ∧ ∃ e ∈ s.changeSet.entries, e.freezes = true ∧ e.slot = i) ∧
    (s.changeSet.state ≠ .committing →
      ∀ e ∈ s.changeSet.entries, e.freezes = true → (s.slotAt e.slot).state = .live) ∧
    (s.changeSet.state = .committing → s.firstConflict s.changeSet.entries = none)

/-- What the overlap law needs to pass through a commit: the law itself, the fit of the set, and one entry for each slot. -/
def OverlapLaw (s : State) : Prop := NoOverlap s ∧ SetFitsTable s ∧ (s.changeSet.entries.map Entry.slot).Nodup

/-- A context is BOUND or ON_BUS under a slot. -/
def Names (s : State) (i : Fin 64) (id : CtxId) : Bool :=
  match s.ctxAt id with
  | some c => (c.liveBinding.map fun b => b.window.slot) == some i
  | none => false

/-- Every context in BOUND or ON_BUS names a slot that is LIVE or FROZEN with the generation it recorded (R14), and all its bytes lie in that slot's window (R30). -/
def BindingsHold (s : State) : Prop :=
  ∀ id c b, s.ctxAt id = some c → c.liveBinding = some b →
    (s.slotAt b.window.slot).state ≠ .free ∧ (s.slotAt b.window.slot).generation = b.window.generation ∧
      ∀ k, k < c.request.size →
        InRange (s.slotAt b.window.slot).window.base (s.slotAt b.window.slot).window.sizeExp (c.request.address.toNat + k)

/-- Every slot's count is the number of contexts in BOUND or ON_BUS that name it (R17). -/
def CountsAgree (s : State) : Prop := ∀ i, (s.slotAt i).inFlight = (ctxIds.filter (Names s i)).length

/-- The entries of the set still fit the slots they name (R9, R120), and the footprint is the one R125 gives. -/
def EntriesFit (s : State) : Prop :=
  (s.changeSet.entries.map Entry.slot).Nodup ∧
    (∀ e ∈ s.changeSet.entries, (s.slotAt e.slot).state =
      (if e.freezes then (if s.changeSet.state = .committing then .frozen else .live) else .free)) ∧
    (∀ i, (s.slotAt i).state = .frozen →
      s.changeSet.state = .committing ∧ ∃ e ∈ s.changeSet.entries, e.freezes = true ∧ e.slot = i) ∧
    (s.changeSet.state = .committing → s.changeSet.footprint = s.footprintFor s.changeSet.entries)

/-- What the counts and the generations need to pass through a commit. -/
def BindingLaw (s : State) : Prop :=
  CountsAgree s ∧ BindingsHold s ∧ EntriesFit s ∧ ∀ id c, s.ctxAt id = some c → 0 < c.request.size

end Sys2Proof
end

