-- ==== Sys2Proof/Certificates/Slice0/Obligations.lean ====
section
/-! DEFINITION. The statements for the provers: one numbered rule or one group of commands each, then the laws every step keeps. -/

open Sys2Proof Sys2Proof.Machine

/-! ### The queue of commands, reset and start-up -/

/-- A step takes the command at the front and carries it out on the queue's rest; with an empty queue the block idles (the model's choice, LOG 1 and 2). -/
def Obligations.StepTakesTheFrontCommand : Prop :=
  (∀ (c : Instr) (rest : List Instr) (s : State),
    step { s with pending := c :: rest } = exec c { s with pending := rest }) ∧
  ∀ s : State, s.pending = [] → step s = .next s

/-- RST_ASSERTED completes in every state and leaves every block at its power-on values, no context, the link STARTING with MRDY low and start-up in RESET (R182); the state after reset is such a state (LOG 4), with the strap lines low (LOG 5). -/
def Obligations.ResetAndRstTakePowerOnValues : Prop :=
  let holds : State → Straps → Prop := fun t levels => SlotsFresh t ∧ BlocksFresh t ∧ (∀ id, t.ctxAt id = none) ∧
    t.link = { state := .starting, lastSequence := 0, collisionMark := false, exchange := .none } ∧
    t.startUp = { state := .reset, straps := ⟨false, false, false⟩, levels := levels } ∧ t.mrdy = false
  (∀ s : State, ∃ t, exec .rstAsserted s = .next t ∧ holds t s.startUp.levels ∧ t.pending = s.pending) ∧
    holds State.reset ⟨false, false, false⟩ ∧ State.reset.pending = []

/-- RST_RELEASED from RESET samples the straps, installs the boot window if BOOTEN is high, and leaves start-up RUNNING with origin RST, every port IN_RESET and the link as it was (R181, R183, R184). -/
def Obligations.RstReleasedSamplesStrapsAndBoots : Prop :=
  ∀ (s : State) (st : Straps), s.startUp.state = .reset →
    ∃ t, exec (.rstReleased st) s = .next t ∧ Reinitialised s t st .rst

/-- While RESET_ALL waits, the event after which no channel is in BEAT and no context exists reinitialises in itself, here the beat end and the recovery end that free the last abandoned context; RESET_ALL itself is stated with RESET_ALL. The row REINITIALISATION gives the strap levels, and reinitialises where the wait is over (R187, R188; that the row gives the levels is the model's choice, LOG 7). -/
def Obligations.ReinitialisationEndsTheWait : Prop :=
  (∀ (s : State) (st : Straps), s.startUp.state = .waiting → (∀ c copy stage, (s.chanAt c).state ≠ .beat copy stage) →
    (∀ id, s.ctxAt id = none) → ∃ t, exec (.reinitialisation st) s = .next t ∧ Reinitialised s t st .resetAll) ∧
  (∀ (s : State) (st : Straps), (s.startUp.state ≠ .waiting ∨ (∃ c copy stage, (s.chanAt c).state = .beat copy stage) ∨
      ∃ id, s.ctxAt id ≠ none) →
    exec (.reinitialisation st) s = .next (s.putStartUp { s.startUp with levels := st })) ∧
  (∀ (s : State) (c : Fin 4) (copy : BeatCopy) (e : Instr) (o : BeatOutcome) (cd : Word) (id : CtxId) (r : Request)
    (b : Binding) (stamp : Nat), EndsBeat s c copy e o cd → OnBus s c id r b stamp true → s.startUp.state = .waiting →
    (∀ d copy stage, d ≠ c → (s.chanAt d).state ≠ .beat copy stage) → (∀ k, k ≠ id → s.ctxAt k = none) →
    ∃ t, exec e s = .next t ∧ Reinitialised s t s.startUp.levels .resetAll) ∧
  ∀ (s : State) (c : Fin 4) (copy : BeatCopy) (id : CtxId) (r : Request) (b : Binding) (stamp : Nat),
    (s.chanAt c).state = .recovery copy → OnBus s c id r b stamp true → s.startUp.state = .waiting →
    (∀ d copy stage, d ≠ c → (s.chanAt d).state ≠ .beat copy stage) → (∀ k, k ≠ id → s.ctxAt k = none) →
    ∃ t, exec (.recoveryEnd c) s = .next t ∧ Reinitialised s t s.startUp.levels .resetAll

/-- STARTUP_COMPLETION: START_DONE is latched, every port whose PRSTn is deasserted takes the state of its enable, start-up is READY; with origin RST the link becomes IDLE, with origin RESET_ALL the answer carries the held straps, one byte each (R183, R188). -/
def Obligations.StartupCompletionReleasesThePart : Prop :=
  ∀ (s : State) (o : Origin), s.startUp.state = .running o → ∃ t, exec .startupCompletion s = .next t ∧
    t.attention = { s.attention with startDone := true } ∧
    t.startUp = { s.startUp with state := .ready } ∧
    (∀ p, t.portAt p = if (s.portAt p).prstn then s.portAt p
      else { s.portAt p with state := if (s.portAt p).enable then .on else .off }) ∧
    t.link = (match o with
      | .rst => { s.link with state := .idle }
      | .resetAll => (answeredWith s .done
          [if s.startUp.straps.booten then 1 else 0, if s.startUp.straps.bootw then 1 else 0,
            if s.startUp.straps.bootsz then 1 else 0] false).link) ∧
    t.slots = s.slots ∧ t.ctxs = s.ctxs ∧ t.profiles = s.profiles ∧ t.chans = s.chans ∧ t.changeSet = s.changeSet ∧
    t.faults = s.faults ∧ t.pending = s.pending

/-! ### Requests and responses -/

/-- The request checks of Table 3-3 in order: PORT_OFF or PORT_RESET by the port's state, recorded nowhere; then TAG_BUSY, then BAD_SIZE, recorded as a fault with the size as presented and no parts; a refusal changes nothing else (R45, R46). -/
def Obligations.RequestRefusedByItsFirstFailingCheck : Prop :=
  (∀ (s : State) (p : Fin 4) (pkr pkw : Bool) (pa : Word) (psz : BitVec 3) (tag : Fin 4) (pwd : Word),
    (pkr || pkw) = true → (s.portAt p).presenting = false →
    ((s.portAt p).state = .off → exec (.requestPresented p pkr pkw pa psz tag pwd) s =
      .next (s.putPort p (portAnswering (s.portAt p) (.refused .portOff)))) ∧
    ((s.portAt p).state = .inReset → exec (.requestPresented p pkr pkw pa psz tag pwd) s =
      .next (s.putPort p (portAnswering (s.portAt p) (.refused .portReset))))) ∧
  ∀ (s : State) (p : Fin 4) (pkr pkw : Bool) (kind : AccessKind) (pa : Word) (psz : BitVec 3) (tag : Fin 4) (pwd : Word),
    kindOfLines pkr pkw = some kind → (s.portAt p).presenting = false → (s.portAt p).state = .on →
    (s.ctxAt ⟨p, tag⟩ ≠ none → exec (.requestPresented p pkr pkw pa psz tag pwd) s =
      .next ((s.putPort p (portAnswering (s.portAt p) (.refused .tagBusy))).putFault p (recordAfter (s.faultAt p)
        { kind := .tagBusy, tag := tag, access := kind, size := psz.toNat, address := pa, window := none, target := none,
          further := 0 }))) ∧
    (s.ctxAt ⟨p, tag⟩ = none → psz.toNat ≠ 1 → psz.toNat ≠ 2 → psz.toNat ≠ 4 →
      exec (.requestPresented p pkr pkw pa psz tag pwd) s =
      .next ((s.putPort p (portAnswering (s.portAt p) (.refused .badSize))).putFault p (recordAfter (s.faultAt p)
        { kind := .badSize, tag := tag, access := kind, size := psz.toNat, address := pa, window := none, target := none,
          further := 0 })))

/-- A taken request that meets the footprint of a COMMITTING set becomes HELD at the tail of the hold list, and nothing else changes but the port's answer (R28, R47). -/
def Obligations.RequestMeetingFootprintIsHeld : Prop :=
  ∀ (s : State) (p : Fin 4) (pkr pkw : Bool) (kind : AccessKind) (pa : Word) (psz : BitVec 3) (tag : Fin 4) (pwd : Word),
    kindOfLines pkr pkw = some kind → Takeable s p tag psz → HeldAtStep1 s (presented kind pa psz pwd) →
    exec (.requestPresented p pkr pkw pa psz tag pwd) s =
      .next (((s.putPort p (portAnswering (s.portAt p) .taken)).putCtx ⟨p, tag⟩ (some ⟨presented kind pa psz pwd, .held⟩)).putChangeSet
        { s.changeSet with holdList := s.changeSet.holdList ++ [⟨p, tag⟩] })

/-- A taken request that fails step 2, 3, 4 or 5 becomes DONE with that status at the tail of its port's response queue, and its fault reaches the port's record; nothing else changes (R29 to R32, R35, R47). -/
def Obligations.RequestFaultingAtResolutionIsDone : Prop :=
  ∀ (s : State) (p : Fin 4) (pkr pkw : Bool) (kind : AccessKind) (pa : Word) (psz : BitVec 3) (tag : Fin 4) (pwd : Word)
    (st : Status) (d : DoneRecord) (k : FaultKind) (w : Option WindowRef),
    kindOfLines pkr pkw = some kind → Takeable s p tag psz → ¬ HeldAtStep1 s (presented kind pa psz pwd) →
    FaultsAs s p (presented kind pa psz pwd) st d k w →
    exec (.requestPresented p pkr pkw pa psz tag pwd) s =
      .next (((s.putPort p (queueJoined (portAnswering (s.portAt p) .taken) tag)).putCtx ⟨p, tag⟩
          (some ⟨presented kind pa psz pwd, .done st d⟩)).putFault p (recordAfter (s.faultAt p)
        { kind := k, tag := tag, access := kind, size := psz.toNat, address := pa, window := w, target := none, further := 0 }))

/-- A taken request that passes every step on a channel in BEAT or RECOVERY becomes BOUND with pass count 0 and a stamp later than every one on that channel, its slot counts it, and nothing else changes (R33, R34, R96). -/
def Obligations.RequestBindsAndWaits : Prop :=
  ∀ (s : State) (p : Fin 4) (pkr pkw : Bool) (kind : AccessKind) (pa : Word) (psz : BitVec 3) (tag : Fin 4) (pwd : Word)
    (i : Fin 64), kindOfLines pkr pkw = some kind → Takeable s p tag psz →
    PassesUnder s p (presented kind pa psz pwd) i → (s.chanAt (s.slotAt i).window.channel).state ≠ .idle →
    ∃ stamp, (∀ id m, stampOn (s.slotAt i).window.channel (s.ctxAt id) = some m → m < stamp) ∧
      exec (.requestPresented p pkr pkw pa psz tag pwd) s =
        .next (((s.putPort p (portAnswering (s.portAt p) .taken)).putCtx ⟨p, tag⟩
            (some ⟨presented kind pa psz pwd, .bound (boundUnder s i (presented kind pa psz pwd)) stamp 0⟩)).putSlot i
          { s.slotAt i with inFlight := (s.slotAt i).inFlight + 1 })

/-- A taken request that binds on an IDLE channel where none waits is granted in the same event: it is ON_BUS, the pointer of its port's class moves to its port, and its first beat starts under the window's profile and the channel's divisor (R80, R82, R96 to R98). -/
def Obligations.RequestBindsAndIsGranted : Prop :=
  ∀ (s : State) (p : Fin 4) (pkr pkw : Bool) (kind : AccessKind) (pa : Word) (psz : BitVec 3) (tag : Fin 4) (pwd : Word)
    (i : Fin 64) (c : Fin 4), kindOfLines pkr pkw = some kind → Takeable s p tag psz →
    PassesUnder s p (presented kind pa psz pwd) i → (s.slotAt i).window.channel = c →
    (s.chanAt c).state = .idle → NoneWaits s c →
    ∃ stamp beat, (boundUnder s i (presented kind pa psz pwd)).plan[0]? = some beat ∧
      exec (.requestPresented p pkr pkw pa psz tag pwd) s =
        .next ((((s.putPort p (portAnswering (s.portAt p) .taken)).putCtx ⟨p, tag⟩
            (some ⟨presented kind pa psz pwd, .onBus (boundUnder s i (presented kind pa psz pwd)) stamp false⟩)).putSlot i
          { s.slotAt i with inFlight := (s.slotAt i).inFlight + 1 }).putChan c
            (startedBeat s (match (s.portAt p).cls with
              | .urgent => { s.chanAt c with urgentPtr := p, onBus := some ⟨p, tag⟩ }
              | .normal => { s.chanAt c with normalPtr := p, onBus := some ⟨p, tag⟩ })
              beat (boundUnder s i (presented kind pa psz pwd)) (presented kind pa psz pwd)))

/-- One presentation is answered once: while the lines stay asserted a later sample changes nothing, and the removal of the request ends the presentation and its answer (R44; that the answer lines hold until then is the model's choice, LOG 12). -/
def Obligations.PresentationIsAnsweredOnce : Prop :=
  (∀ (s : State) (p : Fin 4) (pkr pkw : Bool) (pa : Word) (psz : BitVec 3) (tag : Fin 4) (pwd : Word),
    (pkr || pkw) = true → (s.portAt p).presenting = true → exec (.requestPresented p pkr pkw pa psz tag pwd) s = .next s) ∧
  ∀ (s : State) (p : Fin 4),
    exec (.requestRemoved p) s = .next (s.putPort p { s.portAt p with presenting := false, answer := none })

/-- An assertion of PRTK frees the head context and takes it off the queue; with an empty queue it takes nothing; PRTK held high takes nothing more until it is sampled low (R53). -/
def Obligations.ResponseTakenFreesTheHead : Prop :=
  (∀ (s : State) (p tag : Fin 4) (rest : List (Fin 4)), (s.portAt p).prtk = false → (s.portAt p).queue = tag :: rest →
    exec (.responseTaken p) s =
      .next ((s.putCtx ⟨p, tag⟩ none).putPort p { s.portAt p with prtk := true, queue := rest })) ∧
  (∀ (s : State) (p : Fin 4), (s.portAt p).prtk = false → (s.portAt p).queue = [] →
    exec (.responseTaken p) s = .next (s.putPort p { s.portAt p with prtk := true })) ∧
  (∀ (s : State) (p : Fin 4), (s.portAt p).prtk = true → exec (.responseTaken p) s = .next s) ∧
  ∀ (s : State) (p : Fin 4), exec (.prtkSampledLow p) s = .next (s.putPort p { s.portAt p with prtk := false })

/-- The response lines offer the head of the queue: its tag, its PSTAT code, and for a READ or SWAP with OK the bytes gathered by address with FFh above the size; all-ones otherwise (R52). -/
def Obligations.ResponseLinesOfferTheHead : Prop :=
  (∀ (s : State) (p : Fin 4), (s.portAt p).queue = [] → s.responseLines p = ⟨false, 3, 7, 0xFFFFFFFF⟩) ∧
  ∀ (s : State) (p tag : Fin 4) (rest : List (Fin 4)) (r : Request) (st : Status) (d : DoneRecord),
    (s.portAt p).queue = tag :: rest → s.ctxAt ⟨p, tag⟩ = some ⟨r, .done st d⟩ →
    (s.responseLines p).prv = true ∧ (s.responseLines p).prtag.toNat = tag.1 ∧
      (s.responseLines p).pstat.toNat = (match st with
        | .ok => 0 | .noWindow => 1 | .span => 2 | .denied => 3 | .channelOffline => 4 | .targetTimeout => 5
        | .targetError => 6) ∧
      ((st ≠ .ok ∨ r.kind = .write) → (s.responseLines p).prdata = 0xFFFFFFFF) ∧
      ∀ b, st = .ok → d = .bound b → r.kind ≠ .write → ∀ k : Fin 4,
        byteOfWord (s.responseLines p).prdata k.1 =
          (if k.1 < r.size then (b.readData.look k).getD 0xFF else 0xFF)

/-! ### Port resets -/

/-- PRSTN_ASSERTED at a port not IN_RESET starts a port reset, in every state of the change set: the port is IN_RESET, its HELD contexts leave the hold list unresolved, each BOUND one is freed with its slot's count lowered and the drain check made after it, DONE ones are freed, ON_BUS ones are marked, the queue and the record are emptied (R54, R136). Where no such check can apply a set, because none is COMMITTING or a context that is not freed blocks it, no other port, window, profile or channel changes and the set keeps its state, entries and footprint (R24, R62); where the reset frees the last blocking context, the set is applied in this event, with the port IN_RESET. At a port IN_RESET only the line's level changes (R56, R185, R187). No RESET_PORT waits for this port; one that does is stated with RESET_PORT. -/
def Obligations.PrstnAssertedStartsAPortReset : Prop :=
  (∀ (s : State) (p : Fin 4), (s.portAt p).state ≠ .inReset → NoResetWaitsFor s p →
    ∃ t, exec (.prstnAsserted p) s = .next t ∧ PortResetSteps s t p true ∧
      (t.portAt p).state = .inReset ∧ t.link = s.link ∧
      (ResetDrainsNothing s p → PortResetStarts s t p ∧
        t.portAt p = { s.portAt p with state := .inReset, prstn := true, queue := [] }) ∧
      (ResetDrainsTheSet s p → t.changeSet = emptySet ∧ t.attention.commitApplied = true)) ∧
  ∀ (s : State) (p : Fin 4), (s.portAt p).state = .inReset → NoResetWaitsFor s p →
    exec (.prstnAsserted p) s = .next (s.putPort p { s.portAt p with prstn := true })

/-- A port IN_RESET without contexts takes the state of its enable when PRSTn is deasserted, once start-up is READY, and a RESET_PORT that waits for it is answered DONE; with a context left, before start-up is READY, or at a port not IN_RESET, the deassertion of PRSTn changes the line's level only; with PRSTn asserted too the port stays IN_RESET (R56, R57, R185; what the row PORT_LEAVES_IN_RESET does by itself is read from R56, LOG 6). -/
def Obligations.PortLeavesResetForItsEnable : Prop :=
  (∀ (s : State) (p : Fin 4), (s.portAt p).state = .inReset → (∀ tag, s.ctxAt ⟨p, tag⟩ = none) → s.startUp.state = .ready →
    (NoResetWaitsFor s p → exec (.prstnDeasserted p) s = .next (s.putPort p
      { s.portAt p with prstn := false, state := if (s.portAt p).enable then .on else .off })) ∧
    (NoResetWaitsFor s p → (s.portAt p).prstn = false → exec (.portLeavesInReset p) s = .next (s.putPort p
      { s.portAt p with state := if (s.portAt p).enable then .on else .off })) ∧
    (∀ payload, ResetWaits s p payload → (s.portAt p).prstn = false → exec (.portLeavesInReset p) s =
      .next (answeredWith (s.putPort p { s.portAt p with state := if (s.portAt p).enable then .on else .off }) .done [] false))) ∧
  ∀ (s : State) (p : Fin 4),
    ((∃ tag, s.ctxAt ⟨p, tag⟩ ≠ none) ∨ s.startUp.state ≠ .ready ∨ (s.portAt p).state ≠ .inReset →
      exec (.prstnDeasserted p) s = .next (s.putPort p { s.portAt p with prstn := false }) ∧
      exec (.portLeavesInReset p) s = .next s) ∧
    ((s.portAt p).prstn = true → exec (.portLeavesInReset p) s = .next s)

/-! ### Beats -/

/-- STROBE_ASSERT at the end of the setup periods drives CSTBn low and changes nothing else (R82, R83); under EXTEND a low CRDY at sample 0 begins the extension, and at a sample before tau lengthens it by one period, whatever CERR and CD (R84, R86). Before sample tau there is no timeout (R85; the row BEAT_TIMEOUT then changes nothing, LOG 3). -/
def Obligations.StrobeAssertAndLowReady : Prop :=
  (∀ (s : State) (c : Fin 4) (copy : BeatCopy), (s.chanAt c).state = .beat copy .setup →
    exec (.strobeAssert c) s = .next (s.putChan c { s.chanAt c with
      state := .beat copy .strobe, lines := { (s.chanAt c).lines with cstbn := false } })) ∧
  (∀ (s : State) (c : Fin 4) (copy : BeatCopy) (cerr : Bool) (cd : Word), (s.chanAt c).state = .beat copy .strobe →
    copy.profile.policy = .extend → exec (.minimumStrobeEnd c false cerr cd) s =
      .next (s.putChan c { s.chanAt c with state := .beat copy (.extension 0) })) ∧
  ∀ (s : State) (c : Fin 4) (copy : BeatCopy) (n : Nat) (cerr : Bool) (cd : Word),
    (s.chanAt c).state = .beat copy (.extension n) → n + 1 < copy.profile.timeout →
    exec (.extensionPeriodEnd c false cerr cd) s =
      .next (s.putChan c { s.chanAt c with state := .beat copy (.extension (n + 1)) }) ∧
    exec (.beatTimeout c) s = .next s

/-- A beat that ends normally with beats of its plan left raises beats completed, captures the lanes of a READ beat by address, sets the count to 0 and leaves the channel in RECOVERY with quiet lines, or with recovery 0 starts the next beat in the same event; nothing else changes (R68, R80, R87 to R89, R102). -/
def Obligations.NormalBeatEndWithBeatsLeft : Prop :=
  (∀ (s : State) (c : Fin 4) (copy : BeatCopy) (e : Instr) (cd : Word) (id : CtxId) (r : Request) (b : Binding) (stamp : Nat)
    (beat : Beat), EndsBeat s c copy e .normal cd → OnBus s c id r b stamp false → b.plan[b.completed]? = some beat →
    b.completed + 1 < b.plan.length → 0 < copy.profile.recovery →
    exec e s = .next ((s.putCtx id (some ⟨r, .onBus (afterNormalBeat b beat cd) stamp false⟩)).putChan c
      (endedBeat (s.chanAt c) .normal (.recovery copy) (some id)))) ∧
  ∀ (s : State) (c : Fin 4) (copy : BeatCopy) (e : Instr) (cd : Word) (id : CtxId) (r : Request) (b : Binding) (stamp : Nat)
    (beat next : Beat), EndsBeat s c copy e .normal cd → OnBus s c id r b stamp false →
    b.plan[b.completed]? = some beat → b.plan[b.completed + 1]? = some next → copy.profile.recovery = 0 →
    exec e s = .next ((s.putCtx id (some ⟨r, .onBus (afterNormalBeat b beat cd) stamp false⟩)).putChan c
      (startedBeat s (endedBeat (s.chanAt c) .normal (s.chanAt c).state (some id)) next b r))

/-- A read beat's capture by address: the byte on lane L of the lane set becomes byte u + L - t of the read data, and no other byte changes; a write beat captures nothing (R65, R68, R87). -/
def Obligations.CaptureIsByAddress : Prop :=
  ∀ (beat : Beat) (target : TargetAddr) (cd : Word) (d : Table (Option Byte) 4) (k : Fin 4),
    (beat.phase = .write → capture beat target cd d = d) ∧
    (beat.phase = .read → (∀ L : Fin 4, beat.lanes.getLsbD L.1 = true → target.toNat ≤ beat.unit.toNat + L.1) →
      (∀ L : Fin 4, beat.lanes.getLsbD L.1 = true → beat.unit.toNat + L.1 = target.toNat + k.1 →
        (capture beat target cd d).look k = some (byteOfWord cd L.1)) ∧
      ((∀ L : Fin 4, beat.lanes.getLsbD L.1 = true → beat.unit.toNat + L.1 ≠ target.toNat + k.1) →
        (capture beat target cd d).look k = d.look k))

/-- The normal end of a plan's last beat: the context is DONE with OK at the tail of its port's queue, its slot's count falls, the on-bus reference is cleared and the channel is in RECOVERY; with recovery 0 the channel passes through RECOVERY in the same event, as RECOVERY_END would have it; then the drain check is made, which applies a COMMITTING set if nothing blocks it any more, and which without such a set changes nothing (R18, R89, R102, R105, R127). -/
def Obligations.LastBeatEndsTheAccessOk : Prop :=
  ∀ (s : State) (c : Fin 4) (copy : BeatCopy) (e : Instr) (cd : Word) (id : CtxId) (r : Request) (b : Binding) (stamp : Nat)
    (beat : Beat), EndsBeat s c copy e .normal cd → OnBus s c id r b stamp false → b.plan[b.completed]? = some beat →
    b.completed + 1 = b.plan.length →
    let u := accessEndedOk s c id r b beat cd (endedBeat (s.chanAt c) .normal (.recovery copy) none)
    (0 < copy.profile.recovery → s.changeSet.state ≠ .committing → exec e s = .next u) ∧
    (0 < copy.profile.recovery → exec e s = exec .applySet u) ∧
    (copy.profile.recovery = 0 → ∃ v, exec (.recoveryEnd c) u = .next v ∧ exec e s = exec .applySet v)

/-- A beat that ends with error, or by timeout while the count is 0 or 1: the context is DONE with that status, its beats completed unraised, the fault carries the window and the failing beat's channel, byte address and index, and the channel is in RECOVERY with its count acted on; with recovery 0 it passes through RECOVERY in the same event, as RECOVERY_END would have it; then the drain check is made (R71, R89, R103, R105, R106, R127; where a row stands for sample tau is the model's choice, LOG 8). -/
def Obligations.FailedBeatEndsTheAccess : Prop :=
  ∀ (s : State) (c : Fin 4) (copy : BeatCopy) (e : Instr) (o : BeatOutcome) (cd : Word) (id : CtxId) (r : Request)
    (b : Binding) (stamp : Nat) (beat : Beat), EndsBeat s c copy e o cd → OnBus s c id r b stamp false →
    b.plan[b.completed]? = some beat → (o = .error ∨ o = .timeout ∧ (s.chanAt c).timeouts ≤ 1) →
    let u := accessEndedFailed s c id r b o (endedBeat (s.chanAt c) o (.recovery copy) none)
    failedPart b = some { channel := b.channel, byteAddress := beat.byteAddress, beatIndex := b.completed } ∧
    (0 < copy.profile.recovery → s.changeSet.state ≠ .committing → exec e s = .next u) ∧
    (0 < copy.profile.recovery → exec e s = exec .applySet u) ∧
    (copy.profile.recovery = 0 → ∃ v, exec (.recoveryEnd c) u = .next v ∧ exec e s = exec .applySet v)

/-- A timeout while the count is 2 takes the channel OFFLINE with count 3 and no recovery. The context is DONE with TARGET_TIMEOUT, or freed if it bears the mark; after it the drain check is made; then the waiting set is swept in bind order to DONE with CHANNEL_OFFLINE, each context with its fault, its lowered count, its place at the tail of its port's queue and its own drain check; a marked context's port and the wait of RESET_ALL are checked last (R104, R105, R107). With no set COMMITTING no check changes anything, and what the sweep leaves is stated entry by entry; the OFFLINE flag is then true and the waiting set empty. -/
def Obligations.ThirdTimeoutTakesTheChannelOffline : Prop :=
  (∀ (s : State) (c : Fin 4) (copy : BeatCopy) (e : Instr) (cd : Word) (id : CtxId) (r : Request) (b : Binding) (stamp : Nat),
    EndsBeat s c copy e .timeout cd → OnBus s c id r b stamp false → (s.chanAt c).timeouts = 2 →
    let u := accessEndedFailed s c id r b .timeout (endedBeat (s.chanAt c) .timeout .offline none)
    (∃ v order t, exec .applySet u = .next v ∧ WaitingInBindOrder v c order ∧ Sweeps v order t ∧ exec e s = .next t) ∧
    (s.changeSet.state ≠ .committing → ∃ order t, exec e s = .next t ∧ WaitingInBindOrder u c order ∧
      SweptInBindOrder u t c order ∧ NoneWaits t c ∧ t.flag (4 + c.1) = true)) ∧
  ∀ (s : State) (c : Fin 4) (copy : BeatCopy) (e : Instr) (cd : Word) (id : CtxId) (r : Request) (b : Binding) (stamp : Nat),
    EndsBeat s c copy e .timeout cd → OnBus s c id r b stamp true → (s.chanAt c).timeouts = 2 →
    let u := abandonedFreed s c id b (endedBeat (s.chanAt c) .timeout .offline none)
    (∃ v order x y t, exec .applySet u = .next v ∧ WaitingInBindOrder v c order ∧ Sweeps v order x ∧
      exec (.portLeavesInReset id.port) x = .next y ∧ exec (.reinitialisation s.startUp.levels) y = .next t ∧
      exec e s = .next t) ∧
    (s.changeSet.state ≠ .committing → s.startUp.state ≠ .waiting → ∃ order x, WaitingInBindOrder u c order ∧
      SweptInBindOrder u x c order ∧ exec e s = exec (.portLeavesInReset id.port) x)

/-- The end of the beat of a context with the abandon mark, whatever the outcome, with the count not reaching 3: the context is freed with no response and no fault, its slot's count falls, and the channel is in RECOVERY, or with recovery 0 passes through it in the same event; then come the drain check, the check whether its port leaves IN_RESET, and the end of the wait of RESET_ALL (R55, R56, R89, R104, R105, R187). With no set COMMITTING and no RESET_ALL waiting the port takes the state of its enable if this was its last context, PRSTn is deasserted and start-up is READY, and a RESET_PORT that waits for it is then answered DONE (R57). -/
def Obligations.AbandonedContextIsFreedAtItsBeatEnd : Prop :=
  ∀ (s : State) (c : Fin 4) (copy : BeatCopy) (e : Instr) (o : BeatOutcome) (cd : Word) (id : CtxId) (r : Request)
    (b : Binding) (stamp : Nat), EndsBeat s c copy e o cd → OnBus s c id r b stamp true →
    (o = .timeout → (s.chanAt c).timeouts ≤ 1) →
    let u := abandonedFreed s c id b (endedBeat (s.chanAt c) o (.recovery copy) none)
    (0 < copy.profile.recovery → ∃ t, exec e s = .next t ∧ FreeingGoesOn s.startUp.levels id.port u t) ∧
    (copy.profile.recovery = 0 → ∃ v t, exec (.recoveryEnd c) u = .next v ∧ exec e s = .next t ∧
      FreeingGoesOn s.startUp.levels id.port v t) ∧
    (0 < copy.profile.recovery → s.changeSet.state ≠ .committing → s.startUp.state ≠ .waiting →
      (NoResetWaitsFor s id.port → exec e s = .next (u.putPort id.port (portAfterFreeing s id))) ∧
      ∀ payload, ResetWaits s id.port payload → (s.portAt id.port).state = .inReset → (s.portAt id.port).prstn = false →
        s.startUp.state = .ready → (∀ tag, tag ≠ id.tag → s.ctxAt ⟨id.port, tag⟩ = none) →
        exec e s = .next (answeredWith (u.putPort id.port (portAfterFreeing s id)) .done [] false))

/-- RECOVERY_END: a context with beats left and no mark starts its next beat under a fresh copy; with no context ON_BUS and none waiting the channel is IDLE (R80, R89, R93). A context marked between two beats is freed, its slot's count falls, and the channel becomes IDLE and arbitrates as if nothing had been on its bus; then come the drain check, the port check and the end of the wait of RESET_ALL (R55, R56, R104; the order of arbitration and drain check here is the model's choice, LOG 21). -/
def Obligations.RecoveryEndStartsTheNextBeatOrIdles : Prop :=
  (∀ (s : State) (c : Fin 4) (copy : BeatCopy) (id : CtxId) (r : Request) (b : Binding) (stamp : Nat) (beat : Beat),
    (s.chanAt c).state = .recovery copy → OnBus s c id r b stamp false → b.plan[b.completed]? = some beat →
    exec (.recoveryEnd c) s = .next (s.putChan c (startedBeat s (s.chanAt c) beat b r))) ∧
  (∀ (s : State) (c : Fin 4) (copy : BeatCopy), (s.chanAt c).state = .recovery copy → (s.chanAt c).onBus = none →
    NoneWaits s c → exec (.recoveryEnd c) s = .next (s.putChan c { s.chanAt c with state := .idle })) ∧
  ∀ (s : State) (c : Fin 4) (copy : BeatCopy) (id : CtxId) (r : Request) (b : Binding) (stamp : Nat),
    (s.chanAt c).state = .recovery copy → OnBus s c id r b stamp true →
    (∃ v t, exec (.recoveryEnd c) (abandonedFreed s c id b { s.chanAt c with onBus := none }) = .next v ∧
      exec (.recoveryEnd c) s = .next t ∧ FreeingGoesOn s.startUp.levels id.port v t) ∧
    (NoneWaits s c → s.changeSet.state ≠ .committing → s.startUp.state ≠ .waiting → NoResetWaitsFor s id.port →
      exec (.recoveryEnd c) s = .next ((abandonedFreed s c id b { s.chanAt c with state := .idle, onBus := none }).putPort
        id.port (portAfterFreeing s id)))

/-- The arbitration at the end of a recovery: a context that has lost eight grants goes first, the oldest stamp among those, and no pointer moves; else an URGENT port before every NORMAL one, the first after the class's pointer in cyclic order, its oldest context, and that pointer moves to it. The channel enters BEAT with the first beat of its plan, under the window's profile and the channel's divisor; every other waiting context is passed over once more, saturating at 8, and nothing else changes (R43, R80, R96 to R98). -/
def Obligations.ArbitrationFollowsItsSteps : Prop :=
  (∀ (s : State) (c : Fin 4) (copy : BeatCopy) (id : CtxId) (r : Request) (b : Binding) (stamp : Nat),
    (s.chanAt c).state = .recovery copy → (s.chanAt c).onBus = none → WaitsOn s c id r b stamp 8 →
    (∀ k q w n, k ≠ id → WaitsOn s c k q w n 8 → stamp < n) →
    ∃ t, exec (.recoveryEnd c) s = .next t ∧ Granted s t c (s.chanAt c) id r b stamp) ∧
  ∀ (s : State) (c : Fin 4) (copy : BeatCopy) (id : CtxId) (r : Request) (b : Binding) (stamp passes : Nat),
    (s.chanAt c).state = .recovery copy → (s.chanAt c).onBus = none → (∀ k q w n m, WaitsOn s c k q w n m → m < 8) →
    WaitsOn s c id r b stamp passes →
    ((s.portAt id.port).cls = .normal → ∀ k q w n m, WaitsOn s c k q w n m → (s.portAt k.port).cls = .normal) →
    (∀ k q w n m, WaitsOn s c k q w n m → (s.portAt k.port).cls = (s.portAt id.port).cls → k.port ≠ id.port →
      placesAfter (pointerOf (s.chanAt c) (s.portAt id.port).cls) id.port <
        placesAfter (pointerOf (s.chanAt c) (s.portAt id.port).cls) k.port) →
    (∀ k q w n m, k ≠ id → k.port = id.port → WaitsOn s c k q w n m → stamp < n) →
    ∃ t, exec (.recoveryEnd c) s = .next t ∧
      Granted s t c (pointerMoved (s.chanAt c) (s.portAt id.port).cls id.port) id r b stamp

/-! ### Change sets -/

/-- A staging command that passes every check appends its entry at the tail; the set is OPEN and the answer is DONE with the entry count; nothing else changes (R117 to R119). -/
def Obligations.StagingAppendsTheEntry : Prop :=
  (∀ (s : State) (p : List Byte), Dispatched .stageInstall p s → s.changeSet.state ≠ .committing → byteAt p 0 ≤ 63 →
    fieldCheck (rawWindowOf p) = none → (∀ e ∈ s.changeSet.entries, e.slot ≠ slotOf p) → s.changeSet.entries.length < 8 →
    (s.slotAt (slotOf p)).state = .free →
    exec .stageInstall s = .next (answeredWith (s.putChangeSet { s.changeSet with
      state := .opened, entries := s.changeSet.entries ++ [.install (slotOf p) (rawWindowOf p).window] }) .done
      [byteOf (s.changeSet.entries.length + 1)] false)) ∧
  (∀ (s : State) (p : List Byte), Dispatched .stageAmend p s → s.changeSet.state ≠ .committing → byteAt p 0 ≤ 63 →
    fieldCheck (rawWindowOf p) = none → (∀ e ∈ s.changeSet.entries, e.slot ≠ slotOf p) → s.changeSet.entries.length < 8 →
    (s.slotAt (slotOf p)).state = .live →
    ((rawAt p 1).getLsbD 2 = true → rawAt p 20 = (s.slotAt (slotOf p)).generation) →
    exec .stageAmend s = .next (answeredWith (s.putChangeSet { s.changeSet with
      state := .opened, entries := s.changeSet.entries ++ [.amend (slotOf p) (rawWindowOf p).window
        (if (rawAt p 1).getLsbD 2 then some (rawAt p 20) else none)] }) .done
      [byteOf (s.changeSet.entries.length + 1)] false)) ∧
  ∀ (s : State) (p : List Byte), Dispatched .stageRetire p s → s.changeSet.state ≠ .committing → byteAt p 0 ≤ 63 →
    (∀ e ∈ s.changeSet.entries, e.slot ≠ slotOf p) → s.changeSet.entries.length < 8 →
    (s.slotAt (slotOf p)).state = .live →
    ((rawAt p 1).getLsbD 2 = true → rawAt p 2 = (s.slotAt (slotOf p)).generation) →
    exec .stageRetire s = .next (answeredWith (s.putChangeSet { s.changeSet with
      state := .opened, entries := s.changeSet.entries ++ [.retire (slotOf p)
        (if (rawAt p 1).getLsbD 2 then some (rawAt p 2) else none)] }) .done
      [byteOf (s.changeSet.entries.length + 1)] false)

/-- The staging commands meet their checks in the order of Table 7-3: each refusal answers its status and payload and leaves everything else as it was. The field checks are not made for a RETIRE; an INSTALL needs a FREE slot, an AMEND or RETIRE a LIVE one; the expected generation is one of AMEND and RETIRE (R118). -/
def Obligations.StagingRefusedByItsFirstFailingCheck : Prop :=
  ∀ (s : State) (p : List Byte) (code : CommandCode) (cmd : Instr) (needs : SlotState) (expected : Nat),
    (code, cmd, needs, expected) ∈ [(CommandCode.stageInstall, Instr.stageInstall, SlotState.free, 0),
      (.stageAmend, .stageAmend, .live, 20), (.stageRetire, .stageRetire, .live, 2)] →
    Dispatched code p s →
    (s.changeSet.state = .committing → exec cmd s = .next (answeredWith s .commitBusy [] false)) ∧
    (s.changeSet.state ≠ .committing →
      (63 < byteAt p 0 → exec cmd s = .next (answeredWith s .badSlot [] false)) ∧
      (byteAt p 0 ≤ 63 →
        (∀ n, code ≠ .stageRetire → fieldCheck (rawWindowOf p) = some n →
          exec cmd s = .next (answeredWith s .badField [byteOf n] false)) ∧
        (code = .stageRetire ∨ fieldCheck (rawWindowOf p) = none →
          (∀ k e, s.changeSet.entries[k]? = some e → e.slot = slotOf p →
            (∀ j f, j < k → s.changeSet.entries[j]? = some f → f.slot ≠ slotOf p) →
            exec cmd s = .next (answeredWith s .duplicateSlot [byteOf k] false)) ∧
          ((∀ e ∈ s.changeSet.entries, e.slot ≠ slotOf p) →
            (8 ≤ s.changeSet.entries.length → exec cmd s = .next (answeredWith s .setFull [8] false)) ∧
            (s.changeSet.entries.length < 8 →
              ((s.slotAt (slotOf p)).state ≠ needs → exec cmd s = .next (answeredWith s .badState
                [match (s.slotAt (slotOf p)).state with | .free => 0 | .live => 1 | .frozen => 2] false)) ∧
              ((s.slotAt (slotOf p)).state = needs → code ≠ .stageInstall → (rawAt p 1).getLsbD 2 = true →
                rawAt p expected ≠ (s.slotAt (slotOf p)).generation →
                exec cmd s = .next (answeredWith s .stale [(s.slotAt (slotOf p)).generation] false)))))))

/-- The field checks in the order of Table 1-4: a window passes them exactly when every one of the nine conditions fails to hold, and the number reported is the first that holds (R7). -/
def Obligations.FieldChecksFollowTable1_4 : Prop :=
  ∀ r : RawWindow,
    let fails : Nat → Prop := fun n =>
      match n with
      | 1 => r.sizeExp < 10 ∨ 28 < r.sizeExp
      | 2 => ¬ 2 ^ r.sizeExp ∣ r.base.toNat
      | 3 => ¬ 0x400 ∣ r.targetBase.toNat
      | 4 => 0x10000000 < r.targetBase.toNat + 2 ^ r.sizeExp
      | 5 => r.width ≠ 1 ∧ r.width ≠ 2 ∧ r.width ≠ 4
      | 6 => 7 < r.profile
      | 7 => 3 < r.channel
      | 8 => 7 < r.rank
      | 9 => ∃ p, p < 4 ∧ r.rights / 4 ^ p % 4 = 2
      | _ => False
    (fieldCheck r = none ↔ ∀ n, ¬ fails n) ∧
      ∀ n, fieldCheck r = some n ↔ fails n ∧ ∀ m, m < n → ¬ fails m

/-- COMMIT of an OPEN set whose resulting table has no conflict is ACCEPTED with the numbers of footprint ranges and blocking contexts. With a blocking context left the set is COMMITTING with its footprint and an empty hold list, exactly the slots amended or retired become FROZEN with all else unchanged, and nothing else changes; with none it is applied in the same event, CLOSED and empty, with COMMIT_APPLIED latched (R116, R124, R125, R130). -/
def Obligations.CommitAccepted : Prop :=
  (∀ (s : State) (p : List Byte), Dispatched .commit p s → s.changeSet.state = .opened → s.changeSet.entries ≠ [] →
    s.firstConflict s.changeSet.entries = none →
    (∃ id ∈ ctxIds, blocks (s.footprintFor s.changeSet.entries) (s.ctxAt id) = true) →
    ∃ t, exec .commit s = .next t ∧
      t.changeSet = committingSet s.changeSet.entries (s.footprintFor s.changeSet.entries) ∧
      (∀ i, t.slotAt i = if ∃ e ∈ s.changeSet.entries, e.freezes = true ∧ e.slot = i
        then { s.slotAt i with state := .frozen } else s.slotAt i) ∧
      t.link = (answeredWith s .accepted [byteOf (s.footprintFor s.changeSet.entries).length,
        byteOf (ctxIds.filter fun id => blocks (s.footprintFor s.changeSet.entries) (s.ctxAt id)).length] false).link ∧
      t.ctxs = s.ctxs ∧ t.ports = s.ports ∧ t.profiles = s.profiles ∧ t.chans = s.chans ∧ t.faults = s.faults ∧
      t.attention = s.attention ∧ t.startUp = s.startUp ∧ t.pending = s.pending) ∧
  ∀ (s : State) (p : List Byte), Dispatched .commit p s → s.changeSet.state = .opened → s.changeSet.entries ≠ [] →
    s.firstConflict s.changeSet.entries = none → s.startUp.state = .ready →
    (s.changeSet.entries.map Entry.slot).Nodup →
    (∀ id, blocks (s.footprintFor s.changeSet.entries) (s.ctxAt id) = false) →
    ∃ t, exec .commit s = .next t ∧ EntriesTakeEffect s t ∧
      t.changeSet = emptySet ∧
      t.attention = { s.attention with commitApplied := true } ∧
      t.link = (answeredWith s .accepted [byteOf (s.footprintFor s.changeSet.entries).length, 0] false).link ∧
      t.ctxs = s.ctxs ∧ t.ports = s.ports ∧ t.profiles = s.profiles ∧ t.chans = s.chans ∧ t.faults = s.faults ∧
      t.startUp = s.startUp ∧ t.pending = s.pending

/-- COMMIT is refused NO_SET on a CLOSED set or one without entries, COMMIT_BUSY on a COMMITTING one, and OVERLAP with the first conflict, changing nothing else. A conflict is found exactly when an INSTALL or AMEND entry's window and another window of the resulting table have equal rank and overlapping ranges, and the one reported is the first by entry index and then by slot, with the entry index of the entry that names the second slot, if any (R2, R122, R123). -/
def Obligations.CommitRefused : Prop :=
  (∀ (s : State) (p : List Byte), Dispatched .commit p s →
    (s.changeSet.state = .closed → exec .commit s = .next (answeredWith s .noSet [] false)) ∧
    (s.changeSet.state = .opened → s.changeSet.entries = [] → exec .commit s = .next (answeredWith s .noSet [] false)) ∧
    (s.changeSet.state = .committing → exec .commit s = .next (answeredWith s .commitBusy [] false)) ∧
    ∀ k, s.changeSet.state = .opened → s.changeSet.entries ≠ [] → s.firstConflict s.changeSet.entries = some k →
      exec .commit s = .next (answeredWith s .overlap [byteOf k.first.1, byteOf k.firstIndex, byteOf k.second.1,
        match k.secondIndex with | some n => byteOf n | none => 0xFF] false)) ∧
  (∀ (s : State) (es : List Entry), s.firstConflict es = none ↔
    ∀ e ∈ es, ∀ w, e.window = some w → ∀ j v, j ≠ e.slot → s.resultWindow es j = some v → ¬ Clash w v) ∧
  ∀ (s : State) (es : List Entry) (k : Conflict), s.firstConflict es = some k →
    EntryClashes s es k.firstIndex k.first k.second ∧
    (∀ n i j, n < k.firstIndex → ¬ EntryClashes s es n i j) ∧
    (∀ j, j < k.second → ¬ EntryClashes s es k.firstIndex k.first j) ∧
    (∀ n, k.secondIndex = some n ↔ (∃ e, es[n]? = some e ∧ e.slot = k.second) ∧
      ∀ m e, m < n → es[m]? = some e → e.slot ≠ k.second)

/-- Apply, at the check that finds no blocking context, here with nothing held: every entry takes effect, the set is CLOSED and empty, COMMIT_APPLIED is latched, and nothing else changes. While a blocking context is left, or from the taking of RESET_ALL until reinitialisation, or with no set COMMITTING, the check applies nothing (R11, R13, R127, R130, R138; what the row APPLY does by itself is read from R127, LOG 6). -/
def Obligations.ApplyTakesEveryEntry : Prop :=
  (∀ s : State, s.changeSet.state = .committing → s.startUp.state ≠ .waiting → s.blockingCount = 0 →
    s.changeSet.holdList = [] → (s.changeSet.entries.map Entry.slot).Nodup →
    ∃ t, exec .applySet s = .next t ∧
      EntriesTakeEffect s t ∧ t.changeSet = emptySet ∧
      t.attention = { s.attention with commitApplied := true } ∧
      t.ctxs = s.ctxs ∧ t.ports = s.ports ∧ t.profiles = s.profiles ∧ t.chans = s.chans ∧ t.faults = s.faults ∧
      t.link = s.link ∧ t.startUp = s.startUp ∧ t.pending = s.pending) ∧
  ∀ s : State, (0 < s.blockingCount ∨ s.startUp.state = .waiting ∨ s.changeSet.state ≠ .committing) →
    exec .applySet s = .next s

/-- Apply and discard of a COMMITTING set resolve every held context again: the hold list is then empty and the set CLOSED, none of the list is left HELD, and, where the overlap law and the hold list law hold, the contexts are resolved one after another in hold order against the table after the apply or the discard, each ending DONE with the fault a new access would meet, or BOUND with a later stamp on a channel that then arbitrates if it is IDLE (R36, R130, R131, R134). -/
def Obligations.HoldListEmptiesAtApplyAndDiscard : Prop :=
  (∀ s : State, s.changeSet.state = .committing → s.startUp.state ≠ .waiting → s.blockingCount = 0 →
    ∃ t, exec .applySet s = .next t ∧
      t.changeSet = emptySet ∧ t.attention.commitApplied = true ∧
      (∀ id r, id ∈ s.changeSet.holdList → s.ctxAt id = some ⟨r, .held⟩ → ∃ st, t.ctxAt id = some ⟨r, st⟩ ∧ st ≠ .held) ∧
      (OverlapLaw s → HoldListLaw s → ∃ u, AppliedBeforeHoldList s u ∧ ResolvedInOrder u s.changeSet.holdList t)) ∧
  ∀ (s : State) (p : List Byte), Dispatched .discard p s → s.changeSet.state = .committing →
    ∃ v, exec .discard s = .next (answeredWith v .done [] false) ∧
      v.changeSet = emptySet ∧ v.attention = s.attention ∧ v.link = s.link ∧
      (∀ id r, id ∈ s.changeSet.holdList → s.ctxAt id = some ⟨r, .held⟩ → ∃ st, v.ctxAt id = some ⟨r, st⟩ ∧ st ≠ .held) ∧
      (∀ i, (v.slotAt i).state = (if (s.slotAt i).state = .frozen then .live else (s.slotAt i).state) ∧
        (v.slotAt i).window = (s.slotAt i).window ∧ (v.slotAt i).generation = (s.slotAt i).generation) ∧
      (OverlapLaw s → HoldListLaw s → ResolvedInOrder
        { s with
          slots := s.slots.mapAll fun x => { x with state := if x.state = .frozen then .live else x.state }
          changeSet := closedSet s.changeSet.holdList } s.changeSet.holdList v)

/-- DISCARD by the state of the set: NO_SET when CLOSED; an OPEN set is emptied and CLOSED; a COMMITTING set with nothing held is CLOSED and its FROZEN slots are LIVE again; the answer is DONE and nothing else changes (R12, R133, R134). -/
def Obligations.DiscardEmptiesTheSet : Prop :=
  ∀ (s : State) (p : List Byte), Dispatched .discard p s →
    (s.changeSet.state = .closed → exec .discard s = .next (answeredWith s .noSet [] false)) ∧
    (s.changeSet.holdList = [] →
      (s.changeSet.state = .opened → exec .discard s = .next (answeredWith (s.putChangeSet
        emptySet) .done [] false)) ∧
      (s.changeSet.state = .committing → exec .discard s = .next (answeredWith
        { s with
          slots := s.slots.mapAll fun x => { x with state := if x.state = .frozen then .live else x.state }
          changeSet := emptySet } .done [] false)))

/-! ### Commands of the ports, profiles, channels and the Fault Unit -/

/-- SET_PORT: its four checks in order, then enable and class replaced and the state made the enable (R58). -/
def Obligations.SetPortChecksThenReplaces : Prop :=
  ∀ (s : State) (p : List Byte), Dispatched .setPort p s →
    (3 < byteAt p 0 → exec .setPort s = .next (answeredWith s .badField [1] false)) ∧
    (byteAt p 0 ≤ 3 →
      (1 < byteAt p 1 → exec .setPort s = .next (answeredWith s .badField [2] false)) ∧
      (byteAt p 1 ≤ 1 →
        (1 < byteAt p 2 → exec .setPort s = .next (answeredWith s .badField [3] false)) ∧
        (byteAt p 2 ≤ 1 → ∀ q : Fin 4, q.1 = byteAt p 0 →
          ((s.portAt q).state = .inReset → exec .setPort s = .next (answeredWith s .badState [] false)) ∧
          ((s.portAt q).state ≠ .inReset → exec .setPort s = .next (answeredWith (s.putPort q { s.portAt q with
            enable := decide (byteAt p 1 = 1)
            cls := if byteAt p 2 = 1 then .urgent else .normal
            state := if byteAt p 1 = 1 then .on else .off }) .done [] false)))))

/-- RESET_PORT of a port not IN_RESET starts its reset, in every state of the change set, each BOUND context freed being followed by the drain check, which may apply the set in this event (R54, R136). Then, with PRSTn asserted, the answer is DONE with LINE_HELD; with PRSTn deasserted the check is made whether the port leaves IN_RESET, as PORT_LEAVES_IN_RESET makes it. Where no drain check can apply a set: with no context ON_BUS and start-up READY the port takes the state of its enable with an empty queue and record and the answer is DONE; with a context ON_BUS the port stays IN_RESET, the context is marked and the link stays EXECUTING. A bad port number is BAD_FIELD 1; at a port IN_RESET the answer is DONE with LINE_HELD while PRSTn is asserted, or when it is asserted later, and with a context left the command waits, the link EXECUTING (R54, R56, R57, R169). -/
def Obligations.ResetPortAnswersOrWaits : Prop :=
  (∀ (s : State) (p : List Byte) (q : Fin 4), Dispatched .resetPort p s → q.1 = byteAt p 0 → (s.portAt q).state ≠ .inReset →
    ∃ w, PortResetSteps s w q (s.portAt q).prstn ∧
      ((s.portAt q).prstn = true → exec .resetPort s = .next (answeredWith w .done [] true)) ∧
      ((s.portAt q).prstn = false → exec .resetPort s = exec (.portLeavesInReset q)
        (w.putLink { s.link with state := .executing { code := .resetPort, payload := p, taken := true } })) ∧
      (ResetDrainsTheSet s q → ∃ t, exec .resetPort s = .next t ∧ t.changeSet = emptySet ∧ t.attention.commitApplied = true)) ∧
  (∀ (s : State) (p : List Byte) (q : Fin 4), Dispatched .resetPort p s → q.1 = byteAt p 0 → (s.portAt q).prstn = false →
    (s.portAt q).state ≠ .inReset → ResetDrainsNothing s q → s.startUp.state = .ready →
    (∀ tag r b stamp m, s.ctxAt ⟨q, tag⟩ ≠ some ⟨r, .onBus b stamp m⟩) →
    ∃ t, exec .resetPort s = .next t ∧
      t.portAt q = { s.portAt q with state := if (s.portAt q).enable then .on else .off, queue := [] } ∧
      (∀ tag, t.ctxAt ⟨q, tag⟩ = none) ∧ t.faultAt q = none ∧
      (∀ k, k ≠ q → t.portAt k = s.portAt k ∧ t.faultAt k = s.faultAt k) ∧ (∀ id, id.port ≠ q → t.ctxAt id = s.ctxAt id) ∧
      (∀ i, t.slotAt i = fewerInFlight (s.slotAt i) (boundUnderSlot s (portIds q) i)) ∧
      t.changeSet = { s.changeSet with holdList := s.changeSet.holdList.filter fun id => id.port != q } ∧
      t.link = (answeredWith s .done [] false).link ∧ t.profiles = s.profiles ∧ t.chans = s.chans ∧
      t.attention = s.attention ∧ t.startUp = s.startUp ∧ t.pending = s.pending) ∧
  (∀ (s : State) (p : List Byte) (q : Fin 4), Dispatched .resetPort p s → q.1 = byteAt p 0 → (s.portAt q).prstn = false →
    (s.portAt q).state ≠ .inReset → ResetDrainsNothing s q →
    (∃ tag r b stamp m, s.ctxAt ⟨q, tag⟩ = some ⟨r, .onBus b stamp m⟩) →
    ∃ t, exec .resetPort s = .next t ∧ PortResetStarts s t q ∧
      t.portAt q = { s.portAt q with state := .inReset, queue := [] } ∧
      t.link = { s.link with state := .executing { code := .resetPort, payload := p, taken := true } }) ∧
  (∀ (s : State) (p : List Byte), Dispatched .resetPort p s →
    (3 < byteAt p 0 → exec .resetPort s = .next (answeredWith s .badField [1] false)) ∧
    ∀ q : Fin 4, q.1 = byteAt p 0 → (s.portAt q).state = .inReset →
      ((s.portAt q).prstn = true → exec .resetPort s = .next (answeredWith s .done [] true)) ∧
      ((s.portAt q).prstn = false → (∃ tag, s.ctxAt ⟨q, tag⟩ ≠ none) → exec .resetPort s =
        .next (s.putLink { s.link with state := .executing { code := .resetPort, payload := p, taken := true } }))) ∧
  ∀ (s : State) (p : Fin 4) (payload : List Byte), (s.portAt p).state = .inReset → ResetWaits s p payload →
    exec (.prstnAsserted p) s = .next (answeredWith (s.putPort p { s.portAt p with prstn := true }) .done [] true)

/-- SET_PROFILE: its six checks in order, then all five fields replaced together (R76, R78). -/
def Obligations.SetProfileChecksThenReplaces : Prop :=
  ∀ (s : State) (p : List Byte), Dispatched .setProfile p s →
    let timeout := byteAt p 4 + 256 * byteAt p 5
    let fails : Nat → Prop := fun n =>
      match n with
      | 1 => 7 < byteAt p 0
      | 2 => 7 < byteAt p 1
      | 3 => byteAt p 2 = 0 ∨ 31 < byteAt p 2
      | 4 => 1 < byteAt p 3
      | 5 => timeout < 16 ∨ 4095 < timeout
      | 6 => 7 < byteAt p 6
      | _ => False
    (∀ n, fails n → (∀ m, m < n → ¬ fails m) → exec .setProfile s = .next (answeredWith s .badField [byteOf n] false)) ∧
    ((∀ n, ¬ fails n) → ∀ i : Fin 8, i.1 = byteAt p 0 → exec .setProfile s = .next (answeredWith (s.putProfile i
      { setup := byteAt p 1, strobe := byteAt p 2, policy := if byteAt p 3 = 1 then .extend else .ignore,
        timeout := timeout, recovery := byteAt p 6 }) .done [] false))

/-- SET_CHANNEL: its two checks, then the divisor alone replaced, in every state of the channel (R95). RESTORE_CHANNEL: an OFFLINE channel becomes IDLE with count 0 and its OFFLINE flag false; any other is refused BAD_STATE (R109). -/
def Obligations.SetChannelAndRestoreChannel : Prop :=
  (∀ (s : State) (p : List Byte), Dispatched .setChannel p s →
    (3 < byteAt p 0 → exec .setChannel s = .next (answeredWith s .badField [1] false)) ∧
    ∀ c : Fin 4, c.1 = byteAt p 0 →
      ((byteAt p 1 = 0 ∨ 16 < byteAt p 1) → exec .setChannel s = .next (answeredWith s .badField [2] false)) ∧
      (1 ≤ byteAt p 1 → byteAt p 1 ≤ 16 → exec .setChannel s =
        .next (answeredWith (s.putChan c { s.chanAt c with divisor := byteAt p 1 }) .done [] false))) ∧
  ∀ (s : State) (p : List Byte), Dispatched .restoreChannel p s →
    (3 < byteAt p 0 → exec .restoreChannel s = .next (answeredWith s .badField [1] false)) ∧
    ∀ c : Fin 4, c.1 = byteAt p 0 →
      ((s.chanAt c).state ≠ .offline → exec .restoreChannel s = .next (answeredWith s .badState [] false)) ∧
      ((s.chanAt c).state = .offline → exec .restoreChannel s =
          .next (answeredWith (s.putChan c { s.chanAt c with state := .idle, timeouts := 0 }) .done [] false) ∧
        (answeredWith (s.putChan c { s.chanAt c with state := .idle, timeouts := 0 }) .done [] false).flag (4 + c.1) = false)

/-- CLEAR_FAULT empties a full record, its FAULT flag then false, only when the expected count equals its further count; else STALE with the current count; an empty record answers DONE (R146). -/
def Obligations.ClearFaultNeedsTheCurrentCount : Prop :=
  ∀ (s : State) (p : List Byte), Dispatched .clearFault p s →
    (3 < byteAt p 0 → exec .clearFault s = .next (answeredWith s .badField [1] false)) ∧
    ∀ q : Fin 4, q.1 = byteAt p 0 →
      (s.faultAt q = none → exec .clearFault s = .next (answeredWith s .done [] false)) ∧
      ∀ f, s.faultAt q = some f →
        (byteAt p 1 = f.further → exec .clearFault s = .next (answeredWith (s.putFault q none) .done [] false) ∧
          (answeredWith (s.putFault q none) .done [] false).flag q.1 = false) ∧
        (byteAt p 1 ≠ f.further → exec .clearFault s = .next (answeredWith s .stale [byteOf f.further] false))

/-- ACK_ATTENTION refuses flags above 10 and level flags, and else clears exactly the latched flags named, answering the set and the mask; the level flags follow records and channels (R148, R151; that set and mask are two bytes each is read from R171, LOG 19). -/
def Obligations.AckAttentionClearsNamedLatchedFlags : Prop :=
  ∀ (s : State) (p : List Byte), Dispatched .ackAttention p s →
    let named := byteAt p 0 + 256 * byteAt p 1
    (2048 ≤ named → exec .ackAttention s = .next (answeredWith s .badField [1] false)) ∧
    (named < 2048 → byteAt p 0 ≠ 0 → exec .ackAttention s = .next (answeredWith s .badField [2] false)) ∧
    (named < 2048 → byteAt p 0 = 0 → ∃ t, exec .ackAttention s = .next t ∧
      (∀ n, n < 11 → t.flag n = (s.flag n && !named.testBit n)) ∧ t.attention.mask = s.attention.mask ∧
      t.link = (answeredWith s .done [byteOf t.attentionSet, byteOf (t.attentionSet / 256), byteOf s.attention.mask.toNat,
        byteOf (s.attention.mask.toNat / 256)] false).link ∧
      t.slots = s.slots ∧ t.ports = s.ports ∧ t.ctxs = s.ctxs ∧ t.profiles = s.profiles ∧ t.chans = s.chans ∧
      t.changeSet = s.changeSet ∧ t.faults = s.faults ∧ t.startUp = s.startUp ∧ t.pending = s.pending)

/-- SET_ATTENTION_MASK replaces the whole mask and no flag, and ATN follows at once: high exactly while some flag is both true and enabled (R152, R153; that the answer's set and mask are two bytes each is read from R171, LOG 19). -/
def Obligations.SetAttentionMaskReplacesTheMask : Prop :=
  ∀ (s : State) (p : List Byte), Dispatched .setAttentionMask p s →
    let mask := byteAt p 0 + 256 * byteAt p 1
    (2048 ≤ mask → exec .setAttentionMask s = .next (answeredWith s .badField [1] false)) ∧
    (mask < 2048 → ∃ t, exec .setAttentionMask s = .next t ∧ (∀ n, n < 11 → t.attention.mask.getLsbD n = mask.testBit n) ∧
      (∀ n, t.flag n = s.flag n) ∧ (t.atn = true ↔ ∃ n, n < 11 ∧ s.flag n = true ∧ mask.testBit n = true) ∧
      t.link = (answeredWith s .done [byteOf t.attentionSet, byteOf (t.attentionSet / 256), byteOf mask,
        byteOf (mask / 256)] false).link ∧
      t.attention = { s.attention with mask := t.attention.mask } ∧
      t.slots = s.slots ∧ t.ports = s.ports ∧ t.ctxs = s.ctxs ∧ t.profiles = s.profiles ∧ t.chans = s.chans ∧
      t.changeSet = s.changeSet ∧ t.faults = s.faults ∧ t.startUp = s.startUp ∧ t.pending = s.pending)

/-! ### Queries -/

/-- QUERY_WINDOW: BAD_SLOT above 63; three bytes for a FREE slot; slot, state, generation, options, the window fields and the count for a LIVE or FROZEN one (R20, R173). -/
def Obligations.QueryWindowReportsTheSlot : Prop :=
  ∀ (s : State) (p : List Byte), Dispatched .queryWindow p s →
    (63 < byteAt p 0 → exec .queryWindow s = .next (answeredWith s .badSlot [] false)) ∧
    ∀ i : Fin 64, i.1 = byteAt p 0 →
      ((s.slotAt i).state = .free → exec .queryWindow s =
        .next (answeredWith s .done [byteOf i.1, 0, (s.slotAt i).generation] false)) ∧
      ((s.slotAt i).state ≠ .free → ∃ a, exec .queryWindow s = .next (answeredWith s .done a false) ∧ a.length = 23 ∧
        byteAt a 0 = i.1 ∧ byteAt a 1 = (if (s.slotAt i).state = .live then 1 else 2) ∧
        rawAt a 2 = (s.slotAt i).generation ∧ (rawAt a 3).getLsbD 0 = (s.slotAt i).window.label.isSome ∧
        (rawAt a 3).getLsbD 1 = (s.slotAt i).window.swapAllowed ∧ wordAt a 4 = (s.slotAt i).window.base ∧
        rawAt a 8 = byteOf (s.slotAt i).window.sizeExp ∧ byteAt a 9 = (s.slotAt i).window.rank.1 ∧
        byteAt a 10 = (s.slotAt i).window.channel.1 ∧ byteAt a 11 = (s.slotAt i).window.width.bytes ∧
        byteAt a 12 = (s.slotAt i).window.profile.1 ∧
        (∀ q : Fin 4, byteAt a 13 / 4 ^ q.1 % 4 = ((s.slotAt i).window.rights.look q).code) ∧
        wordAt a 14 = (s.slotAt i).window.targetBase.setWidth 32 ∧
        wordAt a 18 = (s.slotAt i).window.label.getD 0xFFFFFFFF ∧ rawAt a 22 = byteOf (s.slotAt i).inFlight)

/-- FIND_ADDRESS checks port, kind and size, and answers the outcome the access would meet now, naming window and channel for CHANNEL_OFFLINE; it changes nothing but the link (R38 to R40, R175). -/
def Obligations.FindAddressAnswersTheOutcome : Prop :=
  ∀ (s : State) (p : List Byte), Dispatched .findAddress p s →
    (3 < byteAt p 0 → exec .findAddress s = .next (answeredWith s .badField [1] false)) ∧
    ∀ q : Fin 4, q.1 = byteAt p 0 →
      (accessKindOf (byteAt p 1) = none → exec .findAddress s = .next (answeredWith s .badField [2] false)) ∧
      ∀ kind, accessKindOf (byteAt p 1) = some kind →
        (byteAt p 2 ≠ 1 → byteAt p 2 ≠ 2 → byteAt p 2 ≠ 4 →
          exec .findAddress s = .next (answeredWith s .badField [3] false)) ∧
        ((byteAt p 2 = 1 ∨ byteAt p 2 = 2 ∨ byteAt p 2 = 4) →
          let r : Request := { kind := kind, size := byteAt p 2, address := wordAt p 3, data := [] }
          (HeldAtStep1 s r → exec .findAddress s = .next (answeredWith s .done [7] false)) ∧
          (¬ HeldAtStep1 s r →
            (NoWindowAt s r.address.toNat → exec .findAddress s = .next (answeredWith s .done [1] false)) ∧
            (∀ d w, FaultsAs s q r .span d .span (some w) →
              exec .findAddress s = .next (answeredWith s .done ([2] ++ w.bytes) false)) ∧
            (∀ d w, FaultsAs s q r .denied d .denied (some w) →
              exec .findAddress s = .next (answeredWith s .done ([3] ++ w.bytes) false)) ∧
            ∀ i, SelectsWhole s r i →
              Allows ((s.slotAt i).window.rights.look q) (s.slotAt i).window.swapAllowed r.kind →
              ((s.chanAt (s.slotAt i).window.channel).state = .offline → exec .findAddress s =
                .next (answeredWith s .done ([4] ++ (s.windowRef i).bytes ++ [byteOf (s.slotAt i).window.channel.1]) false)) ∧
              ((s.chanAt (s.slotAt i).window.channel).state ≠ .offline → exec .findAddress s =
                .next (answeredWith s .done ([0] ++ (s.windowRef i).bytes ++ [byteOf (boundUnder s i r).channel.1] ++
                  bytesTarget (boundUnder s i r).target ++ [byteOf (boundUnder s i r).plan.length] ++
                  (boundUnder s i r).plan.flatMap Beat.bytes) false))))

/-- QUERY_PORT, QUERY_CHANNEL, QUERY_SET, QUERY_PROFILE and READ_FAULT complete for every good argument, change nothing but the link's answer, and their answers have the lengths of R174 and R176. -/
def Obligations.QueriesChangeNothingButTheAnswer : Prop :=
  (∀ (s : State) (p : List Byte), Dispatched .queryPort p s → byteAt p 0 ≤ 3 →
    ∃ a, exec .queryPort s = .next (answeredWith s .done a false) ∧ a.length = 73) ∧
  (∀ (s : State) (p : List Byte), Dispatched .queryChannel p s → byteAt p 0 ≤ 3 →
    ∃ a, exec .queryChannel s = .next (answeredWith s .done a false) ∧ a.length = 11) ∧
  (∀ (s : State) (p : List Byte), Dispatched .querySet p s →
    ∃ a, exec .querySet s = .next (answeredWith s .done a false) ∧
      a.length = 5 + 22 * s.changeSet.entries.length +
        4 * (if s.changeSet.state = .committing then s.changeSet.footprint.length else 0)) ∧
  (∀ (s : State) (p : List Byte), Dispatched .queryProfile p s → byteAt p 0 ≤ 7 →
    ∃ a, exec .queryProfile s = .next (answeredWith s .done a false)) ∧
  (∀ (s : State) (p : List Byte), Dispatched .readFault p s → byteAt p 0 ≤ 3 →
    ∃ st a, exec .readFault s = .next (answeredWith s st a false) ∧ (st = .empty ∧ a = [] ∨ st = .done ∧ a.length = 22)) ∧
  ∀ (s : State) (p : List Byte), 3 < byteAt p 0 →
    (Dispatched .queryPort p s → exec .queryPort s = .next (answeredWith s .badField [1] false)) ∧
    (Dispatched .queryChannel p s → exec .queryChannel s = .next (answeredWith s .badField [1] false)) ∧
    (Dispatched .readFault p s → exec .readFault s = .next (answeredWith s .badField [1] false)) ∧
    (Dispatched .queryProfile p s → 7 < byteAt p 0 → exec .queryProfile s = .next (answeredWith s .badField [1] false))

/-- QUERY_CHANNEL and QUERY_PROFILE report the items of the channel and of the profile as they stand, with FFh for the items of a context where none is ON_BUS (R79, R110, R176, Table 9-12; the layout of QUERY_PROFILE is read from R171, LOG 19). -/
def Obligations.QueryChannelAndProfileReportTheItems : Prop :=
  (∀ (s : State) (p : List Byte) (c : Fin 4), Dispatched .queryChannel p s → c.1 = byteAt p 0 →
    ∃ a, exec .queryChannel s = .next (answeredWith s .done a false) ∧
      byteAt a 0 = (match (s.chanAt c).state with | .idle => 0 | .beat _ _ => 1 | .recovery _ => 2 | .offline => 3) ∧
      rawAt a 1 = byteOf (s.chanAt c).divisor ∧ rawAt a 2 = byteOf (s.chanAt c).timeouts ∧
      byteAt a 3 = (s.chanAt c).urgentPtr.1 ∧ byteAt a 4 = (s.chanAt c).normalPtr.1 ∧
      (rawAt a 5).getLsbD 0 = (s.chanAt c).onBus.isSome ∧
      (∀ id r b stamp m, OnBus s c id r b stamp m → (rawAt a 5).getLsbD 1 = m ∧ byteAt a 6 = id.port.1 ∧
        byteAt a 7 = id.tag.1 ∧ rawAt a 8 = byteOf b.completed ∧ rawAt a 9 = byteOf b.plan.length) ∧
      ((s.chanAt c).onBus = none → (rawAt a 5).getLsbD 1 = false ∧ ∀ j, j < 4 → rawAt a (6 + j) = 0xFF) ∧
      byteAt a 10 = (s.waiting c).length) ∧
  ∀ (s : State) (p : List Byte) (i : Fin 8), Dispatched .queryProfile p s → i.1 = byteAt p 0 →
    exec .queryProfile s = .next (answeredWith s .done [byteOf (s.profileAt i).setup, byteOf (s.profileAt i).strobe,
      (match (s.profileAt i).policy with | .ignore => 0 | .extend => 1), byteOf (s.profileAt i).timeout,
      byteOf ((s.profileAt i).timeout / 256), byteOf (s.profileAt i).recovery] false)

/-- READ_FAULT answers EMPTY for an empty record and else the first fault's fields, each part marked present or absent and sent as FFh when absent, with the further count; it changes nothing (R145, R174). -/
def Obligations.ReadFaultReportsTheRecord : Prop :=
  ∀ (s : State) (p : List Byte) (q : Fin 4), Dispatched .readFault p s → q.1 = byteAt p 0 →
    (s.faultAt q = none → exec .readFault s = .next (answeredWith s .empty [] false)) ∧
    ∀ f, s.faultAt q = some f → ∃ a, exec .readFault s = .next (answeredWith s .done a false) ∧ a.length = 22 ∧
      byteAt a 0 = (match f.kind with
        | .noWindow => 1 | .span => 2 | .denied => 3 | .channelOffline => 4 | .targetTimeout => 5 | .targetError => 6
        | .tagBusy => 8 | .badSize => 9) ∧
      byteAt a 1 = f.tag.1 ∧ byteAt a 2 = (match f.access with | .read => 1 | .write => 2 | .swap => 3) ∧
      rawAt a 3 = byteOf f.size ∧ wordAt a 4 = f.address ∧
      (rawAt a 8).getLsbD 0 = f.window.isSome ∧
      (rawAt a 8).getLsbD 1 = (match f.window with | some w => w.label.isSome | none => false) ∧
      (rawAt a 8).getLsbD 2 = f.target.isSome ∧
      (∀ w, f.window = some w → byteAt a 9 = w.slot.1 ∧ rawAt a 10 = w.generation ∧
        wordAt a 11 = w.label.getD 0xFFFFFFFF) ∧
      (f.window = none → rawAt a 9 = 0xFF ∧ rawAt a 10 = 0xFF ∧ wordAt a 11 = 0xFFFFFFFF) ∧
      (∀ x, f.target = some x → byteAt a 15 = x.channel.1 ∧ wordAt a 16 = x.byteAddress.setWidth 32 ∧
        rawAt a 20 = byteOf x.beatIndex) ∧
      (f.target = none → rawAt a 15 = 0xFF ∧ wordAt a 16 = 0xFFFFFFFF ∧ rawAt a 20 = 0xFF) ∧
      rawAt a 21 = byteOf f.further

/-! ### The management link -/

/-- A command frame that is whole, with a good CRC, a known code and the right length, taken in IDLE or ANSWERED, is dispatched: the stored response is gone, the sequence number kept, the collision mark clear, and nothing but the link changes (R161, R163). IDENTIFY is answered DONE with its nine bytes in the event of its dispatch, and by its owner where it stands dispatched (R177; LOG 10). -/
def Obligations.CommandFrameIsDispatched : Prop :=
  (∀ (s : State) (code seq : Byte) (payload later : List Byte) (cmd : CommandCode), TakesFrames s → s.link.exchange = .none →
    commandOf code = some cmd → cmd ≠ .identify → payload.length = cmd.payloadLength →
    exec (.commandFrame ([code, seq, byteOf payload.length] ++ payload ++
        [crc8 ([code, seq, byteOf payload.length] ++ payload)] ++ later)) s =
      .next (s.putLink { state := .executing { code := cmd, payload := payload, taken := false }, lastSequence := seq,
                         collisionMark := false, exchange := .decided })) ∧
  (∀ (s : State) (seq : Byte) (later : List Byte), TakesFrames s → s.link.exchange = .none →
    exec (.commandFrame ([0x01, seq, 0, crc8 [0x01, seq, 0]] ++ later)) s = .next (s.putLink
      { state := .answered { sequence := seq, status := .done, collided := false, lineHeld := false,
                             payload := [0x42, 0x49, 0x64, 0x04, 0x01, 64, 4, 4, 8] }
        lastSequence := seq, collisionMark := false, exchange := .decided })) ∧
  ∀ (s : State) (p : List Byte), Dispatched .identify p s →
    exec .identify s = .next (answeredWith s .done [0x42, 0x49, 0x64, 0x04, 0x01, 64, 4, 4, 8] false)

/-- A command frame is rejected by the first condition that applies, answered by the link itself with flags 0 and no payload, and no other block changes: length above 48, bad CRC, unknown code, wrong length for the code; one that stops short, before its length byte or before its CRC byte, is left undecided and is BAD_LENGTH at the release of MCS, with its sequence number if that byte was received and 0 if not. The release of any other exchange changes nothing but the exchange (R158, R161, R162). -/
def Obligations.CommandFrameIsRejected : Prop :=
  (∀ (s : State) (code seq len : Byte) (rest : List Byte), TakesFrames s → s.link.exchange = .none →
    (48 < len.toNat → exec (.commandFrame ([code, seq, len] ++ rest)) s =
      .next (s.putLink (withExchange (rejectedWith s.link .badLength seq) .decided))) ∧
    (len.toNat ≤ 48 → ∀ (payload later : List Byte) (crc : Byte), payload.length = len.toNat →
      rest = payload ++ [crc] ++ later →
      (crc ≠ crc8 ([code, seq, len] ++ payload) → exec (.commandFrame ([code, seq, len] ++ rest)) s =
        .next (s.putLink (withExchange (rejectedWith s.link .badCrc seq) .decided))) ∧
      (crc = crc8 ([code, seq, len] ++ payload) →
        (commandOf code = none → exec (.commandFrame ([code, seq, len] ++ rest)) s =
          .next (s.putLink (withExchange (rejectedWith s.link .unknownCommand seq) .decided))) ∧
        ∀ cmd, commandOf code = some cmd → len.toNat ≠ cmd.payloadLength →
          exec (.commandFrame ([code, seq, len] ++ rest)) s =
          .next (s.putLink (withExchange (rejectedWith s.link .badLength seq) .decided))))) ∧
  (∀ (s : State) (b : List Byte), TakesFrames s → s.link.exchange = .none →
    (b.length < 3 ∨ byteAt b 2 ≤ 48 ∧ b.length < 4 + byteAt b 2) →
    exec (.commandFrame b) s = .next (s.putLink (withExchange s.link (.undecided b)))) ∧
  (∀ (s : State) (b : List Byte), s.link.exchange = .undecided b → exec .mcsRelease s =
    .next (s.putLink (withExchange (rejectedWith s.link .badLength (b.getD 1 0)) .none))) ∧
  ∀ s : State, (∀ b, s.link.exchange ≠ .undecided b) → exec .mcsRelease s = .next (s.putLink (withExchange s.link .none))

/-- A command exchange while the link is EXECUTING is a collision: the mark is set, LINK_COLLISION latched, the exchange discarded whatever it carries, and the executing command and everything else untouched (R164; that the row COMMAND_FRAME then acts as COLLISION is the model's choice, LOG 11). -/
def Obligations.CommandWhileExecutingIsACollision : Prop :=
  ∀ (s : State) (x : Executing) (bytes : List Byte), s.link.state = .executing x → s.link.exchange = .none →
    exec (.commandFrame bytes) s = exec .collision s ∧
    exec .collision s = .next ((s.putLink { s.link with collisionMark := true, exchange := .ignored }).putAttention
      { s.attention with linkCollision := true })

/-- A response exchange returns NONE, PENDING or the stored response by the link state, an attention exchange the set and the mask, an unknown type byte nothing; while STARTING every exchange is ignored; none of them changes anything but the exchange. MDO returns FFh in byte 0 of every exchange, then the frame from byte 1 on, then FFh, and FFh throughout in an exchange that returns no frame (R154, R157, R158, R159, R165 to R167). -/
def Obligations.ReadingExchangesReturnTheirFrames : Prop :=
  (∀ s : State, s.link.exchange = .none →
    (s.link.state = .idle → exec .responseExchange s =
      .next (s.putLink (withExchange s.link (.returning [0x02, 0, 0x04, 0, 0, crc8 [0, 0x04, 0, 0]])))) ∧
    (∀ x, s.link.state = .executing x → exec .responseExchange s =
      .next (s.putLink (withExchange s.link (.returning (returnedFrame s.link.lastSequence .pending s.link.collisionMark false []))))) ∧
    (∀ r, s.link.state = .answered r → exec .responseExchange s =
      .next (s.putLink (withExchange s.link
        (.returning (returnedFrame r.sequence r.status r.collided r.lineHeld r.payload))))) ∧
    (s.link.state ≠ .starting →
      exec .attentionExchange s = .next (s.putLink (withExchange s.link (.returning
        ([0x03] ++ (bytes16 s.attentionSet ++ bytes16 s.attention.mask.toNat) ++
          [crc8 (bytes16 s.attentionSet ++ bytes16 s.attention.mask.toNat)])))) ∧
      ∀ t : Byte, t ≠ 1 → t ≠ 2 → t ≠ 3 → exec (.unknownTypeExchange t) s =
        .next (s.putLink (withExchange s.link .ignored)))) ∧
  (∀ s : State, s.mdoByte 0 = 0xFF ∧
    (∀ frame k, s.link.exchange = .returning frame → s.mdoByte (k + 1) = frame.getD k 0xFF) ∧
    ∀ k, (∀ frame, s.link.exchange ≠ .returning frame) → s.mdoByte k = 0xFF) ∧
  ∀ (s : State) (bytes : List Byte) (t : Byte), s.link.state = .starting → s.link.exchange = .none →
    ∀ e ∈ [Instr.commandFrame bytes, .responseExchange, .attentionExchange, .unknownTypeExchange t],
      exec e s = .next (s.putLink (withExchange s.link .ignored))

/-- The taking of RESET_ALL: every port IN_RESET with an empty queue, HELD, BOUND and DONE contexts freed, ON_BUS ones marked, the hold list and the records empty, start-up WAITING, the link still EXECUTING; windows, profiles, channels, the set's entries and footprint, the latched flags and the mask are kept, while a channel is in BEAT or a context ON_BUS; with neither, reinitialisation follows directly (R186, R187; that it samples the strap levels given last, R181, is the model's choice, LOG 7). -/
def Obligations.ResetAllStopsThePart : Prop :=
  (∀ (s : State) (p : List Byte), Dispatched .resetAll p s → (∀ c copy stage, (s.chanAt c).state ≠ .beat copy stage) →
    (∀ id r b stamp m, s.ctxAt id ≠ some ⟨r, .onBus b stamp m⟩) → ∃ t, exec .resetAll s = .next t ∧
    Reinitialised (s.putLink { s.link with state := .executing { code := .resetAll, payload := p, taken := true } }) t
      s.startUp.levels .resetAll) ∧
  ∀ (s : State) (p : List Byte), Dispatched .resetAll p s → ((∃ c copy stage, (s.chanAt c).state = .beat copy stage) ∨
    ∃ id r b stamp m, s.ctxAt id = some ⟨r, .onBus b stamp m⟩) → ∃ t, exec .resetAll s = .next t ∧
    (∀ q, t.portAt q = { s.portAt q with state := .inReset, queue := [] }) ∧
    (∀ id r b stamp m, s.ctxAt id = some ⟨r, .onBus b stamp m⟩ → t.ctxAt id = some ⟨r, .onBus b stamp true⟩) ∧
    (∀ id, (∀ r b stamp m, s.ctxAt id ≠ some ⟨r, .onBus b stamp m⟩) → t.ctxAt id = none) ∧
    (∀ i, t.slotAt i = fewerInFlight (s.slotAt i) (boundUnderSlot s ctxIds i)) ∧
    t.changeSet = { s.changeSet with holdList := [] } ∧ (∀ q, t.faultAt q = none) ∧
    t.startUp = { s.startUp with state := .waiting } ∧
    t.link = { s.link with state := .executing { code := .resetAll, payload := p, taken := true } } ∧
    t.profiles = s.profiles ∧ t.chans = s.chans ∧ t.attention = s.attention ∧ t.pending = s.pending

/-! ### Computations -/

/-- The CRC-8 over covered bytes followed by their CRC byte is 00h (R168). -/
def Obligations.CrcOverItsOwnByteIsZero : Prop := ∀ bytes : List Byte, crc8 (bytes ++ [crc8 bytes]) = 0

/-- Every plan of a READ or WRITE has one beat for each unit met, in increasing order from t - t mod W, each with a lane set that is the lanes of the access's bytes in that unit (R64, R65); a SWAP is planned as the READ beats and then WRITE beats on the same units and lanes (R70). -/
def Obligations.PlanCoversEveryByteOnce : Prop :=
  (∀ (kind : AccessKind) (n t W : Nat), kind ≠ .swap → (n = 1 ∨ n = 2 ∨ n = 4) → (W = 1 ∨ W = 2 ∨ W = 4) → t + n ≤ 2 ^ 28 →
    1 ≤ (planFor kind n t W).length ∧ (planFor kind n t W).length ≤ 4 ∧
    (∀ (j : Nat) (b : Beat), (planFor kind n t W)[j]? = some b → b.unit.toNat = t - t % W + j * W ∧
      b.phase = (if kind = .write then .write else .read) ∧ b.lanes ≠ 0 ∧
      ∀ L : Fin 4, b.lanes.getLsbD L.1 = decide (L.1 < W ∧ t ≤ b.unit.toNat + L.1 ∧ b.unit.toNat + L.1 < t + n)) ∧
    ∀ k, k < n → ∃ (j : Nat) (b : Beat), (planFor kind n t W)[j]? = some b ∧ b.unit.toNat = t + k - (t + k) % W ∧
      b.lanes.getLsbD ((t + k) % W) = true) ∧
  ∀ (n t W : Nat), (n = 1 ∨ n = 2 ∨ n = 4) → (W = 1 ∨ W = 2 ∨ W = 4) → t + n ≤ 2 ^ 28 →
    (planFor .swap n t W).length = 2 * (planFor .read n t W).length ∧
    ∀ (j : Nat) (b : Beat), (planFor .read n t W)[j]? = some b → (planFor .swap n t W)[j]? = some b ∧
      (planFor .swap n t W)[(planFor .read n t W).length + j]? = some { b with phase := .write }

/-! ### Laws that every step keeps -/

/-- The state after reset meets every law below. -/
def Obligations.ResetStateMeetsEveryLaw : Prop :=
  PortsFollowEnables State.reset ∧ ChannelLaw State.reset ∧ ChangeSetLaw State.reset ∧ QueueLaw State.reset ∧
    HoldListLaw State.reset ∧ OverlapLaw State.reset ∧ BindingLaw State.reset

/-- Every step keeps: a port not IN_RESET is in the state of its enable (R42). -/
def Obligations.StepKeepsPortsFollowingEnables : Prop :=
  ∀ s t : State, PortsFollowEnables s → step s = .next t → PortsFollowEnables t

/-- Every step keeps: count 3 exactly while OFFLINE, and quiet lines outside a beat (R90, R94). -/
def Obligations.StepKeepsTheChannelLaw : Prop := ∀ s t : State, ChannelLaw s → step s = .next t → ChannelLaw t

/-- Every step keeps: at most 8 entries naming different slots, none exactly when CLOSED (R114, R116). -/
def Obligations.StepKeepsTheChangeSetLaw : Prop := ∀ s t : State, ChangeSetLaw s → step s = .next t → ChangeSetLaw t

/-- Every step keeps: a response queue holds exactly the port's DONE contexts, once each (R51). -/
def Obligations.StepKeepsTheQueueLaw : Prop := ∀ s t : State, QueueLaw s → step s = .next t → QueueLaw t

/-- Every step from a state that meets the queue law keeps: the hold list holds exactly the HELD contexts, once each, and only while COMMITTING (R126). -/
def Obligations.StepKeepsTheHoldListLaw : Prop :=
  ∀ s t : State, QueueLaw s → HoldListLaw s → step s = .next t → HoldListLaw t

/-- Every step keeps: no two LIVE or FROZEN windows of equal rank overlap (R16), with what a commit needs for it (R9, R120, R123). -/
def Obligations.StepKeepsTheOverlapLaw : Prop := ∀ s t : State, OverlapLaw s → step s = .next t → OverlapLaw t

/-- Every step from a state that meets the queue law keeps: every count is the number of contexts in BOUND or ON_BUS naming the slot, each under a LIVE or FROZEN window of the generation it recorded (R14, R17), with what a commit needs for it (R9, R120, R125). -/
def Obligations.StepKeepsTheBindingLaw : Prop :=
  ∀ s t : State, QueueLaw s → BindingLaw s → step s = .next t → BindingLaw t

/-! ### QUERY_PORT and QUERY_SET, item by item -/

/-- QUERY_PORT answers the port's items and one entry for each tag, and QUERY_SET the set's items, its entries in order and, while COMMITTING, its footprint, each item at its place and FFh where it is absent or not present in the state reported (R59, R121, R176; the tag byte of an entry without a context and the label and swap bits of a RETIRE entry are read from R176, LOG 13 and 14). -/
def Obligations.QueryPortAndSetReportTheItems : Prop :=
  (∀ (s : State) (p : List Byte) (q : Fin 4), Dispatched .queryPort p s → q.1 = byteAt p 0 →
    ∃ a, exec .queryPort s = .next (answeredWith s .done a false) ∧
      byteAt a 0 = (match (s.portAt q).state with | .off => 0 | .on => 1 | .inReset => 2) ∧
      byteAt a 1 = (if (s.portAt q).enable then 1 else 0) ∧
      byteAt a 2 = (match (s.portAt q).cls with | .normal => 0 | .urgent => 1) ∧
      byteAt a 3 = (if (s.portAt q).prstn then 1 else 0) ∧ rawAt a 4 = byteOf (s.portAt q).queue.length ∧
      ∀ k : Fin 4, byteAt a (5 + 17 * k.1) = k.1 ∧
        (s.ctxAt ⟨q, k⟩ = none → rawAt a (6 + 17 * k.1) = 0 ∧ ∀ j, j < 15 → rawAt a (7 + 17 * k.1 + j) = 0xFF) ∧
        ∀ x, s.ctxAt ⟨q, k⟩ = some x →
          byteAt a (6 + 17 * k.1) = 1 + (if x.state = .held then 2 else 0) + (if x.windowRef.isSome then 4 else 0) +
            (if x.binding.isSome then 8 else 0) + (match x.state with | .onBus _ _ true => 16 | _ => 0) +
            (match x.state with | .done _ _ => 32 | _ => 0) ∧
          byteAt a (7 + 17 * k.1) = (match x.request.kind with | .read => 1 | .write => 2 | .swap => 3) ∧
          rawAt a (8 + 17 * k.1) = byteOf x.request.size ∧ wordAt a (9 + 17 * k.1) = x.request.address ∧
          byteAt a (13 + 17 * k.1) = (match x.state with | .held => 0 | .bound _ _ _ => 1 | .onBus _ _ _ => 2 | .done _ _ => 3) ∧
          (x.state ≠ .held → rawAt a (14 + 17 * k.1) = 0xFF) ∧
          (x.state = .held → ∀ n, s.changeSet.holdList[n]? = some ⟨q, k⟩ →
            (∀ m, m < n → s.changeSet.holdList[m]? ≠ some ⟨q, k⟩) → rawAt a (14 + 17 * k.1) = byteOf n) ∧
          (∀ w, x.windowRef = some w → byteAt a (15 + 17 * k.1) = w.slot.1 ∧ rawAt a (16 + 17 * k.1) = w.generation) ∧
          (x.windowRef = none → rawAt a (15 + 17 * k.1) = 0xFF ∧ rawAt a (16 + 17 * k.1) = 0xFF) ∧
          (∀ b, x.binding = some b → byteAt a (17 + 17 * k.1) = b.channel.1 ∧ rawAt a (18 + 17 * k.1) = byteOf b.completed ∧
            rawAt a (19 + 17 * k.1) = byteOf b.plan.length) ∧
          (x.binding = none → ∀ j, j < 3 → rawAt a (17 + 17 * k.1 + j) = 0xFF) ∧
          (∀ st d, x.state = .done st d → byteAt a (20 + 17 * k.1) = (match st with
              | .ok => 0 | .noWindow => 1 | .span => 2 | .denied => 3 | .channelOffline => 4 | .targetTimeout => 5
              | .targetError => 6) ∧
            ∀ n, (s.portAt q).queue[n]? = some k → (∀ m, m < n → (s.portAt q).queue[m]? ≠ some k) →
              rawAt a (21 + 17 * k.1) = byteOf n) ∧
          ((∀ st d, x.state ≠ .done st d) → rawAt a (20 + 17 * k.1) = 0xFF ∧ rawAt a (21 + 17 * k.1) = 0xFF)) ∧
  ∀ (s : State) (p : List Byte), Dispatched .querySet p s →
    ∃ a, exec .querySet s = .next (answeredWith s .done a false) ∧
      byteAt a 0 = (match s.changeSet.state with | .closed => 0 | .opened => 1 | .committing => 2) ∧
      rawAt a 1 = byteOf s.changeSet.entries.length ∧
      (s.changeSet.state ≠ .committing → rawAt a 2 = 0 ∧ rawAt a 3 = 0xFF ∧ rawAt a 4 = 0xFF) ∧
      (s.changeSet.state = .committing → rawAt a 2 = byteOf s.changeSet.footprint.length ∧
        rawAt a 3 = byteOf (ctxIds.filter fun id => blocks s.changeSet.footprint (s.ctxAt id)).length ∧
        rawAt a 4 = byteOf s.changeSet.holdList.length ∧
        ∀ (j : Nat) (f : Range), s.changeSet.footprint[j]? = some f →
          wordAt a (5 + 22 * s.changeSet.entries.length + 4 * j) = (f.base ||| BitVec.ofNat 32 f.sizeExp)) ∧
      ∀ (i : Nat) (e : Entry), s.changeSet.entries[i]? = some e →
        byteAt a (5 + 22 * i) = (match e with | .install _ _ => 0 | .amend _ _ _ => 1 | .retire _ _ => 2) ∧
        byteAt a (6 + 22 * i) = e.slot.1 ∧
        byteAt a (7 + 22 * i) = (if (e.window.bind Window.label).isSome then 1 else 0) +
          (if (e.window.map Window.swapAllowed) = some true then 2 else 0) + (if e.expected.isSome then 4 else 0) ∧
        rawAt a (8 + 22 * i) = e.expected.getD 0xFF ∧
        (e.window = none → ∀ j, j < 18 → rawAt a (9 + 22 * i + j) = 0xFF) ∧
        ∀ w, e.window = some w → wordAt a (9 + 22 * i) = w.base ∧ rawAt a (13 + 22 * i) = byteOf w.sizeExp ∧
          byteAt a (14 + 22 * i) = w.rank.1 ∧ byteAt a (15 + 22 * i) = w.channel.1 ∧
          byteAt a (16 + 22 * i) = w.width.bytes ∧ byteAt a (17 + 22 * i) = w.profile.1 ∧
          (∀ q : Fin 4, byteAt a (18 + 22 * i) / 4 ^ q.1 % 4 = (w.rights.look q).code) ∧
          wordAt a (19 + 22 * i) = w.targetBase.setWidth 32 ∧ wordAt a (23 + 22 * i) = w.label.getD 0xFFFFFFFF
end

