-- ==== Sys2Proof/Laws/State.lean ====
section
/-! SUPPORT. What each write of Ops leaves in each field of State and in each entry of its tables. No proof needs to unfold a record update. -/

namespace Sys2Proof.Machine

/-! ### Fields -/

@[simp] theorem State.putSlot_slots (s : State) (i : Fin 64) (x : Slot) : (s.putSlot i x).slots = s.slots.put i x := rfl
@[simp] theorem State.putSlot_ports (s : State) (i : Fin 64) (x : Slot) : (s.putSlot i x).ports = s.ports := rfl
@[simp] theorem State.putSlot_ctxs (s : State) (i : Fin 64) (x : Slot) : (s.putSlot i x).ctxs = s.ctxs := rfl
@[simp] theorem State.putSlot_profiles (s : State) (i : Fin 64) (x : Slot) : (s.putSlot i x).profiles = s.profiles := rfl
@[simp] theorem State.putSlot_chans (s : State) (i : Fin 64) (x : Slot) : (s.putSlot i x).chans = s.chans := rfl
@[simp] theorem State.putSlot_changeSet (s : State) (i : Fin 64) (x : Slot) : (s.putSlot i x).changeSet = s.changeSet := rfl
@[simp] theorem State.putSlot_faults (s : State) (i : Fin 64) (x : Slot) : (s.putSlot i x).faults = s.faults := rfl
@[simp] theorem State.putSlot_attention (s : State) (i : Fin 64) (x : Slot) : (s.putSlot i x).attention = s.attention := rfl
@[simp] theorem State.putSlot_link (s : State) (i : Fin 64) (x : Slot) : (s.putSlot i x).link = s.link := rfl
@[simp] theorem State.putSlot_startUp (s : State) (i : Fin 64) (x : Slot) : (s.putSlot i x).startUp = s.startUp := rfl
@[simp] theorem State.putSlot_pending (s : State) (i : Fin 64) (x : Slot) : (s.putSlot i x).pending = s.pending := rfl

@[simp] theorem State.putPort_slots (s : State) (p : Fin 4) (x : PortUnit) : (s.putPort p x).slots = s.slots := rfl
@[simp] theorem State.putPort_ports (s : State) (p : Fin 4) (x : PortUnit) : (s.putPort p x).ports = s.ports.put p x := rfl
@[simp] theorem State.putPort_ctxs (s : State) (p : Fin 4) (x : PortUnit) : (s.putPort p x).ctxs = s.ctxs := rfl
@[simp] theorem State.putPort_profiles (s : State) (p : Fin 4) (x : PortUnit) : (s.putPort p x).profiles = s.profiles := rfl
@[simp] theorem State.putPort_chans (s : State) (p : Fin 4) (x : PortUnit) : (s.putPort p x).chans = s.chans := rfl
@[simp] theorem State.putPort_changeSet (s : State) (p : Fin 4) (x : PortUnit) : (s.putPort p x).changeSet = s.changeSet := rfl
@[simp] theorem State.putPort_faults (s : State) (p : Fin 4) (x : PortUnit) : (s.putPort p x).faults = s.faults := rfl
@[simp] theorem State.putPort_attention (s : State) (p : Fin 4) (x : PortUnit) : (s.putPort p x).attention = s.attention := rfl
@[simp] theorem State.putPort_link (s : State) (p : Fin 4) (x : PortUnit) : (s.putPort p x).link = s.link := rfl
@[simp] theorem State.putPort_startUp (s : State) (p : Fin 4) (x : PortUnit) : (s.putPort p x).startUp = s.startUp := rfl
@[simp] theorem State.putPort_pending (s : State) (p : Fin 4) (x : PortUnit) : (s.putPort p x).pending = s.pending := rfl

@[simp] theorem State.putCtx_slots (s : State) (id : CtxId) (x : Option Context) : (s.putCtx id x).slots = s.slots := rfl
@[simp] theorem State.putCtx_ports (s : State) (id : CtxId) (x : Option Context) : (s.putCtx id x).ports = s.ports := rfl
@[simp] theorem State.putCtx_ctxs (s : State) (id : CtxId) (x : Option Context) : (s.putCtx id x).ctxs = s.ctxs.put id.idx x := rfl
@[simp] theorem State.putCtx_profiles (s : State) (id : CtxId) (x : Option Context) : (s.putCtx id x).profiles = s.profiles := rfl
@[simp] theorem State.putCtx_chans (s : State) (id : CtxId) (x : Option Context) : (s.putCtx id x).chans = s.chans := rfl
@[simp] theorem State.putCtx_changeSet (s : State) (id : CtxId) (x : Option Context) : (s.putCtx id x).changeSet = s.changeSet := rfl
@[simp] theorem State.putCtx_faults (s : State) (id : CtxId) (x : Option Context) : (s.putCtx id x).faults = s.faults := rfl
@[simp] theorem State.putCtx_attention (s : State) (id : CtxId) (x : Option Context) : (s.putCtx id x).attention = s.attention := rfl
@[simp] theorem State.putCtx_link (s : State) (id : CtxId) (x : Option Context) : (s.putCtx id x).link = s.link := rfl
@[simp] theorem State.putCtx_startUp (s : State) (id : CtxId) (x : Option Context) : (s.putCtx id x).startUp = s.startUp := rfl
@[simp] theorem State.putCtx_pending (s : State) (id : CtxId) (x : Option Context) : (s.putCtx id x).pending = s.pending := rfl

@[simp] theorem State.putProfile_slots (s : State) (i : Fin 8) (x : Profile) : (s.putProfile i x).slots = s.slots := rfl
@[simp] theorem State.putProfile_ports (s : State) (i : Fin 8) (x : Profile) : (s.putProfile i x).ports = s.ports := rfl
@[simp] theorem State.putProfile_ctxs (s : State) (i : Fin 8) (x : Profile) : (s.putProfile i x).ctxs = s.ctxs := rfl
@[simp] theorem State.putProfile_profiles (s : State) (i : Fin 8) (x : Profile) : (s.putProfile i x).profiles = s.profiles.put i x := rfl
@[simp] theorem State.putProfile_chans (s : State) (i : Fin 8) (x : Profile) : (s.putProfile i x).chans = s.chans := rfl
@[simp] theorem State.putProfile_changeSet (s : State) (i : Fin 8) (x : Profile) : (s.putProfile i x).changeSet = s.changeSet := rfl
@[simp] theorem State.putProfile_faults (s : State) (i : Fin 8) (x : Profile) : (s.putProfile i x).faults = s.faults := rfl
@[simp] theorem State.putProfile_attention (s : State) (i : Fin 8) (x : Profile) : (s.putProfile i x).attention = s.attention := rfl
@[simp] theorem State.putProfile_link (s : State) (i : Fin 8) (x : Profile) : (s.putProfile i x).link = s.link := rfl
@[simp] theorem State.putProfile_startUp (s : State) (i : Fin 8) (x : Profile) : (s.putProfile i x).startUp = s.startUp := rfl
@[simp] theorem State.putProfile_pending (s : State) (i : Fin 8) (x : Profile) : (s.putProfile i x).pending = s.pending := rfl

@[simp] theorem State.putChan_slots (s : State) (c : Fin 4) (x : Channel) : (s.putChan c x).slots = s.slots := rfl
@[simp] theorem State.putChan_ports (s : State) (c : Fin 4) (x : Channel) : (s.putChan c x).ports = s.ports := rfl
@[simp] theorem State.putChan_ctxs (s : State) (c : Fin 4) (x : Channel) : (s.putChan c x).ctxs = s.ctxs := rfl
@[simp] theorem State.putChan_profiles (s : State) (c : Fin 4) (x : Channel) : (s.putChan c x).profiles = s.profiles := rfl
@[simp] theorem State.putChan_chans (s : State) (c : Fin 4) (x : Channel) : (s.putChan c x).chans = s.chans.put c x := rfl
@[simp] theorem State.putChan_changeSet (s : State) (c : Fin 4) (x : Channel) : (s.putChan c x).changeSet = s.changeSet := rfl
@[simp] theorem State.putChan_faults (s : State) (c : Fin 4) (x : Channel) : (s.putChan c x).faults = s.faults := rfl
@[simp] theorem State.putChan_attention (s : State) (c : Fin 4) (x : Channel) : (s.putChan c x).attention = s.attention := rfl
@[simp] theorem State.putChan_link (s : State) (c : Fin 4) (x : Channel) : (s.putChan c x).link = s.link := rfl
@[simp] theorem State.putChan_startUp (s : State) (c : Fin 4) (x : Channel) : (s.putChan c x).startUp = s.startUp := rfl
@[simp] theorem State.putChan_pending (s : State) (c : Fin 4) (x : Channel) : (s.putChan c x).pending = s.pending := rfl

@[simp] theorem State.putFault_slots (s : State) (p : Fin 4) (x : Option FaultRecord) : (s.putFault p x).slots = s.slots := rfl
@[simp] theorem State.putFault_ports (s : State) (p : Fin 4) (x : Option FaultRecord) : (s.putFault p x).ports = s.ports := rfl
@[simp] theorem State.putFault_ctxs (s : State) (p : Fin 4) (x : Option FaultRecord) : (s.putFault p x).ctxs = s.ctxs := rfl
@[simp] theorem State.putFault_profiles (s : State) (p : Fin 4) (x : Option FaultRecord) : (s.putFault p x).profiles = s.profiles := rfl
@[simp] theorem State.putFault_chans (s : State) (p : Fin 4) (x : Option FaultRecord) : (s.putFault p x).chans = s.chans := rfl
@[simp] theorem State.putFault_changeSet (s : State) (p : Fin 4) (x : Option FaultRecord) : (s.putFault p x).changeSet = s.changeSet := rfl
@[simp] theorem State.putFault_faults (s : State) (p : Fin 4) (x : Option FaultRecord) : (s.putFault p x).faults = s.faults.put p x := rfl
@[simp] theorem State.putFault_attention (s : State) (p : Fin 4) (x : Option FaultRecord) : (s.putFault p x).attention = s.attention := rfl
@[simp] theorem State.putFault_link (s : State) (p : Fin 4) (x : Option FaultRecord) : (s.putFault p x).link = s.link := rfl
@[simp] theorem State.putFault_startUp (s : State) (p : Fin 4) (x : Option FaultRecord) : (s.putFault p x).startUp = s.startUp := rfl
@[simp] theorem State.putFault_pending (s : State) (p : Fin 4) (x : Option FaultRecord) : (s.putFault p x).pending = s.pending := rfl

@[simp] theorem State.putChangeSet_slots (s : State) (x : ChangeSet) : (s.putChangeSet x).slots = s.slots := rfl
@[simp] theorem State.putChangeSet_ports (s : State) (x : ChangeSet) : (s.putChangeSet x).ports = s.ports := rfl
@[simp] theorem State.putChangeSet_ctxs (s : State) (x : ChangeSet) : (s.putChangeSet x).ctxs = s.ctxs := rfl
@[simp] theorem State.putChangeSet_profiles (s : State) (x : ChangeSet) : (s.putChangeSet x).profiles = s.profiles := rfl
@[simp] theorem State.putChangeSet_chans (s : State) (x : ChangeSet) : (s.putChangeSet x).chans = s.chans := rfl
@[simp] theorem State.putChangeSet_changeSet (s : State) (x : ChangeSet) : (s.putChangeSet x).changeSet = x := rfl
@[simp] theorem State.putChangeSet_faults (s : State) (x : ChangeSet) : (s.putChangeSet x).faults = s.faults := rfl
@[simp] theorem State.putChangeSet_attention (s : State) (x : ChangeSet) : (s.putChangeSet x).attention = s.attention := rfl
@[simp] theorem State.putChangeSet_link (s : State) (x : ChangeSet) : (s.putChangeSet x).link = s.link := rfl
@[simp] theorem State.putChangeSet_startUp (s : State) (x : ChangeSet) : (s.putChangeSet x).startUp = s.startUp := rfl
@[simp] theorem State.putChangeSet_pending (s : State) (x : ChangeSet) : (s.putChangeSet x).pending = s.pending := rfl

@[simp] theorem State.putAttention_slots (s : State) (x : Attention) : (s.putAttention x).slots = s.slots := rfl
@[simp] theorem State.putAttention_ports (s : State) (x : Attention) : (s.putAttention x).ports = s.ports := rfl
@[simp] theorem State.putAttention_ctxs (s : State) (x : Attention) : (s.putAttention x).ctxs = s.ctxs := rfl
@[simp] theorem State.putAttention_profiles (s : State) (x : Attention) : (s.putAttention x).profiles = s.profiles := rfl
@[simp] theorem State.putAttention_chans (s : State) (x : Attention) : (s.putAttention x).chans = s.chans := rfl
@[simp] theorem State.putAttention_changeSet (s : State) (x : Attention) : (s.putAttention x).changeSet = s.changeSet := rfl
@[simp] theorem State.putAttention_faults (s : State) (x : Attention) : (s.putAttention x).faults = s.faults := rfl
@[simp] theorem State.putAttention_attention (s : State) (x : Attention) : (s.putAttention x).attention = x := rfl
@[simp] theorem State.putAttention_link (s : State) (x : Attention) : (s.putAttention x).link = s.link := rfl
@[simp] theorem State.putAttention_startUp (s : State) (x : Attention) : (s.putAttention x).startUp = s.startUp := rfl
@[simp] theorem State.putAttention_pending (s : State) (x : Attention) : (s.putAttention x).pending = s.pending := rfl

@[simp] theorem State.putLink_slots (s : State) (x : Link) : (s.putLink x).slots = s.slots := rfl
@[simp] theorem State.putLink_ports (s : State) (x : Link) : (s.putLink x).ports = s.ports := rfl
@[simp] theorem State.putLink_ctxs (s : State) (x : Link) : (s.putLink x).ctxs = s.ctxs := rfl
@[simp] theorem State.putLink_profiles (s : State) (x : Link) : (s.putLink x).profiles = s.profiles := rfl
@[simp] theorem State.putLink_chans (s : State) (x : Link) : (s.putLink x).chans = s.chans := rfl
@[simp] theorem State.putLink_changeSet (s : State) (x : Link) : (s.putLink x).changeSet = s.changeSet := rfl
@[simp] theorem State.putLink_faults (s : State) (x : Link) : (s.putLink x).faults = s.faults := rfl
@[simp] theorem State.putLink_attention (s : State) (x : Link) : (s.putLink x).attention = s.attention := rfl
@[simp] theorem State.putLink_link (s : State) (x : Link) : (s.putLink x).link = x := rfl
@[simp] theorem State.putLink_startUp (s : State) (x : Link) : (s.putLink x).startUp = s.startUp := rfl
@[simp] theorem State.putLink_pending (s : State) (x : Link) : (s.putLink x).pending = s.pending := rfl

@[simp] theorem State.putStartUp_slots (s : State) (x : StartUp) : (s.putStartUp x).slots = s.slots := rfl
@[simp] theorem State.putStartUp_ports (s : State) (x : StartUp) : (s.putStartUp x).ports = s.ports := rfl
@[simp] theorem State.putStartUp_ctxs (s : State) (x : StartUp) : (s.putStartUp x).ctxs = s.ctxs := rfl
@[simp] theorem State.putStartUp_profiles (s : State) (x : StartUp) : (s.putStartUp x).profiles = s.profiles := rfl
@[simp] theorem State.putStartUp_chans (s : State) (x : StartUp) : (s.putStartUp x).chans = s.chans := rfl
@[simp] theorem State.putStartUp_changeSet (s : State) (x : StartUp) : (s.putStartUp x).changeSet = s.changeSet := rfl
@[simp] theorem State.putStartUp_faults (s : State) (x : StartUp) : (s.putStartUp x).faults = s.faults := rfl
@[simp] theorem State.putStartUp_attention (s : State) (x : StartUp) : (s.putStartUp x).attention = s.attention := rfl
@[simp] theorem State.putStartUp_link (s : State) (x : StartUp) : (s.putStartUp x).link = s.link := rfl
@[simp] theorem State.putStartUp_startUp (s : State) (x : StartUp) : (s.putStartUp x).startUp = x := rfl
@[simp] theorem State.putStartUp_pending (s : State) (x : StartUp) : (s.putStartUp x).pending = s.pending := rfl

@[simp] theorem State.mapCtxs_slots (s : State) (f : Option Context → Option Context) : (s.mapCtxs f).slots = s.slots := rfl
@[simp] theorem State.mapCtxs_ports (s : State) (f : Option Context → Option Context) : (s.mapCtxs f).ports = s.ports := rfl
@[simp] theorem State.mapCtxs_ctxs (s : State) (f : Option Context → Option Context) : (s.mapCtxs f).ctxs = s.ctxs.mapAll f := rfl
@[simp] theorem State.mapCtxs_profiles (s : State) (f : Option Context → Option Context) : (s.mapCtxs f).profiles = s.profiles := rfl
@[simp] theorem State.mapCtxs_chans (s : State) (f : Option Context → Option Context) : (s.mapCtxs f).chans = s.chans := rfl
@[simp] theorem State.mapCtxs_changeSet (s : State) (f : Option Context → Option Context) : (s.mapCtxs f).changeSet = s.changeSet := rfl
@[simp] theorem State.mapCtxs_faults (s : State) (f : Option Context → Option Context) : (s.mapCtxs f).faults = s.faults := rfl
@[simp] theorem State.mapCtxs_attention (s : State) (f : Option Context → Option Context) : (s.mapCtxs f).attention = s.attention := rfl
@[simp] theorem State.mapCtxs_link (s : State) (f : Option Context → Option Context) : (s.mapCtxs f).link = s.link := rfl
@[simp] theorem State.mapCtxs_startUp (s : State) (f : Option Context → Option Context) : (s.mapCtxs f).startUp = s.startUp := rfl
@[simp] theorem State.mapCtxs_pending (s : State) (f : Option Context → Option Context) : (s.mapCtxs f).pending = s.pending := rfl

@[simp] theorem State.mapPorts_slots (s : State) (f : PortUnit → PortUnit) : (s.mapPorts f).slots = s.slots := rfl
@[simp] theorem State.mapPorts_ports (s : State) (f : PortUnit → PortUnit) : (s.mapPorts f).ports = s.ports.mapAll f := rfl
@[simp] theorem State.mapPorts_ctxs (s : State) (f : PortUnit → PortUnit) : (s.mapPorts f).ctxs = s.ctxs := rfl
@[simp] theorem State.mapPorts_profiles (s : State) (f : PortUnit → PortUnit) : (s.mapPorts f).profiles = s.profiles := rfl
@[simp] theorem State.mapPorts_chans (s : State) (f : PortUnit → PortUnit) : (s.mapPorts f).chans = s.chans := rfl
@[simp] theorem State.mapPorts_changeSet (s : State) (f : PortUnit → PortUnit) : (s.mapPorts f).changeSet = s.changeSet := rfl
@[simp] theorem State.mapPorts_faults (s : State) (f : PortUnit → PortUnit) : (s.mapPorts f).faults = s.faults := rfl
@[simp] theorem State.mapPorts_attention (s : State) (f : PortUnit → PortUnit) : (s.mapPorts f).attention = s.attention := rfl
@[simp] theorem State.mapPorts_link (s : State) (f : PortUnit → PortUnit) : (s.mapPorts f).link = s.link := rfl
@[simp] theorem State.mapPorts_startUp (s : State) (f : PortUnit → PortUnit) : (s.mapPorts f).startUp = s.startUp := rfl
@[simp] theorem State.mapPorts_pending (s : State) (f : PortUnit → PortUnit) : (s.mapPorts f).pending = s.pending := rfl

@[simp] theorem State.emptyFaults_slots (s : State) : (s.emptyFaults).slots = s.slots := rfl
@[simp] theorem State.emptyFaults_ports (s : State) : (s.emptyFaults).ports = s.ports := rfl
@[simp] theorem State.emptyFaults_ctxs (s : State) : (s.emptyFaults).ctxs = s.ctxs := rfl
@[simp] theorem State.emptyFaults_profiles (s : State) : (s.emptyFaults).profiles = s.profiles := rfl
@[simp] theorem State.emptyFaults_chans (s : State) : (s.emptyFaults).chans = s.chans := rfl
@[simp] theorem State.emptyFaults_changeSet (s : State) : (s.emptyFaults).changeSet = s.changeSet := rfl
@[simp] theorem State.emptyFaults_faults (s : State) : (s.emptyFaults).faults = Vector.replicate 4 none := rfl
@[simp] theorem State.emptyFaults_attention (s : State) : (s.emptyFaults).attention = s.attention := rfl
@[simp] theorem State.emptyFaults_link (s : State) : (s.emptyFaults).link = s.link := rfl
@[simp] theorem State.emptyFaults_startUp (s : State) : (s.emptyFaults).startUp = s.startUp := rfl
@[simp] theorem State.emptyFaults_pending (s : State) : (s.emptyFaults).pending = s.pending := rfl

/-! ### Entries -/

theorem CtxId.idx_inj {a b : CtxId} (h : a.idx = b.idx) : a = b := by
  rcases a with ⟨⟨p, hp⟩, ⟨t, ht⟩⟩
  rcases b with ⟨⟨q, hq⟩, ⟨u, hu⟩⟩
  have h : 4 * p + t = 4 * q + u := congrArg Fin.val h
  simp only [CtxId.mk.injEq, Fin.mk.injEq]
  omega

theorem State.slotAt_putSlot (s : State) (i : Fin 64) (x : Slot) (j : Fin 64) :
    (s.putSlot i x).slotAt j = if j = i then x else s.slotAt j := Table.look_put ..
@[simp] theorem State.slotAt_putSlot_same (s : State) (i : Fin 64) (x : Slot) : (s.putSlot i x).slotAt i = x := Table.look_put_same ..
theorem State.slotAt_putSlot_ne (s : State) (i : Fin 64) (x : Slot) (j : Fin 64) (h : j ≠ i) : (s.putSlot i x).slotAt j = s.slotAt j :=
  Table.look_put_ne _ _ h
@[simp] theorem State.portAt_putSlot (s : State) (i : Fin 64) (x : Slot) (q : Fin 4) : (s.putSlot i x).portAt q = s.portAt q := rfl
@[simp] theorem State.ctxAt_putSlot (s : State) (i : Fin 64) (x : Slot) (k : CtxId) : (s.putSlot i x).ctxAt k = s.ctxAt k := rfl
@[simp] theorem State.profileAt_putSlot (s : State) (i : Fin 64) (x : Slot) (j : Fin 8) : (s.putSlot i x).profileAt j = s.profileAt j := rfl
@[simp] theorem State.chanAt_putSlot (s : State) (i : Fin 64) (x : Slot) (d : Fin 4) : (s.putSlot i x).chanAt d = s.chanAt d := rfl
@[simp] theorem State.faultAt_putSlot (s : State) (i : Fin 64) (x : Slot) (q : Fin 4) : (s.putSlot i x).faultAt q = s.faultAt q := rfl

@[simp] theorem State.slotAt_putPort (s : State) (p : Fin 4) (x : PortUnit) (j : Fin 64) : (s.putPort p x).slotAt j = s.slotAt j := rfl
theorem State.portAt_putPort (s : State) (p : Fin 4) (x : PortUnit) (q : Fin 4) :
    (s.putPort p x).portAt q = if q = p then x else s.portAt q := Table.look_put ..
@[simp] theorem State.portAt_putPort_same (s : State) (p : Fin 4) (x : PortUnit) : (s.putPort p x).portAt p = x := Table.look_put_same ..
theorem State.portAt_putPort_ne (s : State) (p : Fin 4) (x : PortUnit) (q : Fin 4) (h : q ≠ p) : (s.putPort p x).portAt q = s.portAt q :=
  Table.look_put_ne _ _ h
@[simp] theorem State.ctxAt_putPort (s : State) (p : Fin 4) (x : PortUnit) (k : CtxId) : (s.putPort p x).ctxAt k = s.ctxAt k := rfl
@[simp] theorem State.profileAt_putPort (s : State) (p : Fin 4) (x : PortUnit) (j : Fin 8) : (s.putPort p x).profileAt j = s.profileAt j := rfl
@[simp] theorem State.chanAt_putPort (s : State) (p : Fin 4) (x : PortUnit) (d : Fin 4) : (s.putPort p x).chanAt d = s.chanAt d := rfl
@[simp] theorem State.faultAt_putPort (s : State) (p : Fin 4) (x : PortUnit) (q : Fin 4) : (s.putPort p x).faultAt q = s.faultAt q := rfl

@[simp] theorem State.slotAt_putCtx (s : State) (id : CtxId) (x : Option Context) (j : Fin 64) : (s.putCtx id x).slotAt j = s.slotAt j := rfl
@[simp] theorem State.portAt_putCtx (s : State) (id : CtxId) (x : Option Context) (q : Fin 4) : (s.putCtx id x).portAt q = s.portAt q := rfl
@[simp] theorem State.ctxAt_putCtx_same (s : State) (id : CtxId) (x : Option Context) : (s.putCtx id x).ctxAt id = x := Table.look_put_same ..
theorem State.ctxAt_putCtx_ne (s : State) (id : CtxId) (x : Option Context) (k : CtxId) (h : k ≠ id) : (s.putCtx id x).ctxAt k = s.ctxAt k :=
  Table.look_put_ne _ _ fun e => h (CtxId.idx_inj e)
theorem State.ctxAt_putCtx (s : State) (id : CtxId) (x : Option Context) (k : CtxId) :
    (s.putCtx id x).ctxAt k = if k = id then x else s.ctxAt k := by
  by_cases h : k = id
  · simp [h]
  · simp [h, State.ctxAt_putCtx_ne]
@[simp] theorem State.profileAt_putCtx (s : State) (id : CtxId) (x : Option Context) (j : Fin 8) : (s.putCtx id x).profileAt j = s.profileAt j := rfl
@[simp] theorem State.chanAt_putCtx (s : State) (id : CtxId) (x : Option Context) (d : Fin 4) : (s.putCtx id x).chanAt d = s.chanAt d := rfl
@[simp] theorem State.faultAt_putCtx (s : State) (id : CtxId) (x : Option Context) (q : Fin 4) : (s.putCtx id x).faultAt q = s.faultAt q := rfl

@[simp] theorem State.slotAt_putProfile (s : State) (i : Fin 8) (x : Profile) (j : Fin 64) : (s.putProfile i x).slotAt j = s.slotAt j := rfl
@[simp] theorem State.portAt_putProfile (s : State) (i : Fin 8) (x : Profile) (q : Fin 4) : (s.putProfile i x).portAt q = s.portAt q := rfl
@[simp] theorem State.ctxAt_putProfile (s : State) (i : Fin 8) (x : Profile) (k : CtxId) : (s.putProfile i x).ctxAt k = s.ctxAt k := rfl
theorem State.profileAt_putProfile (s : State) (i : Fin 8) (x : Profile) (j : Fin 8) :
    (s.putProfile i x).profileAt j = if j = i then x else s.profileAt j := Table.look_put ..
@[simp] theorem State.profileAt_putProfile_same (s : State) (i : Fin 8) (x : Profile) : (s.putProfile i x).profileAt i = x := Table.look_put_same ..
theorem State.profileAt_putProfile_ne (s : State) (i : Fin 8) (x : Profile) (j : Fin 8) (h : j ≠ i) : (s.putProfile i x).profileAt j = s.profileAt j :=
  Table.look_put_ne _ _ h
@[simp] theorem State.chanAt_putProfile (s : State) (i : Fin 8) (x : Profile) (d : Fin 4) : (s.putProfile i x).chanAt d = s.chanAt d := rfl
@[simp] theorem State.faultAt_putProfile (s : State) (i : Fin 8) (x : Profile) (q : Fin 4) : (s.putProfile i x).faultAt q = s.faultAt q := rfl

@[simp] theorem State.slotAt_putChan (s : State) (c : Fin 4) (x : Channel) (j : Fin 64) : (s.putChan c x).slotAt j = s.slotAt j := rfl
@[simp] theorem State.portAt_putChan (s : State) (c : Fin 4) (x : Channel) (q : Fin 4) : (s.putChan c x).portAt q = s.portAt q := rfl
@[simp] theorem State.ctxAt_putChan (s : State) (c : Fin 4) (x : Channel) (k : CtxId) : (s.putChan c x).ctxAt k = s.ctxAt k := rfl
@[simp] theorem State.profileAt_putChan (s : State) (c : Fin 4) (x : Channel) (j : Fin 8) : (s.putChan c x).profileAt j = s.profileAt j := rfl
theorem State.chanAt_putChan (s : State) (c : Fin 4) (x : Channel) (d : Fin 4) :
    (s.putChan c x).chanAt d = if d = c then x else s.chanAt d := Table.look_put ..
@[simp] theorem State.chanAt_putChan_same (s : State) (c : Fin 4) (x : Channel) : (s.putChan c x).chanAt c = x := Table.look_put_same ..
theorem State.chanAt_putChan_ne (s : State) (c : Fin 4) (x : Channel) (d : Fin 4) (h : d ≠ c) : (s.putChan c x).chanAt d = s.chanAt d :=
  Table.look_put_ne _ _ h
@[simp] theorem State.faultAt_putChan (s : State) (c : Fin 4) (x : Channel) (q : Fin 4) : (s.putChan c x).faultAt q = s.faultAt q := rfl

@[simp] theorem State.slotAt_putFault (s : State) (p : Fin 4) (x : Option FaultRecord) (j : Fin 64) : (s.putFault p x).slotAt j = s.slotAt j := rfl
@[simp] theorem State.portAt_putFault (s : State) (p : Fin 4) (x : Option FaultRecord) (q : Fin 4) : (s.putFault p x).portAt q = s.portAt q := rfl
@[simp] theorem State.ctxAt_putFault (s : State) (p : Fin 4) (x : Option FaultRecord) (k : CtxId) : (s.putFault p x).ctxAt k = s.ctxAt k := rfl
@[simp] theorem State.profileAt_putFault (s : State) (p : Fin 4) (x : Option FaultRecord) (j : Fin 8) : (s.putFault p x).profileAt j = s.profileAt j := rfl
@[simp] theorem State.chanAt_putFault (s : State) (p : Fin 4) (x : Option FaultRecord) (d : Fin 4) : (s.putFault p x).chanAt d = s.chanAt d := rfl
theorem State.faultAt_putFault (s : State) (p : Fin 4) (x : Option FaultRecord) (q : Fin 4) :
    (s.putFault p x).faultAt q = if q = p then x else s.faultAt q := Table.look_put ..
@[simp] theorem State.faultAt_putFault_same (s : State) (p : Fin 4) (x : Option FaultRecord) : (s.putFault p x).faultAt p = x := Table.look_put_same ..
theorem State.faultAt_putFault_ne (s : State) (p : Fin 4) (x : Option FaultRecord) (q : Fin 4) (h : q ≠ p) : (s.putFault p x).faultAt q = s.faultAt q :=
  Table.look_put_ne _ _ h

@[simp] theorem State.slotAt_putChangeSet (s : State) (x : ChangeSet) (j : Fin 64) : (s.putChangeSet x).slotAt j = s.slotAt j := rfl
@[simp] theorem State.portAt_putChangeSet (s : State) (x : ChangeSet) (q : Fin 4) : (s.putChangeSet x).portAt q = s.portAt q := rfl
@[simp] theorem State.ctxAt_putChangeSet (s : State) (x : ChangeSet) (k : CtxId) : (s.putChangeSet x).ctxAt k = s.ctxAt k := rfl
@[simp] theorem State.profileAt_putChangeSet (s : State) (x : ChangeSet) (j : Fin 8) : (s.putChangeSet x).profileAt j = s.profileAt j := rfl
@[simp] theorem State.chanAt_putChangeSet (s : State) (x : ChangeSet) (d : Fin 4) : (s.putChangeSet x).chanAt d = s.chanAt d := rfl
@[simp] theorem State.faultAt_putChangeSet (s : State) (x : ChangeSet) (q : Fin 4) : (s.putChangeSet x).faultAt q = s.faultAt q := rfl

@[simp] theorem State.slotAt_putAttention (s : State) (x : Attention) (j : Fin 64) : (s.putAttention x).slotAt j = s.slotAt j := rfl
@[simp] theorem State.portAt_putAttention (s : State) (x : Attention) (q : Fin 4) : (s.putAttention x).portAt q = s.portAt q := rfl
@[simp] theorem State.ctxAt_putAttention (s : State) (x : Attention) (k : CtxId) : (s.putAttention x).ctxAt k = s.ctxAt k := rfl
@[simp] theorem State.profileAt_putAttention (s : State) (x : Attention) (j : Fin 8) : (s.putAttention x).profileAt j = s.profileAt j := rfl
@[simp] theorem State.chanAt_putAttention (s : State) (x : Attention) (d : Fin 4) : (s.putAttention x).chanAt d = s.chanAt d := rfl
@[simp] theorem State.faultAt_putAttention (s : State) (x : Attention) (q : Fin 4) : (s.putAttention x).faultAt q = s.faultAt q := rfl

@[simp] theorem State.slotAt_putLink (s : State) (x : Link) (j : Fin 64) : (s.putLink x).slotAt j = s.slotAt j := rfl
@[simp] theorem State.portAt_putLink (s : State) (x : Link) (q : Fin 4) : (s.putLink x).portAt q = s.portAt q := rfl
@[simp] theorem State.ctxAt_putLink (s : State) (x : Link) (k : CtxId) : (s.putLink x).ctxAt k = s.ctxAt k := rfl
@[simp] theorem State.profileAt_putLink (s : State) (x : Link) (j : Fin 8) : (s.putLink x).profileAt j = s.profileAt j := rfl
@[simp] theorem State.chanAt_putLink (s : State) (x : Link) (d : Fin 4) : (s.putLink x).chanAt d = s.chanAt d := rfl
@[simp] theorem State.faultAt_putLink (s : State) (x : Link) (q : Fin 4) : (s.putLink x).faultAt q = s.faultAt q := rfl

@[simp] theorem State.slotAt_putStartUp (s : State) (x : StartUp) (j : Fin 64) : (s.putStartUp x).slotAt j = s.slotAt j := rfl
@[simp] theorem State.portAt_putStartUp (s : State) (x : StartUp) (q : Fin 4) : (s.putStartUp x).portAt q = s.portAt q := rfl
@[simp] theorem State.ctxAt_putStartUp (s : State) (x : StartUp) (k : CtxId) : (s.putStartUp x).ctxAt k = s.ctxAt k := rfl
@[simp] theorem State.profileAt_putStartUp (s : State) (x : StartUp) (j : Fin 8) : (s.putStartUp x).profileAt j = s.profileAt j := rfl
@[simp] theorem State.chanAt_putStartUp (s : State) (x : StartUp) (d : Fin 4) : (s.putStartUp x).chanAt d = s.chanAt d := rfl
@[simp] theorem State.faultAt_putStartUp (s : State) (x : StartUp) (q : Fin 4) : (s.putStartUp x).faultAt q = s.faultAt q := rfl

@[simp] theorem State.slotAt_mapCtxs (s : State) (f : Option Context → Option Context) (j : Fin 64) : (s.mapCtxs f).slotAt j = s.slotAt j := rfl
@[simp] theorem State.portAt_mapCtxs (s : State) (f : Option Context → Option Context) (q : Fin 4) : (s.mapCtxs f).portAt q = s.portAt q := rfl
@[simp] theorem State.ctxAt_mapCtxs (s : State) (f : Option Context → Option Context) (k : CtxId) : (s.mapCtxs f).ctxAt k = f (s.ctxAt k) := Table.look_mapAll ..
@[simp] theorem State.profileAt_mapCtxs (s : State) (f : Option Context → Option Context) (j : Fin 8) : (s.mapCtxs f).profileAt j = s.profileAt j := rfl
@[simp] theorem State.chanAt_mapCtxs (s : State) (f : Option Context → Option Context) (d : Fin 4) : (s.mapCtxs f).chanAt d = s.chanAt d := rfl
@[simp] theorem State.faultAt_mapCtxs (s : State) (f : Option Context → Option Context) (q : Fin 4) : (s.mapCtxs f).faultAt q = s.faultAt q := rfl

@[simp] theorem State.slotAt_mapPorts (s : State) (f : PortUnit → PortUnit) (j : Fin 64) : (s.mapPorts f).slotAt j = s.slotAt j := rfl
@[simp] theorem State.portAt_mapPorts (s : State) (f : PortUnit → PortUnit) (q : Fin 4) : (s.mapPorts f).portAt q = f (s.portAt q) := Table.look_mapAll ..
@[simp] theorem State.ctxAt_mapPorts (s : State) (f : PortUnit → PortUnit) (k : CtxId) : (s.mapPorts f).ctxAt k = s.ctxAt k := rfl
@[simp] theorem State.profileAt_mapPorts (s : State) (f : PortUnit → PortUnit) (j : Fin 8) : (s.mapPorts f).profileAt j = s.profileAt j := rfl
@[simp] theorem State.chanAt_mapPorts (s : State) (f : PortUnit → PortUnit) (d : Fin 4) : (s.mapPorts f).chanAt d = s.chanAt d := rfl
@[simp] theorem State.faultAt_mapPorts (s : State) (f : PortUnit → PortUnit) (q : Fin 4) : (s.mapPorts f).faultAt q = s.faultAt q := rfl

@[simp] theorem State.slotAt_emptyFaults (s : State) (j : Fin 64) : (s.emptyFaults).slotAt j = s.slotAt j := rfl
@[simp] theorem State.portAt_emptyFaults (s : State) (q : Fin 4) : (s.emptyFaults).portAt q = s.portAt q := rfl
@[simp] theorem State.ctxAt_emptyFaults (s : State) (k : CtxId) : (s.emptyFaults).ctxAt k = s.ctxAt k := rfl
@[simp] theorem State.profileAt_emptyFaults (s : State) (j : Fin 8) : (s.emptyFaults).profileAt j = s.profileAt j := rfl
@[simp] theorem State.chanAt_emptyFaults (s : State) (d : Fin 4) : (s.emptyFaults).chanAt d = s.chanAt d := rfl
@[simp] theorem State.faultAt_emptyFaults (s : State) (q : Fin 4) : (s.emptyFaults).faultAt q = none := Table.look_replicate ..

/-! ### The queue of commands stands beside every entry -/

@[simp] theorem State.slotAt_withPending (s : State) (l : List Instr) (j : Fin 64) : State.slotAt { s with pending := l } j = s.slotAt j := rfl
@[simp] theorem State.portAt_withPending (s : State) (l : List Instr) (q : Fin 4) : State.portAt { s with pending := l } q = s.portAt q := rfl
@[simp] theorem State.ctxAt_withPending (s : State) (l : List Instr) (k : CtxId) : State.ctxAt { s with pending := l } k = s.ctxAt k := rfl
@[simp] theorem State.profileAt_withPending (s : State) (l : List Instr) (j : Fin 8) : State.profileAt { s with pending := l } j = s.profileAt j := rfl
@[simp] theorem State.chanAt_withPending (s : State) (l : List Instr) (d : Fin 4) : State.chanAt { s with pending := l } d = s.chanAt d := rfl
@[simp] theorem State.faultAt_withPending (s : State) (l : List Instr) (q : Fin 4) : State.faultAt { s with pending := l } q = s.faultAt q := rfl

/-! ### Lists of names -/

theorem mem_fours (p : Fin 4) : p ∈ fours := by revert p; decide

theorem mem_ctxIds (id : CtxId) : id ∈ ctxIds := by
  rcases id with ⟨p, t⟩
  simp [ctxIds, portIds, mem_fours]

theorem mem_portIds {p : Fin 4} {id : CtxId} : id ∈ portIds p ↔ id.port = p := by
  rcases id with ⟨q, t⟩
  simp [portIds, mem_fours, eq_comm]

theorem mem_slotIds (i : Fin 64) : i ∈ slotIds := by
  simp only [slotIds, List.mem_map, List.mem_range]
  exact ⟨i.1, i.2, by ext; simp [Fin.ofNat]⟩

theorem nodup_ctxIds : ctxIds.Nodup := by decide

theorem State.portEmpty_iff (s : State) (p : Fin 4) : s.portEmpty p = true ↔ ∀ t, s.ctxAt ⟨p, t⟩ = none := by
  simp [State.portEmpty, portIds, mem_fours]

theorem State.noContexts_iff (s : State) : s.noContexts = true ↔ ∀ id, s.ctxAt id = none := by
  simp only [State.noContexts, List.all_eq_true, mem_fours, State.portEmpty_iff]
  exact ⟨fun h id => h id.port trivial id.tag, fun h p _ t => h ⟨p, t⟩⟩

/-! ### Equality of states -/

/-- Two states with the same fields are the same. -/
theorem State.ext_fields {s t : State} (h1 : s.slots = t.slots) (h2 : s.ports = t.ports) (h3 : s.ctxs = t.ctxs)
    (h4 : s.profiles = t.profiles) (h5 : s.chans = t.chans) (h6 : s.changeSet = t.changeSet) (h7 : s.faults = t.faults)
    (h8 : s.attention = t.attention) (h9 : s.link = t.link) (h10 : s.startUp = t.startUp) (h11 : s.pending = t.pending) :
    s = t := by
  cases s; cases t; simp_all

/-- Every place of the context table has a name. -/
theorem CtxId.idx_surj (j : Fin 16) : ∃ id : CtxId, id.idx = j :=
  ⟨⟨⟨j.1 / 4, by omega⟩, ⟨j.1 % 4, by omega⟩⟩, by apply Fin.ext; simp only [CtxId.idx]; omega⟩

/-- Two states with the same entries of every table and the same blocks are the same. -/
theorem State.ext_at {s t : State} (h1 : ∀ i, s.slotAt i = t.slotAt i) (h2 : ∀ p, s.portAt p = t.portAt p)
    (h3 : ∀ id, s.ctxAt id = t.ctxAt id) (h4 : ∀ i, s.profileAt i = t.profileAt i) (h5 : ∀ c, s.chanAt c = t.chanAt c)
    (h6 : s.changeSet = t.changeSet) (h7 : ∀ p, s.faultAt p = t.faultAt p)
    (h8 : s.attention = t.attention) (h9 : s.link = t.link) (h10 : s.startUp = t.startUp) (h11 : s.pending = t.pending) :
    s = t := by
  refine State.ext_fields (Table.ext_look h1) (Table.ext_look h2) (Table.ext_look fun j => ?_) (Table.ext_look h4)
    (Table.ext_look h5) h6 (Table.ext_look h7) h8 h9 h10 h11
  obtain ⟨id, rfl⟩ := CtxId.idx_surj j
  exact h3 id

/-- A channel put back as it is changes nothing. -/
theorem State.putChan_self (s : State) (c : Fin 4) : s.putChan c (s.chanAt c) = s := by
  refine State.ext_at (fun _ => rfl) (fun _ => rfl) (fun _ => rfl) (fun _ => rfl) (fun d => ?_) rfl (fun _ => rfl) rfl rfl rfl rfl
  by_cases e : d = c
  · subst e; exact State.chanAt_putChan_same ..
  · exact State.chanAt_putChan_ne _ _ _ _ e

end Sys2Proof.Machine
end

