-- ==== Sys2Proof/Laws/Resolver.lean ====
section
/-! SUPPORT. What a resolution answers, in the words of the spec: selection, rights, the six steps, the binding and its stamp, and the fault record a fault leaves. -/

namespace Sys2Proof.Machine

theorem put_put {α : Type} {n : Nat} (t : Table α n) (i : Fin n) (x y : α) : (t.put i x).put i y = t.put i y := by
  apply Table.ext_look
  intro j
  simp only [Table.look_put]
  split <;> rfl

/-- A second fault raises the further count, and the first fills the record (R143). -/
theorem recordFault_eq (s : State) (p : Fin 4) (f : FaultRecord) :
    s.recordFault p f = s.putFault p (recordAfter (s.faultAt p) f) := by
  unfold State.recordFault recordAfter
  split <;> simp_all [Config.furtherLimit]

theorem isOffline_iff (x : ChanState) : x.isOffline = true ↔ x = .offline := by
  cases x <;> simp [ChanState.isOffline]

/-! ### Step 1 -/

theorem contains_iff (r : Range) (x : Nat) : r.contains x = true ↔ InRange r.base r.sizeExp x := by
  simp [Range.contains, InRange]

theorem touches_iff (s : State) (a : Word) (n : Nat) : touches s.changeSet.footprint a n = true ↔ MeetsFootprint s a n := by
  simp [touches, MeetsFootprint, contains_iff]

theorem footprintHit_iff (s : State) (r : Request) : s.footprintHit r = true ↔ HeldAtStep1 s r := by
  simp [State.footprintHit, HeldAtStep1, touches_iff]

theorem not_footprintHit {s : State} {r : Request} (h : ¬ HeldAtStep1 s r) : s.footprintHit r = false := by
  rw [← Bool.not_eq_true, footprintHit_iff]
  exact h

theorem resolve_held {s : State} {r : Request} (p : Fin 4) (h : HeldAtStep1 s r) : s.resolve p r = .held := by
  simp [State.resolve, (footprintHit_iff s r).2 h]

/-! ### Steps 2 and 3 -/

theorem candidate_iff (s : State) (x : Nat) (i : Fin 64) : s.candidate x i = true ↔ LiveAt s i x := by
  simp [State.candidate, LiveAt, contains_iff, Window.range]

theorem foldl_better_none (s : State) (x : Nat) (l : List (Fin 64)) (b : Option (Fin 64))
    (h : ∀ i ∈ l, s.candidate x i = false) : l.foldl (s.better x) b = b := by
  induction l generalizing b with
  | nil => rfl
  | cons i l ih =>
    simp only [List.foldl_cons]
    rw [show s.better x b i = b by simp [State.better, h i (by simp)]]
    exact ih _ fun j hj => h j (by simp [hj])

/-- What one more slot leaves selected is a candidate, if what was selected before is one. -/
theorem better_candidate {s : State} {x : Nat} {b : Option (Fin 64)} {k j : Fin 64}
    (hb : ∀ j, b = some j → s.candidate x j = true) (hj : s.better x b k = some j) : s.candidate x j = true := by
  unfold State.better at hj
  split at hj
  · rename_i hk
    cases b with
    | none => simp only [Option.some.injEq] at hj; exact hj ▸ hk
    | some m =>
      simp only at hj
      split at hj
      · simp only [Option.some.injEq] at hj; exact hj ▸ hk
      · exact hb j hj
  · exact hb j hj

theorem foldl_better_some (s : State) (x : Nat) (l : List (Fin 64)) (b : Option (Fin 64)) (i : Fin 64)
    (hc : s.candidate x i = true)
    (hm : ∀ j, j ≠ i → s.candidate x j = true → (s.slotAt j).window.rank < (s.slotAt i).window.rank)
    (hb : ∀ j, b = some j → s.candidate x j = true) (h : i ∈ l ∨ b = some i) : l.foldl (s.better x) b = some i := by
  induction l generalizing b with
  | nil => simpa using h
  | cons k l ih =>
    simp only [List.foldl_cons]
    refine ih _ (fun j hj => better_candidate hb hj) ?_
    by_cases hk : k = i
    · right
      subst hk
      unfold State.better
      rw [if_pos hc]
      cases b with
      | none => rfl
      | some m =>
        simp only
        by_cases e : m = k
        · subst e; simp
        · rw [if_pos (hm m e (hb m rfl))]
    · rcases h with h | h
      · left; simpa [Ne.symm hk] using h
      · right
        subst h
        unfold State.better
        split
        · rename_i hk2
          simp only
          rw [if_neg]
          have := hm k hk hk2
          omega
        · rfl

theorem select_none {s : State} {x : Nat} (h : NoWindowAt s x) : s.select x = none := by
  apply foldl_better_none
  intro i _
  rw [← Bool.not_eq_true, candidate_iff]
  exact h i

theorem select_some {s : State} {x : Nat} {i : Fin 64} (h : Selects s x i) : s.select x = some i :=
  foldl_better_some s x _ _ i ((candidate_iff ..).2 h.1) (fun j hj hc => h.2 j hj ((candidate_iff ..).1 hc)) (by simp)
    (.inl (mem_slotIds i))

theorem foldl_better_candidate (s : State) (x : Nat) (l : List (Fin 64)) (b : Option (Fin 64)) (i : Fin 64)
    (hb : ∀ j, b = some j → s.candidate x j = true) (h : l.foldl (s.better x) b = some i) : s.candidate x i = true := by
  induction l generalizing b with
  | nil => exact hb i h
  | cons k l ih => exact ih _ (fun j hj => better_candidate hb hj) h

/-- What selection answers is a LIVE window whose range contains the address, whatever the ranks. -/
theorem select_live {s : State} {x : Nat} {i : Fin 64} (h : s.select x = some i) : LiveAt s i x :=
  (candidate_iff ..).1 (foldl_better_candidate s x _ _ i (by simp) h)

/-! ### Selection under the overlap law -/

/-- Of every two windows of equal rank that contain one address, the ranges overlap (R2). -/
theorem clash_of_common {w v : Window} {x : Nat} (hr : w.rank = v.rank) (hw : InRange w.base w.sizeExp x)
    (hv : InRange v.base v.sizeExp x) : Clash w v := by
  unfold InRange at hw hv
  have lift : ∀ (a e m : Nat), e ≤ m → x / 2 ^ e = a / 2 ^ e → x / 2 ^ m = a / 2 ^ m := by
    intro a e m h h2
    obtain ⟨d, rfl⟩ := Nat.exists_eq_add_of_le h
    rw [Nat.pow_add, ← Nat.div_div_eq_div_mul, ← Nat.div_div_eq_div_mul, h2]
  exact ⟨hr, (lift _ _ _ (Nat.le_max_left ..) hw).symm.trans (lift _ _ _ (Nat.le_max_right ..) hv)⟩

/-- What selection answers has the highest rank of every candidate looked at. -/
theorem foldl_better_top (s : State) (x : Nat) (l : List (Fin 64)) (b : Option (Fin 64)) :
    (∀ j ∈ l, s.candidate x j = true → ∃ i, l.foldl (s.better x) b = some i ∧ (s.slotAt j).window.rank ≤ (s.slotAt i).window.rank) ∧
      ∀ j, b = some j → ∃ i, l.foldl (s.better x) b = some i ∧ (s.slotAt j).window.rank ≤ (s.slotAt i).window.rank := by
  induction l generalizing b with
  | nil => exact ⟨fun j hj => (by cases hj), fun j hj => ⟨j, hj, Nat.le_refl _⟩⟩
  | cons k l ih =>
    simp only [List.foldl_cons]
    have head : s.candidate x k = true → ∃ m, s.better x b k = some m ∧ (s.slotAt k).window.rank ≤ (s.slotAt m).window.rank := by
      intro hk
      unfold State.better
      rw [if_pos hk]
      cases b with
      | none => exact ⟨k, rfl, Nat.le_refl _⟩
      | some m =>
        simp only
        split
        · exact ⟨k, rfl, Nat.le_refl _⟩
        · exact ⟨m, rfl, by omega⟩
    have keep : ∀ j, b = some j → ∃ m, s.better x b k = some m ∧ (s.slotAt j).window.rank ≤ (s.slotAt m).window.rank := by
      rintro j rfl
      unfold State.better
      split
      · simp only
        split
        · exact ⟨k, rfl, by omega⟩
        · exact ⟨j, rfl, Nat.le_refl _⟩
      · exact ⟨j, rfl, Nat.le_refl _⟩
    have on : ∀ j, (∃ m, s.better x b k = some m ∧ (s.slotAt j).window.rank ≤ (s.slotAt m).window.rank) →
        ∃ i, l.foldl (s.better x) (s.better x b k) = some i ∧ (s.slotAt j).window.rank ≤ (s.slotAt i).window.rank := by
      rintro j ⟨m, hm, hr⟩
      obtain ⟨i, hi, h2⟩ := (ih (s.better x b k)).2 m hm
      exact ⟨i, hi, Nat.le_trans hr h2⟩
    refine ⟨fun j hj hc => ?_, fun j hj => on j (keep j hj)⟩
    rcases List.mem_cons.1 hj with rfl | hj
    · exact on j (head hc)
    · exact (ih _).1 j hj hc

/-- Where no two windows of equal rank overlap, selection answers the window that R29 selects, or that there is none. -/
theorem select_cases {s : State} (h : NoOverlap s) (x : Nat) :
    (s.select x = none ∧ NoWindowAt s x) ∨ ∃ i, s.select x = some i ∧ Selects s x i := by
  have top := (foldl_better_top s x slotIds none).1
  cases hs : s.select x with
  | none =>
    refine .inl ⟨rfl, fun i hi => ?_⟩
    obtain ⟨j, hj, _⟩ := top i (mem_slotIds i) ((candidate_iff ..).2 hi)
    rw [State.select, hj] at hs
    cases hs
  | some i =>
    refine .inr ⟨i, rfl, select_live hs, fun j hj hl => ?_⟩
    obtain ⟨k, hk, hr⟩ := top j (mem_slotIds j) ((candidate_iff ..).2 hl)
    obtain rfl : i = k := by rw [State.select, hk] at hs; exact (Option.some.inj hs).symm
    have li := select_live hs
    rcases Nat.lt_or_eq_of_le hr with hr | hr
    · exact hr
    · exact absurd (clash_of_common (Fin.ext hr) hl.2 li.2)
        (h j i hj (by rw [hl.1]; simp) (by rw [li.1]; simp))

theorem select_selects {s : State} (h : NoOverlap s) {x : Nat} {i : Fin 64} (hi : s.select x = some i) : Selects s x i := by
  rcases select_cases h x with ⟨e, _⟩ | ⟨j, e, hj⟩
  · rw [e] at hi; cases hi
  · rw [e] at hi; exact Option.some.inj hi ▸ hj

/-! ### Span -/

theorem spanOk_iff (s : State) (i : Fin 64) (r : Request) :
    s.spanOk i r = true ↔ ∀ k, k < r.size → s.select (r.address.toNat + k) = some i := by
  simp [State.spanOk]

theorem spanOk_whole {s : State} {r : Request} {i : Fin 64} (h : SelectsWhole s r i) : s.spanOk i r = true :=
  (spanOk_iff ..).2 fun k hk => select_some (h k hk)

theorem first_of_whole {s : State} {r : Request} {i : Fin 64} (h : SelectsWhole s r i) (hs : 0 < r.size) :
    s.select r.address.toNat = some i := by
  simpa using select_some (h 0 hs)

/-! ### Step 4 -/

theorem granted_iff (r : Rights) (b : Bool) (k : AccessKind) : granted r b k = true ↔ Allows r b k := by
  cases r <;> cases k <;> cases b <;> simp [granted, Allows]

/-! ### The outcomes -/

/-- A resolution that fails step 2, 3, 4 or 5 writes its context as the way it fails says (R35). -/
theorem settle_faults {s : State} {p : Fin 4} {r : Request} {st : Status} {d : DoneRecord} {k : FaultKind}
    {w : Option WindowRef} (hs : 0 < r.size) (hh : ¬ HeldAtStep1 s r) (h : FaultsAs s p r st d k w) (u : State) (id : CtxId) :
    u.settle id r (s.resolve p r) = u.endWithFault id r st d (faultOf k id r w none) := by
  have hh := not_footprintHit hh
  cases h with
  | noWindow h => simp [State.resolve, hh, select_none h, State.settle]
  | span i h later =>
    have : s.spanOk i r = false := by
      rw [← Bool.not_eq_true, spanOk_iff]
      intro h2
      obtain ⟨k, hk, h3⟩ := later
      have h4 := h2 k hk
      rcases h3 with h3 | ⟨j, hj, h3⟩
      · rw [select_none h3] at h4; cases h4
      · rw [select_some h3] at h4; exact hj (Option.some.inj h4)
    simp [State.resolve, hh, select_some h, this, State.settle]
  | denied i h no =>
    have no : granted ((s.slotAt i).window.rights.look p) (s.slotAt i).window.swapAllowed r.kind = false := by
      rw [← Bool.not_eq_true, granted_iff]; exact no
    simp [State.resolve, hh, first_of_whole h hs, spanOk_whole h, no, State.settle]
  | channelOffline i h yes off =>
    have yes := (granted_iff ..).2 yes
    simp [State.resolve, hh, first_of_whole h hs, spanOk_whole h, yes, off, State.settle, ChanState.isOffline]

theorem bindingFor_eq (s : State) (i : Fin 64) (r : Request) : s.bindingFor i r = boundUnder s i r := by
  simp only [State.bindingFor, boundUnder, Window.targetOf, State.windowRef, Binding.mk.injEq, true_and]
  decide

/-- A resolution that passes every step binds under the window selected (R33). -/
theorem resolve_passes {s : State} {p : Fin 4} {r : Request} {i : Fin 64} (hs : 0 < r.size) (h : PassesUnder s p r i) :
    s.resolve p r = .bound (boundUnder s i r) := by
  have hh := not_footprintHit h.footprint
  have yes := (granted_iff ..).2 h.rights
  have off : (s.chanAt (s.slotAt i).window.channel).state.isOffline = false := by
    rw [← Bool.not_eq_true, isOffline_iff]; exact h.channel
  simp [State.resolve, hh, first_of_whole h.selects hs, spanOk_whole h.selects, yes, off, bindingFor_eq]

/-- A resolution that binds has every byte in the selected LIVE window, whose channel is not OFFLINE. -/
theorem resolve_bound {s : State} {p : Fin 4} {r : Request} {b : Binding} (h : s.resolve p r = .bound b) :
    s.footprintHit r = false ∧ ∃ i, b = boundUnder s i r ∧ s.select r.address.toNat = some i ∧
      (∀ k, k < r.size → LiveAt s i (r.address.toNat + k)) ∧
      (s.chanAt (s.slotAt i).window.channel).state ≠ .offline := by
  unfold State.resolve at h
  split at h
  · cases h
  · rename_i hf
    refine ⟨by simpa using hf, ?_⟩
    split at h
    · cases h
    · rename_i i hi
      split at h
      · cases h
      · rename_i hsp
        split at h
        · cases h
        · split at h
          · cases h
          · rename_i hoff
            cases h
            have hsp : s.spanOk i r = true := by simpa using hsp
            refine ⟨i, bindingFor_eq s i r, hi, fun k hk => select_live ((spanOk_iff ..).1 hsp k hk), ?_⟩
            intro e
            exact hoff ((isOffline_iff _).2 e)

/-! ### Bind stamps (R34) -/

theorem foldl_max_gt (s : State) (c : Fin 4) (l : List CtxId) (a : Nat) :
    let f := fun (m : Nat) (id : CtxId) => match stampOn c (s.ctxAt id) with | some n => max m (n + 1) | none => m
    a ≤ l.foldl f a ∧ ∀ id ∈ l, ∀ m, stampOn c (s.ctxAt id) = some m → m < l.foldl f a := by
  intro f
  induction l generalizing a with
  | nil => simp
  | cons k l ih =>
    simp only [List.foldl_cons]
    have up : a ≤ f a k := by
      simp only [f]
      split
      · exact Nat.le_max_left ..
      · exact Nat.le_refl _
    refine ⟨Nat.le_trans up (ih _).1, fun id hm m hs => ?_⟩
    rcases List.mem_cons.1 hm with e | hm
    · subst e
      refine Nat.lt_of_lt_of_le ?_ (ih _).1
      simp only [f, hs]
      exact Nat.lt_of_lt_of_le (Nat.lt_succ_self m) (Nat.le_max_right ..)
    · exact (ih _).2 id hm m hs

/-- A new stamp is later than every stamp on the channel (R34). -/
theorem nextStamp_gt {s : State} {c : Fin 4} {id : CtxId} {m : Nat} (h : stampOn c (s.ctxAt id) = some m) :
    m < s.nextStamp c := (foldl_max_gt s c ctxIds 0).2 id (mem_ctxIds id) m h

end Sys2Proof.Machine
end

