-- ==== Sys2Proof/Laws/Arbiter.lean ====
section
/-! SUPPORT. What an arbitration chooses, what a grant does and how a beat starts, in the words of the spec. -/

namespace Sys2Proof.Machine

theorem arbitrate_of_not_idle {s : State} {c : Fin 4} (h : (s.chanAt c).state ≠ .idle) : s.arbitrate c = s := by
  unfold State.arbitrate
  split
  · contradiction
  all_goals rfl

/-! ### The start of a beat -/

/-- The context on the bus starts its next beat under a fresh copy (R80, R82). -/
theorem startBeat_eq {s : State} {c : Fin 4} {id : CtxId} {x : Context} {b : Binding} {beat : Beat}
    (h1 : (s.chanAt c).onBus = some id) (h2 : s.ctxAt id = some x) (h3 : x.liveBinding = some b)
    (h4 : b.plan[b.completed]? = some beat) :
    s.startBeat c = s.putChan c (startedBeat s (s.chanAt c) beat b x.request) := by
  unfold State.startBeat
  simp only [h1, h2, h3, h4]
  have e1 : (beat.phase == Phase.write) = decide (beat.phase = .write) := by cases beat.phase <;> rfl
  have e2 : ∀ n : Nat, (n != 0) = decide (n ≠ 0) := by intro n; cases n <;> rfl
  simp only [startedBeat, firstStage, beatLines, drivenLines, h1, e1, e2]

/-- The start of a beat changes the state and the lines of its channel alone (R80, R82). -/
theorem startBeat_changes (s : State) (c : Fin 4) :
    ∃ st lines, s.startBeat c = s.putChan c { s.chanAt c with state := st, lines := lines } := by
  have same : s = s.putChan c { s.chanAt c with state := (s.chanAt c).state, lines := (s.chanAt c).lines } :=
    (State.putChan_self s c).symm
  unfold State.startBeat
  repeat' split
  all_goals first
    | exact ⟨_, _, same⟩
    | exact ⟨_, _, rfl⟩

/-! ### The waiting set -/

theorem waitingOn_some {c : Fin 4} {x : Option Context} {y : Nat × Nat} :
    waitingOn c x = some y ↔ ∃ r b, x = some ⟨r, .bound b y.1 y.2⟩ ∧ b.channel = c := by
  unfold waitingOn
  constructor
  · intro h
    split at h
    · split at h
      · rename_i r b st ps hc
        cases h
        exact ⟨r, b, rfl, hc⟩
      · cases h
    all_goals cases h
  · rintro ⟨r, b, rfl, hc⟩
    simp [hc]

theorem waitingOn_of {s : State} {c : Fin 4} {id : CtxId} {r : Request} {b : Binding} {stamp passes : Nat}
    (h : WaitsOn s c id r b stamp passes) : waitingOn c (s.ctxAt id) = some (stamp, passes) :=
  waitingOn_some.2 ⟨r, b, h⟩

theorem mem_waiting {s : State} {c : Fin 4} {id : CtxId} :
    id ∈ s.waiting c ↔ ∃ r b stamp passes, WaitsOn s c id r b stamp passes := by
  simp only [State.waiting, List.mem_filter, mem_ctxIds, true_and, Option.isSome_iff_exists, waitingOn_some, WaitsOn]
  constructor
  · rintro ⟨y, r, b, h⟩; exact ⟨r, b, y.1, y.2, h⟩
  · rintro ⟨r, b, m, n, h⟩; exact ⟨(m, n), r, b, h⟩

theorem nodup_waiting (s : State) (c : Fin 4) : (s.waiting c).Nodup := nodup_ctxIds.filter _

theorem waiting_nil {s : State} {c : Fin 4} (h : NoneWaits s c) : s.waiting c = [] := by
  rw [List.eq_nil_iff_forall_not_mem]
  intro id hm
  obtain ⟨r, b, m, n, h2⟩ := mem_waiting.1 hm
  exact h id r b m n h2

theorem noneWaits_of {s : State} {c : Fin 4} (h : s.waiting c = []) : NoneWaits s c := by
  intro id r b m n hw
  have := mem_waiting.2 ⟨r, b, m, n, hw⟩
  rw [h] at this
  cases this

theorem waitStamp_of {s : State} {c : Fin 4} {id : CtxId} {r : Request} {b : Binding} {stamp passes : Nat}
    (h : WaitsOn s c id r b stamp passes) : s.waitStamp c id = stamp := by
  simp [State.waitStamp, waitingOn_of h]

theorem waitPasses_of {s : State} {c : Fin 4} {id : CtxId} {r : Request} {b : Binding} {stamp passes : Nat}
    (h : WaitsOn s c id r b stamp passes) : s.waitPasses c id = passes := by
  simp [State.waitPasses, waitingOn_of h]

/-- What holds of every member of the waiting set holds of every context that waits. -/
theorem forall_waits {s : State} {c : Fin 4} {P : CtxId → Nat → Nat → Prop}
    (h : ∀ k ∈ s.waiting c, P k (s.waitStamp c k) (s.waitPasses c k)) (k : CtxId) (q : Request) (w : Binding) (n m : Nat)
    (hw : WaitsOn s c k q w n m) : P k n m := by
  have := h k (mem_waiting.2 ⟨q, w, n, m, hw⟩)
  rwa [waitStamp_of hw, waitPasses_of hw] at this

/-! ### The choice (R97) -/

theorem oldest_mem {s : State} {c : Fin 4} {l : List CtxId} {id : CtxId} (h : s.oldest c l = some id) : id ∈ l := by
  induction l generalizing id with
  | nil => cases h
  | cons k l ih =>
    unfold State.oldest at h
    split at h
    · cases h; exact List.mem_cons_self
    · rename_i other ho
      split at h
      · cases h; exact List.mem_cons_self
      · cases h; exact List.mem_cons_of_mem _ (ih ho)

theorem oldest_none {s : State} {c : Fin 4} {l : List CtxId} (h : s.oldest c l = none) : l = [] := by
  cases l with
  | nil => rfl
  | cons k l =>
    unfold State.oldest at h
    split at h
    · cases h
    · split at h <;> cases h

/-- The member of a list whose stamp is before every other's is its oldest. -/
theorem oldest_some {s : State} {c : Fin 4} {l : List CtxId} {id : CtxId} (hm : id ∈ l)
    (hl : ∀ k ∈ l, k ≠ id → s.waitStamp c id < s.waitStamp c k) : s.oldest c l = some id := by
  induction l with
  | nil => cases hm
  | cons k l ih =>
    unfold State.oldest
    by_cases hk : k = id
    · subst hk
      split
      · rfl
      · rename_i other ho
        by_cases e : other = k
        · subst e; simp
        · have := hl other (List.mem_cons_of_mem _ (oldest_mem ho)) e
          rw [if_pos (Nat.le_of_lt this)]
    · have hm : id ∈ l := (List.mem_cons.1 hm).resolve_left (Ne.symm hk)
      have := ih hm fun j hj => hl j (List.mem_cons_of_mem _ hj)
      simp only [this]
      rw [if_neg]
      have := hl k List.mem_cons_self hk
      omega

theorem cyclicAfter_find {f : Fin 4 → Bool} {ptr p : Fin 4} (hp : f p = true)
    (h : ∀ q, q ≠ p → f q = true → placesAfter ptr p < placesAfter ptr q) : (cyclicAfter ptr).find? f = some p := by
  have key : ∀ q, q ≠ p → placesAfter ptr q ≤ placesAfter ptr p → f q = false := by
    intro q hq hle
    rw [← Bool.not_eq_true]
    intro hf
    have := h q hq hf
    omega
  have places : ptr + 1 = p ∨ (ptr + 1 ≠ p ∧ placesAfter ptr (ptr + 1) ≤ placesAfter ptr p ∧ (ptr + 2 = p ∨
      (ptr + 2 ≠ p ∧ placesAfter ptr (ptr + 2) ≤ placesAfter ptr p ∧ (ptr + 3 = p ∨
        (ptr + 3 ≠ p ∧ placesAfter ptr (ptr + 3) ≤ placesAfter ptr p ∧ ptr = p))))) := by
    clear key h hp f
    revert ptr p
    decide
  simp only [cyclicAfter, List.find?_cons]
  rcases places with e | ⟨n1, l1, e | ⟨n2, l2, e | ⟨n3, l3, e⟩⟩⟩
  · rw [e, hp]
  · rw [key _ n1 l1, e, hp]
  · rw [key _ n1 l1, key _ n2 l2, e, hp]
  · rw [key _ n1 l1, key _ n2 l2, key _ n3 l3, e, hp]

/-- Age promotion: of the contexts that have lost eight grants the oldest is chosen, and no pointer moves (R97). -/
theorem choose_aged {s : State} {c : Fin 4} {id : CtxId} {r : Request} {b : Binding} {stamp : Nat}
    (h : WaitsOn s c id r b stamp 8) (hl : ∀ k q w n, k ≠ id → WaitsOn s c k q w n 8 → stamp < n) :
    s.choose c = some { id := id, moved := none } := by
  unfold State.choose
  dsimp only
  rw [oldest_some (id := id)]
  · simp only [List.mem_filter]
    refine ⟨mem_waiting.2 ⟨r, b, stamp, 8, h⟩, ?_⟩
    rw [waitPasses_of h]
    rfl
  · intro k hk hne
    simp only [List.mem_filter, beq_iff_eq] at hk
    obtain ⟨q, w, n, m, hw⟩ := mem_waiting.1 hk.1
    have e : m = 8 := by rw [← waitPasses_of hw]; exact hk.2
    subst e
    rw [waitStamp_of h, waitStamp_of hw]
    exact hl k q w n hne hw

/-- The choice of one class: the first port with a waiting context after the pointer, and its oldest context (R97). -/
theorem classChoice_some {s : State} {c : Fin 4} {id : CtxId} {r : Request} {b : Binding} {stamp passes : Nat} {ptr : Fin 4}
    (h : WaitsOn s c id r b stamp passes)
    (hp : ∀ k q w n m, WaitsOn s c k q w n m → (s.portAt k.port).cls = (s.portAt id.port).cls → k.port ≠ id.port →
      placesAfter ptr id.port < placesAfter ptr k.port)
    (ho : ∀ k q w n m, k ≠ id → k.port = id.port → WaitsOn s c k q w n m → stamp < n) :
    s.classChoice c (s.waiting c) (s.portAt id.port).cls ptr = some { id := id, moved := some (s.portAt id.port).cls } := by
  have mem := mem_waiting.2 ⟨r, b, stamp, passes, h⟩
  unfold State.classChoice
  rw [cyclicAfter_find (p := id.port)]
  · dsimp only
    rw [oldest_some (id := id)]
    · rfl
    · simp [mem]
    · intro k hk hne
      simp only [List.mem_filter, beq_iff_eq] at hk
      obtain ⟨q, w, n, m, hw⟩ := mem_waiting.1 hk.1
      rw [waitStamp_of h, waitStamp_of hw]
      exact ho k q w n m hne hk.2 hw
  · simp only [State.classWaits, beq_self_eq_true, Bool.true_and, List.any_eq_true, beq_iff_eq]
    exact ⟨id, mem, rfl⟩
  · intro q hq hw
    simp only [State.classWaits, Bool.and_eq_true, beq_iff_eq, List.any_eq_true] at hw
    obtain ⟨hc, k, hk, rfl⟩ := hw
    obtain ⟨q, w, n, m, hw⟩ := mem_waiting.1 hk
    exact hp k q w n m hw hc hq

theorem classChoice_none {s : State} {c : Fin 4} {cls : UrgencyClass} {ptr : Fin 4}
    (h : ∀ k q w n m, WaitsOn s c k q w n m → (s.portAt k.port).cls ≠ cls) :
    s.classChoice c (s.waiting c) cls ptr = none := by
  unfold State.classChoice
  rw [List.find?_eq_none.2]
  intro q _ hw
  simp only [State.classWaits, Bool.and_eq_true, beq_iff_eq, List.any_eq_true] at hw
  obtain ⟨hc, k, hk, rfl⟩ := hw
  obtain ⟨q, w, n, m, hw⟩ := mem_waiting.1 hk
  exact h k q w n m hw hc

/-- With nobody aged, URGENT ports go before NORMAL ones, each class from its pointer on (R97). -/
theorem choose_by_class {s : State} {c : Fin 4} {id : CtxId} {r : Request} {b : Binding} {stamp passes : Nat}
    (young : ∀ k q w n m, WaitsOn s c k q w n m → m < 8) (h : WaitsOn s c id r b stamp passes)
    (hu : (s.portAt id.port).cls = .normal → ∀ k q w n m, WaitsOn s c k q w n m → (s.portAt k.port).cls = .normal)
    (hp : ∀ k q w n m, WaitsOn s c k q w n m → (s.portAt k.port).cls = (s.portAt id.port).cls → k.port ≠ id.port →
      placesAfter (pointerOf (s.chanAt c) (s.portAt id.port).cls) id.port <
        placesAfter (pointerOf (s.chanAt c) (s.portAt id.port).cls) k.port)
    (ho : ∀ k q w n m, k ≠ id → k.port = id.port → WaitsOn s c k q w n m → stamp < n) :
    s.choose c = some { id := id, moved := some (s.portAt id.port).cls } := by
  have aged : (s.waiting c).filter (fun k => s.waitPasses c k == Config.passLimit) = [] := by
    rw [List.filter_eq_nil_iff]
    intro k hk he
    obtain ⟨q, w, n, m, hw⟩ := mem_waiting.1 hk
    have := young k q w n m hw
    rw [waitPasses_of hw] at he
    simp only [beq_iff_eq, Config.passLimit] at he
    omega
  have key := classChoice_some h hp ho
  unfold State.choose
  simp only [aged, State.oldest]
  cases hc : (s.portAt id.port).cls with
  | urgent =>
    simp only [hc, pointerOf] at key
    simp only [key]
  | normal =>
    simp only [hc, pointerOf] at key
    rw [classChoice_none (cls := .urgent)]
    · exact key
    · intro k q w n m hw
      rw [hu hc k q w n m hw]
      exact fun e => UrgencyClass.noConfusion e

theorem choose_none {s : State} {c : Fin 4} (h : NoneWaits s c) : s.choose c = none := by
  have none_of : ∀ cls ptr, s.classChoice c (s.waiting c) cls ptr = none := fun cls ptr =>
    classChoice_none fun k q w n m hw => absurd hw (h k q w n m)
  unfold State.choose
  simp only [none_of]
  simp [waiting_nil h, State.oldest]

/-- What is chosen waits (R97). -/
theorem choose_waits {s : State} {c : Fin 4} {ch : Choice} (h : s.choose c = some ch) : ch.id ∈ s.waiting c := by
  have byClass : ∀ cls ptr, s.classChoice c (s.waiting c) cls ptr = some ch → ch.id ∈ s.waiting c := by
    intro cls ptr h
    unfold State.classChoice at h
    split at h
    · cases h
    · rename_i p _
      rw [Option.map_eq_some_iff] at h
      obtain ⟨id, ho, rfl⟩ := h
      exact (List.mem_filter.1 (oldest_mem ho)).1
  unfold State.choose at h
  dsimp only at h
  split at h
  · rename_i id ho
    cases h
    exact (List.mem_filter.1 (oldest_mem ho)).1
  · split at h
    · cases h
      rename_i h2
      exact byClass _ _ h2
    · exact byClass _ _ h

/-- Whoever waits, somebody is chosen (R97). -/
theorem choose_isSome {s : State} {c : Fin 4} (h : ¬ NoneWaits s c) : (s.choose c).isSome := by
  have key : ∀ cls ptr, (∃ k q w n m, WaitsOn s c k q w n m ∧ (s.portAt k.port).cls = cls) →
      (s.classChoice c (s.waiting c) cls ptr).isSome := by
    rintro cls ptr ⟨k, q, w, n, m, hw, hc⟩
    have mem := mem_waiting.2 ⟨q, w, n, m, hw⟩
    unfold State.classChoice
    have all : ∀ ptr p : Fin 4, p ∈ cyclicAfter ptr := by decide
    have : ((cyclicAfter ptr).find? (s.classWaits cls (s.waiting c))).isSome := by
      rw [List.find?_isSome]
      refine ⟨k.port, all _ _, ?_⟩
      simp only [State.classWaits, hc, beq_self_eq_true, Bool.true_and, List.any_eq_true, beq_iff_eq]
      exact ⟨k, mem, rfl⟩
    obtain ⟨p, hp⟩ := Option.isSome_iff_exists.1 this
    simp only [hp, Option.isSome_map]
    have hw := List.find?_some hp
    simp only [State.classWaits, Bool.and_eq_true, List.any_eq_true, beq_iff_eq] at hw
    obtain ⟨_, x, hx, hxp⟩ := hw
    rw [Option.isSome_iff_ne_none]
    intro hn
    have := oldest_none hn
    rw [List.filter_eq_nil_iff] at this
    exact this x hx (by simp [hxp])
  unfold State.choose
  dsimp only
  split
  · rfl
  · split
    · rfl
    · rename_i hu
      apply key
      simp only [NoneWaits, not_forall, not_not] at h
      obtain ⟨k, q, w, n, m, hw⟩ := h
      refine ⟨k, q, w, n, m, hw, ?_⟩
      cases hc : (s.portAt k.port).cls with
      | normal => rfl
      | urgent =>
        have := key .urgent (s.chanAt c).urgentPtr ⟨k, q, w, n, m, hw, hc⟩
        rw [hu] at this
        cases this

/-! ### The grant (R98) -/

/-- The chosen context is ON_BUS with its stamp, the others are passed over, the reference and the pointer are set, and its next beat starts (R98). -/
theorem grant_eq {s : State} {c : Fin 4} {id : CtxId} {m : Option UrgencyClass} {r : Request} {b : Binding}
    {stamp passes : Nat} (h : s.ctxAt id = some ⟨r, .bound b stamp passes⟩) :
    s.grant c { id := id, moved := m } =
      (((s.mapCtxs (passOver c)).putCtx id (some ⟨r, .onBus b stamp false⟩)).putChan c
        { (s.chanAt c).movePointer { id := id, moved := m } with onBus := some id }).startBeat c := by
  unfold State.grant
  simp only [h]

theorem passOver_held {c : Fin 4} {r : Request} : passOver c (some ⟨r, .held⟩) = some ⟨r, .held⟩ := rfl

theorem passOver_waits {s : State} {c : Fin 4} {id : CtxId} {r : Request} {b : Binding} {stamp passes : Nat}
    (h : WaitsOn s c id r b stamp passes) : passOver c (s.ctxAt id) = some ⟨r, .bound b stamp (min (passes + 1) 8)⟩ := by
  simp [h.1, passOver, h.2, Config.passLimit]

/-- A context that does not wait on the channel is not passed over. -/
theorem passOver_else {s : State} {c : Fin 4} {id : CtxId} (h : ∀ r b stamp passes, ¬ WaitsOn s c id r b stamp passes) :
    passOver c (s.ctxAt id) = s.ctxAt id := by
  unfold passOver
  split
  · rename_i r b stamp passes hc
    rw [if_neg fun e => h r b stamp passes ⟨hc, e⟩, hc]
  all_goals rename_i hc; rw [hc]

/-- What a grant leaves, entry by entry (R97, R98). -/
theorem grant_granted {s : State} {c : Fin 4} {id : CtxId} {m : Option UrgencyClass} {r : Request} {b : Binding}
    {stamp passes : Nat} (h : WaitsOn s c id r b stamp passes) :
    Granted s (s.grant c { id := id, moved := m }) c ((s.chanAt c).movePointer { id := id, moved := m }) id r b stamp := by
  rw [grant_eq h.1]
  generalize (s.chanAt c).movePointer { id := id, moved := m } = x
  generalize hu : ((s.mapCtxs (passOver c)).putCtx id (some ⟨r, .onBus b stamp false⟩)).putChan c { x with onBus := some id } = u
  have chan : u.chanAt c = { x with onBus := some id } := by subst hu; exact State.chanAt_putChan_same ..
  have granted : u.ctxAt id = some ⟨r, .onBus b stamp false⟩ := by
    subst hu; rw [State.ctxAt_putChan, State.ctxAt_putCtx_same]
  have other : ∀ k, k ≠ id → u.ctxAt k = passOver c (s.ctxAt k) := fun k hk => by
    subst hu; rw [State.ctxAt_putChan, State.ctxAt_putCtx_ne _ _ _ _ hk, State.ctxAt_mapCtxs]
  obtain ⟨st, lines, e⟩ := startBeat_changes u c
  have started : ∀ beat, b.plan[b.completed]? = some beat →
      (u.startBeat c).chanAt c = startedBeat s { x with onBus := some id } beat b r := by
    intro beat hb
    rw [startBeat_eq (by rw [chan]) granted rfl hb, State.chanAt_putChan_same, chan]
    subst hu
    rfl
  have here : (u.startBeat c).chanAt c = { x with onBus := some id, state := st, lines := lines } := by
    rw [e, State.chanAt_putChan_same, chan]
  refine ⟨?_, fun k q w n m hk hw => ?_, fun k hk hw => ?_, by rw [here], by rw [here], by rw [here], started, fun d hd => ?_,
    ?_, ?_, ?_, ?_, ?_, ?_, ?_, ?_, ?_⟩
  · rw [e, State.ctxAt_putChan, granted]
  · rw [e, State.ctxAt_putChan, other k hk, passOver_waits hw]
  · rw [e, State.ctxAt_putChan, other k hk, passOver_else hw]
  · rw [e, State.chanAt_putChan_ne _ _ _ _ hd]
    subst hu
    exact State.chanAt_putChan_ne _ _ _ _ hd
  all_goals rw [e]; subst hu; rfl

end Sys2Proof.Machine
end

