-- ==== Sys2Proof/Laws/Attention.lean ====
section
/-! SUPPORT. Which record or channel each level flag follows, by number (R148). -/

namespace Sys2Proof.Machine

theorem flag_fault (s : State) (p : Fin 4) : s.flag p.1 = (s.faultAt p).isSome := by
  obtain ⟨p, hp⟩ := p
  have : p = 0 ∨ p = 1 ∨ p = 2 ∨ p = 3 := by omega
  rcases this with rfl | rfl | rfl | rfl <;> rfl

theorem flag_offline (s : State) (c : Fin 4) : s.flag (4 + c.1) = (s.chanAt c).state.isOffline := by
  obtain ⟨c, hc⟩ := c
  have : c = 0 ∨ c = 1 ∨ c = 2 ∨ c = 3 := by omega
  rcases this with rfl | rfl | rfl | rfl <;> rfl

theorem flag_above (s : State) (n : Nat) (h : 10 < n) : s.flag n = false := by
  unfold State.flag
  split <;> first | omega | rfl

end Sys2Proof.Machine
end

