-- ==== Sys2Proof/Laws/StartUp.lean ====
section
/-! SUPPORT. What the reinitialisation event leaves in every block, that it meets every law, and what the end of the wait of RESET_ALL can do. -/

namespace Sys2Proof.Machine

/-! ### The strap lines -/

@[simp] theorem strapsAt_startUp (s : State) (st : Straps) : (s.strapsAt st).startUp = { s.startUp with levels := st } := rfl
@[simp] theorem strapsAt_link (s : State) (st : Straps) : (s.strapsAt st).link = s.link := rfl
@[simp] theorem strapsAt_pending (s : State) (st : Straps) : (s.strapsAt st).pending = s.pending := rfl
@[simp] theorem strapsAt_portAt (s : State) (st : Straps) (p : Fin 4) : (s.strapsAt st).portAt p = s.portAt p := rfl
@[simp] theorem strapsAt_ctxAt (s : State) (st : Straps) (id : CtxId) : (s.strapsAt st).ctxAt id = s.ctxAt id := rfl
@[simp] theorem strapsAt_chanAt (s : State) (st : Straps) (c : Fin 4) : (s.strapsAt st).chanAt c = s.chanAt c := rfl

/-! ### Reinitialisation, block by block (R183, R188) -/

theorem restartPorts_look (t : Table PortUnit 4) (p : Fin 4) :
    (restartPorts t).look p = (t.look p).restart (decide (p = 0)) := by
  match p with
  | 0 => rfl
  | 1 => rfl
  | 2 => rfl
  | 3 => rfl

/-- Everything but the slots and Start-Up Control is as steps 2 and 3 leave it. -/
theorem reinitialise_blocks (s : State) (o : Origin) :
    (s.reinitialise o).ports = restartPorts s.ports ∧ (s.reinitialise o).ctxs = Vector.replicate 16 none ∧
      (s.reinitialise o).profiles = Vector.replicate 8 Profile.powerOn ∧
      (s.reinitialise o).chans = Vector.replicate 4 Channel.powerOn ∧
      (s.reinitialise o).changeSet = ChangeSet.closedEmpty ∧ (s.reinitialise o).faults = Vector.replicate 4 none ∧
      (s.reinitialise o).attention = Attention.powerOn ∧ (s.reinitialise o).link = s.link ∧
      (s.reinitialise o).startUp = { state := .running o, straps := s.startUp.levels, levels := s.startUp.levels } ∧
      (s.reinitialise o).pending = s.pending := by
  unfold State.reinitialise State.installBoot
  split <;> exact ⟨rfl, rfl, rfl, rfl, rfl, rfl, rfl, rfl, rfl, rfl⟩

theorem reinitialise_ctxAt (s : State) (o : Origin) (id : CtxId) : (s.reinitialise o).ctxAt id = none := by
  unfold State.ctxAt
  rw [(reinitialise_blocks s o).2.1, Table.look_replicate]

theorem reinitialise_portAt (s : State) (o : Origin) (p : Fin 4) :
    (s.reinitialise o).portAt p = (s.portAt p).restart (decide (p = 0)) := by
  unfold State.portAt
  rw [(reinitialise_blocks s o).1, restartPorts_look]

theorem reinitialise_chanAt (s : State) (o : Origin) (c : Fin 4) : (s.reinitialise o).chanAt c = Channel.powerOn := by
  unfold State.chanAt
  rw [(reinitialise_blocks s o).2.2.2.1, Table.look_replicate]

theorem reinitialise_set (s : State) (o : Origin) : (s.reinitialise o).changeSet = ChangeSet.closedEmpty :=
  (reinitialise_blocks s o).2.2.2.2.1

/-- Slot 0 holds the boot window if BOOTEN stands high, every other slot its power-on values (R184). -/
theorem reinitialise_slotAt (s : State) (o : Origin) (i : Fin 64) :
    (s.reinitialise o).slotAt i = if s.startUp.levels.booten = true ∧ i = 0
      then { state := .live, window := bootWindow s.startUp.levels, generation := 1, inFlight := 0 } else Slot.cleared := by
  have base : s.powerOnBlocks.slotAt i = Slot.cleared := Table.look_replicate ..
  unfold State.reinitialise State.installBoot
  by_cases hb : s.startUp.levels.booten = true
  · rw [if_pos hb, State.slotAt_putStartUp]
    by_cases hi : i = 0
    · subst hi
      rw [State.slotAt_putSlot_same, if_pos ⟨hb, rfl⟩]
    · rw [State.slotAt_putSlot_ne _ _ _ _ hi, if_neg (fun h => hi h.2), base]
  · rw [if_neg hb, if_neg (fun h => hb h.1), State.slotAt_putStartUp, base]

/-! ### Reinitialisation meets every law -/

theorem reinitialise_ports (s : State) (o : Origin) : PortsFollowEnables (s.reinitialise o) := by
  intro p hp
  rw [reinitialise_portAt] at hp
  exact absurd rfl hp

theorem reinitialise_channels (s : State) (o : Origin) : ChannelLaw (s.reinitialise o) := by
  intro c
  rw [reinitialise_chanAt]
  exact ⟨fun h => (by cases h), fun _ => (by decide), fun _ => ⟨rfl, rfl, rfl⟩⟩

theorem reinitialise_changeSetLaw (s : State) (o : Origin) : ChangeSetLaw (s.reinitialise o) := by
  unfold ChangeSetLaw
  rw [reinitialise_set]
  decide

theorem reinitialise_queueLaw (s : State) (o : Origin) : QueueLaw (s.reinitialise o) := by
  intro p
  rw [reinitialise_portAt]
  exact ⟨List.nodup_nil, fun t => by simp [reinitialise_ctxAt, PortUnit.restart]⟩

theorem reinitialise_holdLaw (s : State) (o : Origin) : HoldListLaw (s.reinitialise o) := by
  refine ⟨?_, fun id => ?_, fun _ => ?_⟩
  · rw [reinitialise_set]; exact List.nodup_nil
  · rw [reinitialise_set]; simp [reinitialise_ctxAt, ChangeSet.closedEmpty]
  · rw [reinitialise_set]; rfl

theorem reinitialise_live (s : State) (o : Origin) (i : Fin 64) (h : ((s.reinitialise o).slotAt i).state ≠ .free) : i = 0 := by
  by_contra hi
  rw [reinitialise_slotAt, if_neg (fun x => hi x.2)] at h
  exact h rfl

theorem reinitialise_not_frozen (s : State) (o : Origin) (i : Fin 64) : ((s.reinitialise o).slotAt i).state ≠ .frozen := by
  rw [reinitialise_slotAt]
  split <;> exact fun h => by cases h

theorem reinitialise_overlapLaw (s : State) (o : Origin) : OverlapLaw (s.reinitialise o) := by
  have hset := reinitialise_set s o
  refine ⟨fun i j hij hi hj => ?_, ⟨fun i => ⟨fun h => absurd h (reinitialise_not_frozen s o i), fun h => ?_⟩, fun _ e he => ?_, fun h => ?_⟩, ?_⟩
  · exact absurd ((reinitialise_live s o i hi).trans (reinitialise_live s o j hj).symm) hij
  · rw [hset] at h; cases h.1
  · rw [hset] at he; cases he
  · rw [hset] at h; cases h
  · rw [hset]; exact List.nodup_nil

theorem reinitialise_bindingLaw (s : State) (o : Origin) : BindingLaw (s.reinitialise o) := by
  have hset := reinitialise_set s o
  refine ⟨fun i => ?_, fun id c b h => ?_, ⟨?_, fun e he => ?_, fun i h => absurd h (reinitialise_not_frozen s o i), fun h => ?_⟩, fun id c h => ?_⟩
  · have none : ctxIds.filter (Names (s.reinitialise o) i) = [] := by
      rw [List.filter_eq_nil_iff]
      intro id _
      unfold Names
      rw [reinitialise_ctxAt]
      exact Bool.false_ne_true
    rw [none, reinitialise_slotAt]
    split <;> rfl
  · rw [reinitialise_ctxAt] at h; cases h
  · rw [hset]; exact List.nodup_nil
  · rw [hset] at he; cases he
  · rw [hset] at h; cases h
  · rw [reinitialise_ctxAt] at h; cases h

/-! ### The end of the wait -/

/-- An event outside the wait of RESET_ALL is not followed by reinitialisation. -/
theorem endWait_off {s : State} (h : s.startUp.state ≠ .waiting) : s.endWait = s := by
  unfold State.endWait State.reinitDue
  rw [if_neg]
  simp [h]

theorem endWait_due {s : State} (h : s.reinitDue = true) : s.endWait = s.reinitialise .resetAll := if_pos h

theorem endWait_not_due {s : State} (h : ¬ s.reinitDue = true) : s.endWait = s := if_neg h

/-- What reinitialisation meets and the event meets, the event with the end of the wait meets. -/
theorem endWait_keeps {P : State → Prop} {s : State} (hs : P s) (h : P (s.reinitialise .resetAll)) : P s.endWait := by
  unfold State.endWait
  split
  · exact h
  · exact hs

end Sys2Proof.Machine
end

