-- ==== Sys2Proof/Laws/Frame.lean ====
section
/-! SUPPORT. What resolutions, bindings, grants, beats, drain checks and sweeps never touch: the ports but for their response queues, the profiles, the divisors, the link, start-up, the mask and the other latched flags. One lemma for each shared operation. -/

namespace Sys2Proof.Machine

/-- A Port Unit without its response queue. -/
def PortUnit.core (x : PortUnit) : PortUnit := { x with queue := [] }

/-- From s to t nothing but slots, contexts, response queues, channels, the change set, the fault records and COMMIT_APPLIED has changed, and no divisor. -/
structure State.Still (s t : State) : Prop where
  pending : t.pending = s.pending
  startUp : t.startUp = s.startUp
  profiles : t.profiles = s.profiles
  link : t.link = s.link
  ports : ∀ p, (t.portAt p).core = (s.portAt p).core
  divisors : ∀ c, (t.chanAt c).divisor = (s.chanAt c).divisor
  mask : t.attention.mask = s.attention.mask
  startDone : t.attention.startDone = s.attention.startDone
  linkCollision : t.attention.linkCollision = s.attention.linkCollision

theorem State.Still.refl (s : State) : s.Still s := ⟨rfl, rfl, rfl, rfl, fun _ => rfl, fun _ => rfl, rfl, rfl, rfl⟩

theorem State.Still.trans {s t u : State} (h : s.Still t) (k : t.Still u) : s.Still u :=
  ⟨k.pending.trans h.pending, k.startUp.trans h.startUp, k.profiles.trans h.profiles, k.link.trans h.link,
    fun p => (k.ports p).trans (h.ports p), fun c => (k.divisors c).trans (h.divisors c), k.mask.trans h.mask,
    k.startDone.trans h.startDone, k.linkCollision.trans h.linkCollision⟩

/-! What a kept core says of each item of a port. -/

theorem State.Still.portState {s t : State} (h : s.Still t) (p : Fin 4) : (t.portAt p).state = (s.portAt p).state :=
  (congrArg PortUnit.state (h.ports p) :)
theorem State.Still.portEnable {s t : State} (h : s.Still t) (p : Fin 4) : (t.portAt p).enable = (s.portAt p).enable :=
  (congrArg PortUnit.enable (h.ports p) :)
theorem State.Still.portClass {s t : State} (h : s.Still t) (p : Fin 4) : (t.portAt p).cls = (s.portAt p).cls :=
  (congrArg PortUnit.cls (h.ports p) :)
theorem State.Still.portReset {s t : State} (h : s.Still t) (p : Fin 4) : (t.portAt p).prstn = (s.portAt p).prstn :=
  (congrArg PortUnit.prstn (h.ports p) :)

/-! ### Writes that keep all of it -/

theorem putSlot_still (s : State) (i : Fin 64) (x : Slot) : s.Still (s.putSlot i x) := by
  constructor <;> simp

theorem putCtx_still (s : State) (id : CtxId) (x : Option Context) : s.Still (s.putCtx id x) := by
  constructor <;> simp

theorem mapCtxs_still (s : State) (f : Option Context → Option Context) : s.Still (s.mapCtxs f) := by
  constructor <;> simp

theorem putFault_still (s : State) (p : Fin 4) (x : Option FaultRecord) : s.Still (s.putFault p x) := by
  constructor <;> simp

theorem putChangeSet_still (s : State) (x : ChangeSet) : s.Still (s.putChangeSet x) := by
  constructor <;> simp

theorem putChan_still (s : State) (c : Fin 4) (x : Channel) (h : x.divisor = (s.chanAt c).divisor) :
    s.Still (s.putChan c x) := by
  refine ⟨rfl, rfl, rfl, rfl, fun _ => rfl, fun d => ?_, rfl, rfl, rfl⟩
  by_cases e : d = c
  · subst e; simp [h]
  · simp [State.chanAt_putChan_ne _ _ _ _ e]

theorem putQueue_still (s : State) (p : Fin 4) (x : PortUnit) (h : x.core = (s.portAt p).core) : s.Still (s.putPort p x) := by
  refine ⟨rfl, rfl, rfl, rfl, fun q => ?_, fun _ => rfl, rfl, rfl, rfl⟩
  by_cases e : q = p
  · subst e; simp [h]
  · simp [State.portAt_putPort_ne _ _ _ _ e]

theorem latchCommitApplied_still (s : State) : s.Still s.latchCommitApplied := by
  constructor <;> simp [State.latchCommitApplied]

theorem raiseCount_still (s : State) (i : Fin 64) : s.Still (s.raiseCount i) := putSlot_still ..

theorem lowerCount_still (s : State) (i : Fin 64) : s.Still (s.lowerCount i) := putSlot_still ..

theorem enqueue_still (s : State) (id : CtxId) : s.Still (s.enqueue id) := putQueue_still _ _ _ rfl

theorem recordFault_still (s : State) (p : Fin 4) (r : FaultRecord) : s.Still (s.recordFault p r) := by
  unfold State.recordFault
  split <;> exact putFault_still ..

/-! ### Grants -/

theorem movePointer_divisor (x : Channel) (ch : Choice) : (x.movePointer ch).divisor = x.divisor := by
  unfold Channel.movePointer
  split <;> rfl

theorem startBeat_still (s : State) (c : Fin 4) : s.Still (s.startBeat c) := by
  unfold State.startBeat
  repeat' split
  all_goals first
    | exact .refl s
    | exact putChan_still _ _ _ rfl

theorem grant_still (s : State) (c : Fin 4) (ch : Choice) : s.Still (s.grant c ch) := by
  unfold State.grant
  split
  · refine .trans (.trans (.trans (mapCtxs_still ..) (putCtx_still ..)) (putChan_still _ _ _ ?_)) (startBeat_still ..)
    simp [movePointer_divisor]
  all_goals exact .refl s

theorem arbitrate_still (s : State) (c : Fin 4) : s.Still (s.arbitrate c) := by
  unfold State.arbitrate
  split
  · split
    · exact grant_still ..
    · exact .refl s
  all_goals exact .refl s

/-! ### Resolutions -/

theorem endWithFault_still (s : State) (id : CtxId) (r : Request) (st : Status) (d : DoneRecord) (f : FaultRecord) :
    s.Still (s.endWithFault id r st d f) :=
  .trans (.trans (putCtx_still ..) (enqueue_still ..)) (recordFault_still ..)

theorem bind_still (s : State) (id : CtxId) (r : Request) (b : Binding) : s.Still (s.bind id r b) :=
  .trans (.trans (putCtx_still ..) (raiseCount_still ..)) (arbitrate_still ..)

theorem settle_still (s : State) (id : CtxId) (r : Request) (v : Verdict) : s.Still (s.settle id r v) := by
  cases v
  case held => exact .trans (putCtx_still ..) (putChangeSet_still ..)
  case bound b => exact bind_still ..
  all_goals exact endWithFault_still ..

theorem resolveInto_still (s : State) (id : CtxId) (r : Request) : s.Still (s.resolveInto id r) := settle_still ..

theorem reResolve_still (s : State) (l : List CtxId) : s.Still (s.reResolve l) := by
  induction l generalizing s with
  | nil => exact .refl s
  | cons id rest ih =>
    unfold State.reResolve
    dsimp only
    split
    · exact .trans (.trans (putChangeSet_still ..) (resolveInto_still ..)) (ih _)
    all_goals exact .trans (putChangeSet_still ..) (ih _)

/-! ### Apply and discard -/

theorem applyEntry_still (s : State) (e : Entry) : s.Still (s.applyEntry e) := by
  cases e <;> exact putSlot_still ..

theorem applyEntries_still (s : State) (es : List Entry) : s.Still (s.applyEntries es) := by
  unfold State.applyEntries
  induction es generalizing s with
  | nil => exact .refl s
  | cons e rest ih => exact .trans (applyEntry_still s e) (ih _)

theorem applyNow_still (s : State) : s.Still s.applyNow :=
  .trans (.trans (.trans (applyEntries_still ..) (putChangeSet_still ..)) (latchCommitApplied_still ..)) (reResolve_still ..)

theorem drainCheck_still (s : State) : s.Still s.drainCheck := by
  unfold State.drainCheck
  split
  · exact applyNow_still s
  · exact .refl s

theorem freeze_still (s : State) (e : Entry) : s.Still (s.freeze e) := by
  unfold State.freeze
  split
  · exact putSlot_still ..
  · exact .refl s

theorem accept_still (s : State) : s.Still s.accept := by
  have h : ∀ (es : List Entry) (u : State), u.Still (es.foldl State.freeze u) := by
    intro es
    induction es with
    | nil => exact fun u => .refl u
    | cons e rest ih => exact fun u => .trans (freeze_still u e) (ih _)
  exact .trans (h _ _) (putChangeSet_still ..)

theorem discardCommitting_still (s : State) : s.Still s.discardCommitting := by
  refine .trans (t := { s with slots := s.slots.mapAll Slot.thaw }) ?_ (.trans (putChangeSet_still ..) (reResolve_still ..))
  constructor <;> intros <;> rfl

/-! ### Beat ends -/

theorem endBeatLines_still (s : State) (c : Fin 4) (o : BeatOutcome) : s.Still (s.endBeatLines c o) := putChan_still _ _ _ rfl

theorem clearOnBus_still (s : State) (c : Fin 4) : s.Still (s.clearOnBus c) := putChan_still _ _ _ rfl

theorem chanState_still (s : State) (c : Fin 4) (x : ChanState) : s.Still (s.chanState c x) := putChan_still _ _ _ rfl

theorem afterRecovery_still (s : State) (c : Fin 4) : s.Still (s.afterRecovery c) := by
  unfold State.afterRecovery
  split
  · exact startBeat_still ..
  · exact .trans (chanState_still ..) (arbitrate_still ..)

theorem settleChannel_still (s : State) (c : Fin 4) (copy : BeatCopy) : s.Still (s.settleChannel c copy) := by
  unfold State.settleChannel
  repeat' split
  · exact chanState_still ..
  · exact afterRecovery_still ..
  · exact chanState_still ..

theorem sweepOne_still (s : State) (id : CtxId) : s.Still (s.sweepOne id) := by
  unfold State.sweepOne
  split
  · exact .trans (.trans (lowerCount_still ..) (endWithFault_still ..)) (drainCheck_still ..)
  all_goals exact .refl s

theorem sweep_still (s : State) (c : Fin 4) : s.Still (s.sweep c) := by
  have h : ∀ (l : List CtxId) (u : State), u.Still (l.foldl State.sweepOne u) := by
    intro l
    induction l with
    | nil => exact fun u => .refl u
    | cons id rest ih => exact fun u => .trans (sweepOne_still u id) (ih _)
  unfold State.sweep
  split
  · exact h _ _
  all_goals exact .refl s

theorem endOk_still (s : State) (id : CtxId) (r : Request) (b : Binding) : s.Still (s.endOk id r b) :=
  .trans (putCtx_still ..) (enqueue_still ..)

theorem planEnds_still (s : State) (c : Fin 4) (copy : BeatCopy) (id : CtxId) (r : Request) (b : Binding) (o : BeatOutcome) :
    s.Still (s.planEnds c copy id r b o) := by
  have h0 : s.Still ((s.lowerCount b.window.slot).clearOnBus c) := .trans (lowerCount_still ..) (clearOnBus_still ..)
  have h1 : ∀ u : State, u.Still (((u.settleChannel c copy).drainCheck).sweep c) := fun u =>
    .trans (.trans (settleChannel_still u c copy) (drainCheck_still _)) (sweep_still _ c)
  cases o
  · exact .trans (.trans h0 (endOk_still ..)) (h1 _)
  · exact .trans (.trans h0 (endWithFault_still ..)) (h1 _)
  · exact .trans (.trans h0 (endWithFault_still ..)) (h1 _)

theorem freeAbandoned_still (s : State) (c : Fin 4) (id : CtxId) (b : Binding) : s.Still (s.freeAbandoned c id b) :=
  .trans (.trans (putCtx_still ..) (lowerCount_still ..)) (clearOnBus_still ..)

/-! ### Steps of a port reset -/

theorem freeHeld_still (s : State) (id : CtxId) : s.Still (s.freeHeld id) := by
  unfold State.freeHeld
  split
  · exact putCtx_still ..
  · exact .refl s

theorem freeBound_still (s : State) (id : CtxId) : s.Still (s.freeBound id) := by
  unfold State.freeBound
  split
  · exact .trans (.trans (putCtx_still ..) (lowerCount_still ..)) (drainCheck_still ..)
  · exact .refl s

theorem freeDone_still (s : State) (id : CtxId) : s.Still (s.freeDone id) := by
  unfold State.freeDone
  split
  · exact putCtx_still ..
  · exact .refl s

theorem markAbandoned_still (s : State) (id : CtxId) : s.Still (s.markAbandoned id) := by
  unfold State.markAbandoned
  split
  · exact putCtx_still ..
  · exact .refl s

theorem resetAllCtx_still (s : State) (id : CtxId) : s.Still (s.resetAllCtx id) := by
  unfold State.resetAllCtx
  split
  · exact .trans (putCtx_still ..) (lowerCount_still ..)
  all_goals first
    | exact putCtx_still ..
    | exact .refl s

/-- A fold of steps that keep all of it keeps all of it. -/
theorem foldl_still {α : Type} (f : State → α → State) (h : ∀ (s : State) (x : α), s.Still (f s x)) (l : List α) (s : State) :
    s.Still (l.foldl f s) := by
  induction l generalizing s with
  | nil => exact .refl s
  | cons x rest ih => exact .trans (h s x) (ih _)

end Sys2Proof.Machine
end

