-- ==== Sys2Proof/Laws/PortReset.lean ====
section
/-! SUPPORT. What the folds of a port reset and of the taking of RESET_ALL leave in each context, each slot and each other block, while no set drains. -/

namespace Sys2Proof.Machine

/-- A drain check that is not made changes nothing (R127). -/
theorem drainCheck_off {s : State} (h : s.changeSet.state ≠ .committing) : s.drainCheck = s := by
  unfold State.drainCheck State.drainOn
  rw [if_neg]
  simp [h]

/-- While a context blocks the set, the drain check changes nothing (R127). -/
theorem drainCheck_blocked {s : State} {id : CtxId} (h : blocks s.changeSet.footprint (s.ctxAt id) = true) : s.drainCheck = s := by
  unfold State.drainCheck
  rw [if_neg]
  simp only [Bool.and_eq_true, beq_iff_eq, State.blockingCount, List.length_eq_zero_iff, not_and]
  intro _ hn
  have : id ∈ ctxIds.filter fun id => blocks s.changeSet.footprint (s.ctxAt id) := List.mem_filter.2 ⟨mem_ctxIds id, h⟩
  rw [hn] at this
  cases this

/-- A fold of steps that each change one context by the same function. -/
theorem foldl_ctxs {f : State → CtxId → State} {g : Option Context → Option Context} (P : State → Prop)
    (hP : ∀ s id, P s → P (f s id))
    (hf : ∀ s id, P s → ∀ k, (f s id).ctxAt k = if k = id then g (s.ctxAt k) else s.ctxAt k) (l : List CtxId) (hl : l.Nodup)
    (s : State) (hs : P s) (k : CtxId) : (l.foldl f s).ctxAt k = if k ∈ l then g (s.ctxAt k) else s.ctxAt k := by
  induction l generalizing s with
  | nil => simp
  | cons x l ih =>
    simp only [List.foldl_cons]
    rw [ih (List.nodup_cons.1 hl).2 _ (hP s x hs), hf s x hs]
    by_cases e : k = x
    · subst e
      simp [(List.nodup_cons.1 hl).1]
    · simp [e]

/-- A fold of steps that each keep an item of the state keeps it. -/
theorem foldl_keeps {α β : Type} {f : State → α → State} (item : State → β) (P : State → Prop)
    (hP : ∀ s x, P s → P (f s x)) (h : ∀ s x, P s → item (f s x) = item s) (l : List α) (s : State) (hs : P s) :
    item (l.foldl f s) = item s := by
  induction l generalizing s with
  | nil => rfl
  | cons x l ih => exact (ih _ (hP s x hs)).trans (h s x hs)

theorem nodup_portIds (p : Fin 4) : (portIds p).Nodup := by
  revert p
  decide

/-! ### One context at a time -/

def Context.unlessHeld (x : Option Context) : Option Context :=
  match x with
  | some ⟨_, .held⟩ => none
  | y => y

def Context.unlessBound (x : Option Context) : Option Context :=
  match x with
  | some ⟨_, .bound _ _ _⟩ => none
  | y => y

def Context.unlessDone (x : Option Context) : Option Context :=
  match x with
  | some ⟨_, .done _ _⟩ => none
  | y => y

def Context.marked (x : Option Context) : Option Context :=
  match x with
  | some ⟨r, .onBus b stamp _⟩ => some ⟨r, .onBus b stamp true⟩
  | y => y

theorem freeHeld_ctxAt (s : State) (id k : CtxId) :
    (s.freeHeld id).ctxAt k = if k = id then Context.unlessHeld (s.ctxAt k) else s.ctxAt k := by
  unfold State.freeHeld
  by_cases e : k = id
  · subst e
    simp only [if_true]
    split
    · rename_i h; simp [h, Context.unlessHeld]
    · rename_i h
      unfold Context.unlessHeld
      split
      · rename_i h2; exact absurd h2 (h _)
      · rfl
  · simp only [e, if_false]
    split
    · exact State.ctxAt_putCtx_ne _ _ _ _ e
    · rfl

theorem freeDone_ctxAt (s : State) (id k : CtxId) :
    (s.freeDone id).ctxAt k = if k = id then Context.unlessDone (s.ctxAt k) else s.ctxAt k := by
  unfold State.freeDone
  by_cases e : k = id
  · subst e
    simp only [if_true]
    split
    · rename_i h; simp [h, Context.unlessDone]
    · rename_i h
      unfold Context.unlessDone
      split
      · rename_i h2; exact absurd h2 (h _ _ _)
      · rfl
  · simp only [e, if_false]
    split
    · exact State.ctxAt_putCtx_ne _ _ _ _ e
    · rfl

theorem markAbandoned_ctxAt (s : State) (id k : CtxId) :
    (s.markAbandoned id).ctxAt k = if k = id then Context.marked (s.ctxAt k) else s.ctxAt k := by
  unfold State.markAbandoned
  by_cases e : k = id
  · subst e
    simp only [if_true]
    split
    · rename_i h; simp [h, Context.marked]
    · rename_i h
      unfold Context.marked
      split
      · rename_i h2; exact absurd h2 (h _ _ _ _)
      · rfl
  · simp only [e, if_false]
    split
    · exact State.ctxAt_putCtx_ne _ _ _ _ e
    · rfl

/-- Freeing a BOUND context, but for the drain check. -/
def State.freeBoundOnly (s : State) (id : CtxId) : State :=
  match s.ctxAt id with
  | some ⟨_, .bound b _ _⟩ => (s.putCtx id none).lowerCount b.window.slot
  | _ => s

theorem freeBoundOnly_ctxAt (s : State) (id k : CtxId) :
    (s.freeBoundOnly id).ctxAt k = if k = id then Context.unlessBound (s.ctxAt k) else s.ctxAt k := by
  unfold State.freeBoundOnly
  by_cases e : k = id
  · subst e
    simp only [if_true]
    split
    · rename_i h; simp [h, Context.unlessBound, State.lowerCount]
    · rename_i h
      unfold Context.unlessBound
      split
      · rename_i h2; exact absurd h2 (h _ _ _ _)
      · rfl
  · simp only [e, if_false]
    split
    · simp [State.lowerCount, State.ctxAt_putCtx_ne _ _ _ _ e]
    · rfl

theorem resetAllCtx_ctxAt (s : State) (id k : CtxId) :
    (s.resetAllCtx id).ctxAt k = if k = id then
      (match s.ctxAt k with
        | some ⟨r, .onBus b stamp _⟩ => some ⟨r, .onBus b stamp true⟩
        | _ => none)
      else s.ctxAt k := by
  unfold State.resetAllCtx
  by_cases e : k = id
  · subst e
    simp only [if_true]
    split
    all_goals rename_i h; simp [h, State.lowerCount]
  · simp only [e, if_false]
    split
    all_goals simp [State.lowerCount, State.ctxAt_putCtx_ne _ _ _ _ e]

/-! ### The counts -/

/-- What one context counts at a slot while it is BOUND. -/
def boundCount (x : Option Context) (i : Fin 64) : Nat :=
  match x with
  | some ⟨_, .bound b _ _⟩ => if b.window.slot = i then 1 else 0
  | _ => 0

theorem boundUnderSlot_cons (s : State) (id : CtxId) (l : List CtxId) (i : Fin 64) :
    boundUnderSlot s (id :: l) i = boundCount (s.ctxAt id) i + boundUnderSlot s l i := by
  unfold boundUnderSlot boundCount
  simp only [List.filter_cons]
  cases hc : s.ctxAt id with
  | none => simp
  | some x =>
    obtain ⟨r, st⟩ := x
    cases st with
    | bound b stamp passes =>
      by_cases e : b.window.slot = i
      · simp [e, Nat.add_comm]
      · simp [e]
    | held => simp
    | onBus _ _ _ => simp
    | done _ _ => simp

theorem boundUnderSlot_congr {s t : State} {l : List CtxId} (h : ∀ k ∈ l, s.ctxAt k = t.ctxAt k) (i : Fin 64) :
    boundUnderSlot s l i = boundUnderSlot t l i := by
  induction l with
  | nil => rfl
  | cons k l ih =>
    rw [boundUnderSlot_cons, boundUnderSlot_cons, h k List.mem_cons_self, ih fun j hj => h j (List.mem_cons_of_mem _ hj)]

theorem fewer_fewer (x : Slot) (m n : Nat) : fewerInFlight (fewerInFlight x m) n = fewerInFlight x (m + n) := by
  simp [fewerInFlight, Nat.sub_sub]

theorem fewer_zero (x : Slot) : fewerInFlight x 0 = x := rfl

/-- A fold that frees contexts, each BOUND one lowering its slot's count, lowers every count by the contexts BOUND there. -/
theorem foldl_counts {f : State → CtxId → State} (P : State → Prop) (hP : ∀ s id, P s → P (f s id))
    (hc : ∀ s id, P s → ∀ k, k ≠ id → (f s id).ctxAt k = s.ctxAt k)
    (hf : ∀ s id, P s → ∀ i, (f s id).slotAt i = fewerInFlight (s.slotAt i) (boundCount (s.ctxAt id) i)) (l : List CtxId)
    (hl : l.Nodup) (s : State) (hs : P s) (i : Fin 64) :
    (l.foldl f s).slotAt i = fewerInFlight (s.slotAt i) (boundUnderSlot s l i) := by
  induction l generalizing s with
  | nil => rfl
  | cons x l ih =>
    simp only [List.foldl_cons]
    rw [ih (List.nodup_cons.1 hl).2 _ (hP s x hs), hf s x hs, fewer_fewer, boundUnderSlot_cons]
    congr 2
    refine boundUnderSlot_congr (fun k hk => hc s x hs k ?_) i
    rintro rfl
    exact (List.nodup_cons.1 hl).1 hk

theorem lowerCount_slotAt (s : State) (j i : Fin 64) :
    (s.lowerCount j).slotAt i = fewerInFlight (s.slotAt i) (if j = i then 1 else 0) := by
  unfold State.lowerCount
  by_cases e : i = j
  · subst e; simp [fewerInFlight]
  · simp [State.slotAt_putSlot_ne _ _ _ _ e, Ne.symm e, fewer_zero]

theorem freeBoundOnly_slotAt (s : State) (id : CtxId) (i : Fin 64) :
    (s.freeBoundOnly id).slotAt i = fewerInFlight (s.slotAt i) (boundCount (s.ctxAt id) i) := by
  unfold State.freeBoundOnly
  unfold boundCount
  split
  · rename_i hc
    rw [lowerCount_slotAt]
    simp
  · rename_i hc
    simp [fewer_zero]

theorem resetAllCtx_slotAt (s : State) (id : CtxId) (i : Fin 64) :
    (s.resetAllCtx id).slotAt i = fewerInFlight (s.slotAt i) (boundCount (s.ctxAt id) i) := by
  unfold State.resetAllCtx
  split
  case h_1 => rename_i hc; rw [lowerCount_slotAt]; simp [hc, boundCount]
  all_goals rename_i hc; simp [hc, boundCount, fewer_zero]

/-! ### The start of a port reset (R54) -/

theorem freeHeld_keeps (s : State) (id : CtxId) :
    (s.freeHeld id).slots = s.slots ∧ (s.freeHeld id).ports = s.ports ∧ (s.freeHeld id).chans = s.chans ∧
      (s.freeHeld id).changeSet = s.changeSet ∧ (s.freeHeld id).faults = s.faults ∧
      (s.freeHeld id).attention = s.attention := by
  unfold State.freeHeld
  split <;> exact ⟨rfl, rfl, rfl, rfl, rfl, rfl⟩

theorem freeDone_keeps (s : State) (id : CtxId) :
    (s.freeDone id).slots = s.slots ∧ (s.freeDone id).ports = s.ports ∧ (s.freeDone id).chans = s.chans ∧
      (s.freeDone id).changeSet = s.changeSet ∧ (s.freeDone id).faults = s.faults ∧
      (s.freeDone id).attention = s.attention := by
  unfold State.freeDone
  split <;> exact ⟨rfl, rfl, rfl, rfl, rfl, rfl⟩

theorem markAbandoned_keeps (s : State) (id : CtxId) :
    (s.markAbandoned id).slots = s.slots ∧ (s.markAbandoned id).ports = s.ports ∧ (s.markAbandoned id).chans = s.chans ∧
      (s.markAbandoned id).changeSet = s.changeSet ∧ (s.markAbandoned id).faults = s.faults ∧
      (s.markAbandoned id).attention = s.attention := by
  unfold State.markAbandoned
  split <;> exact ⟨rfl, rfl, rfl, rfl, rfl, rfl⟩

theorem freeBoundOnly_keeps (s : State) (id : CtxId) :
    (s.freeBoundOnly id).ports = s.ports ∧ (s.freeBoundOnly id).chans = s.chans ∧ (s.freeBoundOnly id).changeSet = s.changeSet ∧
      (s.freeBoundOnly id).faults = s.faults ∧ (s.freeBoundOnly id).attention = s.attention := by
  unfold State.freeBoundOnly
  split <;> exact ⟨rfl, rfl, rfl, rfl, rfl⟩

theorem freeBoundOnly_still (s : State) (id : CtxId) : s.Still (s.freeBoundOnly id) := by
  unfold State.freeBoundOnly
  split
  · exact .trans (putCtx_still ..) (lowerCount_still ..)
  · exact .refl s

theorem resetAllCtx_keeps (s : State) (id : CtxId) :
    (s.resetAllCtx id).ports = s.ports ∧ (s.resetAllCtx id).chans = s.chans ∧ (s.resetAllCtx id).changeSet = s.changeSet ∧
      (s.resetAllCtx id).faults = s.faults ∧ (s.resetAllCtx id).attention = s.attention := by
  unfold State.resetAllCtx
  split <;> exact ⟨rfl, rfl, rfl, rfl, rfl⟩

/-- The context is HELD or BOUND. -/
def HeldOrBound (x : Option Context) : Prop :=
  match x with
  | some ⟨_, .held⟩ => True
  | some ⟨_, .bound _ _ _⟩ => True
  | _ => False

theorem dropPort_nil (x : ChangeSet) (p : Fin 4) (h : x.holdList = []) : x.dropPort p = x := by
  cases x
  simp only at h
  simp [ChangeSet.dropPort, h]

/-- Steps 1 and 2 of a port reset. -/
@[irreducible] def State.resetHeld (s : State) (p : Fin 4) : State :=
  ((portIds p).foldl State.freeHeld (s.putPort p { s.portAt p with state := .inReset })).putChangeSet (s.changeSet.dropPort p)

/-- Steps 4 to 6 of a port reset. -/
@[irreducible] def State.resetEnd (s : State) (p : Fin 4) : State :=
  let s4 := (portIds p).foldl State.freeDone s
  ((portIds p).foldl State.markAbandoned (s4.putPort p { s4.portAt p with queue := [] })).putFault p none

theorem startPortReset_eq (s : State) (p : Fin 4) :
    s.startPortReset p = ((portIds p).foldl State.freeBound (s.resetHeld p)).resetEnd p := by
  unfold State.resetEnd State.resetHeld
  rfl

/-- A fold of steps that keep an item keeps it. -/
theorem foldl_same {α β : Type} {f : State → α → State} (item : State → β) (h : ∀ s x, item (f s x) = item s) (l : List α)
    (s : State) : item (l.foldl f s) = item s :=
  foldl_keeps item (fun _ => True) (fun _ _ _ => trivial) (fun s x _ => h s x) l s trivial

theorem resetHeld_ctxAt (s : State) (p : Fin 4) (k : CtxId) :
    (s.resetHeld p).ctxAt k = if k.port = p then Context.unlessHeld (s.ctxAt k) else s.ctxAt k := by
  unfold State.resetHeld
  rw [State.ctxAt_putChangeSet, foldl_ctxs (fun _ => True) (fun _ _ _ => trivial) (fun u id _ k => freeHeld_ctxAt u id k) _
    (nodup_portIds p) _ trivial k]
  simp only [mem_portIds, State.ctxAt_putPort]

/-- What steps 1 and 2 leave (R54, R136). -/
theorem resetHeld_leaves (s : State) (p : Fin 4) : HeldLeaves s (s.resetHeld p) p (s.portAt p).prstn := by
  have keep : ∀ {β : Type} (item : State → β), (∀ u id, item (u.freeHeld id) = item u) →
      (∀ u x, item (u.putChangeSet x) = item u) →
      item (s.resetHeld p) = item (s.putPort p { s.portAt p with state := .inReset }) :=
    fun item h1 h2 => by
      unfold State.resetHeld
      rw [h2, foldl_same item h1]
  have set : (s.resetHeld p).changeSet = s.changeSet.dropPort p := by unfold State.resetHeld; rfl
  have ports := keep State.ports (fun u id => (freeHeld_keeps u id).2.1) (fun _ _ => rfl)
  have port : ∀ q, (s.resetHeld p).portAt q = _ := fun q => congrArg (Table.look · q) ports
  refine ⟨?_, fun q hq => ?_, fun tag r h => ?_, fun id h => ?_, set, ?_, ?_, ?_, ?_, ?_, ?_, ?_, ?_⟩
  · exact (port p).trans (State.portAt_putPort_same ..)
  · exact (port q).trans (State.portAt_putPort_ne _ _ _ _ hq)
  · rw [resetHeld_ctxAt, if_pos rfl, h]; rfl
  · rw [resetHeld_ctxAt]
    split
    · rename_i e
      unfold Context.unlessHeld
      split
      · rename_i r hx; exact absurd hx (h e r)
      · rfl
    · rfl
  · exact keep State.slots (fun u id => (freeHeld_keeps u id).1) (fun _ _ => rfl)
  · exact keep State.profiles (fun u id => (freeHeld_still u id).profiles) (fun _ _ => rfl)
  · exact keep State.chans (fun u id => (freeHeld_keeps u id).2.2.1) (fun _ _ => rfl)
  · exact keep State.faults (fun u id => (freeHeld_keeps u id).2.2.2.2.1) (fun _ _ => rfl)
  · exact keep State.attention (fun u id => (freeHeld_keeps u id).2.2.2.2.2) (fun _ _ => rfl)
  · exact keep State.link (fun u id => (freeHeld_still u id).link) (fun _ _ => rfl)
  · exact keep State.startUp (fun u id => (freeHeld_still u id).startUp) (fun _ _ => rfl)
  · exact keep State.pending (fun u id => (freeHeld_still u id).pending) (fun _ _ => rfl)

theorem resetEnd_ctxAt (v : State) (p : Fin 4) (k : CtxId) :
    (v.resetEnd p).ctxAt k = if k.port = p then Context.marked (Context.unlessDone (v.ctxAt k)) else v.ctxAt k := by
  unfold State.resetEnd
  dsimp only
  rw [State.ctxAt_putFault, foldl_ctxs (fun _ => True) (fun _ _ _ => trivial) (fun u id _ k => markAbandoned_ctxAt u id k) _
    (nodup_portIds p) _ trivial k, State.ctxAt_putPort, foldl_ctxs (fun _ => True) (fun _ _ _ => trivial) (fun u id _ k => freeDone_ctxAt u id k) _
    (nodup_portIds p) v trivial k]
  by_cases e : k.port = p <;> simp [mem_portIds, e]

/-- What steps 4 to 6 leave of a part in which no context of the port is HELD or BOUND any more (R54). -/
theorem resetEnd_ends {v : State} {p : Fin 4} (h : ∀ tag, ¬ HeldOrBound (v.ctxAt ⟨p, tag⟩)) : ResetEnds v (v.resetEnd p) p := by
  generalize h4 : (portIds p).foldl State.freeDone v = s4
  generalize h6 : (portIds p).foldl State.markAbandoned (s4.putPort p { s4.portAt p with queue := [] }) = s6
  have ends : v.resetEnd p = s6.putFault p none := by
    subst h6 h4
    unfold State.resetEnd
    rfl
  have keep4 : ∀ {β : Type} (item : State → β), (∀ u id, item (u.freeDone id) = item u) → item s4 = item v :=
    fun item h1 => by rw [← h4, foldl_same item h1]
  have keep6 : ∀ {β : Type} (item : State → β), (∀ u id, item (u.markAbandoned id) = item u) →
      item s6 = item (s4.putPort p { s4.portAt p with queue := [] }) :=
    fun item h1 => by rw [← h6, foldl_same item h1]
  have keep : ∀ {β : Type} (item : State → β), (∀ u id, item (u.freeDone id) = item u) →
      (∀ u id, item (u.markAbandoned id) = item u) → (∀ u q x, item (u.putPort q x) = item u) →
      (∀ u q x, item (u.putFault q x) = item u) → item (v.resetEnd p) = item v := by
    intro β item h1 h2 h3 h4
    rw [ends, h4, keep6 item h2, h3, keep4 item h1]
  have port4 : ∀ q, s4.portAt q = v.portAt q :=
    fun q => congrArg (Table.look · q) (keep4 State.ports fun u id => (freeDone_keeps u id).2.1)
  have port : ∀ q, (v.resetEnd p).portAt q = (s4.putPort p { s4.portAt p with queue := [] }).portAt q := fun q => by
    rw [ends, State.portAt_putFault]
    exact congrArg (Table.look · q) (keep6 State.ports fun u id => (markAbandoned_keeps u id).2.1)
  have faults : s6.faults = v.faults :=
    (keep6 State.faults fun u id => (markAbandoned_keeps u id).2.2.2.2.1).trans
      (keep4 State.faults fun u id => (freeDone_keeps u id).2.2.2.2.1)
  refine ⟨?_, fun q hq => ?_, fun tag r b stamp m hx => ?_, fun tag hx => ?_, fun id hid => ?_, ?_, fun q hq => ?_, ?_, ?_, ?_, ?_,
    ?_, ?_, ?_, ?_⟩
  · rw [port, State.portAt_putPort_same, port4]
  · rw [port, State.portAt_putPort_ne _ _ _ _ hq, port4]
  · rw [resetEnd_ctxAt, if_pos rfl, hx]; rfl
  · rw [resetEnd_ctxAt, if_pos rfl]
    have := h tag
    cases hv : v.ctxAt ⟨p, tag⟩ with
    | none => rfl
    | some x =>
      obtain ⟨r, st⟩ := x
      rw [hv] at this
      cases st with
      | held => exact absurd trivial this
      | bound b n m => exact absurd trivial this
      | onBus b n m => exact absurd hv (hx r b n m)
      | done a b => rfl
  · rw [resetEnd_ctxAt, if_neg hid]
  · rw [ends, State.faultAt_putFault_same]
  · rw [ends, State.faultAt_putFault_ne _ _ _ _ hq]
    exact congrArg (Table.look · q) faults
  · exact keep State.slots (fun u id => (freeDone_keeps u id).1) (fun u id => (markAbandoned_keeps u id).1) (fun _ _ _ => rfl)
      (fun _ _ _ => rfl)
  · exact keep State.changeSet (fun u id => (freeDone_keeps u id).2.2.2.1) (fun u id => (markAbandoned_keeps u id).2.2.2.1)
      (fun _ _ _ => rfl) (fun _ _ _ => rfl)
  · exact keep State.profiles (fun u id => (freeDone_still u id).profiles) (fun u id => (markAbandoned_still u id).profiles)
      (fun _ _ _ => rfl) (fun _ _ _ => rfl)
  · exact keep State.chans (fun u id => (freeDone_keeps u id).2.2.1) (fun u id => (markAbandoned_keeps u id).2.2.1)
      (fun _ _ _ => rfl) (fun _ _ _ => rfl)
  · exact keep State.attention (fun u id => (freeDone_keeps u id).2.2.2.2.2) (fun u id => (markAbandoned_keeps u id).2.2.2.2.2)
      (fun _ _ _ => rfl) (fun _ _ _ => rfl)
  · exact keep State.link (fun u id => (freeDone_still u id).link) (fun u id => (markAbandoned_still u id).link)
      (fun _ _ _ => rfl) (fun _ _ _ => rfl)
  · exact keep State.startUp (fun u id => (freeDone_still u id).startUp) (fun u id => (markAbandoned_still u id).startUp)
      (fun _ _ _ => rfl) (fun _ _ _ => rfl)
  · exact keep State.pending (fun u id => (freeDone_still u id).pending) (fun u id => (markAbandoned_still u id).pending)
      (fun _ _ _ => rfl) (fun _ _ _ => rfl)

/-- A context that is not freed keeps the set from draining, and step 3 then applies nothing (R127, R136). -/
theorem foldl_freeBound_quiet {s : State} {l : List CtxId}
    (h : s.changeSet.state ≠ .committing ∨ ∃ id, blocks s.changeSet.footprint (s.ctxAt id) = true ∧
      (id ∈ l → ∀ r b n m, s.ctxAt id ≠ some ⟨r, .bound b n m⟩)) :
    l.foldl State.freeBound s = l.foldl State.freeBoundOnly s := by
  induction l generalizing s with
  | nil => rfl
  | cons k l ih =>
    simp only [List.foldl_cons]
    have set : (s.freeBoundOnly k).changeSet = s.changeSet := (freeBoundOnly_keeps s k).2.2.1
    have kept : ∀ id, (id ∈ k :: l → ∀ r b n m, s.ctxAt id ≠ some ⟨r, .bound b n m⟩) → (s.freeBoundOnly k).ctxAt id = s.ctxAt id := by
      intro id hid
      rw [freeBoundOnly_ctxAt]
      split
      · rename_i e
        unfold Context.unlessBound
        split
        · rename_i hx; exact absurd hx (hid (e ▸ List.mem_cons_self) _ _ _ _)
        · rfl
      · rfl
    have off : (s.freeBoundOnly k).drainCheck = s.freeBoundOnly k := by
      rcases h with h | ⟨id, hb, hid⟩
      · exact drainCheck_off (by rw [set]; exact h)
      · refine drainCheck_blocked (id := id) ?_
        rw [set, kept id hid]
        exact hb
    have one : s.freeBound k = s.freeBoundOnly k := by
      unfold State.freeBound
      split
      · rename_i r b n m hc
        have e : s.freeBoundOnly k = (s.putCtx k none).lowerCount b.window.slot := by
          unfold State.freeBoundOnly; rw [hc]
        rw [← e]
        exact off
      · rename_i hc
        unfold State.freeBoundOnly
        split
        · rename_i hx; exact absurd hx (hc _ _ _ _)
        · rfl
    rw [one]
    refine ih ?_
    rw [set]
    refine h.imp id fun ⟨id, hb, hid⟩ => ⟨id, by rw [kept id hid]; exact hb, fun hm => ?_⟩
    rw [kept id hid]
    exact hid (List.mem_cons_of_mem _ hm)

/-- The start of a port reset that drains nothing, entry by entry (R24, R54, R62, R136). -/
theorem startPortReset_spec {s : State} {p : Fin 4} (h : ResetDrainsNothing s p) :
    PortResetStarts s (s.startPortReset p) p ∧
      (s.startPortReset p).portAt p = { s.portAt p with state := .inReset, queue := [] } ∧ (s.startPortReset p).link = s.link := by
  have a := resetHeld_leaves s p
  have quiet : (portIds p).foldl State.freeBound (s.resetHeld p) = (portIds p).foldl State.freeBoundOnly (s.resetHeld p) := by
    refine foldl_freeBound_quiet ?_
    rw [a.set]
    refine h.imp id fun ⟨id, hb, hp⟩ => ?_
    have same : (s.resetHeld p).ctxAt id = s.ctxAt id := a.contexts id fun e r hx => by
      obtain ⟨_, _, _, _, h2⟩ := hp e
      rw [h2] at hx
      cases hx
    refine ⟨id, by rw [same]; exact hb, fun hm r b n m hx => ?_⟩
    obtain ⟨_, _, _, _, h2⟩ := hp (mem_portIds.1 hm)
    rw [same, h2] at hx
    cases hx
  generalize hv : (portIds p).foldl State.freeBoundOnly (s.resetHeld p) = v at quiet
  have vctx : ∀ k, v.ctxAt k = if k.port = p then Context.unlessBound (Context.unlessHeld (s.ctxAt k)) else s.ctxAt k := by
    intro k
    rw [← hv, foldl_ctxs (fun _ => True) (fun _ _ _ => trivial) (fun u id _ k => freeBoundOnly_ctxAt u id k) _ (nodup_portIds p)
      _ trivial k, resetHeld_ctxAt]
    by_cases e : k.port = p <;> simp [mem_portIds, e]
  have e : ResetEnds v (v.resetEnd p) p := by
    refine resetEnd_ends fun tag => ?_
    rw [vctx, if_pos rfl]
    cases s.ctxAt ⟨p, tag⟩ with
    | none => exact id
    | some x => obtain ⟨r, st⟩ := x; cases st <;> exact id
  have keep : ∀ {β : Type} (item : State → β), (∀ u id, item (u.freeBoundOnly id) = item u) → item v = item (s.resetHeld p) :=
    fun item h1 => by rw [← hv]; exact foldl_same item h1 ..
  have ports := keep State.ports fun u id => (freeBoundOnly_keeps u id).1
  have port : ∀ q, v.portAt q = (s.resetHeld p).portAt q := fun q => congrArg (Table.look · q) ports
  have same_faults : v.faults = s.faults := (keep State.faults fun u id => (freeBoundOnly_keeps u id).2.2.2.1).trans a.faults
  rw [startPortReset_eq, quiet]
  refine ⟨⟨fun q hq => ?_, fun tag r b stamp m hx => ?_, fun tag hx => ?_, fun id hid => ?_, fun i => ?_, ?_, e.fault, fun q hq => ?_,
    ?_, ?_, ?_, ?_, ?_⟩, ?_, ?_⟩
  · rw [e.otherPorts q hq, port, a.otherPorts q hq]
  · exact e.marked tag r b stamp m (by rw [vctx, if_pos rfl, hx]; rfl)
  · refine e.freed tag fun r b n m hy => ?_
    rw [vctx, if_pos rfl] at hy
    cases hs : s.ctxAt ⟨p, tag⟩ with
    | none => rw [hs] at hy; cases hy
    | some x =>
      obtain ⟨q, st⟩ := x
      rw [hs] at hy
      cases st with
      | onBus b' n' m' => exact hx _ _ _ _ hs
      | held => cases hy
      | bound b n m => cases hy
      | done a b => cases hy
  · rw [e.otherContexts id hid, vctx, if_neg hid]
  · have e1 : (v.resetEnd p).slotAt i = v.slotAt i := congrArg (Table.look · i) e.slots
    have e2 : (s.resetHeld p).slotAt i = s.slotAt i := congrArg (Table.look · i) a.slots
    rw [e1, ← hv, foldl_counts (fun _ => True) (fun _ _ _ => trivial) (fun u id _ k hk => by rw [freeBoundOnly_ctxAt, if_neg hk])
      (fun u id _ i => freeBoundOnly_slotAt u id i) _ (nodup_portIds p) _ trivial i, e2]
    congr 1
    have same : ∀ k, boundCount ((s.resetHeld p).ctxAt k) i = boundCount (s.ctxAt k) i := by
      intro k
      rw [resetHeld_ctxAt]
      split
      · cases s.ctxAt k with
        | none => rfl
        | some x => obtain ⟨r, st⟩ := x; cases st <;> rfl
      · rfl
    generalize portIds p = l
    induction l with
    | nil => rfl
    | cons k l ih => rw [boundUnderSlot_cons, boundUnderSlot_cons, ih, same]
  · rw [e.set, keep State.changeSet fun u id => (freeBoundOnly_keeps u id).2.2.1, a.set]
  · rw [e.otherFaults q hq]
    exact congrArg (Table.look · q) same_faults
  · rw [e.profiles, keep State.profiles fun u id => (freeBoundOnly_still u id).profiles, a.profiles]
  · rw [e.chans, keep State.chans fun u id => (freeBoundOnly_keeps u id).2.1, a.chans]
  · rw [e.attention, keep State.attention fun u id => (freeBoundOnly_keeps u id).2.2.2.2, a.attention]
  · rw [e.startUp, keep State.startUp fun u id => (freeBoundOnly_still u id).startUp, a.startUp]
  · rw [e.pending, keep State.pending fun u id => (freeBoundOnly_still u id).pending, a.pending]
  · rw [e.port, port, a.port]
  · rw [e.link, keep State.link fun u id => (freeBoundOnly_still u id).link, a.link]

end Sys2Proof.Machine
end

