-- ==== Sys2Proof/Laws/Queues.lean ====
section
/-! SUPPORT. Each shared operation keeps the law of the response queues: a queue holds exactly its port's DONE contexts, once each (R51). -/

namespace Sys2Proof.Machine

/-- A context is DONE. -/
def DoneAt (s : State) (id : CtxId) : Prop := ∃ r st d, s.ctxAt id = some ⟨r, .done st d⟩

theorem not_done_of_none {s : State} {id : CtxId} (h : s.ctxAt id = none) : ¬ DoneAt s id := by
  rintro ⟨r, st, d, e⟩
  rw [h] at e
  cases e

theorem not_done_of_held {s : State} {id : CtxId} {r : Request} (h : s.ctxAt id = some ⟨r, .held⟩) : ¬ DoneAt s id := by
  rintro ⟨_, _, _, e⟩
  rw [h] at e
  cases e

theorem not_done_of_bound {s : State} {id : CtxId} {r : Request} {b : Binding} {m n : Nat}
    (h : s.ctxAt id = some ⟨r, .bound b m n⟩) : ¬ DoneAt s id := by
  rintro ⟨_, _, _, e⟩
  rw [h] at e
  cases e

theorem not_done_of_onBus {s : State} {id : CtxId} {r : Request} {b : Binding} {m : Nat} {a : Bool}
    (h : s.ctxAt id = some ⟨r, .onBus b m a⟩) : ¬ DoneAt s id := by
  rintro ⟨_, _, _, e⟩
  rw [h] at e
  cases e

/-- The law rests on the queues and on which contexts are DONE, and on nothing else. -/
theorem queueLaw_congr {s t : State} (hs : QueueLaw s) (hq : ∀ p, (t.portAt p).queue = (s.portAt p).queue)
    (hc : ∀ id, DoneAt t id ↔ DoneAt s id) : QueueLaw t := by
  intro p
  rw [hq p]
  exact ⟨(hs p).1, fun tag => ((hs p).2 tag).trans (hc ⟨p, tag⟩).symm⟩

theorem queueLaw_same {s t : State} (hs : QueueLaw s) (hp : t.ports = s.ports) (hc : t.ctxs = s.ctxs) : QueueLaw t := by
  refine queueLaw_congr hs (fun p => ?_) (fun id => ?_)
  · exact congrArg (fun x : Table PortUnit 4 => (x.look p).queue) hp
  · have : t.ctxAt id = s.ctxAt id := congrArg (Table.look · id.idx) hc
    unfold DoneAt
    rw [this]

/-- A context that is not DONE may change to one that is not DONE. -/
theorem putCtx_queueLaw {s : State} {id : CtxId} {x : Option Context} (hs : QueueLaw s) (h : ¬ DoneAt s id)
    (hx : ∀ r st d, x ≠ some ⟨r, .done st d⟩) : QueueLaw (s.putCtx id x) := by
  refine queueLaw_congr hs (fun _ => rfl) (fun k => ?_)
  by_cases e : k = id
  · subst e
    refine ⟨fun ⟨r, st, d, h2⟩ => ?_, fun h2 => absurd h2 h⟩
    rw [State.ctxAt_putCtx_same] at h2
    exact absurd h2 (hx r st d)
  · unfold DoneAt
    rw [State.ctxAt_putCtx_ne _ _ _ _ e]

/-- A context that ends joins the tail of its port's queue. -/
theorem enqueue_queueLaw {s : State} {id : CtxId} {r : Request} {st : Status} {d : DoneRecord} (hs : QueueLaw s)
    (h : ¬ DoneAt s id) : QueueLaw ((s.putCtx id (some ⟨r, .done st d⟩)).enqueue id) := by
  have hn : id.tag ∉ (s.portAt id.port).queue := fun hm => h (((hs id.port).2 id.tag).1 hm)
  intro p
  unfold State.enqueue
  by_cases e : p = id.port
  · subst e
    rw [State.portAt_putPort_same]
    refine ⟨?_, fun t => ?_⟩
    · rw [List.nodup_append]
      refine ⟨(hs id.port).1, List.nodup_singleton _, fun a ha b hb e => hn ?_⟩
      rw [List.mem_singleton] at hb
      rw [← hb, ← e]
      exact ha
    · simp only [State.portAt_putCtx, List.mem_append, List.mem_singleton, State.ctxAt_putPort]
      by_cases e2 : t = id.tag
      · subst e2
        exact ⟨fun _ => ⟨r, st, d, State.ctxAt_putCtx_same ..⟩, fun _ => .inr rfl⟩
      · have e3 : (⟨id.port, t⟩ : CtxId) ≠ id := fun h => e2 (by rw [← h])
        rw [State.ctxAt_putCtx_ne _ _ _ _ e3]
        simp only [e2, or_false]
        exact (hs id.port).2 t
  · rw [State.portAt_putPort_ne _ _ _ _ e]
    refine ⟨(hs p).1, fun t => ?_⟩
    have e3 : (⟨p, t⟩ : CtxId) ≠ id := fun h => e (by rw [← h])
    rw [State.ctxAt_putPort, State.ctxAt_putCtx_ne _ _ _ _ e3]
    exact (hs p).2 t

theorem recordFault_queueLaw {s : State} {p : Fin 4} {f : FaultRecord} (hs : QueueLaw s) : QueueLaw (s.recordFault p f) := by
  rw [recordFault_eq]
  exact hs

theorem endWithFault_queueLaw {s : State} {id : CtxId} {r : Request} {st : Status} {d : DoneRecord} {f : FaultRecord}
    (hs : QueueLaw s) (h : ¬ DoneAt s id) : QueueLaw (s.endWithFault id r st d f) :=
  recordFault_queueLaw (enqueue_queueLaw hs h)

theorem passOver_done {c : Fin 4} {x : Option Context} {r : Request} {st : Status} {d : DoneRecord} :
    passOver c x = some ⟨r, .done st d⟩ ↔ x = some ⟨r, .done st d⟩ := by
  cases x with
  | none => simp [passOver]
  | some x =>
    obtain ⟨q, y⟩ := x
    cases y <;> simp only [passOver]
    split <;> simp

theorem startBeat_same (s : State) (c : Fin 4) :
    (s.startBeat c).slots = s.slots ∧ (s.startBeat c).ports = s.ports ∧ (s.startBeat c).ctxs = s.ctxs ∧
      (s.startBeat c).changeSet = s.changeSet := by
  unfold State.startBeat
  repeat' split
  all_goals exact ⟨rfl, rfl, rfl, rfl⟩

theorem grant_queueLaw {s : State} {c : Fin 4} {ch : Choice} (hs : QueueLaw s) : QueueLaw (s.grant c ch) := by
  unfold State.grant
  split
  · rename_i r b stamp passes hc
    refine queueLaw_same ?_ (startBeat_same ..).2.1 (startBeat_same ..).2.2.1
    refine queueLaw_same (s := (s.mapCtxs (passOver c)).putCtx ch.id (some ⟨r, .onBus b stamp false⟩))
      (putCtx_queueLaw (queueLaw_congr hs (fun _ => rfl) fun id => ?_) ?_ (by simp)) rfl rfl
    · unfold DoneAt
      simp only [State.ctxAt_mapCtxs, passOver_done]
    · rintro ⟨q, st, d, h⟩
      rw [State.ctxAt_mapCtxs, passOver_done, hc] at h
      cases h
  all_goals exact hs

theorem arbitrate_queueLaw {s : State} {c : Fin 4} (hs : QueueLaw s) : QueueLaw (s.arbitrate c) := by
  unfold State.arbitrate
  split
  · split
    · exact grant_queueLaw hs
    · exact hs
  all_goals exact hs

theorem bind_queueLaw {s : State} {id : CtxId} {r : Request} {b : Binding} (hs : QueueLaw s) (h : ¬ DoneAt s id) :
    QueueLaw (s.bind id r b) :=
  arbitrate_queueLaw (queueLaw_same (putCtx_queueLaw hs h (by simp)) rfl rfl)

theorem resolveInto_queueLaw {s : State} {id : CtxId} {r : Request} (hs : QueueLaw s) (h : ¬ DoneAt s id) :
    QueueLaw (s.resolveInto id r) := by
  unfold State.resolveInto
  cases s.resolve id.port r with
  | held => exact queueLaw_same (putCtx_queueLaw hs h (by simp)) rfl rfl
  | bound b => exact bind_queueLaw hs h
  | noWindow => exact endWithFault_queueLaw hs h
  | span w => exact endWithFault_queueLaw hs h
  | denied w => exact endWithFault_queueLaw hs h
  | channelOffline w c => exact endWithFault_queueLaw hs h

theorem reResolve_queueLaw {s : State} {l : List CtxId} (hs : QueueLaw s) : QueueLaw (s.reResolve l) := by
  induction l generalizing s with
  | nil => exact hs
  | cons id rest ih =>
    unfold State.reResolve
    dsimp only
    split
    · rename_i r hc
      exact ih (resolveInto_queueLaw hs (not_done_of_held hc))
    all_goals exact ih hs

theorem applyEntries_same (s : State) (es : List Entry) :
    (s.applyEntries es).ports = s.ports ∧ (s.applyEntries es).ctxs = s.ctxs ∧ (s.applyEntries es).chans = s.chans ∧
      (s.applyEntries es).changeSet = s.changeSet ∧ (s.applyEntries es).faults = s.faults := by
  unfold State.applyEntries
  induction es generalizing s with
  | nil => exact ⟨rfl, rfl, rfl, rfl, rfl⟩
  | cons e es ih =>
    obtain ⟨h1, h2, h3, h4, h5⟩ := ih (s.applyEntry e)
    cases e <;> exact ⟨h1, h2, h3, h4, h5⟩

theorem applyNow_queueLaw {s : State} (hs : QueueLaw s) : QueueLaw s.applyNow :=
  reResolve_queueLaw (queueLaw_same hs (applyEntries_same ..).1 (applyEntries_same ..).2.1)

theorem drainCheck_queueLaw {s : State} (hs : QueueLaw s) : QueueLaw s.drainCheck := by
  unfold State.drainCheck
  split
  · exact applyNow_queueLaw hs
  · exact hs

theorem afterRecovery_queueLaw {s : State} {c : Fin 4} (hs : QueueLaw s) : QueueLaw (s.afterRecovery c) := by
  unfold State.afterRecovery
  split
  · exact queueLaw_same hs (startBeat_same ..).2.1 (startBeat_same ..).2.2.1
  · exact arbitrate_queueLaw hs

theorem settleChannel_queueLaw {s : State} {c : Fin 4} {copy : BeatCopy} (hs : QueueLaw s) :
    QueueLaw (s.settleChannel c copy) := by
  unfold State.settleChannel
  repeat' split
  · exact hs
  · exact afterRecovery_queueLaw hs
  · exact hs

theorem sweepOne_queueLaw {s : State} {id : CtxId} (hs : QueueLaw s) : QueueLaw (s.sweepOne id) := by
  unfold State.sweepOne
  split
  · rename_i r b stamp passes hc
    exact drainCheck_queueLaw (endWithFault_queueLaw hs (not_done_of_bound (s := s) hc))
  all_goals exact hs

theorem sweep_queueLaw {s : State} {c : Fin 4} (hs : QueueLaw s) : QueueLaw (s.sweep c) := by
  have h : ∀ (l : List CtxId) (u : State), QueueLaw u → QueueLaw (l.foldl State.sweepOne u) := by
    intro l
    induction l with
    | nil => exact fun u hu => hu
    | cons id rest ih => exact fun u hu => ih _ (sweepOne_queueLaw hu)
  unfold State.sweep
  split
  · exact h _ _ hs
  all_goals exact hs

theorem planEnds_queueLaw {s : State} {c : Fin 4} {copy : BeatCopy} {id : CtxId} {r : Request} {b : Binding}
    {o : BeatOutcome} (hs : QueueLaw s) (h : ¬ DoneAt s id) : QueueLaw (s.planEnds c copy id r b o) := by
  have rest : ∀ u : State, QueueLaw u → QueueLaw (((u.settleChannel c copy).drainCheck).sweep c) :=
    fun u hu => sweep_queueLaw (drainCheck_queueLaw (settleChannel_queueLaw hu))
  have hs : QueueLaw ((s.lowerCount b.window.slot).clearOnBus c) := hs
  have h : ¬ DoneAt ((s.lowerCount b.window.slot).clearOnBus c) id := h
  cases o
  · exact rest _ (enqueue_queueLaw hs h)
  · exact rest _ (endWithFault_queueLaw hs h)
  · exact rest _ (endWithFault_queueLaw hs h)

theorem freeAbandoned_queueLaw {s : State} {c : Fin 4} {id : CtxId} {b : Binding} (hs : QueueLaw s) (h : ¬ DoneAt s id) :
    QueueLaw (s.freeAbandoned c id b) :=
  queueLaw_same (putCtx_queueLaw hs h (by simp)) rfl rfl

theorem portCheck_queueLaw {s : State} {p : Fin 4} (hs : QueueLaw s) : QueueLaw (s.portCheck p) := by
  have h : QueueLaw (s.putPort p { s.portAt p with state := stateOfEnable (s.portAt p).enable }) := by
    refine queueLaw_congr hs (fun q => ?_) (fun _ => Iff.rfl)
    rw [State.portAt_putPort]
    split
    · rename_i e; rw [e]
    · rfl
  unfold State.portCheck
  split
  · unfold State.leaveReset
    dsimp only
    split <;> exact h
  · exact hs

theorem beatEnd_queueLaw {s : State} {c : Fin 4} {copy : BeatCopy} {o : BeatOutcome} {cd : Word} (hs : QueueLaw s) :
    QueueLaw (s.beatEnd c copy o cd) := by
  unfold State.beatEnd
  split
  · exact hs
  · rename_i id _
    split
    · rename_i r b stamp ab hc
      have hs1 : QueueLaw (s.endBeatLines c o) := hs
      have hd : ¬ DoneAt (s.endBeatLines c o) id := not_done_of_onBus (s := s) hc
      dsimp only
      split
      · refine endWait_keeps (portCheck_queueLaw (sweep_queueLaw (drainCheck_queueLaw (settleChannel_queueLaw
          (freeAbandoned_queueLaw hs1 hd))))) (reinitialise_queueLaw _ _)
      · cases o
        · dsimp only
          split
          · exact settleChannel_queueLaw (putCtx_queueLaw hs1 hd (by simp))
          · exact planEnds_queueLaw hs1 hd
        · exact planEnds_queueLaw hs1 hd
        · exact planEnds_queueLaw hs1 hd
    all_goals exact hs

theorem recoveryEnds_queueLaw {s : State} {c : Fin 4} (hs : QueueLaw s) : QueueLaw (s.recoveryEnds c) := by
  unfold State.recoveryEnds
  split
  · exact afterRecovery_queueLaw hs
  · split
    · rename_i hc
      refine endWait_keeps (portCheck_queueLaw (drainCheck_queueLaw (afterRecovery_queueLaw
        (freeAbandoned_queueLaw hs (not_done_of_onBus hc))))) (reinitialise_queueLaw _ _)
    all_goals exact afterRecovery_queueLaw hs

/-- Changing a port but for its queue keeps the law. -/
theorem putPort_queueLaw {s : State} {p : Fin 4} {x : PortUnit} (hs : QueueLaw s) (h : x.queue = (s.portAt p).queue) :
    QueueLaw (s.putPort p x) := by
  refine queueLaw_congr hs (fun q => ?_) (fun _ => Iff.rfl)
  rw [State.portAt_putPort]
  split
  · rename_i e; rw [e, h]
  · rfl

/-- The take of the head keeps the law (R53). -/
theorem takeHead_queueLaw {s : State} {p : Fin 4} (hs : QueueLaw s) : QueueLaw (s.takeHead p) := by
  unfold State.takeHead
  split
  · exact hs
  · rename_i t rest hq
    have nd := (hs p).1
    rw [hq, List.nodup_cons] at nd
    intro q
    by_cases e : q = p
    · subst e
      rw [State.portAt_putPort_same]
      refine ⟨nd.2, fun k => ?_⟩
      rw [State.ctxAt_putPort]
      by_cases e2 : k = t
      · subst e2
        simp [nd.1]
      · rw [State.ctxAt_putCtx_ne _ _ _ _ (fun h => e2 (congrArg CtxId.tag h))]
        have := (hs q).2 k
        rw [hq] at this
        simpa [e2] using this
    · rw [State.portAt_putPort_ne _ _ _ _ e]
      refine ⟨(hs q).1, fun k => ?_⟩
      rw [State.ctxAt_putPort, State.ctxAt_putCtx_ne _ _ _ _ (fun h => e (congrArg CtxId.port h))]
      exact (hs q).2 k

theorem freeHeld_queueLaw {s : State} {id : CtxId} (hs : QueueLaw s) : QueueLaw (s.freeHeld id) := by
  unfold State.freeHeld
  split
  · rename_i hc; exact putCtx_queueLaw hs (not_done_of_held hc) (by simp)
  · exact hs

theorem freeBound_queueLaw {s : State} {id : CtxId} (hs : QueueLaw s) : QueueLaw (s.freeBound id) := by
  unfold State.freeBound
  split
  · rename_i hc
    exact drainCheck_queueLaw (queueLaw_same (putCtx_queueLaw hs (not_done_of_bound hc) (by simp)) rfl rfl)
  · exact hs

/-- What each step of a fold keeps, the fold keeps. -/
theorem foldl_inv {α : Type} {P : State → Prop} {f : State → α → State} (h : ∀ s x, P s → P (f s x)) (l : List α) (s : State)
    (hs : P s) : P (l.foldl f s) := by
  induction l generalizing s with
  | nil => exact hs
  | cons x l ih => exact ih _ (h s x hs)

/-- The start of a port reset keeps the law, a set COMMITTING or not (R54). -/
theorem startPortReset_queueLaw {s : State} {p : Fin 4} (hs : QueueLaw s) : QueueLaw (s.startPortReset p) := by
  unfold State.startPortReset
  dsimp only
  generalize h3 : (portIds p).foldl State.freeBound _ = s3
  have hs3 : QueueLaw s3 := by
    rw [← h3]
    refine foldl_inv (fun _ _ h => freeBound_queueLaw h) _ _ (queueLaw_same (s := (portIds p).foldl State.freeHeld _) ?_ rfl rfl)
    exact foldl_inv (fun _ _ h => freeHeld_queueLaw h) _ _ (putPort_queueLaw hs rfl)
  have ctx4 : ∀ k, ((portIds p).foldl State.freeDone s3).ctxAt k =
      if k ∈ portIds p then Context.unlessDone (s3.ctxAt k) else s3.ctxAt k :=
    foldl_ctxs (fun _ => True) (fun _ _ _ => trivial) (fun u id _ k => freeDone_ctxAt u id k) _ (nodup_portIds p) _ trivial
  have ports4 : ((portIds p).foldl State.freeDone s3).ports = s3.ports :=
    foldl_keeps State.ports (fun _ => True) (fun _ _ _ => trivial) (fun u x _ => (freeDone_keeps u x).2.1) _ _ trivial
  generalize (portIds p).foldl State.freeDone s3 = s4 at ctx4 ports4
  have port4 : ∀ q, s4.portAt q = s3.portAt q := fun q => congrArg (Table.look · q) ports4
  have hs5 : QueueLaw (s4.putPort p { s4.portAt p with queue := [] }) := by
    intro q
    by_cases e : q = p
    · subst e
      rw [State.portAt_putPort_same]
      refine ⟨List.nodup_nil, fun t => ⟨fun h => absurd h (by simp), ?_⟩⟩
      rintro ⟨r, st, d, h⟩
      rw [State.ctxAt_putPort, ctx4, if_pos (mem_portIds (p := q).2 rfl)] at h
      unfold Context.unlessDone at h
      split at h
      · cases h
      · rename_i hn; exact absurd h (hn _ _ _)
    · rw [State.portAt_putPort_ne _ _ _ _ e, port4]
      refine ⟨(hs3 q).1, fun t => ?_⟩
      rw [State.ctxAt_putPort, ctx4, if_neg fun h => e (mem_portIds.1 h)]
      exact (hs3 q).2 t
  refine queueLaw_same (foldl_inv (P := QueueLaw) (fun u id hu => ?_) _ _ hs5) rfl rfl
  unfold State.markAbandoned
  split
  · rename_i hc; exact putCtx_queueLaw hu (not_done_of_onBus hc) (by simp)
  · exact hu

end Sys2Proof.Machine
end

