-- ==== Sys2Proof/Laws/HoldList.lean ====
section
/-! SUPPORT. Each shared operation keeps the law of the hold list: it holds exactly the HELD contexts, once each, and only while a set is COMMITTING (R126). -/

namespace Sys2Proof.Machine

/-- A context is HELD. -/
def HeldAt (s : State) (id : CtxId) : Prop := ∃ r, s.ctxAt id = some ⟨r, .held⟩

/-- The hold list holds exactly the HELD contexts, once each. -/
def HoldExact (s : State) : Prop := s.changeSet.holdList.Nodup ∧ ∀ id, id ∈ s.changeSet.holdList ↔ HeldAt s id

theorem holdListLaw_iff (s : State) :
    HoldListLaw s ↔ HoldExact s ∧ (s.changeSet.state ≠ .committing → s.changeSet.holdList = []) :=
  ⟨fun h => ⟨⟨h.1, h.2.1⟩, h.2.2⟩, fun h => ⟨h.1.1, h.1.2, h.2⟩⟩

theorem not_held_of {s : State} {id : CtxId} {x : Option Context} (h : s.ctxAt id = x) (hx : ∀ r, x ≠ some ⟨r, .held⟩) :
    ¬ HeldAt s id := by
  rintro ⟨r, e⟩
  rw [h] at e
  exact hx r e

/-- The law rests on the change set and on which contexts are HELD, and on nothing else. -/
theorem holdExact_congr {s t : State} (hs : HoldExact s) (hl : t.changeSet.holdList = s.changeSet.holdList)
    (hc : ∀ id, HeldAt t id ↔ HeldAt s id) : HoldExact t := by
  unfold HoldExact
  rw [hl]
  exact ⟨hs.1, fun id => (hs.2 id).trans (hc id).symm⟩

theorem holdLaw_congr {s t : State} (hs : HoldListLaw s) (hl : t.changeSet = s.changeSet)
    (hc : ∀ id, HeldAt t id ↔ HeldAt s id) : HoldListLaw t := by
  rw [holdListLaw_iff] at hs ⊢
  exact ⟨holdExact_congr hs.1 (by rw [hl]) hc, by rw [hl]; exact hs.2⟩

theorem heldAt_same {s t : State} (hc : t.ctxs = s.ctxs) (id : CtxId) : HeldAt t id ↔ HeldAt s id := by
  have : t.ctxAt id = s.ctxAt id := congrArg (Table.look · id.idx) hc
  unfold HeldAt
  rw [this]

theorem heldAt_putCtx {s : State} {id : CtxId} {x : Option Context} (h : ¬ HeldAt s id) (hx : ∀ r, x ≠ some ⟨r, .held⟩)
    (k : CtxId) : HeldAt (s.putCtx id x) k ↔ HeldAt s k := by
  by_cases e : k = id
  · subst e
    exact ⟨fun h2 => absurd h2 (not_held_of (State.ctxAt_putCtx_same ..) hx), fun h2 => absurd h2 h⟩
  · unfold HeldAt
    rw [State.ctxAt_putCtx_ne _ _ _ _ e]

theorem recordFault_ctxs (s : State) (p : Fin 4) (f : FaultRecord) :
    (s.recordFault p f).ctxs = s.ctxs ∧ (s.recordFault p f).changeSet = s.changeSet ∧ (s.recordFault p f).slots = s.slots := by
  rw [recordFault_eq]
  exact ⟨rfl, rfl, rfl⟩

theorem endWithFault_set (s : State) (id : CtxId) (r : Request) (st : Status) (d : DoneRecord) (f : FaultRecord) :
    (s.endWithFault id r st d f).changeSet = s.changeSet ∧ (s.endWithFault id r st d f).slots = s.slots ∧
      (s.endWithFault id r st d f).ctxs = (s.putCtx id (some ⟨r, .done st d⟩)).ctxs := by
  unfold State.endWithFault
  obtain ⟨h1, h2, h3⟩ := recordFault_ctxs ((s.putCtx id (some ⟨r, .done st d⟩)).enqueue id) id.port f
  rw [h1, h2, h3]
  exact ⟨rfl, rfl, rfl⟩

theorem endWithFault_held {s : State} {id : CtxId} {r : Request} {st : Status} {d : DoneRecord} {f : FaultRecord}
    (h : ¬ HeldAt s id) (k : CtxId) : HeldAt (s.endWithFault id r st d f) k ↔ HeldAt s k :=
  (heldAt_same (endWithFault_set ..).2.2 k).trans (heldAt_putCtx h (by simp) k)

theorem passOver_heldIff {c : Fin 4} {x : Option Context} {r : Request} :
    passOver c x = some ⟨r, .held⟩ ↔ x = some ⟨r, .held⟩ := by
  cases x with
  | none => simp [passOver]
  | some x =>
    obtain ⟨q, y⟩ := x
    cases y <;> simp only [passOver]
    split <;> simp

theorem grant_set (s : State) (c : Fin 4) (ch : Choice) :
    (s.grant c ch).changeSet = s.changeSet ∧ (s.grant c ch).slots = s.slots := by
  unfold State.grant
  split
  · obtain ⟨h1, _, _, h4⟩ := startBeat_same (((s.mapCtxs (passOver c)).putCtx ch.id _).putChan c
      { (s.chanAt c).movePointer ch with onBus := some ch.id }) c
    dsimp only
    rw [h1, h4]
    exact ⟨rfl, rfl⟩
  all_goals exact ⟨rfl, rfl⟩

theorem grant_held (s : State) (c : Fin 4) (ch : Choice) (k : CtxId) : HeldAt (s.grant c ch) k ↔ HeldAt s k := by
  unfold State.grant
  split
  · rename_i r b stamp passes hc
    refine (heldAt_same (startBeat_same ..).2.2.1 k).trans ?_
    refine (heldAt_same (s := (s.mapCtxs (passOver c)).putCtx ch.id (some ⟨r, .onBus b stamp false⟩)) rfl k).trans ?_
    refine (heldAt_putCtx ?_ (by simp) k).trans ?_
    · rintro ⟨q, e⟩
      rw [State.ctxAt_mapCtxs, passOver_heldIff, hc] at e
      cases e
    · unfold HeldAt
      simp only [State.ctxAt_mapCtxs, passOver_heldIff]
  all_goals exact Iff.rfl

theorem arbitrate_set (s : State) (c : Fin 4) :
    (s.arbitrate c).changeSet = s.changeSet ∧ (s.arbitrate c).slots = s.slots := by
  unfold State.arbitrate
  split
  · split
    · exact grant_set ..
    · exact ⟨rfl, rfl⟩
  all_goals exact ⟨rfl, rfl⟩

theorem arbitrate_held (s : State) (c : Fin 4) (k : CtxId) : HeldAt (s.arbitrate c) k ↔ HeldAt s k := by
  unfold State.arbitrate
  split
  · split
    · exact grant_held ..
    · exact Iff.rfl
  all_goals exact Iff.rfl

theorem bind_set (s : State) (id : CtxId) (r : Request) (b : Binding) : (s.bind id r b).changeSet = s.changeSet :=
  (arbitrate_set ..).1

theorem bind_held {s : State} {id : CtxId} {r : Request} {b : Binding} (h : ¬ HeldAt s id) (k : CtxId) :
    HeldAt (s.bind id r b) k ↔ HeldAt s k :=
  (arbitrate_held ..).trans (heldAt_putCtx (s := s) h (by simp) k)

/-- Bound is HELD no longer, whatever it was before. -/
theorem bind_not_held (s : State) (id : CtxId) (r : Request) (b : Binding) : ¬ HeldAt (s.bind id r b) id := by
  intro h
  have h := (arbitrate_held ..).1 h
  exact not_held_of (s := (s.putCtx id _).raiseCount _) (State.ctxAt_putCtx_same ..) (by simp) h

/-- A resolution that does not hold its access touches nobody's holding but its own, and leaves it not HELD. -/
theorem settle_held_else {s : State} {id : CtxId} {r : Request} {v : Verdict} (h : v ≠ .held) :
    (s.settle id r v).changeSet = s.changeSet ∧ ¬ HeldAt (s.settle id r v) id ∧
      ∀ k, k ≠ id → (HeldAt (s.settle id r v) k ↔ HeldAt s k) := by
  have fault : ∀ (st : Status) (d : DoneRecord) (f : FaultRecord), (s.endWithFault id r st d f).changeSet = s.changeSet ∧
      ¬ HeldAt (s.endWithFault id r st d f) id ∧
      ∀ k, k ≠ id → (HeldAt (s.endWithFault id r st d f) k ↔ HeldAt s k) := by
    intro st d f
    refine ⟨(endWithFault_set ..).1, fun hh => ?_, fun k hk => ?_⟩
    · exact not_held_of (s := s.putCtx id (some ⟨r, .done st d⟩)) (State.ctxAt_putCtx_same ..) (by simp)
        ((heldAt_same (endWithFault_set ..).2.2 id).1 hh)
    · refine (heldAt_same (endWithFault_set ..).2.2 k).trans ?_
      unfold HeldAt
      rw [State.ctxAt_putCtx_ne _ _ _ _ hk]
  cases v with
  | held => exact absurd rfl h
  | bound b =>
    refine ⟨bind_set .., bind_not_held s id r b, fun k hk => (arbitrate_held ..).trans ?_⟩
    show HeldAt (s.putCtx id _) k ↔ _
    unfold HeldAt
    rw [State.ctxAt_putCtx_ne _ _ _ _ hk]
  | noWindow => exact fault ..
  | span w => exact fault ..
  | denied w => exact fault ..
  | channelOffline w c => exact fault ..

theorem resolve_not_held {s : State} (h : s.changeSet.state ≠ .committing) (p : Fin 4) (r : Request) :
    s.resolve p r ≠ .held := by
  unfold State.resolve
  rw [if_neg]
  · repeat' split
    all_goals simp
  · simp [State.footprintHit, h]

theorem resolve_held_iff (s : State) (p : Fin 4) (r : Request) : s.resolve p r = .held ↔ s.footprintHit r = true := by
  unfold State.resolve
  split
  · rename_i h; simp [h]
  · rename_i h
    simp only [h]
    repeat' split
    all_goals simp

/-- A resolution of a context that is not HELD keeps the law. -/
theorem resolveInto_holdLaw {s : State} {id : CtxId} {r : Request} (hs : HoldListLaw s) (h : ¬ HeldAt s id) :
    HoldListLaw (s.resolveInto id r) := by
  unfold State.resolveInto
  by_cases hv : s.resolve id.port r = .held
  · rw [hv]
    have com : s.changeSet.state = .committing := by
      rw [resolve_held_iff] at hv
      unfold State.footprintHit at hv
      simp only [Bool.and_eq_true, beq_iff_eq] at hv
      exact hv.1
    refine ⟨?_, fun k => ?_, fun hn => absurd com hn⟩
    · show (s.changeSet.holdList ++ [id]).Nodup
      rw [List.nodup_append]
      refine ⟨hs.1, List.nodup_singleton _, fun a ha b hb e => h ?_⟩
      rw [List.mem_singleton] at hb
      exact (hs.2.1 id).1 (by rw [← hb, ← e]; exact ha)
    · show k ∈ s.changeSet.holdList ++ [id] ↔ HeldAt (s.putCtx id (some ⟨r, .held⟩)) k
      rw [List.mem_append, List.mem_singleton]
      by_cases e : k = id
      · subst e
        exact ⟨fun _ => ⟨r, State.ctxAt_putCtx_same ..⟩, fun _ => .inr rfl⟩
      · unfold HeldAt
        rw [State.ctxAt_putCtx_ne _ _ _ _ e]
        simp only [e, or_false]
        exact hs.2.1 k
  · obtain ⟨h1, h2, h3⟩ := settle_held_else (s := s) (id := id) (r := r) hv
    refine holdLaw_congr hs h1 fun k => ?_
    by_cases e : k = id
    · subst e; exact ⟨fun x => absurd x h2, fun x => absurd x h⟩
    · exact h3 k e

/-- Resolving the whole hold list again, once the set is no longer COMMITTING, leaves it empty and nothing HELD (R36). -/
theorem reResolve_empties {s : State} {l : List CtxId} (hc : s.changeSet.state ≠ .committing) (hl : s.changeSet.holdList = l)
    (hs : HoldExact s) :
    (s.reResolve l).changeSet = { s.changeSet with holdList := [] } ∧ ∀ id, ¬ HeldAt (s.reResolve l) id := by
  induction l generalizing s with
  | nil =>
    refine ⟨?_, fun id h => ?_⟩
    · show s.changeSet = _
      rw [← hl]
    · have := (hs.2 id).2 h
      rw [hl] at this
      cases this
  | cons id rest ih =>
    have held : HeldAt s id := (hs.2 id).1 (by rw [hl]; exact List.mem_cons_self)
    obtain ⟨r, hr⟩ := held
    have nd := hs.1
    rw [hl, List.nodup_cons] at nd
    unfold State.reResolve
    dsimp only
    rw [State.ctxAt_putChangeSet]
    simp only [hr]
    generalize hs1 : s.putChangeSet { s.changeSet with holdList := rest } = s1
    have hset : s1.changeSet = { s.changeSet with holdList := rest } := by rw [← hs1]; rfl
    have hctx : ∀ k, s1.ctxAt k = s.ctxAt k := fun k => by rw [← hs1]; rfl
    obtain ⟨h1, h2, h3⟩ := settle_held_else (s := s1) (id := id) (r := r) (v := s1.resolve id.port r)
      (resolve_not_held (by rw [hset]; exact hc) _ _)
    have e := ih (s := s1.resolveInto id r) (by unfold State.resolveInto; rw [h1, hset]; exact hc)
      (by unfold State.resolveInto; rw [h1, hset]) ?_
    · unfold State.resolveInto at e ⊢
      rw [h1, hset] at e
      exact e
    · unfold State.resolveInto HoldExact
      rw [h1, hset]
      refine ⟨nd.2, fun k => ?_⟩
      by_cases ek : k = id
      · subst ek; exact ⟨fun x => absurd x nd.1, fun x => absurd x h2⟩
      · rw [h3 k ek]
        have : HeldAt s1 k ↔ HeldAt s k := by unfold HeldAt; rw [hctx]
        rw [this, ← hs.2 k, hl, List.mem_cons]
        simp [ek]

/-- What leaves nothing held meets the law. -/
theorem holdLaw_of_empty {s : State} (h1 : s.changeSet.holdList = []) (h2 : ∀ id, ¬ HeldAt s id) : HoldListLaw s := by
  refine ⟨by rw [h1]; exact List.nodup_nil, fun id => ?_, fun _ => h1⟩
  rw [h1]
  exact ⟨fun h => absurd h (by simp), fun h => absurd h (h2 id)⟩

theorem applyNow_empties {s : State} (hs : HoldListLaw s) :
    s.applyNow.changeSet = { state := .closed, entries := [], footprint := [], holdList := [] } ∧
      ∀ id, ¬ HeldAt s.applyNow id := by
  unfold State.applyNow
  have set1 : (s.applyEntries s.changeSet.entries).changeSet = s.changeSet := (applyEntries_same ..).2.2.2.1
  have hs1 : HoldExact (((s.applyEntries s.changeSet.entries).closeSet).latchCommitApplied) := by
    refine holdExact_congr ((holdListLaw_iff s).1 hs).1 ?_ fun id => heldAt_same (applyEntries_same ..).2.1 id
    show (s.applyEntries s.changeSet.entries).changeSet.holdList = _
    rw [set1]
  obtain ⟨h1, h2⟩ := reResolve_empties (s := ((s.applyEntries s.changeSet.entries).closeSet).latchCommitApplied)
    (l := s.changeSet.holdList) (by simp [State.closeSet, State.latchCommitApplied])
    (by show (s.applyEntries s.changeSet.entries).changeSet.holdList = _; rw [set1]) hs1
  exact ⟨h1.trans rfl, h2⟩

theorem applyNow_holdLaw {s : State} (hs : HoldListLaw s) : HoldListLaw s.applyNow :=
  holdLaw_of_empty (by rw [(applyNow_empties hs).1]) (applyNow_empties hs).2

theorem drainCheck_holdLaw {s : State} (hs : HoldListLaw s) : HoldListLaw s.drainCheck := by
  unfold State.drainCheck
  split
  · exact applyNow_holdLaw hs
  · exact hs

theorem discardCommitting_empties {s : State} (hs : HoldListLaw s) :
    s.discardCommitting.changeSet = { state := .closed, entries := [], footprint := [], holdList := [] } ∧
      ∀ id, ¬ HeldAt s.discardCommitting id := by
  unfold State.discardCommitting
  obtain ⟨h1, h2⟩ := reResolve_empties (s := ({ s with slots := s.slots.mapAll Slot.thaw } : State).closeSet)
    (l := s.changeSet.holdList) (by simp [State.closeSet]) rfl ((holdListLaw_iff s).1 hs).1
  exact ⟨h1.trans rfl, h2⟩

theorem arbitrate_holdLaw {s : State} {c : Fin 4} (hs : HoldListLaw s) : HoldListLaw (s.arbitrate c) :=
  holdLaw_congr hs (arbitrate_set ..).1 (arbitrate_held s c)

theorem afterRecovery_holdLaw {s : State} {c : Fin 4} (hs : HoldListLaw s) : HoldListLaw (s.afterRecovery c) := by
  unfold State.afterRecovery
  split
  · exact holdLaw_congr hs (startBeat_same ..).2.2.2 (heldAt_same (startBeat_same ..).2.2.1)
  · exact arbitrate_holdLaw hs

theorem settleChannel_holdLaw {s : State} {c : Fin 4} {copy : BeatCopy} (hs : HoldListLaw s) :
    HoldListLaw (s.settleChannel c copy) := by
  unfold State.settleChannel
  repeat' split
  · exact hs
  · exact afterRecovery_holdLaw hs
  · exact hs

theorem endWithFault_holdLaw {s : State} {id : CtxId} {r : Request} {st : Status} {d : DoneRecord} {f : FaultRecord}
    (hs : HoldListLaw s) (h : ¬ HeldAt s id) : HoldListLaw (s.endWithFault id r st d f) :=
  holdLaw_congr hs (endWithFault_set ..).1 (endWithFault_held h)

theorem putCtx_holdLaw {s : State} {id : CtxId} {x : Option Context} (hs : HoldListLaw s) (h : ¬ HeldAt s id)
    (hx : ∀ r, x ≠ some ⟨r, .held⟩) : HoldListLaw (s.putCtx id x) :=
  holdLaw_congr hs rfl (heldAt_putCtx h hx)

theorem sweepOne_holdLaw {s : State} {id : CtxId} (hs : HoldListLaw s) : HoldListLaw (s.sweepOne id) := by
  unfold State.sweepOne
  split
  · rename_i hc
    exact drainCheck_holdLaw (endWithFault_holdLaw hs (not_held_of (s := s) hc (by simp)))
  all_goals exact hs

theorem sweep_holdLaw {s : State} {c : Fin 4} (hs : HoldListLaw s) : HoldListLaw (s.sweep c) := by
  unfold State.sweep
  split
  · exact foldl_inv (fun _ _ h => sweepOne_holdLaw h) _ _ hs
  all_goals exact hs

theorem planEnds_holdLaw {s : State} {c : Fin 4} {copy : BeatCopy} {id : CtxId} {r : Request} {b : Binding}
    {o : BeatOutcome} (hs : HoldListLaw s) (h : ¬ HeldAt s id) : HoldListLaw (s.planEnds c copy id r b o) := by
  have rest : ∀ u : State, HoldListLaw u → HoldListLaw (((u.settleChannel c copy).drainCheck).sweep c) :=
    fun u hu => sweep_holdLaw (drainCheck_holdLaw (settleChannel_holdLaw hu))
  have hs : HoldListLaw ((s.lowerCount b.window.slot).clearOnBus c) := hs
  have h : ¬ HeldAt ((s.lowerCount b.window.slot).clearOnBus c) id := h
  cases o
  · exact rest _ (putCtx_holdLaw hs h (by simp))
  · exact rest _ (endWithFault_holdLaw hs h)
  · exact rest _ (endWithFault_holdLaw hs h)

theorem portCheck_tables (s : State) (p : Fin 4) :
    (s.portCheck p).ctxs = s.ctxs ∧ (s.portCheck p).changeSet = s.changeSet ∧ (s.portCheck p).slots = s.slots := by
  unfold State.portCheck
  split
  · unfold State.leaveReset
    dsimp only
    split <;> exact ⟨rfl, rfl, rfl⟩
  · exact ⟨rfl, rfl, rfl⟩

theorem portCheck_holdLaw {s : State} {p : Fin 4} (hs : HoldListLaw s) : HoldListLaw (s.portCheck p) :=
  holdLaw_congr hs (portCheck_tables ..).2.1 (heldAt_same (portCheck_tables ..).1)

theorem beatEnd_holdLaw {s : State} {c : Fin 4} {copy : BeatCopy} {o : BeatOutcome} {cd : Word} (hs : HoldListLaw s) :
    HoldListLaw (s.beatEnd c copy o cd) := by
  unfold State.beatEnd
  split
  · exact hs
  · rename_i id _
    split
    · rename_i r b stamp ab hc
      have hs1 : HoldListLaw (s.endBeatLines c o) := hs
      have hd : ¬ HeldAt (s.endBeatLines c o) id := not_held_of (s := s) hc (by simp)
      dsimp only
      split
      · refine endWait_keeps (portCheck_holdLaw (sweep_holdLaw (drainCheck_holdLaw (settleChannel_holdLaw
          (putCtx_holdLaw hs1 hd (by simp)))))) (reinitialise_holdLaw _ _)
      · cases o
        · dsimp only
          split
          · exact settleChannel_holdLaw (putCtx_holdLaw hs1 hd (by simp))
          · exact planEnds_holdLaw hs1 hd
        · exact planEnds_holdLaw hs1 hd
        · exact planEnds_holdLaw hs1 hd
    all_goals exact hs

theorem recoveryEnds_holdLaw {s : State} {c : Fin 4} (hs : HoldListLaw s) : HoldListLaw (s.recoveryEnds c) := by
  unfold State.recoveryEnds
  split
  · exact afterRecovery_holdLaw hs
  · rename_i id _
    split
    · rename_i r b stamp hc
      refine endWait_keeps (portCheck_holdLaw (drainCheck_holdLaw (afterRecovery_holdLaw (s := s.freeAbandoned c id b)
        (putCtx_holdLaw hs (not_held_of hc (by simp)) (by simp))))) (reinitialise_holdLaw _ _)
    all_goals exact afterRecovery_holdLaw hs

theorem freeBound_holdLaw {s : State} {id : CtxId} (hs : HoldListLaw s) : HoldListLaw (s.freeBound id) := by
  unfold State.freeBound
  split
  · rename_i r b m n hc
    exact drainCheck_holdLaw (s := (s.putCtx id none).lowerCount b.window.slot)
      (putCtx_holdLaw hs (not_held_of hc (by simp)) (by simp))
  · exact hs

theorem freeDone_holdLaw {s : State} {id : CtxId} (hs : HoldListLaw s) : HoldListLaw (s.freeDone id) := by
  unfold State.freeDone
  split
  · rename_i hc; exact putCtx_holdLaw hs (not_held_of hc (by simp)) (by simp)
  · exact hs

theorem markAbandoned_holdLaw {s : State} {id : CtxId} (hs : HoldListLaw s) : HoldListLaw (s.markAbandoned id) := by
  unfold State.markAbandoned
  split
  · rename_i hc; exact putCtx_holdLaw hs (not_held_of hc (by simp)) (by simp)
  · exact hs

/-- Step 2 of a port reset: the port's HELD contexts are freed and leave the hold list, the others keep their order (R54). -/
theorem dropHeld_holdLaw {s : State} {p : Fin 4} (hs : HoldListLaw s) :
    HoldListLaw (((portIds p).foldl State.freeHeld s).putChangeSet (s.changeSet.dropPort p)) := by
  have ctx : ∀ k, ((portIds p).foldl State.freeHeld s).ctxAt k =
      if k ∈ portIds p then Context.unlessHeld (s.ctxAt k) else s.ctxAt k :=
    foldl_ctxs (fun _ => True) (fun _ _ _ => trivial) (fun u id _ k => freeHeld_ctxAt u id k) _ (nodup_portIds p) _ trivial
  refine ⟨hs.1.filter _, fun id => ?_, fun h => ?_⟩
  · show id ∈ s.changeSet.holdList.filter (fun id => id.port != p) ↔ HeldAt ((portIds p).foldl State.freeHeld s) id
    simp only [List.mem_filter, bne_iff_ne]
    unfold HeldAt
    rw [ctx, hs.2.1 id]
    by_cases e : id.port = p
    · rw [if_pos (mem_portIds.2 e)]
      refine ⟨fun h => absurd e h.2, ?_⟩
      rintro ⟨r, h⟩
      unfold Context.unlessHeld at h
      split at h
      · cases h
      · rename_i hn; exact absurd h (hn r)
    · rw [if_neg fun h => e (mem_portIds.1 h)]
      simp [e]
  · show s.changeSet.holdList.filter _ = []
    rw [hs.2.2 h]
    rfl

theorem putPort_holdLaw {s : State} {p : Fin 4} {x : PortUnit} (hs : HoldListLaw s) : HoldListLaw (s.putPort p x) := hs

theorem putFault_holdLaw {s : State} {p : Fin 4} {x : Option FaultRecord} (hs : HoldListLaw s) :
    HoldListLaw (s.putFault p x) := hs

/-- The start of a port reset keeps the law, a set COMMITTING or not (R54). -/
theorem startPortReset_holdLaw {s : State} {p : Fin 4} (hs : HoldListLaw s) : HoldListLaw (s.startPortReset p) := by
  have h2 : HoldListLaw (((portIds p).foldl State.freeHeld (s.putPort p { s.portAt p with state := .inReset })).putChangeSet
      ((s.putPort p { s.portAt p with state := .inReset }).changeSet.dropPort p)) := dropHeld_holdLaw hs
  unfold State.startPortReset
  dsimp only
  exact putFault_holdLaw (foldl_inv (f := State.markAbandoned) (fun _ _ h => markAbandoned_holdLaw h) (portIds p) _
    (putPort_holdLaw (foldl_inv (f := State.freeDone) (fun _ _ h => freeDone_holdLaw h) (portIds p) _
      (foldl_inv (f := State.freeBound) (fun _ _ h => freeBound_holdLaw h) (portIds p) _ h2))))

/-- The take of a head that is DONE keeps the law (R53). -/
theorem takeHead_holdLaw {s : State} {p : Fin 4} (hq : QueueLaw s) (hs : HoldListLaw s) : HoldListLaw (s.takeHead p) := by
  unfold State.takeHead
  split
  · exact hs
  · rename_i t rest e
    obtain ⟨r, st, d, h⟩ := ((hq p).2 t).1 (by rw [e]; exact List.mem_cons_self)
    exact putCtx_holdLaw (s := s) hs (not_held_of h (by simp)) (by simp)

end Sys2Proof.Machine
end

