-- ==== Sys2Proof/Laws/WindowTable.lean ====
section
/-! SUPPORT. What never touches the Window Table and the entries of the set, what apply, acceptance and discard do to them, and the law of overlaps through them (R9 to R16, R123, R124, R130). -/

namespace Sys2Proof.Machine

/-- From s to t no slot has another state, window or generation, and the set has the same state, entries and footprint. -/
structure State.TableKept (s t : State) : Prop where
  state : ∀ i, (t.slotAt i).state = (s.slotAt i).state
  window : ∀ i, (t.slotAt i).window = (s.slotAt i).window
  generation : ∀ i, (t.slotAt i).generation = (s.slotAt i).generation
  setState : t.changeSet.state = s.changeSet.state
  entries : t.changeSet.entries = s.changeSet.entries
  footprint : t.changeSet.footprint = s.changeSet.footprint

theorem State.TableKept.refl (s : State) : s.TableKept s := ⟨fun _ => rfl, fun _ => rfl, fun _ => rfl, rfl, rfl, rfl⟩

theorem State.TableKept.trans {s t u : State} (h : s.TableKept t) (k : t.TableKept u) : s.TableKept u :=
  ⟨fun i => (k.state i).trans (h.state i), fun i => (k.window i).trans (h.window i),
    fun i => (k.generation i).trans (h.generation i), k.setState.trans h.setState, k.entries.trans h.entries,
    k.footprint.trans h.footprint⟩

/-- What leaves the slots and the set alone keeps the table. -/
theorem tableKept_of {s t : State} (h1 : t.slots = s.slots) (h2 : t.changeSet = s.changeSet) : s.TableKept t := by
  have h : ∀ i, t.slotAt i = s.slotAt i := fun i => congrArg (Table.look · i) h1
  exact ⟨fun i => by rw [h], fun i => by rw [h], fun i => by rw [h], by rw [h2], by rw [h2], by rw [h2]⟩

theorem putSlot_kept {s : State} {i : Fin 64} {x : Slot} (h1 : x.state = (s.slotAt i).state)
    (h2 : x.window = (s.slotAt i).window) (h3 : x.generation = (s.slotAt i).generation) : s.TableKept (s.putSlot i x) := by
  refine ⟨fun j => ?_, fun j => ?_, fun j => ?_, rfl, rfl, rfl⟩ <;>
  · by_cases e : j = i
    · subst e; rw [State.slotAt_putSlot_same]; assumption
    · rw [State.slotAt_putSlot_ne _ _ _ _ e]

theorem lowerCount_kept (s : State) (i : Fin 64) : s.TableKept (s.lowerCount i) := putSlot_kept rfl rfl rfl

theorem raiseCount_kept (s : State) (i : Fin 64) : s.TableKept (s.raiseCount i) := putSlot_kept rfl rfl rfl

theorem startBeat_kept (s : State) (c : Fin 4) : s.TableKept (s.startBeat c) :=
  tableKept_of (startBeat_same ..).1 (startBeat_same ..).2.2.2

theorem arbitrate_kept (s : State) (c : Fin 4) : s.TableKept (s.arbitrate c) :=
  tableKept_of (arbitrate_set ..).2 (arbitrate_set ..).1

theorem endWithFault_kept (s : State) (id : CtxId) (r : Request) (st : Status) (d : DoneRecord) (f : FaultRecord) :
    s.TableKept (s.endWithFault id r st d f) :=
  tableKept_of (endWithFault_set ..).2.1 (endWithFault_set ..).1

theorem bind_kept (s : State) (id : CtxId) (r : Request) (b : Binding) : s.TableKept (s.bind id r b) := by
  have h : (s.putCtx id (some ⟨r, .bound b (s.nextStamp b.channel) 0⟩)).TableKept _ := raiseCount_kept _ b.window.slot
  exact (show s.TableKept _ from ⟨h.1, h.2, h.3, h.4, h.5, h.6⟩ : s.TableKept _).trans (arbitrate_kept ..)

theorem settle_kept (s : State) (id : CtxId) (r : Request) (v : Verdict) : s.TableKept (s.settle id r v) := by
  cases v
  case held => exact ⟨fun _ => rfl, fun _ => rfl, fun _ => rfl, rfl, rfl, rfl⟩
  case bound b => exact bind_kept ..
  all_goals exact endWithFault_kept ..

theorem resolveInto_kept (s : State) (id : CtxId) (r : Request) : s.TableKept (s.resolveInto id r) := settle_kept ..

theorem reResolve_kept (s : State) (l : List CtxId) : s.TableKept (s.reResolve l) := by
  induction l generalizing s with
  | nil => exact .refl s
  | cons id rest ih =>
    have h : s.TableKept (s.putChangeSet { s.changeSet with holdList := rest }) :=
      ⟨fun _ => rfl, fun _ => rfl, fun _ => rfl, rfl, rfl, rfl⟩
    unfold State.reResolve
    dsimp only
    split
    · exact (h.trans (resolveInto_kept ..)).trans (ih _)
    all_goals exact h.trans (ih _)

theorem afterRecovery_kept (s : State) (c : Fin 4) : s.TableKept (s.afterRecovery c) := by
  unfold State.afterRecovery
  split
  · exact startBeat_kept ..
  · exact (show s.TableKept (s.chanState c .idle) from tableKept_of rfl rfl).trans (arbitrate_kept ..)

theorem settleChannel_kept (s : State) (c : Fin 4) (copy : BeatCopy) : s.TableKept (s.settleChannel c copy) := by
  unfold State.settleChannel
  repeat' split
  · exact tableKept_of rfl rfl
  · exact afterRecovery_kept ..
  · exact tableKept_of rfl rfl

theorem portCheck_kept (s : State) (p : Fin 4) : s.TableKept (s.portCheck p) :=
  tableKept_of (portCheck_tables ..).2.2 (portCheck_tables ..).2.1

/-! ### Entries taking effect -/

/-- A slot after an entry that names it has taken effect (R11, R13). -/
def Entry.applied (e : Entry) (x : Slot) : Slot :=
  match e with
  | .install _ w => { state := .live, window := w, generation := x.generation + 1, inFlight := 0 }
  | .amend _ w _ => { state := .live, window := w, generation := x.generation + 1, inFlight := 0 }
  | .retire _ _ => { x with state := .free, inFlight := 0 }

theorem applyEntry_eq (s : State) (e : Entry) : s.applyEntry e = s.putSlot e.slot (e.applied (s.slotAt e.slot)) := by
  cases e <;> rfl

/-- A slot that no entry names is as it was. -/
theorem applyEntries_else {es : List Entry} {i : Fin 64} (h : ∀ e ∈ es, e.slot ≠ i) (s : State) :
    (s.applyEntries es).slotAt i = s.slotAt i := by
  unfold State.applyEntries
  induction es generalizing s with
  | nil => rfl
  | cons e es ih =>
    simp only [List.foldl_cons]
    rw [ih (fun f hf => h f (List.mem_cons_of_mem _ hf)), applyEntry_eq,
      State.slotAt_putSlot_ne _ _ _ _ (Ne.symm (h e List.mem_cons_self))]

/-- A slot that one entry names is as that entry leaves it. -/
theorem applyEntries_at {es : List Entry} (nd : (es.map Entry.slot).Nodup) {e : Entry} (he : e ∈ es) (s : State) :
    (s.applyEntries es).slotAt e.slot = e.applied (s.slotAt e.slot) := by
  induction es generalizing s with
  | nil => cases he
  | cons f es ih =>
    rw [List.map_cons, List.nodup_cons] at nd
    have step : s.applyEntries (f :: es) = (s.applyEntry f).applyEntries es := rfl
    rw [step]
    rcases List.mem_cons.1 he with rfl | he
    · rw [applyEntries_else, applyEntry_eq, State.slotAt_putSlot_same]
      intro g hg e2
      exact nd.1 (List.mem_map.2 ⟨g, hg, e2⟩)
    · rw [ih nd.2 he, applyEntry_eq, State.slotAt_putSlot_ne]
      intro e2
      exact nd.1 (List.mem_map.2 ⟨e, he, e2⟩)

/-! ### Slots frozen and thawed -/

theorem foldl_freeze_same (es : List Entry) (s : State) :
    (es.foldl State.freeze s).ctxs = s.ctxs ∧ (es.foldl State.freeze s).ports = s.ports ∧
      (es.foldl State.freeze s).chans = s.chans ∧ (es.foldl State.freeze s).faults = s.faults ∧
      (es.foldl State.freeze s).attention = s.attention := by
  induction es generalizing s with
  | nil => exact ⟨rfl, rfl, rfl, rfl, rfl⟩
  | cons e es ih =>
    simp only [List.foldl_cons]
    obtain ⟨h1, h2, h3, h4, h5⟩ := ih (s.freeze e)
    rw [h1, h2, h3, h4, h5]
    unfold State.freeze
    split <;> exact ⟨rfl, rfl, rfl, rfl, rfl⟩

/-- Acceptance freezes exactly the slots amended or retired, all else of them unchanged (R124). -/
theorem foldl_freeze_slotAt (es : List Entry) (s : State) (i : Fin 64) :
    (es.foldl State.freeze s).slotAt i =
      if ∃ e ∈ es, e.freezes = true ∧ e.slot = i then { s.slotAt i with state := .frozen } else s.slotAt i := by
  induction es generalizing s with
  | nil => simp
  | cons e es ih =>
    simp only [List.foldl_cons]
    rw [ih]
    have h : (s.freeze e).slotAt i = if e.freezes = true ∧ e.slot = i then { s.slotAt i with state := .frozen } else s.slotAt i := by
      unfold State.freeze
      by_cases hf : e.freezes = true
      · simp only [hf, if_true, true_and]
        by_cases hi : e.slot = i
        · subst hi; simp
        · rw [State.slotAt_putSlot_ne _ _ _ _ (Ne.symm hi), if_neg hi]
      · simp [hf]
    rw [h]
    by_cases h1 : ∃ f ∈ es, f.freezes = true ∧ f.slot = i
    · have h2 : ∃ f ∈ e :: es, f.freezes = true ∧ f.slot = i := by
        obtain ⟨f, hf, h2⟩ := h1
        exact ⟨f, List.mem_cons_of_mem _ hf, h2⟩
      rw [if_pos h1, if_pos h2]
      split <;> rfl
    · rw [if_neg h1]
      by_cases h2 : e.freezes = true ∧ e.slot = i
      · rw [if_pos h2, if_pos ⟨e, List.mem_cons_self, h2⟩]
      · rw [if_neg h2, if_neg]
        rintro ⟨f, hf, h3⟩
        rcases List.mem_cons.1 hf with rfl | hf
        · exact h2 h3
        · exact h1 ⟨f, hf, h3⟩

/-! ### Conflicts (R123) -/

theorem entryNaming_none {es : List Entry} {i : Fin 64} : entryNaming es i = none ↔ ∀ e ∈ es, e.slot ≠ i := by
  unfold entryNaming
  rw [Option.map_eq_none_iff, List.find?_eq_none]
  constructor
  · intro h e he e2
    obtain ⟨k, hk, rfl⟩ := List.getElem_of_mem he
    refine h (es[k], k) ?_ (by simp [e2])
    rw [List.mem_zipIdx_iff_getElem?]
    simp [hk]
  · rintro h ⟨e, k⟩ hk
    rw [List.mem_zipIdx_iff_getElem?] at hk
    have : e ∈ es := List.mem_of_getElem? hk
    simp [h e this]

theorem entryNaming_some {es : List Entry} {i : Fin 64} {k : Nat} {e : Entry} (h : entryNaming es i = some (k, e)) :
    es[k]? = some e ∧ e.slot = i := by
  unfold entryNaming at h
  rw [Option.map_eq_some_iff] at h
  obtain ⟨⟨f, n⟩, hf, he⟩ := h
  cases he
  have h1 := List.mem_of_find?_eq_some hf
  have h2 := List.find?_some hf
  rw [List.mem_zipIdx_iff_getElem?] at h1
  exact ⟨h1, by simpa using h2⟩

/-- With one entry for each slot, the entry of the set that names a slot is found. -/
theorem entryNaming_of_mem {es : List Entry} (nd : (es.map Entry.slot).Nodup) {e : Entry} (he : e ∈ es) :
    ∃ k, entryNaming es e.slot = some (k, e) := by
  cases h : entryNaming es e.slot with
  | none => exact absurd rfl (entryNaming_none.1 h e he)
  | some x =>
    obtain ⟨k, f⟩ := x
    obtain ⟨h1, h2⟩ := entryNaming_some h
    have hf : f ∈ es := List.mem_of_getElem? h1
    refine ⟨k, ?_⟩
    congr 2
    exact List.inj_on_of_nodup_map nd hf he h2

theorem conflicts_iff (w v : Window) : w.conflicts v = true ↔ Clash w v := by
  simp [Window.conflicts, Clash, Range.overlaps, Window.range]

theorem clash_symm {w v : Window} (h : Clash w v) : Clash v w := by
  obtain ⟨h1, h2⟩ := h
  refine ⟨h1.symm, ?_⟩
  rw [Nat.max_comm]
  exact h2.symm

/-- The first conflict is found exactly when an entry's window clashes with another window of the resulting table (R123). -/
theorem firstConflict_none (s : State) (es : List Entry) : s.firstConflict es = none ↔
    ∀ e ∈ es, ∀ w, e.window = some w → ∀ j v, j ≠ e.slot → s.resultWindow es j = some v → ¬ Clash w v := by
  unfold State.firstConflict
  rw [List.findSome?_eq_none_iff]
  have one : ∀ (e : Entry) (k : Nat), s.entryConflict es (e, k) = none ↔
      ∀ w, e.window = some w → ∀ j v, j ≠ e.slot → s.resultWindow es j = some v → ¬ Clash w v := by
    intro e k
    unfold State.entryConflict
    dsimp only
    cases hw : e.window with
    | none => simp
    | some w =>
      dsimp only
      have h2 : s.conflictsOf es e.slot w = [] ↔ ∀ j v, j ≠ e.slot → s.resultWindow es j = some v → ¬ Clash w v := by
        unfold State.conflictsOf
        rw [List.filter_eq_nil_iff]
        constructor
        · intro h j v hj hr hc
          refine h j (mem_slotIds j) ?_
          simp only [Bool.and_eq_true, bne_iff_ne, hr]
          exact ⟨hj, (conflicts_iff ..).2 hc⟩
        · intro h j _ hj
          simp only [Bool.and_eq_true, bne_iff_ne] at hj
          obtain ⟨h3, h4⟩ := hj
          cases hr : s.resultWindow es j with
          | none => rw [hr] at h4; cases h4
          | some v =>
            rw [hr] at h4
            exact h j v h3 hr ((conflicts_iff ..).1 h4)
      constructor
      · intro h w2 e2
        cases e2
        refine h2.1 ?_
        cases hl : s.conflictsOf es e.slot w with
        | nil => rfl
        | cons j l => rw [hl] at h; cases h
      · intro h
        rw [h2.2 (h w rfl)]
  constructor
  · intro h e he
    obtain ⟨k, hk, rfl⟩ := List.getElem_of_mem he
    refine (one _ k).1 (h (es[k], k) ?_)
    rw [List.mem_zipIdx_iff_getElem?]
    simp [hk]
  · rintro h ⟨e, k⟩ hk
    rw [List.mem_zipIdx_iff_getElem?] at hk
    exact (one e k).2 (h e (List.mem_of_getElem? hk))

/-- The resulting table depends on the slots' states and windows alone. -/
theorem resultWindow_congr {s t : State} {es : List Entry} (i : Fin 64)
    (h : (∀ e ∈ es, e.slot ≠ i) → (t.slotAt i).state = (s.slotAt i).state ∧ (t.slotAt i).window = (s.slotAt i).window) :
    t.resultWindow es i = s.resultWindow es i := by
  unfold State.resultWindow
  split
  · rfl
  · rename_i hn
    obtain ⟨h1, h2⟩ := h (entryNaming_none.1 hn)
    rw [h1, h2]

theorem firstConflict_congr {s t : State} {es : List Entry}
    (h : ∀ i, (∀ e ∈ es, e.slot ≠ i) →
      (t.slotAt i).state = (s.slotAt i).state ∧ (t.slotAt i).window = (s.slotAt i).window) :
    t.firstConflict es = none ↔ s.firstConflict es = none := by
  rw [firstConflict_none, firstConflict_none]
  have : ∀ i, t.resultWindow es i = s.resultWindow es i := fun i => resultWindow_congr i (h i)
  simp only [this]

/-! ### The law of overlaps through each change of the table -/

theorem overlapLaw_kept {s t : State} (h : s.TableKept t) (hs : OverlapLaw s) : OverlapLaw t := by
  obtain ⟨h1, ⟨h2, h3, h4⟩, h5⟩ := hs
  refine ⟨fun i j hij hi hj => ?_, ⟨fun i => ?_, ?_, ?_⟩, ?_⟩
  · rw [h.state] at hi hj
    rw [h.window, h.window]
    exact h1 i j hij hi hj
  · rw [h.state, h.setState, h.entries]
    exact h2 i
  · rw [h.setState, h.entries]
    intro hc e he hf
    rw [h.state]
    exact h3 hc e he hf
  · rw [h.setState, h.entries]
    intro hc
    exact (firstConflict_congr fun i _ => ⟨h.state i, h.window i⟩).2 (h4 hc)
  · rw [h.entries]
    exact h5

/-- What apply leaves: the resulting table, and the set CLOSED and empty. -/
theorem overlapLaw_applied {s t : State} (hs : OverlapLaw s) (hc : s.changeSet.state = .committing)
    (ht : ∀ i, (t.slotAt i).state = ((s.applyEntries s.changeSet.entries).slotAt i).state ∧
      (t.slotAt i).window = ((s.applyEntries s.changeSet.entries).slotAt i).window)
    (hset : t.changeSet.state = .closed ∧ t.changeSet.entries = []) : OverlapLaw t := by
  obtain ⟨h1, ⟨h2, h3, h4⟩, h5⟩ := hs
  have conf := (firstConflict_none ..).1 (h4 hc)
  -- a slot of the new table that holds a window holds the one of the resulting table
  have result : ∀ i, (t.slotAt i).state ≠ .free → s.resultWindow s.changeSet.entries i = some (t.slotAt i).window ∧
      (t.slotAt i).state = .live := by
    intro i hi
    rw [(ht i).1] at hi ⊢
    rw [(ht i).2]
    unfold State.resultWindow
    cases hn : entryNaming s.changeSet.entries i with
    | none =>
      have named := entryNaming_none.1 hn
      rw [applyEntries_else named] at hi ⊢
      have notFrozen : (s.slotAt i).state ≠ .frozen := by
        intro hfr
        obtain ⟨_, e, he, _, h⟩ := (h2 i).1 hfr
        exact named e he h
      have live : (s.slotAt i).state = .live := by
        cases hst : (s.slotAt i).state with
        | free => exact absurd hst hi
        | live => rfl
        | frozen => exact absurd hst notFrozen
      simp [live]
    | some x =>
      obtain ⟨k, e⟩ := x
      obtain ⟨hk, rfl⟩ := entryNaming_some hn
      have he : e ∈ s.changeSet.entries := List.mem_of_getElem? hk
      rw [applyEntries_at h5 he] at hi ⊢
      cases e with
      | install j w => exact ⟨rfl, rfl⟩
      | amend j w g => exact ⟨rfl, rfl⟩
      | retire j g => exact absurd rfl hi
  refine ⟨fun i j hij hi hj clash => ?_, ⟨fun i => ?_, ?_, ?_⟩, ?_⟩
  · obtain ⟨ri, _⟩ := result i hi
    obtain ⟨rj, _⟩ := result j hj
    -- one of the two is an entry's window, or both are old
    cases hn : entryNaming s.changeSet.entries i with
    | some x =>
      obtain ⟨k, e⟩ := x
      obtain ⟨hk, rfl⟩ := entryNaming_some hn
      have hw : e.window = some (t.slotAt e.slot).window := by
        unfold State.resultWindow at ri
        rw [hn] at ri
        exact ri
      exact conf e (List.mem_of_getElem? hk) _ hw j _ (Ne.symm hij) rj clash
    | none =>
      cases hm : entryNaming s.changeSet.entries j with
      | some x =>
        obtain ⟨k, e⟩ := x
        obtain ⟨hk, rfl⟩ := entryNaming_some hm
        have hw : e.window = some (t.slotAt e.slot).window := by
          unfold State.resultWindow at rj
          rw [hm] at rj
          exact rj
        exact conf e (List.mem_of_getElem? hk) _ hw i _ hij ri (clash_symm clash)
      | none =>
        have ei := applyEntries_else (entryNaming_none.1 hn) s
        have ej := applyEntries_else (entryNaming_none.1 hm) s
        rw [(ht i).1, ei] at hi
        rw [(ht j).1, ej] at hj
        rw [(ht i).2, (ht j).2, ei, ej] at clash
        exact h1 i j hij hi hj clash
  · constructor
    · intro hfr
      have := (result i (by rw [hfr]; simp)).2
      rw [hfr] at this
      cases this
    · rintro ⟨h, _⟩
      rw [hset.1] at h
      cases h
  · intro _ e he
    rw [hset.2] at he
    cases he
  · intro h
    rw [hset.1] at h
    cases h
  · rw [hset.2]
    exact List.nodup_nil

/-- The state in which an apply resolves the hold list again. -/
def State.beforeReResolve (s : State) : State := ((s.applyEntries s.changeSet.entries).closeSet).latchCommitApplied

theorem applyNow_eq (s : State) : s.applyNow = s.beforeReResolve.reResolve s.changeSet.holdList := rfl

theorem applyNow_overlapLaw {s : State} (hs : OverlapLaw s) (hc : s.changeSet.state = .committing) : OverlapLaw s.applyNow := by
  rw [applyNow_eq]
  refine overlapLaw_kept (reResolve_kept ..) ?_
  exact overlapLaw_applied hs hc (fun _ => ⟨rfl, rfl⟩) ⟨rfl, rfl⟩

theorem drainCheck_overlapLaw {s : State} (hs : OverlapLaw s) : OverlapLaw s.drainCheck := by
  unfold State.drainCheck
  split
  · rename_i h
    simp only [State.drainOn, Bool.and_eq_true, beq_iff_eq] at h
    exact applyNow_overlapLaw hs h.1.1
  · exact hs

theorem accept_overlapLaw {s : State} (hs : OverlapLaw s) (hc : s.changeSet.state ≠ .committing)
    (hf : s.firstConflict s.changeSet.entries = none) : OverlapLaw s.accept := by
  obtain ⟨h1, ⟨h2, h3, h4⟩, h5⟩ := hs
  have slot : ∀ i, s.accept.slotAt i = if ∃ e ∈ s.changeSet.entries, e.freezes = true ∧ e.slot = i
      then { s.slotAt i with state := .frozen } else s.slotAt i := fun i => foldl_freeze_slotAt _ s i
  have win : ∀ i, (s.accept.slotAt i).window = (s.slotAt i).window := fun i => by rw [slot]; split <;> rfl
  have notFree : ∀ i, (s.accept.slotAt i).state ≠ .free → (s.slotAt i).state ≠ .free := by
    intro i hi
    rw [slot] at hi
    split at hi
    · rename_i hn
      obtain ⟨e, he, hfz, rfl⟩ := hn
      rw [h3 hc e he hfz]
      simp
    · exact hi
  refine ⟨fun i j hij hi hj => ?_, ⟨fun i => ?_, fun h => absurd rfl h, fun _ => ?_⟩, h5⟩
  · rw [win, win]
    exact h1 i j hij (notFree i hi) (notFree j hj)
  · rw [slot]
    constructor
    · intro h
      refine ⟨rfl, ?_⟩
      split at h
      · assumption
      · exact absurd ((h2 i).1 h).1 hc
    · rintro ⟨_, h⟩
      rw [if_pos (show ∃ e ∈ s.changeSet.entries, e.freezes = true ∧ e.slot = i from h)]
  · refine (firstConflict_congr fun i hn => ?_).2 hf
    rw [slot, if_neg]
    · exact ⟨rfl, rfl⟩
    · rintro ⟨e, he, _, e2⟩
      exact hn e he e2

theorem discardCommitting_overlapLaw {s : State} (hs : OverlapLaw s) : OverlapLaw s.discardCommitting := by
  obtain ⟨h1, _, _⟩ := hs
  unfold State.discardCommitting
  refine overlapLaw_kept (reResolve_kept ..) ?_
  have slot : ∀ i, State.slotAt ({ s with slots := s.slots.mapAll Slot.thaw } : State).closeSet i = (s.slotAt i).thaw :=
    fun i => Table.look_mapAll ..
  refine ⟨fun i j hij hi hj => ?_, ⟨fun i => ?_, fun _ e he => absurd he (by simp [State.closeSet]), fun h => ?_⟩, List.nodup_nil⟩
  · rw [slot] at hi hj
    rw [slot, slot]
    refine h1 i j hij (fun e => hi ?_) (fun e => hj ?_) <;> simp [Slot.thaw, e]
  · rw [slot]
    constructor
    · intro h
      unfold Slot.thaw at h
      dsimp only at h
      split at h
      · cases h
      · contradiction
    · rintro ⟨h, _⟩
      cases h
  · cases h

end Sys2Proof.Machine
end

