-- ==== Sys2Proof/Laws/Bindings.lean ====
section
/-! SUPPORT. Each shared operation keeps the law of bindings: the counts are the contexts that name each slot, and each such context lies in the window of the generation it recorded (R14, R17, R18, R30). -/

namespace Sys2Proof.Machine

/-- What the law of bindings sees of a context: its request, and the window it names while BOUND or ON_BUS. -/
def view (x : Option Context) : Option (Request × Option WindowRef) :=
  x.map fun c => (c.request, c.liveBinding.map (·.window))

/-- The slot a context names while BOUND or ON_BUS. -/
def namedSlot (v : Option (Request × Option WindowRef)) : Option (Fin 64) := v.bind fun y => y.2.map (·.slot)

theorem names_eq (s : State) (i : Fin 64) (id : CtxId) : Names s i id = (namedSlot (view (s.ctxAt id)) == some i) := by
  unfold Names namedSlot view
  cases s.ctxAt id with
  | none => simp
  | some c => simp [Option.map_map]

/-- What a context must satisfy under the law, by what the law sees of it. -/
def ViewHolds (s : State) (v : Option (Request × Option WindowRef)) : Prop :=
  ∀ r w, v = some (r, some w) →
    (s.slotAt w.slot).state ≠ .free ∧ (s.slotAt w.slot).generation = w.generation ∧
      ∀ k, k < r.size → InRange (s.slotAt w.slot).window.base (s.slotAt w.slot).window.sizeExp (r.address.toNat + k)

theorem bindingsHold_iff (s : State) : BindingsHold s ↔ ∀ id, ViewHolds s (view (s.ctxAt id)) := by
  constructor
  · intro h id r w hv
    unfold view at hv
    rw [Option.map_eq_some_iff] at hv
    obtain ⟨c, hc, e⟩ := hv
    simp only [Prod.mk.injEq, Option.map_eq_some_iff] at e
    obtain ⟨rfl, b, hb, rfl⟩ := e
    exact h id c b hc hb
  · intro h id c b hc hb
    exact h id c.request b.window (by simp [view, hc, hb])

/-- The context's size is not 0. -/
def ViewSized (v : Option (Request × Option WindowRef)) : Prop := ∀ r w, v = some (r, w) → 0 < r.size

theorem sized_iff (s : State) : (∀ id c, s.ctxAt id = some c → 0 < c.request.size) ↔ ∀ id, ViewSized (view (s.ctxAt id)) := by
  constructor
  · intro h id r w hv
    unfold view at hv
    rw [Option.map_eq_some_iff] at hv
    obtain ⟨c, hc, e⟩ := hv
    simp only [Prod.mk.injEq] at e
    rw [← e.1]
    exact h id c hc
  · intro h id c hc
    exact h id c.request (c.liveBinding.map (·.window)) (by simp [view, hc])

/-- The law rests on what it sees of the contexts, on the slots and on the set. -/
theorem bindingLaw_congr {s t : State} (hs : BindingLaw s) (hv : ∀ id, view (t.ctxAt id) = view (s.ctxAt id))
    (hslot : ∀ i, t.slotAt i = s.slotAt i) (h1 : t.changeSet.state = s.changeSet.state)
    (h2 : t.changeSet.entries = s.changeSet.entries) (h3 : t.changeSet.footprint = s.changeSet.footprint) : BindingLaw t := by
  obtain ⟨a, b, ⟨c1, c2, c3, c4⟩, d⟩ := hs
  refine ⟨fun i => ?_, ?_, ⟨?_, ?_, ?_, ?_⟩, ?_⟩
  · have : Names t i = Names s i := by
      funext id
      rw [names_eq, names_eq, hv]
    rw [hslot, this]
    exact a i
  · rw [bindingsHold_iff] at b ⊢
    intro id
    rw [hv]
    intro r w e
    rw [hslot]
    exact b id r w e
  · rw [h2]; exact c1
  · rw [h2, h1]
    intro e he
    rw [hslot]
    exact c2 e he
  · rw [h2, h1]
    intro i hi
    rw [hslot] at hi
    exact c3 i hi
  · rw [h1, h2, h3]
    intro hc
    rw [c4 hc]
    unfold State.footprintFor
    congr 1
    funext e
    cases e <;> simp only [State.entryRanges, hslot]
  · rw [sized_iff] at d ⊢
    intro id
    rw [hv]
    exact d id

/-- The entries fit by the slots' states, their windows and the set alone. -/
theorem entriesFit_kept {s t : State} (h : s.TableKept t) (hs : EntriesFit s) : EntriesFit t := by
  obtain ⟨c1, c2, c3, c4⟩ := hs
  refine ⟨?_, ?_, ?_, ?_⟩
  · rw [h.entries]; exact c1
  · rw [h.entries, h.setState]
    intro e he
    rw [h.state]
    exact c2 e he
  · rw [h.entries, h.setState]
    intro i hi
    rw [h.state] at hi
    exact c3 i hi
  · rw [h.setState, h.entries, h.footprint]
    intro hc
    rw [c4 hc]
    unfold State.footprintFor
    congr 1
    funext e
    cases e <;> simp only [State.entryRanges, Window.range, h.window]

theorem viewHolds_kept {s t : State} (h : s.TableKept t) {v : Option (Request × Option WindowRef)} (hs : ViewHolds s v) :
    ViewHolds t v := by
  intro r w e
  rw [h.state, h.generation, h.window]
  exact hs r w e

/-! ### One context at a time -/

theorem filter_length_same {l : List CtxId} {f g : CtxId → Bool} (h : ∀ k ∈ l, f k = g k) :
    (l.filter f).length = (l.filter g).length := by
  rw [List.filter_congr h]

/-- Of a list without duplicates, one member more passes when exactly that member's answer turns true. -/
theorem filter_length_one {l : List CtxId} (nd : l.Nodup) {f g : CtxId → Bool} {id : CtxId} (hm : id ∈ l)
    (h : ∀ k, k ≠ id → f k = g k) (hf : f id = true) (hg : g id = false) :
    (l.filter f).length = (l.filter g).length + 1 := by
  induction l with
  | nil => cases hm
  | cons x l ih =>
    rw [List.nodup_cons] at nd
    simp only [List.filter_cons]
    by_cases e : x = id
    · subst e
      rw [if_pos hf, hg]
      simp only [List.length_cons, Bool.false_eq_true, if_false, Nat.add_right_cancel_iff]
      refine filter_length_same fun k hk => h k ?_
      rintro rfl
      exact nd.1 hk
    · have hm : id ∈ l := (List.mem_cons.1 hm).resolve_left (Ne.symm e)
      rw [h x e]
      split
      · simp [ih nd.2 hm]
      · exact ih nd.2 hm

/-- A context that names no slot before and after may change as it likes. -/
theorem putCtx_unnamed {s : State} {id : CtxId} {x : Option Context} (hs : BindingLaw s)
    (h1 : namedSlot (view (s.ctxAt id)) = none) (h2 : namedSlot (view x) = none) (hz : ViewSized (view x)) :
    BindingLaw (s.putCtx id x) := by
  obtain ⟨a, b, c, d⟩ := hs
  refine ⟨fun i => ?_, ?_, c, ?_⟩
  · have : Names (s.putCtx id x) i = Names s i := by
      funext k
      rw [names_eq, names_eq]
      by_cases e : k = id
      · subst e; rw [State.ctxAt_putCtx_same, h1, h2]
      · rw [State.ctxAt_putCtx_ne _ _ _ _ e]
    rw [this]
    exact a i
  · rw [bindingsHold_iff] at b ⊢
    intro k r w e
    by_cases ek : k = id
    · subst ek
      rw [State.ctxAt_putCtx_same] at e
      rw [e] at h2
      cases h2
    · rw [State.ctxAt_putCtx_ne _ _ _ _ ek] at e
      exact b k r w e
  · rw [sized_iff] at d ⊢
    intro k
    by_cases ek : k = id
    · subst ek; rw [State.ctxAt_putCtx_same]; exact hz
    · rw [State.ctxAt_putCtx_ne _ _ _ _ ek]; exact d k

/-- A context whose request and window stay may change in every other way. -/
theorem putCtx_sameView {s : State} {id : CtxId} {x : Option Context} (hs : BindingLaw s)
    (h : view x = view (s.ctxAt id)) : BindingLaw (s.putCtx id x) := by
  refine bindingLaw_congr hs (fun k => ?_) (fun _ => rfl) rfl rfl rfl
  by_cases e : k = id
  · subst e; rw [State.ctxAt_putCtx_same, h]
  · rw [State.ctxAt_putCtx_ne _ _ _ _ e]

/-- A context that binds raises its slot's count (R18). -/
theorem bind_counts {s : State} {id : CtxId} {r : Request} {st : CtxState} {w : WindowRef} (hs : BindingLaw s)
    (h1 : namedSlot (view (s.ctxAt id)) = none) (h2 : view (some ⟨r, st⟩) = some (r, some w)) (hz : 0 < r.size)
    (hv : ViewHolds s (some (r, some w))) : BindingLaw ((s.putCtx id (some ⟨r, st⟩)).raiseCount w.slot) := by
  obtain ⟨a, b, c, d⟩ := hs
  have kept : s.TableKept ((s.putCtx id (some ⟨r, st⟩)).raiseCount w.slot) :=
    (show s.TableKept (s.putCtx id (some ⟨r, st⟩)) from tableKept_of rfl rfl).trans (raiseCount_kept ..)
  have ctx : ∀ k, ((s.putCtx id (some ⟨r, st⟩)).raiseCount w.slot).ctxAt k = (s.putCtx id (some ⟨r, st⟩)).ctxAt k := fun _ => rfl
  refine ⟨fun i => ?_, ?_, entriesFit_kept kept c, ?_⟩
  · by_cases e : i = w.slot
    · subst e
      have : (((s.putCtx id (some ⟨r, st⟩)).raiseCount w.slot).slotAt w.slot).inFlight = (s.slotAt w.slot).inFlight + 1 := by
        unfold State.raiseCount
        rw [State.slotAt_putSlot_same]
        rfl
      rw [this, a]
      refine (filter_length_one nodup_ctxIds (mem_ctxIds id) (fun k hk => ?_) ?_ ?_).symm
      · rw [names_eq, names_eq, ctx, State.ctxAt_putCtx_ne _ _ _ _ hk]
      · rw [names_eq, ctx, State.ctxAt_putCtx_same, h2]
        simp [namedSlot]
      · rw [names_eq, h1]
        rfl
    · have : ((s.putCtx id (some ⟨r, st⟩)).raiseCount w.slot).slotAt i = s.slotAt i := by
        unfold State.raiseCount
        rw [State.slotAt_putSlot_ne _ _ _ _ e]
        rfl
      rw [this, a]
      refine filter_length_same fun k _ => ?_
      rw [names_eq, names_eq, ctx]
      by_cases ek : k = id
      · subst ek
        rw [State.ctxAt_putCtx_same, h1, h2]
        simp only [namedSlot]
        simp [Ne.symm e]
      · rw [State.ctxAt_putCtx_ne _ _ _ _ ek]
  · rw [bindingsHold_iff] at b ⊢
    intro k
    rw [ctx]
    by_cases ek : k = id
    · subst ek
      rw [State.ctxAt_putCtx_same, h2]
      exact viewHolds_kept kept hv
    · rw [State.ctxAt_putCtx_ne _ _ _ _ ek]
      exact viewHolds_kept kept (b k)
  · rw [sized_iff] at d ⊢
    intro k
    rw [ctx]
    by_cases ek : k = id
    · subst ek
      rw [State.ctxAt_putCtx_same, h2]
      rintro q y e
      cases e
      exact hz
    · rw [State.ctxAt_putCtx_ne _ _ _ _ ek]; exact d k

/-- A context that names a slot and then none lowers that slot's count (R18). -/
theorem release_counts {s : State} {id : CtxId} {r : Request} {w : WindowRef} {x : Option Context} (hs : BindingLaw s)
    (h1 : view (s.ctxAt id) = some (r, some w)) (h2 : namedSlot (view x) = none) (hz : ViewSized (view x)) :
    BindingLaw ((s.putCtx id x).lowerCount w.slot) := by
  obtain ⟨a, b, c, d⟩ := hs
  have kept : s.TableKept ((s.putCtx id x).lowerCount w.slot) :=
    (show s.TableKept (s.putCtx id x) from tableKept_of rfl rfl).trans (lowerCount_kept ..)
  have ctx : ∀ k, ((s.putCtx id x).lowerCount w.slot).ctxAt k = (s.putCtx id x).ctxAt k := fun _ => rfl
  refine ⟨fun i => ?_, ?_, entriesFit_kept kept c, ?_⟩
  · by_cases e : i = w.slot
    · subst e
      have : (((s.putCtx id x).lowerCount w.slot).slotAt w.slot).inFlight = (s.slotAt w.slot).inFlight - 1 := by
        unfold State.lowerCount
        rw [State.slotAt_putSlot_same]
        rfl
      rw [this, a, filter_length_one (f := Names s w.slot) (g := Names ((s.putCtx id x).lowerCount w.slot) w.slot)
        nodup_ctxIds (mem_ctxIds id)]
      · rfl
      · intro k hk
        rw [names_eq, names_eq, ctx, State.ctxAt_putCtx_ne _ _ _ _ hk]
      · rw [names_eq, h1]
        simp [namedSlot]
      · rw [names_eq, ctx, State.ctxAt_putCtx_same, h2]
        rfl
    · have : ((s.putCtx id x).lowerCount w.slot).slotAt i = s.slotAt i := by
        unfold State.lowerCount
        rw [State.slotAt_putSlot_ne _ _ _ _ e]
        rfl
      rw [this, a]
      refine filter_length_same fun k _ => ?_
      rw [names_eq, names_eq, ctx]
      by_cases ek : k = id
      · subst ek
        rw [State.ctxAt_putCtx_same, h1, h2]
        simp only [namedSlot]
        simp [Ne.symm e]
      · rw [State.ctxAt_putCtx_ne _ _ _ _ ek]
  · rw [bindingsHold_iff] at b ⊢
    intro k
    rw [ctx]
    by_cases ek : k = id
    · subst ek
      rw [State.ctxAt_putCtx_same]
      rintro q y e
      rw [e] at h2
      cases h2
    · rw [State.ctxAt_putCtx_ne _ _ _ _ ek]
      exact viewHolds_kept kept (b k)
  · rw [sized_iff] at d ⊢
    intro k
    rw [ctx]
    by_cases ek : k = id
    · subst ek; rw [State.ctxAt_putCtx_same]; exact hz
    · rw [State.ctxAt_putCtx_ne _ _ _ _ ek]; exact d k

/-! ### Shared operations -/

theorem bindingLaw_same {s t : State} (hs : BindingLaw s) (h1 : t.ctxs = s.ctxs) (h2 : t.slots = s.slots)
    (h3 : t.changeSet = s.changeSet) : BindingLaw t := by
  refine bindingLaw_congr hs (fun id => ?_) (fun i => congrArg (Table.look · i) h2) (by rw [h3]) (by rw [h3]) (by rw [h3])
  exact congrArg (fun x : Table (Option Context) 16 => view (x.look id.idx)) h1

theorem view_passOver (c : Fin 4) (x : Option Context) : view (passOver c x) = view x := by
  cases x with
  | none => rfl
  | some x =>
    obtain ⟨q, y⟩ := x
    cases y <;> simp only [passOver]
    split <;> rfl

theorem grant_bindingLaw {s : State} {c : Fin 4} {ch : Choice} (hs : BindingLaw s) : BindingLaw (s.grant c ch) := by
  unfold State.grant
  split
  · rename_i r b stamp passes hc
    obtain ⟨h1, _, h3, h4⟩ := startBeat_same (((s.mapCtxs (passOver c)).putCtx ch.id (some ⟨r, .onBus b stamp false⟩)).putChan c
      { (s.chanAt c).movePointer ch with onBus := some ch.id }) c
    refine bindingLaw_same ?_ h3 h1 h4
    have hm : BindingLaw (s.mapCtxs (passOver c)) :=
      bindingLaw_congr hs (fun id => by rw [State.ctxAt_mapCtxs, view_passOver]) (fun _ => rfl) rfl rfl rfl
    have : BindingLaw ((s.mapCtxs (passOver c)).putCtx ch.id (some ⟨r, .onBus b stamp false⟩)) :=
      putCtx_sameView hm (by rw [State.ctxAt_mapCtxs, view_passOver, hc]; rfl)
    exact bindingLaw_same this rfl rfl rfl
  all_goals exact hs

theorem arbitrate_bindingLaw {s : State} {c : Fin 4} (hs : BindingLaw s) : BindingLaw (s.arbitrate c) := by
  unfold State.arbitrate
  split
  · split
    · exact grant_bindingLaw hs
    · exact hs
  all_goals exact hs

theorem endWithFault_bindingLaw {s : State} {id : CtxId} {r : Request} {st : Status} {d : DoneRecord} {f : FaultRecord}
    (hs : BindingLaw (s.putCtx id (some ⟨r, .done st d⟩))) : BindingLaw (s.endWithFault id r st d f) :=
  bindingLaw_same hs (endWithFault_set ..).2.2 (endWithFault_set ..).2.1 (endWithFault_set ..).1

/-- A resolution of a context that names no slot keeps the law (R30, R33). -/
theorem resolveInto_bindingLaw {s : State} {id : CtxId} {r : Request} (hs : BindingLaw s)
    (h : namedSlot (view (s.ctxAt id)) = none) (hz : 0 < r.size) : BindingLaw (s.resolveInto id r) := by
  have sized : ∀ st, ViewSized (view (some ⟨r, st⟩)) := by
    intro st q w e
    simp only [view, Option.map_some, Option.some.injEq, Prod.mk.injEq] at e
    rw [← e.1]
    exact hz
  unfold State.resolveInto
  cases hv : s.resolve id.port r with
  | held =>
    refine bindingLaw_congr (putCtx_unnamed hs h (x := some ⟨r, .held⟩) rfl (sized _)) (fun _ => rfl) (fun _ => rfl) rfl rfl rfl
  | bound b =>
    obtain ⟨_, i, rfl, _, live, _⟩ := resolve_bound hv
    refine arbitrate_bindingLaw ?_
    refine bind_counts (w := (boundUnder s i r).window) hs h rfl hz ?_
    rintro q w e
    cases e
    refine ⟨?_, rfl, fun k hk => (live k hk).2⟩
    have := (live 0 hz).1
    show (s.slotAt i).state ≠ .free
    rw [this]
    simp
  | noWindow => exact endWithFault_bindingLaw (putCtx_unnamed hs h rfl (sized _))
  | span w => exact endWithFault_bindingLaw (putCtx_unnamed hs h rfl (sized _))
  | denied w => exact endWithFault_bindingLaw (putCtx_unnamed hs h rfl (sized _))
  | channelOffline w c => exact endWithFault_bindingLaw (putCtx_unnamed hs h rfl (sized _))

theorem reResolve_bindingLaw {s : State} {l : List CtxId} (hs : BindingLaw s) : BindingLaw (s.reResolve l) := by
  induction l generalizing s with
  | nil => exact hs
  | cons id rest ih =>
    have hs1 : BindingLaw (s.putChangeSet { s.changeSet with holdList := rest }) :=
      bindingLaw_congr hs (fun _ => rfl) (fun _ => rfl) rfl rfl rfl
    unfold State.reResolve
    dsimp only
    split
    · rename_i r hc
      refine ih (resolveInto_bindingLaw hs1 (by rw [hc]; rfl) ?_)
      exact hs.2.2.2 id _ hc
    all_goals exact ih hs1

/-! ### Apply -/

/-- With no blocking context left, no context names a slot of an entry (R127, R130). -/
theorem unnamed_of_drained {s : State} (hs : BindingLaw s) (hc : s.changeSet.state = .committing) (h0 : s.blockingCount = 0)
    {e : Entry} (he : e ∈ s.changeSet.entries) (id : CtxId) : namedSlot (view (s.ctxAt id)) ≠ some e.slot := by
  intro hn
  obtain ⟨_, b, ⟨_, c2, _, c4⟩, d⟩ := hs
  have st := c2 e he
  rw [hc] at st
  cases hx : s.ctxAt id with
  | none => rw [hx] at hn; cases hn
  | some x =>
    rw [hx] at hn
    cases hb : x.liveBinding with
    | none => simp [namedSlot, view, hb] at hn
    | some y =>
      have hslot : y.window.slot = e.slot := by simpa [namedSlot, view, hb] using hn
      obtain ⟨h1, _, h3⟩ := b id x y hx hb
      rw [hslot] at h1 h3
      cases hf : e.freezes with
      | false =>
        rw [hf] at st
        exact h1 st
      | true =>
        have mem : (s.slotAt e.slot).window.range ∈ s.changeSet.footprint := by
          rw [c4 hc]
          unfold State.footprintFor
          refine List.mem_flatMap.2 ⟨e, he, ?_⟩
          cases e with
          | install i w => cases hf
          | amend i w g => exact List.mem_cons_self
          | retire i g => exact List.mem_cons_self
        have blk : blocks s.changeSet.footprint (s.ctxAt id) = true := by
          unfold blocks
          rw [hx]
          simp only [hb, Option.isSome_some, Bool.true_and]
          rw [touches_iff]
          exact ⟨0, d id x hx, _, mem, h3 0 (d id x hx)⟩
        have : id ∈ ctxIds.filter fun id => blocks s.changeSet.footprint (s.ctxAt id) :=
          List.mem_filter.2 ⟨mem_ctxIds id, blk⟩
        unfold State.blockingCount at h0
        rw [List.length_eq_zero_iff] at h0
        rw [h0] at this
        cases this

theorem applyNow_bindingLaw {s : State} (hs : BindingLaw s) (hc : s.changeSet.state = .committing)
    (h0 : s.blockingCount = 0) : BindingLaw s.applyNow := by
  rw [applyNow_eq]
  refine reResolve_bindingLaw ?_
  have free := fun {e : Entry} (he : e ∈ s.changeSet.entries) (id : CtxId) => unnamed_of_drained hs hc h0 he id
  obtain ⟨a, b, ⟨c1, c2, c3, c4⟩, d⟩ := hs
  have ctx : ∀ k, s.beforeReResolve.ctxAt k = s.ctxAt k := fun k =>
    congrArg (Table.look · k.idx) (applyEntries_same s s.changeSet.entries).2.1
  have slot : ∀ i, s.beforeReResolve.slotAt i = (s.applyEntries s.changeSet.entries).slotAt i := fun _ => rfl
  have names : ∀ i, Names s.beforeReResolve i = Names s i := by
    intro i
    funext k
    rw [names_eq, names_eq, ctx]
  refine ⟨fun i => ?_, ?_, ⟨List.nodup_nil, fun e he => absurd he (by simp [State.beforeReResolve, State.closeSet, State.latchCommitApplied]), fun i hi => ?_, fun h => ?_⟩, ?_⟩
  · rw [names, slot]
    by_cases hn : ∃ e ∈ s.changeSet.entries, e.slot = i
    · obtain ⟨e, he, rfl⟩ := hn
      have zero : ctxIds.filter (Names s e.slot) = [] := by
        rw [List.filter_eq_nil_iff]
        intro k _ hk
        rw [names_eq, beq_iff_eq] at hk
        exact free he k hk
      rw [zero, applyEntries_at c1 he]
      cases e <;> rfl
    · have hn : ∀ e ∈ s.changeSet.entries, e.slot ≠ i := fun e he h => hn ⟨e, he, h⟩
      rw [applyEntries_else hn]
      exact a i
  · rw [bindingsHold_iff] at b ⊢
    intro k
    rw [ctx]
    intro r w e
    have hn : ∀ e ∈ s.changeSet.entries, e.slot ≠ w.slot := fun f hf h =>
      free hf k (by rw [e]; simp [namedSlot, h])
    rw [slot, applyEntries_else hn]
    exact b k r w e
  · rw [slot] at hi
    by_cases hn : ∃ e ∈ s.changeSet.entries, e.slot = i
    · obtain ⟨e, he, rfl⟩ := hn
      rw [applyEntries_at c1 he] at hi
      cases e <;> cases hi
    · have hn' : ∀ e ∈ s.changeSet.entries, e.slot ≠ i := fun e he h => hn ⟨e, he, h⟩
      rw [applyEntries_else hn'] at hi
      obtain ⟨_, e, he, _, h⟩ := c3 i hi
      exact absurd h (hn' e he)
  · cases h
  · intro id c hcx
    rw [ctx] at hcx
    exact d id c hcx

theorem drainCheck_bindingLaw {s : State} (hs : BindingLaw s) : BindingLaw s.drainCheck := by
  unfold State.drainCheck
  split
  · rename_i h
    simp only [State.drainOn, Bool.and_eq_true, beq_iff_eq] at h
    exact applyNow_bindingLaw hs h.1.1 h.2
  · exact hs

theorem accept_bindingLaw {s : State} (hs : BindingLaw s) (hc : s.changeSet.state ≠ .committing) : BindingLaw s.accept := by
  obtain ⟨a, b, ⟨c1, c2, c3, c4⟩, d⟩ := hs
  have slot : ∀ i, s.accept.slotAt i = if ∃ e ∈ s.changeSet.entries, e.freezes = true ∧ e.slot = i
      then { s.slotAt i with state := .frozen } else s.slotAt i := fun i => foldl_freeze_slotAt _ s i
  have ctx : ∀ k, s.accept.ctxAt k = s.ctxAt k := fun k =>
    congrArg (Table.look · k.idx) (foldl_freeze_same s.changeSet.entries s).1
  have win : ∀ i, (s.accept.slotAt i).window = (s.slotAt i).window := fun i => by rw [slot]; split <;> rfl
  have names : ∀ i, Names s.accept i = Names s i := by
    intro i
    funext k
    rw [names_eq, names_eq, ctx]
  refine ⟨fun i => ?_, ?_, ⟨c1, fun e he => ?_, fun i hi => ?_, fun _ => ?_⟩, fun id c hcx => ?_⟩
  · rw [names, slot]
    split <;> exact a i
  · rw [bindingsHold_iff] at b ⊢
    intro k
    rw [ctx]
    intro r w e
    obtain ⟨h1, h2, h3⟩ := b k r w e
    rw [win]
    refine ⟨?_, ?_, h3⟩ <;> rw [slot] <;> split
    · simp
    · exact h1
    · exact h2
    · exact h2
  · have he : e ∈ s.changeSet.entries := he
    rw [slot]
    cases hf : e.freezes with
    | true => rw [if_pos ⟨e, he, hf, rfl⟩]; rfl
    | false =>
      rw [if_neg]
      · have := c2 e he
        rw [hf] at this
        exact this
      · rintro ⟨f, hfm, hff, e2⟩
        have : f = e := List.inj_on_of_nodup_map c1 hfm he e2
        rw [this, hf] at hff
        cases hff
  · rw [slot] at hi
    split at hi
    · rename_i hn
      exact ⟨rfl, hn⟩
    · exact absurd (c3 i hi).1 hc
  · show s.footprintFor s.changeSet.entries = s.accept.footprintFor s.changeSet.entries
    unfold State.footprintFor
    congr 1
    funext e
    cases e <;> simp only [State.entryRanges, win]
  · rw [ctx] at hcx
    exact d id c hcx

theorem discardCommitting_bindingLaw {s : State} (hs : BindingLaw s) : BindingLaw s.discardCommitting := by
  obtain ⟨a, b, _, d⟩ := hs
  unfold State.discardCommitting
  refine reResolve_bindingLaw ?_
  have slot : ∀ i, State.slotAt ({ s with slots := s.slots.mapAll Slot.thaw } : State).closeSet i = (s.slotAt i).thaw :=
    fun i => Table.look_mapAll ..
  refine ⟨fun i => ?_, ?_, ⟨List.nodup_nil, fun e he => absurd he (by simp [State.closeSet]), fun i hi => ?_, fun h => ?_⟩, d⟩
  · rw [slot]
    exact a i
  · rw [bindingsHold_iff] at b ⊢
    intro k r w e
    obtain ⟨h1, h2, h3⟩ := b k r w e
    rw [slot]
    refine ⟨?_, h2, h3⟩
    unfold Slot.thaw
    dsimp only
    split
    · simp
    · exact h1
  · rw [slot] at hi
    unfold Slot.thaw at hi
    dsimp only at hi
    split at hi
    · cases hi
    · contradiction
  · cases h

/-! ### Beat ends and resets -/

theorem afterRecovery_bindingLaw {s : State} {c : Fin 4} (hs : BindingLaw s) : BindingLaw (s.afterRecovery c) := by
  unfold State.afterRecovery
  split
  · exact bindingLaw_same hs (startBeat_same ..).2.2.1 (startBeat_same ..).1 (startBeat_same ..).2.2.2
  · exact arbitrate_bindingLaw (bindingLaw_same (t := s.chanState c .idle) hs rfl rfl rfl)

theorem settleChannel_bindingLaw {s : State} {c : Fin 4} {copy : BeatCopy} (hs : BindingLaw s) :
    BindingLaw (s.settleChannel c copy) := by
  unfold State.settleChannel
  repeat' split
  · exact bindingLaw_same (t := s.chanState c .offline) hs rfl rfl rfl
  · exact afterRecovery_bindingLaw hs
  · exact bindingLaw_same (t := s.chanState c (.recovery copy)) hs rfl rfl rfl

/-- The order in which a context ends and its slot's count falls does not matter to the law. -/
theorem endDone_bindingLaw {s : State} {id : CtxId} {r : Request} {w : WindowRef} {st : Status} {d : DoneRecord}
    (hs : BindingLaw s) (h : view (s.ctxAt id) = some (r, some w)) :
    BindingLaw ((s.lowerCount w.slot).putCtx id (some ⟨r, .done st d⟩)) := by
  refine bindingLaw_same (release_counts (x := some ⟨r, .done st d⟩) hs h rfl ?_) rfl rfl rfl
  intro q y e
  simp only [view, Option.map_some, Option.some.injEq, Prod.mk.injEq] at e
  rw [← e.1]
  exact (sized_iff s).1 hs.2.2.2 id r (some w) h

theorem sweepOne_bindingLaw {s : State} {id : CtxId} (hs : BindingLaw s) : BindingLaw (s.sweepOne id) := by
  unfold State.sweepOne
  split
  · rename_i r b stamp passes hc
    exact drainCheck_bindingLaw (endWithFault_bindingLaw (endDone_bindingLaw (w := b.window) hs (by rw [hc]; rfl)))
  all_goals exact hs

theorem sweep_bindingLaw {s : State} {c : Fin 4} (hs : BindingLaw s) : BindingLaw (s.sweep c) := by
  unfold State.sweep
  split
  · exact foldl_inv (fun _ _ h => sweepOne_bindingLaw h) _ _ hs
  all_goals exact hs

theorem planEnds_bindingLaw {s : State} {c : Fin 4} {copy : BeatCopy} {id : CtxId} {r : Request} {b : Binding}
    {o : BeatOutcome} (hs : BindingLaw s) (h : view (s.ctxAt id) = some (r, some b.window)) :
    BindingLaw (s.planEnds c copy id r b o) := by
  have rest : ∀ u : State, BindingLaw u → BindingLaw (((u.settleChannel c copy).drainCheck).sweep c) :=
    fun u hu => sweep_bindingLaw (drainCheck_bindingLaw (settleChannel_bindingLaw hu))
  have done : ∀ st d, BindingLaw (((s.lowerCount b.window.slot).clearOnBus c).putCtx id (some ⟨r, .done st d⟩)) :=
    fun st d => bindingLaw_same (endDone_bindingLaw (st := st) (d := d) hs h) rfl rfl rfl
  cases o
  · exact rest _ (bindingLaw_same (done .ok (.bound b)) rfl rfl rfl)
  · exact rest _ (endWithFault_bindingLaw (done ..))
  · exact rest _ (endWithFault_bindingLaw (done ..))

theorem freeAbandoned_bindingLaw {s : State} {c : Fin 4} {id : CtxId} {r : Request} {b : Binding} (hs : BindingLaw s)
    (h : view (s.ctxAt id) = some (r, some b.window)) : BindingLaw (s.freeAbandoned c id b) :=
  bindingLaw_same (release_counts (x := none) hs h rfl (by rintro q y e; cases e)) rfl rfl rfl

theorem portCheck_bindingLaw {s : State} {p : Fin 4} (hs : BindingLaw s) : BindingLaw (s.portCheck p) :=
  bindingLaw_same hs (portCheck_tables ..).1 (portCheck_tables ..).2.2 (portCheck_tables ..).2.1

theorem beatEnd_bindingLaw {s : State} {c : Fin 4} {copy : BeatCopy} {o : BeatOutcome} {cd : Word} (hs : BindingLaw s) :
    BindingLaw (s.beatEnd c copy o cd) := by
  unfold State.beatEnd
  split
  · exact hs
  · rename_i id _
    split
    · rename_i r b stamp ab hc
      have hs1 : BindingLaw (s.endBeatLines c o) := bindingLaw_same (t := s.endBeatLines c o) hs rfl rfl rfl
      have hd : view ((s.endBeatLines c o).ctxAt id) = some (r, some b.window) := by
        show view (s.ctxAt id) = _
        rw [hc]
        rfl
      dsimp only
      split
      · refine endWait_keeps (portCheck_bindingLaw (sweep_bindingLaw (drainCheck_bindingLaw (settleChannel_bindingLaw
          (freeAbandoned_bindingLaw hs1 hd))))) (reinitialise_bindingLaw _ _)
      · cases o
        · dsimp only
          split
          · exact settleChannel_bindingLaw (putCtx_sameView hs1 (by rw [hd]; rfl))
          · exact planEnds_bindingLaw (b := b.afterBeat cd) hs1 hd
        · exact planEnds_bindingLaw hs1 hd
        · exact planEnds_bindingLaw hs1 hd
    all_goals exact hs

theorem recoveryEnds_bindingLaw {s : State} {c : Fin 4} (hs : BindingLaw s) : BindingLaw (s.recoveryEnds c) := by
  unfold State.recoveryEnds
  split
  · exact afterRecovery_bindingLaw hs
  · split
    · rename_i r b stamp hc
      refine endWait_keeps (portCheck_bindingLaw (drainCheck_bindingLaw (afterRecovery_bindingLaw
        (freeAbandoned_bindingLaw (r := r) hs (by rw [hc]; rfl))))) (reinitialise_bindingLaw _ _)
    all_goals exact afterRecovery_bindingLaw hs

theorem none_sized : ViewSized (view none) := by
  rintro q y e
  cases e

theorem freeHeld_bindingLaw {s : State} {id : CtxId} (hs : BindingLaw s) : BindingLaw (s.freeHeld id) := by
  unfold State.freeHeld
  split
  · rename_i hc; exact putCtx_unnamed hs (by rw [hc]; rfl) rfl none_sized
  · exact hs

theorem freeBound_bindingLaw {s : State} {id : CtxId} (hs : BindingLaw s) : BindingLaw (s.freeBound id) := by
  unfold State.freeBound
  split
  · rename_i r b m n hc
    exact drainCheck_bindingLaw (release_counts (r := r) (w := b.window) hs (by rw [hc]; rfl) rfl none_sized)
  · exact hs

theorem freeDone_bindingLaw {s : State} {id : CtxId} (hs : BindingLaw s) : BindingLaw (s.freeDone id) := by
  unfold State.freeDone
  split
  · rename_i hc; exact putCtx_unnamed hs (by rw [hc]; rfl) rfl none_sized
  · exact hs

theorem markAbandoned_bindingLaw {s : State} {id : CtxId} (hs : BindingLaw s) : BindingLaw (s.markAbandoned id) := by
  unfold State.markAbandoned
  split
  · rename_i hc; exact putCtx_sameView hs (by rw [hc]; rfl)
  · exact hs

theorem resetAllCtx_bindingLaw {s : State} {id : CtxId} (hs : BindingLaw s) : BindingLaw (s.resetAllCtx id) := by
  unfold State.resetAllCtx
  split
  · rename_i r b m n hc
    exact release_counts (r := r) (w := b.window) hs (by rw [hc]; rfl) rfl none_sized
  · rename_i hc; exact putCtx_sameView hs (by rw [hc]; rfl)
  · rename_i hc; exact putCtx_unnamed hs (by rw [hc]; rfl) rfl none_sized
  · rename_i hc; exact putCtx_unnamed hs (by rw [hc]; rfl) rfl none_sized
  · exact hs

theorem putPort_bindingLaw {s : State} {p : Fin 4} {x : PortUnit} (hs : BindingLaw s) : BindingLaw (s.putPort p x) :=
  bindingLaw_same hs rfl rfl rfl

theorem putFault_bindingLaw {s : State} {p : Fin 4} {x : Option FaultRecord} (hs : BindingLaw s) :
    BindingLaw (s.putFault p x) := bindingLaw_same hs rfl rfl rfl

theorem dropPort_bindingLaw {s t : State} {p : Fin 4} (hs : BindingLaw s) (h : t.changeSet = s.changeSet) :
    BindingLaw (s.putChangeSet (t.changeSet.dropPort p)) := by
  rw [h]
  exact bindingLaw_congr hs (fun _ => rfl) (fun _ => rfl) rfl rfl rfl

/-- The start of a port reset keeps the law, a set COMMITTING or not (R54). -/
theorem startPortReset_bindingLaw {s : State} {p : Fin 4} (hs : BindingLaw s) : BindingLaw (s.startPortReset p) := by
  unfold State.startPortReset
  dsimp only
  refine putFault_bindingLaw (foldl_inv (f := State.markAbandoned) (fun _ _ h => markAbandoned_bindingLaw h) (portIds p) _
    (putPort_bindingLaw (foldl_inv (f := State.freeDone) (fun _ _ h => freeDone_bindingLaw h) (portIds p) _
      (foldl_inv (f := State.freeBound) (fun _ _ h => freeBound_bindingLaw h) (portIds p) _ (dropPort_bindingLaw
        (foldl_inv (f := State.freeHeld) (fun _ _ h => freeHeld_bindingLaw h) (portIds p) _ (putPort_bindingLaw hs)) ?_)))))
  exact (foldl_keeps State.changeSet (fun _ => True) (fun _ _ _ => trivial) (fun u x _ => (freeHeld_keeps u x).2.2.2.1) _ _
    trivial).symm

/-- The take of a head that is DONE keeps the law (R53). -/
theorem takeHead_bindingLaw {s : State} {p : Fin 4} (hq : QueueLaw s) (hs : BindingLaw s) : BindingLaw (s.takeHead p) := by
  unfold State.takeHead
  split
  · exact hs
  · rename_i t rest e
    obtain ⟨r, st, d, h⟩ := ((hq p).2 t).1 (by rw [e]; exact List.mem_cons_self)
    exact putPort_bindingLaw (putCtx_unnamed hs (by rw [h]; rfl) rfl none_sized)

end Sys2Proof.Machine
end

