-- ==== Sys2Proof/Laws/Commands.lean ====
section
/-! SUPPORT. How a command reaches its owner and how it is answered, and the command at the front of the queue. -/

namespace Sys2Proof.Machine

theorem handed_of {s : State} {code : CommandCode} {p : List Byte} (h : Dispatched code p s) : s.handed code = some p := by
  simp only [Dispatched] at h
  simp [State.handed, h]

/-- The owner of a dispatched command takes it with its payload (R169). -/
theorem own_of {s : State} {code : CommandCode} {p : List Byte} (h : Dispatched code p s) (f : List Byte → State) :
    s.own code f = f p := by
  unfold State.own
  rw [handed_of h]

theorem dispatched_of {s : State} {code : CommandCode} {p : List Byte} (h : s.handed code = some p) : Dispatched code p s := by
  unfold State.handed at h
  split at h
  · rename_i x hx
    split at h
    · rename_i hc
      obtain ⟨c, q, t⟩ := x
      obtain ⟨rfl, rfl⟩ := hc
      cases h
      exact hx
    · cases h
  · cases h

/-- A command's own event is either the event of its owner, or does not take place (R169; LOG 3). -/
theorem own_cases (s : State) (code : CommandCode) (f : List Byte → State) :
    s.own code f = s ∨ ∃ p, Dispatched code p s ∧ s.own code f = f p := by
  unfold State.own
  split
  · rename_i p h
    exact .inr ⟨p, dispatched_of h, rfl⟩
  · exact .inl rfl

/-- What every command's own event keeps if its owner keeps it. -/
theorem own_keeps {P : State → Prop} {s : State} (code : CommandCode) {f : List Byte → State} (hs : P s)
    (h : ∀ p, Dispatched code p s → P (f p)) : P (s.own code f) := by
  rcases own_cases s code f with e | ⟨p, hp, e⟩
  · rw [e]
    exact hs
  · rw [e]
    exact h p hp

theorem answer_eq (s : State) (st : AnswerStatus) (payload : List Byte) (lineHeld : Bool) :
    s.answer st payload lineHeld = answeredWith s st payload lineHeld := rfl

theorem badField_eq (s : State) (n : Nat) : s.badField n = answeredWith s .badField [byteOf n] false := rfl

theorem noBeat_iff (s : State) : s.noBeat = true ↔ ∀ c copy stage, (s.chanAt c).state ≠ .beat copy stage := by
  have one : ∀ x : ChanState, x.code ≠ 1 ↔ ∀ copy stage, x ≠ .beat copy stage := by
    intro x
    cases x <;> simp [ChanState.code]
  simp only [State.noBeat, List.all_eq_true, mem_fours, forall_const, bne_iff_ne, one]

/-- With no command being executed, no RESET_PORT waits. -/
theorem noResetWaitsFor_of {s : State} (h : ∀ x, s.link.state ≠ .executing x) (p : Fin 4) : NoResetWaitsFor s p :=
  fun _ hw => h _ hw.1

theorem awaitsReset_of {s : State} {p : Fin 4} {payload : List Byte} (h : ResetWaits s p payload) : s.awaitsReset p = true := by
  simp [State.awaitsReset, h.1, h.2]

theorem awaitsReset_not {s : State} {p : Fin 4} (h : NoResetWaitsFor s p) : s.awaitsReset p = false := by
  rw [← Bool.not_eq_true]
  intro hw
  unfold State.awaitsReset at hw
  split at hw
  · rename_i x hx
    obtain ⟨code, payload, taken⟩ := x
    simp only [Bool.and_eq_true, beq_iff_eq] at hw
    obtain ⟨⟨rfl, rfl⟩, h3⟩ := hw
    exact h payload ⟨hx, h3⟩
  all_goals cases hw

/-- When a port may leave IN_RESET (R56). -/
theorem mayLeave_iff (s : State) (p : Fin 4) : s.mayLeave p = true ↔ (s.portAt p).state = .inReset ∧
    (s.portAt p).prstn = false ∧ (∀ tag, s.ctxAt ⟨p, tag⟩ = none) ∧ s.startUp.state = .ready := by
  simp [State.mayLeave, State.portEmpty_iff, and_assoc]

/-- A command at the end of a period that ends the beat is that beat end (R83 to R86). -/
theorem exec_endsBeat {s : State} {c : Fin 4} {copy : BeatCopy} {e : Instr} {o : BeatOutcome} {cd : Word}
    (h : EndsBeat s c copy e o cd) : exec e s = .next (s.beatEnd c copy o cd) := by
  cases h with
  | ignoreNormal crdy cd st pol => simp only [exec, execMinimumStrobeEnd, st, pol]; rfl
  | ignoreError crdy cd st pol => simp only [exec, execMinimumStrobeEnd, st, pol]; rfl
  | readyNormal cd st pol => simp only [exec, execMinimumStrobeEnd, st, pol]; rfl
  | readyError cd st pol => simp only [exec, execMinimumStrobeEnd, st, pol]; rfl
  | extendedNormal n cd st => simp only [exec, execExtensionPeriodEnd, st]; rfl
  | extendedError n cd st => simp only [exec, execExtensionPeriodEnd, st]; rfl
  | lastSampleLow n cerr cd st last =>
    simp only [exec, execExtensionPeriodEnd, st]
    rw [if_neg (by simp), if_pos last]
  | timeout n st last =>
    simp only [exec, execBeatTimeout, st]
    rw [if_pos last]

/-- A step from an empty queue idles. -/
theorem step_empty {s : State} (h : s.pending = []) : step s = .next s := by
  unfold step
  rw [h]

/-- A step from a queue carries out the command at its front on the rest. -/
theorem step_cons {s : State} {c : Instr} {rest : List Instr} (h : s.pending = c :: rest) :
    step s = exec c { s with pending := rest } := by
  unfold step
  rw [h]

/-- What every command keeps, every step keeps, if it does not speak of the queue. -/
theorem step_keeps {P : State → Prop} (queue : ∀ (s : State) (l : List Instr), P s → P { s with pending := l })
    (h : ∀ (c : Instr) (s t : State), P s → exec c s = .next t → P t) {s t : State} (hs : P s) (ht : step s = .next t) : P t := by
  cases hp : s.pending with
  | nil =>
    rw [step_empty hp] at ht
    cases ht
    exact hs
  | cons c rest =>
    rw [step_cons hp] at ht
    exact h c _ t (queue s rest hs) ht

end Sys2Proof.Machine
end

