-- ==== Sys2Proof/Laws/Plan.lean ====
section
/-! SUPPORT. What one lane of a capture writes, and how plans of the three kinds relate. -/

namespace Sys2Proof.Machine

/-- One lane captured: the byte it carries becomes the read data byte of its target address, every other byte stays (R65, R68). -/
theorem captureLane_look (b : Beat) (target : TargetAddr) (cd : Word) (d : Table (Option Byte) 4) (L : Nat) (k : Fin 4) :
    (captureLane b target cd d L).look k =
      if b.lanes.getLsbD L = true ∧ b.unit.toNat + L - target.toNat = k.1 then some (byteOfWord cd L) else d.look k := by
  unfold captureLane
  have e0 : laneByte b target L = b.unit.toNat + L - target.toNat := rfl
  by_cases h : b.lanes.getLsbD L = true
  · rw [if_pos h]
    by_cases h1 : laneByte b target L < 4
    · rw [dif_pos h1, Table.look_put]
      by_cases h2 : b.unit.toNat + L - target.toNat = k.1
      · rw [if_pos (Fin.ext h2.symm), if_pos ⟨h, h2⟩]
      · rw [if_neg (fun e => h2 (congrArg Fin.val e).symm), if_neg (fun e => h2 e.2)]
    · rw [dif_neg h1, if_neg (by omega)]
  · rw [if_neg h, if_neg (fun e => h e.1)]

theorem planFor_length_swap (n t W : Nat) : (planFor .swap n t W).length = 2 * (planFor .read n t W).length := by
  simp [planFor, planPhase, two_mul]

theorem planFor_length (kind : AccessKind) (n t W : Nat) (h : kind ≠ .swap) :
    (planFor kind n t W).length = unitCount n t W := by
  cases kind
  · simp [planFor, planPhase]
  · simp [planFor, planPhase]
  · exact absurd rfl h

end Sys2Proof.Machine
end

