-- ==== Sys2Proof/Laws/ReResolve.lean ====
section
/-! SUPPORT. What re-resolution keeps of every context, that it empties the hold list whatever was held, and that under the overlap law it resolves in hold order as the spec says. -/

namespace Sys2Proof.Machine

/-- The request a context carries. -/
def requestAt (s : State) (k : CtxId) : Option Request := (s.ctxAt k).map Context.request

theorem requestAt_putCtx {s : State} {id : CtxId} {x : Option Context} (h : requestAt s id = x.map Context.request) (k : CtxId) :
   requestAt (s.putCtx id x) k = requestAt s k := by
  by_cases e : k = id
  · subst e; unfold requestAt; rw [State.ctxAt_putCtx_same]; exact h.symm
  · unfold requestAt; rw [State.ctxAt_putCtx_ne _ _ _ _ e]

theorem requestAt_same {s t : State} (hc : t.ctxs = s.ctxs) (k : CtxId) : requestAt t k = requestAt s k := by
  have : t.ctxAt k = s.ctxAt k := congrArg (Table.look · k.idx) hc
  unfold requestAt
  rw [this]

theorem passOver_req (c : Fin 4) (x : Option Context) : (passOver c x).map Context.request = x.map Context.request := by
  cases x with
  | none => rfl
  | some x => 
    obtain ⟨r, st⟩ := x
    cases st with
    | bound b m n =>
      unfold passOver
      dsimp only
      split <;> rfl
    | held => rfl
    | onBus b m n => rfl
    | done a b => rfl

theorem grant_req (s : State) (c : Fin 4) (ch : Choice) (k : CtxId) : requestAt (s.grant c ch) k = requestAt s k := by
  unfold State.grant
  split
  · rename_i r b stamp passes hc
    refine (requestAt_same (startBeat_same ..).2.2.1 k).trans ?_
    have h1 : ∀ k, requestAt (s.mapCtxs (passOver c)) k = requestAt s k := by
      intro k
      unfold requestAt
      rw [State.ctxAt_mapCtxs]
      exact passOver_req _ _
    refine Eq.trans (requestAt_putCtx (s := s.mapCtxs (passOver c)) ?_ k) (h1 k)
    rw [h1]; unfold requestAt; rw [hc]; rfl
  all_goals rfl

theorem arbitrate_req (s : State) (c : Fin 4) (k : CtxId) : requestAt (s.arbitrate c) k = requestAt s k := by
  unfold State.arbitrate
  split
  · split
    · exact grant_req ..
    · rfl
  all_goals rfl

theorem resolveInto_req {s : State} {id : CtxId} {r : Request} (h : s.ctxAt id = some ⟨r, .held⟩) (k : CtxId) :
    requestAt (s.resolveInto id r) k = requestAt s k := by
  have hr : ∀ st : CtxState, requestAt s id = (some (⟨r, st⟩ : Context)).map Context.request := by
    intro st
    unfold requestAt; rw [h]; rfl
  have fault : ∀ (st : Status) (d : DoneRecord) (f : FaultRecord), requestAt (s.endWithFault id r st d f) k = requestAt s k := by
    intro st d f
    exact (requestAt_same (endWithFault_set ..).2.2 k).trans (requestAt_putCtx (hr _) k)
  unfold State.resolveInto
  cases s.resolve id.port r with
  | held => exact requestAt_putCtx (hr _) k
  | bound b => exact (arbitrate_req ..).trans (requestAt_putCtx (hr _) k)
  | noWindow => exact fault ..
  | span => exact fault ..
  | denied => exact fault ..
  | channelOffline => exact fault ..

/-- Re-resolution of a hold list once no set is COMMITTING: it empties the list, keeps every context and its request, and leaves none of the list HELD (R36, R131). -/
theorem reResolve_all {s : State} {l : List CtxId} (hc : s.changeSet.state ≠ .committing) (hl : s.changeSet.holdList = l) :
    (s.reResolve l).changeSet = { s.changeSet with holdList := [] } ∧ (∀ k, requestAt (s.reResolve l) k = requestAt s k) ∧
      ∀ k, (k ∈ l ∨ ¬ HeldAt s k) → ¬ HeldAt (s.reResolve l) k := by
  induction l generalizing s with
  | nil => 
    refine ⟨?_, fun _ => rfl, fun k h => h.elim (by simp) id⟩
    show s.changeSet = _
    rw [← hl]
  | cons id rest ih =>
    have skip : ∀ (u : State), u = s.putChangeSet { s.changeSet with holdList := rest } → ¬ HeldAt s id →
      (u.reResolve rest).changeSet = { s.changeSet with holdList := [] } ∧ (∀ k, requestAt (u.reResolve rest) k = requestAt s k) ∧
      ∀ k, (k ∈ id :: rest ∨ ¬ HeldAt s k) → ¬ HeldAt (u.reResolve rest) k := by
      rintro u rfl hn
      obtain ⟨a, b, c⟩ := ih (s := s.putChangeSet { s.changeSet with holdList := rest }) hc rfl
      refine ⟨a, b, fun k hk => c k ?_⟩
      rcases hk with hk | hk
      · rcases List.mem_cons.1 hk with rfl | hk
        · exact .inr hn
        · exact .inl hk
      · exact .inr hk
    simp only [State.reResolve]
    split
    · rename_i r hr
      set u := s.putChangeSet { s.changeSet with holdList := rest } with hu
      have hcu : u.changeSet.state ≠ .committing := hc
      obtain ⟨p1, p2, p3⟩ := settle_held_else (s := u) (id := id) (r := r) (resolve_not_held hcu id.port r)
      change (u.resolveInto id r).changeSet = _ at p1
      obtain ⟨a, b, c⟩ := ih (s := u.resolveInto id r) (by rw [p1]; exact hcu) (by rw [p1]; rfl)
      refine ⟨by rw [a, p1]; rfl, fun k => by rw [b, resolveInto_req hr]; rfl, fun k hk => c k ?_⟩
      by_cases e : k = id
      · subst e; exact .inr p2
      · rcases hk with hk | hk
        · rcases List.mem_cons.1 hk with rfl | hk
          · exact absurd rfl e
          · exact .inl hk
        · exact .inr (fun x => hk ((p3 k e).1 x))
    all_goals
      rename_i hx
      refine skip _ rfl (not_held_of (s := s) hx (by simp))

theorem notHeld_request {s : State} {id : CtxId} {r : Request} (h1 : requestAt s id = some r) (h2 : ¬ HeldAt s id) :
    ∃ st, s.ctxAt id = some ⟨r, st⟩ ∧ st ≠ .held := by
  unfold requestAt at h1
  cases hx : s.ctxAt id with
  | none => rw [hx] at h1; cases h1
  | some x =>
    obtain ⟨q, st⟩ := x
    rw [hx] at h1
    cases h1
    refine ⟨st, rfl, ?_⟩
    rintro rfl
    exact h2 ⟨_, hx⟩

/-! ### The outcomes, under the overlap law -/

/-- A context resolved while no set is COMMITTING and no two windows of equal rank overlap ends as the spec says (R29 to R36). -/
theorem resolveInto_resolved {s : State} (h : NoOverlap s) (hc : s.changeSet.state ≠ .committing) (id : CtxId) (r : Request) :
    Resolved s id r (s.resolveInto id r) := by
  have faults : ∀ st d k w, FaultsAs s id.port r st d k w →
      Resolved s id r (s.endWithFault id r st d (faultOf k id r w none)) := by
    intro st d k w hf
    have := Resolved.faults (id := id) st d k w hf
    unfold State.endWithFault
    rw [recordFault_eq]
    exact this
  have hh : s.footprintHit r = false := not_footprintHit fun x => hc x.1
  unfold State.resolveInto State.resolve
  rw [hh]
  simp only [Bool.false_eq_true, if_false]
  rcases select_cases h r.address.toNat with ⟨e, hn⟩ | ⟨i, e, hi⟩
  · rw [e]
    exact faults _ _ _ _ (.noWindow hn)
  rw [e]
  simp only
  by_cases hsp : s.spanOk i r = true
  · have whole : SelectsWhole s r i := fun k hk => select_selects h ((spanOk_iff ..).1 hsp k hk)
    rw [if_neg (by rw [hsp]; simp)]
    by_cases hg : granted ((s.slotAt i).window.rights.look id.port) (s.slotAt i).window.swapAllowed r.kind = true
    · have ha := (granted_iff ..).1 hg
      rw [if_neg (by rw [hg]; simp)]
      split
      · rename_i ho
        exact faults _ _ _ _ (.channelOffline i whole ha ((isOffline_iff _).1 ho))
      · rename_i ho
        rw [isOffline_iff] at ho
        rw [bindingFor_eq]
        exact .binds i _ ⟨fun x => hc x.1, whole, ha, ho⟩ fun k m hm => nextStamp_gt hm
    · rw [if_pos (by simpa using hg)]
      exact faults _ _ _ _ (.denied i whole fun x => hg ((granted_iff ..).2 x))
  · rw [if_pos (by simpa using hsp)]
    refine faults _ _ _ _ (.span i hi ?_)
    rw [spanOk_iff] at hsp
    push Not at hsp
    obtain ⟨k, hk, hne⟩ := hsp
    refine ⟨k, hk, ?_⟩
    rcases select_cases h (r.address.toNat + k) with ⟨_, hn⟩ | ⟨j, ej, hj⟩
    · exact .inl hn
    · exact .inr ⟨j, fun x => hne (x ▸ ej), hj⟩

theorem noOverlap_kept {s t : State} (k : s.TableKept t) (h : NoOverlap s) : NoOverlap t := by
  intro i j hij hi hj
  rw [k.state] at hi hj
  rw [k.window, k.window]
  exact h i j hij hi hj

/-- A hold list of HELD contexts, resolved again while no set is COMMITTING, is resolved in hold order (R36, R131). -/
theorem reResolve_inOrder {s : State} {l : List CtxId} (h : NoOverlap s) (hc : s.changeSet.state ≠ .committing)
    (nd : l.Nodup) (held : ∀ id ∈ l, HeldAt s id) : ResolvedInOrder s l (s.reResolve l) := by
  induction l generalizing s with
  | nil => exact .done s
  | cons id rest ih =>
    obtain ⟨r, hr⟩ := held id (by simp)
    obtain ⟨fresh, nd⟩ := List.nodup_cons.1 nd
    let u := s.putChangeSet { s.changeSet with holdList := rest }
    have hu : NoOverlap u := h
    have cu : u.changeSet.state ≠ .committing := hc
    have e : s.reResolve (id :: rest) = (u.resolveInto id r).reResolve rest := by
      simp only [State.reResolve]
      rw [show (s.putChangeSet { s.changeSet with holdList := rest }).ctxAt id = some ⟨r, .held⟩ from hr]
    rw [e]
    obtain ⟨p1, _, p3⟩ := settle_held_else (s := u) (id := id) (r := r) (resolve_not_held cu id.port r)
    refine .next s _ _ id rest r hr (resolveInto_resolved hu cu id r) (ih ?_ ?_ nd ?_)
    · exact noOverlap_kept (resolveInto_kept ..) hu
    · rw [(resolveInto_kept u id r).setState]; exact cu
    · intro k hk
      have ne : k ≠ id := fun x => fresh (x ▸ hk)
      exact (p3 k ne).2 (held k (List.mem_cons_of_mem _ hk))

end Sys2Proof.Machine
end

