-- ==== Sys2Proof/Laws/PortResetSteps.lean ====
section
/-! SUPPORT. A port reset while a set is COMMITTING: that an apply inside it leaves DONE and ON_BUS contexts alone, its steps in order, and that freeing the last blocking context applies the set. -/

namespace Sys2Proof.Machine

/-! ### What re-resolution and apply leave alone -/

theorem passOver_settled {c : Fin 4} {x : Option Context} (h : ¬ HeldOrBound x) : passOver c x = x := by
  cases x with
  | none => rfl
  | some x =>
    obtain ⟨r, st⟩ := x
    cases st with
    | bound b n m => exact absurd trivial h
    | held => rfl
    | onBus b n m => rfl
    | done a b => rfl

theorem arbitrate_settled {s : State} {k : CtxId} (h : ¬ HeldOrBound (s.ctxAt k)) (c : Fin 4) :
    (s.arbitrate c).ctxAt k = s.ctxAt k := by
  have grant : ∀ ch, (s.grant c ch).ctxAt k = s.ctxAt k := by
    intro ch
    unfold State.grant
    split
    · rename_i r b stamp passes hc
      have ne : k ≠ ch.id := by
        rintro rfl
        rw [hc] at h
        exact h trivial
      refine (congrArg (Table.look · k.idx) (startBeat_same ..).2.2.1).trans ?_
      refine (State.ctxAt_putCtx_ne (s.mapCtxs (passOver c)) _ _ _ ne).trans ?_
      rw [State.ctxAt_mapCtxs, passOver_settled h]
    all_goals rfl
  unfold State.arbitrate
  split
  · split
    · exact grant _
    · rfl
  all_goals rfl

theorem settle_settled {s : State} {id k : CtxId} (ne : k ≠ id) (h : ¬ HeldOrBound (s.ctxAt k)) (r : Request) (v : Verdict) :
    (s.settle id r v).ctxAt k = s.ctxAt k := by
  have fault : ∀ (st : Status) (d : DoneRecord) (f : FaultRecord), (s.endWithFault id r st d f).ctxAt k = s.ctxAt k :=
    fun st d f => (congrArg (Table.look · k.idx) (endWithFault_set ..).2.2).trans (State.ctxAt_putCtx_ne _ _ _ _ ne)
  cases v with
  | held => exact State.ctxAt_putCtx_ne _ _ _ _ ne
  | bound b =>
    have one : ((s.putCtx id (some ⟨r, .bound b (s.nextStamp b.channel) 0⟩)).raiseCount b.window.slot).ctxAt k = s.ctxAt k :=
      State.ctxAt_putCtx_ne _ _ _ _ ne
    exact (arbitrate_settled (by rw [one]; exact h) _).trans one
  | noWindow => exact fault ..
  | span => exact fault ..
  | denied => exact fault ..
  | channelOffline => exact fault ..

/-- Re-resolution touches no context that is DONE or ON_BUS, and makes none. -/
theorem reResolve_settled {s : State} {l : List CtxId} {k : CtxId} (h : ¬ HeldOrBound (s.ctxAt k)) :
    (s.reResolve l).ctxAt k = s.ctxAt k := by
  induction l generalizing s with
  | nil => rfl
  | cons id rest ih =>
    simp only [State.reResolve]
    split
    · rename_i r hr
      have ne : k ≠ id := by
        rintro rfl
        rw [State.ctxAt_putChangeSet] at hr
        rw [hr] at h
        exact h trivial
      have one := settle_settled (s := s.putChangeSet { s.changeSet with holdList := rest }) ne h r
        ((s.putChangeSet { s.changeSet with holdList := rest }).resolve id.port r)
      exact (ih (by unfold State.resolveInto; rw [one]; exact h)).trans one
    all_goals exact ih (s := s.putChangeSet { s.changeSet with holdList := rest }) h

theorem startBeat_attention (s : State) (c : Fin 4) : (s.startBeat c).attention = s.attention := by
  unfold State.startBeat
  repeat' split
  all_goals rfl

theorem arbitrate_attention (s : State) (c : Fin 4) : (s.arbitrate c).attention = s.attention := by
  unfold State.arbitrate
  split
  · split
    · unfold State.grant
      split
      · exact startBeat_attention ..
      all_goals rfl
    · rfl
  all_goals rfl

theorem settle_attention (s : State) (id : CtxId) (r : Request) (v : Verdict) : (s.settle id r v).attention = s.attention := by
  have fault : ∀ (st : Status) (d : DoneRecord) (f : FaultRecord), (s.endWithFault id r st d f).attention = s.attention := by
    intro st d f
    unfold State.endWithFault
    rw [recordFault_eq]
    rfl
  cases v with
  | held => rfl
  | bound b => exact arbitrate_attention ..
  | noWindow => exact fault ..
  | span => exact fault ..
  | denied => exact fault ..
  | channelOffline => exact fault ..

theorem reResolve_attention (s : State) (l : List CtxId) : (s.reResolve l).attention = s.attention := by
  induction l generalizing s with
  | nil => rfl
  | cons id rest ih =>
    simp only [State.reResolve]
    split
    · exact (ih _).trans (settle_attention ..)
    all_goals exact ih _

/-- What an apply leaves of the set, the latch and the contexts, whatever was held (R130, R131). -/
theorem applyNow_spec (s : State) : s.applyNow.changeSet = emptySet ∧ s.applyNow.attention.commitApplied = true ∧
    (∀ k, ¬ HeldAt s k → ¬ HeldAt s.applyNow k) ∧ ∀ k, ¬ HeldOrBound (s.ctxAt k) → s.applyNow.ctxAt k = s.ctxAt k := by
  have ctx : ∀ k, s.beforeReResolve.ctxAt k = s.ctxAt k := fun k =>
    congrArg (Table.look · k.idx) (applyEntries_same s s.changeSet.entries).2.1
  have hold : s.beforeReResolve.changeSet = closedSet s.changeSet.holdList := by
    unfold State.beforeReResolve State.closeSet
    show closedSet (s.applyEntries s.changeSet.entries).changeSet.holdList = _
    rw [(applyEntries_same ..).2.2.2.1]
  obtain ⟨a, _, c⟩ := reResolve_all (s := s.beforeReResolve) (l := s.changeSet.holdList) (by rw [hold]; simp [closedSet])
    (by rw [hold]; rfl)
  rw [applyNow_eq]
  refine ⟨by rw [a, hold]; rfl, by rw [reResolve_attention]; rfl, fun k hk => c k (.inr ?_), fun k hk => ?_⟩
  · rintro ⟨r, hr⟩
    exact hk ⟨r, by rw [← ctx k]; exact hr⟩
  · rw [reResolve_settled (by rw [ctx k]; exact hk), ctx k]

theorem drainCheck_cases (s : State) : s.drainCheck = s ∨ s.drainCheck = s.applyNow := by
  unfold State.drainCheck
  split
  · exact .inr rfl
  · exact .inl rfl

/-! ### Step 3 of a port reset -/

theorem freeBound_cases (s : State) (id : CtxId) :
    (∃ r b n m, s.ctxAt id = some ⟨r, .bound b n m⟩ ∧ s.freeBound id = (s.freeBoundOnly id).drainCheck) ∨
      (∀ r b n m, s.ctxAt id ≠ some ⟨r, .bound b n m⟩) ∧ s.freeBound id = s := by
  cases hs : s.ctxAt id with
  | none => exact .inr ⟨by simp, by unfold State.freeBound; simp only [hs]⟩
  | some x =>
    obtain ⟨r, st⟩ := x
    cases st with
    | bound b n m => exact .inl ⟨r, b, n, m, rfl, by unfold State.freeBound State.freeBoundOnly; simp only [hs]⟩
    | held => exact .inr ⟨by simp, by unfold State.freeBound; simp only [hs]⟩
    | onBus b n m => exact .inr ⟨by simp, by unfold State.freeBound; simp only [hs]⟩
    | done d e => exact .inr ⟨by simp, by unfold State.freeBound; simp only [hs]⟩

/-- Freeing one BOUND context makes no context HELD and touches none that is DONE or ON_BUS. -/
theorem freeBound_settled (s : State) (id : CtxId) : (∀ k, ¬ HeldAt s k → ¬ HeldAt (s.freeBound id) k) ∧
    (∀ k, ¬ HeldOrBound (s.ctxAt k) → (s.freeBound id).ctxAt k = s.ctxAt k) ∧
      (¬ HeldAt s id → ¬ HeldOrBound ((s.freeBound id).ctxAt id)) := by
  rcases freeBound_cases s id with ⟨r, b, n, m, hc, e⟩ | ⟨hc, e⟩
  · have gone : (s.freeBoundOnly id).ctxAt id = none := by
      rw [freeBoundOnly_ctxAt, if_pos rfl, hc]; rfl
    have else_ : ∀ k, k ≠ id → (s.freeBoundOnly id).ctxAt k = s.ctxAt k := fun k hk => by rw [freeBoundOnly_ctxAt, if_neg hk]
    have notHeld : ∀ k, ¬ HeldAt s k → ¬ HeldAt (s.freeBoundOnly id) k := by
      rintro k hk ⟨q, hq⟩
      by_cases ek : k = id
      · subst ek; rw [gone] at hq; cases hq
      · exact hk ⟨q, by rw [← else_ k ek]; exact hq⟩
    have settled : ∀ k, ¬ HeldOrBound (s.ctxAt k) → (s.freeBoundOnly id).ctxAt k = s.ctxAt k := by
      intro k hk
      refine else_ k ?_
      rintro rfl
      rw [hc] at hk
      exact hk trivial
    rw [e]
    rcases drainCheck_cases (s.freeBoundOnly id) with d | d
    · rw [d]
      exact ⟨notHeld, settled, fun _ => by rw [gone]; exact fun x => x⟩
    · obtain ⟨_, _, a3, a4⟩ := applyNow_spec (s.freeBoundOnly id)
      rw [d]
      refine ⟨fun k hk => a3 k (notHeld k hk), fun k hk => ?_, fun _ => ?_⟩
      · rw [a4 k (by rw [settled k hk]; exact hk), settled k hk]
      · rw [a4 id (by rw [gone]; exact fun x => x), gone]
        exact fun x => x
  · rw [e]
    refine ⟨fun _ h => h, fun _ _ => rfl, fun hh => ?_⟩
    cases hs : s.ctxAt id with
    | none => exact fun x => x
    | some x =>
      obtain ⟨q, st⟩ := x
      cases st with
      | held => exact absurd ⟨q, hs⟩ hh
      | bound b n m => exact absurd hs (hc q b n m)
      | onBus b n m => exact fun x => x
      | done a b => exact fun x => x

theorem foldl_freeBound_settled {s : State} {l : List CtxId} (h : ∀ k ∈ l, ¬ HeldAt s k) :
    (∀ k, ¬ HeldOrBound (s.ctxAt k) → (l.foldl State.freeBound s).ctxAt k = s.ctxAt k) ∧
      ∀ k ∈ l, ¬ HeldOrBound ((l.foldl State.freeBound s).ctxAt k) := by
  induction l generalizing s with
  | nil => exact ⟨fun _ _ => rfl, fun k hk => by cases hk⟩
  | cons id l ih =>
    obtain ⟨a1, a2, a3⟩ := freeBound_settled s id
    obtain ⟨b1, b2⟩ := ih (s := s.freeBound id) fun k hk => a1 k (h k (List.mem_cons_of_mem _ hk))
    simp only [List.foldl_cons]
    refine ⟨fun k hk => (b1 k (by rw [a2 k hk]; exact hk)).trans (a2 k hk), fun k hk => ?_⟩
    rcases List.mem_cons.1 hk with rfl | hk
    · have := a3 (h k List.mem_cons_self)
      rw [b1 k this]
      exact this
    · exact b2 k hk

/-- Step 3 over a list of contexts is the freeing of its BOUND ones, each with its drain check (R54, R136). -/
theorem foldl_freeBound_leaves (s : State) (l : List CtxId) : BoundLeaves s l (l.foldl State.freeBound s) := by
  induction l generalizing s with
  | nil => exact .done s
  | cons k l ih =>
    simp only [List.foldl_cons]
    cases hs : s.ctxAt k with
    | none => 
      have e : s.freeBound k = s := by unfold State.freeBound; simp only [hs]
      rw [e]
      exact .other s _ k l (by simp [hs]) (ih s)
    | some x =>
      obtain ⟨q, st⟩ := x
      cases st with
      | bound b n m =>
        refine .freed s (s.freeBound k) _ k l q b n m hs ?_ (ih _)
        have e : s.freeBound k = ((s.putCtx k none).lowerCount b.window.slot).drainCheck := by unfold State.freeBound; simp only [hs]
        rw [e]
        rfl
      | held =>
        have e : s.freeBound k = s := by unfold State.freeBound; simp only [hs]
        rw [e]
        exact .other s _ k l (by simp [hs]) (ih s)
      | onBus b n m =>
        have e : s.freeBound k = s := by unfold State.freeBound; simp only [hs]
        rw [e]
        exact .other s _ k l (by simp [hs]) (ih s)
      | done a b =>
        have e : s.freeBound k = s := by unfold State.freeBound; simp only [hs]
        rw [e]
        exact .other s _ k l (by simp [hs]) (ih s)

/-- Where what blocks the set are BOUND contexts of the list, step 3 applies the set (R127, R136). -/
theorem foldl_freeBound_drains {s : State} {l : List CtxId} (hc : s.changeSet.state = .committing) (hw : s.startUp.state ≠ .waiting)
    (some_ : ∃ id, blocks s.changeSet.footprint (s.ctxAt id) = true)
    (all : ∀ id, blocks s.changeSet.footprint (s.ctxAt id) = true → id ∈ l ∧ ∃ r b n m, s.ctxAt id = some ⟨r, .bound b n m⟩) :
    (l.foldl State.freeBound s).changeSet = emptySet ∧ (l.foldl State.freeBound s).attention.commitApplied = true := by
  induction l generalizing s with
  | nil =>
    obtain ⟨id, h⟩ := some_
    cases (all id h).1
  | cons k l ih =>
    simp only [List.foldl_cons]
    rcases freeBound_cases s k with ⟨r, b, n, m, hk, e⟩ | ⟨hk, e⟩
    · have set : (s.freeBoundOnly k).changeSet = s.changeSet := (freeBoundOnly_keeps s k).2.2.1
      have up : (s.freeBoundOnly k).startUp = s.startUp := (freeBoundOnly_still s k).startUp
      have else_ : ∀ j, j ≠ k → (s.freeBoundOnly k).ctxAt j = s.ctxAt j := fun j hj => by rw [freeBoundOnly_ctxAt, if_neg hj]
      have gone : (s.freeBoundOnly k).ctxAt k = none := by rw [freeBoundOnly_ctxAt, if_pos rfl, hk]; rfl
      rw [e]
      by_cases more : ∃ id, blocks (s.freeBoundOnly k).changeSet.footprint ((s.freeBoundOnly k).ctxAt id) = true
      · obtain ⟨id, hid⟩ := more
        rw [drainCheck_blocked hid]
        refine ih (by rw [set]; exact hc) (by rw [up]; exact hw) ⟨id, hid⟩ fun j hj => ?_
        have ne : j ≠ k := by
          rintro rfl
          rw [gone] at hj
          cases hj
        rw [set, else_ j ne] at hj
        rw [else_ j ne]
        obtain ⟨hm, hb⟩ := all j hj
        exact ⟨(List.mem_cons.1 hm).resolve_left ne, hb⟩
      · have zero : (s.freeBoundOnly k).blockingCount = 0 := by
          unfold State.blockingCount
          rw [List.length_eq_zero_iff, List.filter_eq_nil_iff]
          exact fun id _ hid => more ⟨id, hid⟩
        have d : (s.freeBoundOnly k).drainCheck = (s.freeBoundOnly k).applyNow := by
          unfold State.drainCheck State.drainOn
          rw [if_pos]
          simp [set, hc, up, hw, zero]
        obtain ⟨a1, a2, _, _⟩ := applyNow_spec (s.freeBoundOnly k)
        rw [d, foldl_freeBound_quiet (.inl (by rw [a1]; simp [emptySet]))]
        rw [foldl_same State.changeSet (fun u id => (freeBoundOnly_keeps u id).2.2.1),
          foldl_same State.attention (fun u id => (freeBoundOnly_keeps u id).2.2.2.2)]
        exact ⟨a1, a2⟩
    · rw [e]
      refine ih hc hw some_ fun j hj => ?_
      obtain ⟨hm, r, b, n, m, hb⟩ := all j hj
      refine ⟨(List.mem_cons.1 hm).resolve_left ?_, r, b, n, m, hb⟩
      rintro rfl
      exact hk r b n m hb

/-! ### The start of a port reset -/

theorem resetHeld_not_held (s : State) (p : Fin 4) (k : CtxId) (hk : k ∈ portIds p) : ¬ HeldAt (s.resetHeld p) k := by
  rintro ⟨r, hr⟩
  rw [resetHeld_ctxAt, if_pos (mem_portIds.1 hk)] at hr
  cases hs : s.ctxAt k with
  | none => rw [hs] at hr; cases hr
  | some x => obtain ⟨q, st⟩ := x; rw [hs] at hr; cases st <;> cases hr

/-- A port reset goes through its steps in every state of the change set (R54, R136). -/
theorem startPortReset_steps (s : State) (p : Fin 4) : PortResetSteps s (s.startPortReset p) p (s.portAt p).prstn := by
  rw [startPortReset_eq]
  refine ⟨s.resetHeld p, portIds p, _, resetHeld_leaves s p, ⟨nodup_portIds p, fun id => mem_portIds⟩,
    foldl_freeBound_leaves _ _, resetEnd_ends fun tag => ?_⟩
  exact (foldl_freeBound_settled (resetHeld_not_held s p)).2 _ (mem_portIds.2 rfl)

/-- A port reset that frees the last blocking context applies the set in the event that starts it (R136). -/
theorem startPortReset_drains {s : State} {p : Fin 4} (h : ResetDrainsTheSet s p) :
    (s.startPortReset p).changeSet = emptySet ∧ (s.startPortReset p).attention.commitApplied = true := by
  obtain ⟨hc, hw, ⟨id, hid⟩, all⟩ := h
  have a := resetHeld_leaves s p
  have fp : (s.resetHeld p).changeSet.footprint = s.changeSet.footprint := by rw [a.set]
  have back : ∀ k, blocks s.changeSet.footprint ((s.resetHeld p).ctxAt k) = true →
      (s.resetHeld p).ctxAt k = s.ctxAt k := by
    intro k hk
    rw [resetHeld_ctxAt] at hk ⊢
    split
    · rename_i e
      rw [if_pos e] at hk
      cases hs : s.ctxAt k with
      | none => rfl
      | some x =>
        obtain ⟨q, st⟩ := x
        rw [hs] at hk
        cases st with
        | held => cases hk
        | bound b n m => rfl
        | onBus b n m => rfl
        | done a b => rfl
    · rfl
  have kept : ∀ k r b n m, s.ctxAt k = some ⟨r, .bound b n m⟩ → (s.resetHeld p).ctxAt k = s.ctxAt k :=
    fun k r b n m hk => a.contexts k fun _ q hq => by rw [hk] at hq; cases hq
  have drained := foldl_freeBound_drains (s := s.resetHeld p) (l := portIds p) (by rw [a.set]; exact hc)
    (by rw [a.startUp]; exact hw)
    ⟨id, by obtain ⟨_, r, b, n, m, hb⟩ := all id hid; rw [fp, kept id r b n m hb]; exact hid⟩
    fun k hk => by
      rw [fp] at hk
      have same := back k hk
      rw [same] at hk
      obtain ⟨hp, hb⟩ := all k hk
      rw [same]
      exact ⟨mem_portIds.2 hp, hb⟩
  have ends := resetEnd_ends (p := p) (v := (portIds p).foldl State.freeBound (s.resetHeld p)) fun tag =>
    (foldl_freeBound_settled (resetHeld_not_held s p)).2 _ (mem_portIds.2 rfl)
  rw [startPortReset_eq, ends.set, ends.attention]
  exact drained

end Sys2Proof.Machine
end

