-- ==== Sys2Proof/WellFormed.lean ====
section
/-! DEFINITION. Which commands are events the part can meet: the types of the operands bound ports, tags, channels and lines; what they do not bound is checked here. -/

namespace Sys2Proof

/-- A presented request asserts PKR, PKW or both: "asserting either presents a request" (R44, Table 3-1). -/
def requestLinesOk (pkr pkw : Bool) : Bool := pkr || pkw

/-- A command meets the conditions of its row. Every row but REQUEST_PRESENTED has operands that its types bound wholly. -/
def Instr.wellFormed : Instr → Bool
  | .requestPresented _ pkr pkw _ _ _ _ => requestLinesOk pkr pkw
  | .rstAsserted | .rstReleased _ | .reinitialisation _ | .startupCompletion => true
  | .responseTaken _ | .prstnAsserted _ | .prstnDeasserted _ | .portLeavesInReset _ => true
  | .strobeAssert _ | .minimumStrobeEnd _ _ _ _ | .extensionPeriodEnd _ _ _ _ => true
  | .beatTimeout _ | .recoveryEnd _ | .applySet => true
  | .commandFrame _ | .mcsRelease | .collision | .responseExchange | .attentionExchange => true
  | .unknownTypeExchange _ => true
  | .identify | .resetAll | .stageInstall | .stageAmend | .stageRetire | .commit | .discard => true
  | .querySet | .queryWindow | .findAddress | .setPort | .resetPort | .queryPort => true
  | .setProfile | .queryProfile | .setChannel | .restoreChannel | .queryChannel => true
  | .readFault | .clearFault | .ackAttention | .setAttentionMask => true
  | .requestRemoved _ | .prtkSampledLow _ => true

end Sys2Proof
end

