-- ==== Sys2Proof/Tests/Slice0.lean ====
section
/-! SUPPORT. Small tests: ill-formed commands, worked values, one or two events for each command, and for each statement a state and operands that meet its hypotheses. -/

namespace Sys2Proof.Tests

open Machine

/-! ### Small states -/

/-- The state after a command. -/
def after (c : Instr) (s : State) : State := match exec c s with | .next t => t | _ => s

/-- The bytes of the answer stored in the link, and its status. -/
def answerOf (s : State) : Option (AnswerStatus × List Byte) :=
  match s.link.state with
  | .answered r => some (r.status, r.payload)
  | _ => none

/-- A part past start-up: the link IDLE, port 0 ON, the others OFF, no window. -/
def ready : State :=
  { State.reset with
    startUp := { state := .ready, straps := Straps.low, levels := Straps.low }
    link := { Link.starting with state := .idle }
    ports := #v[{ PortUnit.powerOn true with state := .on }, { PortUnit.powerOn false with state := .off },
      { PortUnit.powerOn false with state := .off }, { PortUnit.powerOn false with state := .off }] }

/-- A 4 KB window at 1000h on channel 1, 16 bits wide: port 0 may do all, port 1 may read. -/
def win : Window :=
  { base := 0x1000, sizeExp := 12, rank := 3, channel := 1, targetBase := 0x400, width := .w2, profile := 2,
    rights := #v[.readWrite, .read, .none, .none], swapAllowed := true, label := some 0xABCD }

def winSlot (n : Nat) : Slot := { state := .live, window := win, generation := 7, inFlight := n }

/-- The part with that window in slot 5. -/
def windowed : State := ready.putSlot 5 (winSlot 0)

/-- A READ of four bytes at 1002h. -/
def req : Request := { kind := .read, size := 4, address := 0x1002, data := [] }

/-- Its binding: two beats of two lanes, n of them completed. -/
def bnd (n : Nat) : Binding := { boundUnder windowed 5 req with completed := n }

/-- A profile of no setup, one strobe period, EXTEND with timeout 16, and the recovery given. -/
def prof (policy : ReadyPolicy) (recovery : Nat) : Profile :=
  { setup := 0, strobe := 1, policy := policy, timeout := 16, recovery := recovery }

def copy (policy : ReadyPolicy) (recovery : Nat) : BeatCopy := { profile := prof policy recovery, divisor := 4 }

/-- A channel with a context on its bus. -/
def chanWith (st : ChanState) (timeouts : Nat) : Channel :=
  { freshChannel with state := st, timeouts := timeouts, onBus := some ⟨0, 1⟩, lines := drivenLines ⟨.read, 0x402, 3⟩ (bnd 0) req 0 }

/-- Port 0 tag 1 ON_BUS on channel 1, n beats completed. -/
def onBus (st : ChanState) (n timeouts : Nat) (marked : Bool) : State :=
  ((windowed.putSlot 5 (winSlot 1)).putCtx ⟨0, 1⟩ (some ⟨req, .onBus (bnd n) 0 marked⟩)).putChan 1 (chanWith st timeouts)

/-- A channel in RECOVERY with nothing on its bus and two contexts of port 0 waiting, the younger passed over as told. -/
def waits (a b : Nat) : State :=
  (((windowed.putSlot 5 (winSlot 2)).putCtx ⟨0, 2⟩ (some ⟨req, .bound (bnd 0) 1 a⟩)).putCtx ⟨0, 3⟩
    (some ⟨req, .bound (bnd 0) 2 b⟩)).putChan 1 { freshChannel with state := .recovery (copy .extend 1) }

/-- A command dispatched with its payload. -/
def given (code : CommandCode) (payload : List Byte) (s : State) : State :=
  s.putLink { state := .executing { code := code, payload := payload, taken := false }, lastSequence := 9,
              collisionMark := false, exchange := .none }

/-- The part while RESET_ALL waits, the strap lines high. -/
def waitingFor (s : State) : State := s.putStartUp { state := .waiting, straps := Straps.low, levels := ⟨true, true, true⟩ }

/-- A change set in a state, with entries, a footprint and a hold list. -/
def withSet (st : SetState) (es : List Entry) (fp : List Range) (hold : List CtxId) (s : State) : State :=
  s.putChangeSet { state := st, entries := es, footprint := fp, holdList := hold }

def retire5 : Entry := .retire 5 none

/-- The set that retires slot 5, COMMITTING, with its footprint. -/
def draining (hold : List CtxId) : State :=
  withSet .committing [retire5] [{ base := 0x1000, sizeExp := 12 }] hold
    (windowed.putSlot 5 { winSlot 0 with state := .frozen })

/-- Port 0 tag 3 HELD. -/
def held (s : State) : State := s.putCtx ⟨0, 3⟩ (some ⟨req, .held⟩)

/-- A DONE context at the head of port 0's queue. -/
def doneCtx : State :=
  (windowed.putCtx ⟨0, 1⟩ (some ⟨req, .done .ok (.bound { bnd 2 with readData := #v[some 1, some 2, some 3, some 4] })⟩)).putPort 0
    { ready.portAt 0 with queue := [1] }

def fault (n : Nat) : FaultRecord :=
  { kind := .noWindow, tag := 1, access := .read, size := 4, address := 0x1002, window := none, target := none, further := n }

/-! ### Ill-formed commands -/

theorem test_request_without_lines_is_illFormed : (Instr.requestPresented 0 false false 0 4 0 0).wellFormed = false := by decide
theorem test_request_with_a_line_is_wellFormed : (Instr.requestPresented 0 true true 0 4 0 0).wellFormed = true := by decide

/-! ### Worked values -/

theorem test_crc_of_identify : crc8 [0x01, 0x05, 0x00] = 0x01 := by decide +kernel
theorem test_crc_of_none : crc8 [0x00, 0x04, 0x00, 0x00] = 0x7A := by decide +kernel

theorem test_plan_of_four_bytes_at_two_on_sixteen_bits :
    planFor .read 4 0x402 2 = [⟨.read, 0x402, 3⟩, ⟨.read, 0x404, 3⟩] := by decide
theorem test_plan_of_a_swap_across_two_units :
    planFor .swap 2 0x403 2 =
      [⟨.read, 0x402, 2⟩, ⟨.read, 0x404, 1⟩, ⟨.write, 0x402, 2⟩, ⟨.write, 0x404, 1⟩] := by decide

def rawOk : RawWindow :=
  { base := 0, sizeExp := 10, rank := 7, channel := 3, width := 4, profile := 7, rights := 0xFF, targetBase := 0,
    swapAllowed := false, label := none }

theorem test_fieldCheck_bounds :
    fieldCheck rawOk = none ∧ fieldCheck { rawOk with sizeExp := 28 } = none ∧ fieldCheck { rawOk with sizeExp := 9 } = some 1 ∧
      fieldCheck { rawOk with sizeExp := 29 } = some 1 ∧ fieldCheck { rawOk with base := 0x200 } = some 2 ∧
      fieldCheck { rawOk with targetBase := 0x200 } = some 3 ∧ fieldCheck { rawOk with targetBase := 0x0FFFFC00 } = none ∧
      fieldCheck { rawOk with targetBase := 0x10000000 } = some 4 ∧ fieldCheck { rawOk with width := 3 } = some 5 ∧
      fieldCheck { rawOk with profile := 8 } = some 6 ∧ fieldCheck { rawOk with channel := 4 } = some 7 ∧
      fieldCheck { rawOk with rank := 8 } = some 8 ∧ fieldCheck { rawOk with rights := 0x80 } = some 9 := by decide

/-! ### Board and start-up events -/

theorem test_rstAsserted : (after .rstAsserted windowed).startUp.state = .reset ∧ (after .rstAsserted windowed).slotAt 5 = freshSlot := by
  decide
theorem test_rstReleased : (after (.rstReleased ⟨true, true, true⟩) State.reset).slotAt 0 = bootSlot true true ∧
    (after (.rstReleased ⟨true, true, true⟩) State.reset).startUp.state = .running .rst := by decide
theorem test_reinitialisation :
    (after (.reinitialisation ⟨false, false, false⟩) (waitingFor windowed)).startUp.state = .running .resetAll := by decide
theorem test_beat_end_that_ends_the_wait_reinitialises :
    (after (.minimumStrobeEnd 1 true false 0) (waitingFor (onBus (.beat (copy .extend 1) .strobe) 0 0 true))).startUp.state =
      .running .resetAll := by decide
theorem test_startupCompletion :
    (after .startupCompletion (State.reset.putStartUp { state := .running .rst, straps := Straps.low, levels := Straps.low })).mrdy = true ∧
      ((after .startupCompletion (State.reset.putStartUp { state := .running .rst, straps := Straps.low, levels := Straps.low })).portAt 0).state = .on := by
  decide

/-! ### Requester ports -/

theorem test_requestPresented_binds_and_is_granted :
    (after (.requestPresented 0 true false 0x1002 4 1 0) windowed).ctxAt ⟨0, 1⟩ = some ⟨req, .onBus (bnd 0) 0 false⟩ := by decide
theorem test_requestPresented_over_the_end_is_span :
    (after (.requestPresented 0 true false 0x1FFF 2 1 0) windowed).ctxAt ⟨0, 1⟩ =
      some ⟨⟨.read, 2, 0x1FFF, []⟩, .done .span (.window ⟨5, 7, some 0xABCD⟩)⟩ := by decide
theorem test_requestRemoved : ((after (.requestRemoved 0) windowed).portAt 0).presenting = false := by decide
theorem test_responseTaken : (after (.responseTaken 0) doneCtx).ctxAt ⟨0, 1⟩ = none ∧
    doneCtx.responseLines 0 = ⟨true, 1, 0, 0x04030201⟩ := by decide
theorem test_prtkSampledLow : ((after (.prtkSampledLow 0) (after (.responseTaken 0) windowed)).portAt 0).prtk = false := by decide
theorem test_prstnAsserted : ((after (.prstnAsserted 0) doneCtx).portAt 0).state = .inReset ∧
    (after (.prstnAsserted 0) doneCtx).ctxAt ⟨0, 1⟩ = none := by decide
theorem test_prstnDeasserted :
    ((after (.prstnDeasserted 0) (windowed.putPort 0 { PortUnit.powerOn true with prstn := true })).portAt 0).state = .on := by decide
theorem test_portLeavesInReset :
    ((after (.portLeavesInReset 1) (windowed.putPort 1 (PortUnit.powerOn false))).portAt 1).state = .off := by decide

/-! ### Target channels -/

theorem test_strobeAssert : ((after (.strobeAssert 1) (onBus (.beat (copy .extend 1) .setup) 0 0 false)).chanAt 1).lines.cstbn = false := by
  decide
theorem test_minimumStrobeEnd_captures :
    (after (.minimumStrobeEnd 1 true false 0x44332211) (onBus (.beat (copy .extend 1) .strobe) 0 2 false)).ctxAt ⟨0, 1⟩ =
      some ⟨req, .onBus { bnd 1 with readData := #v[some 0x11, some 0x22, none, none] } 0 false⟩ := by decide
theorem test_extensionPeriodEnd_error :
    ((after (.extensionPeriodEnd 1 true true 0) (onBus (.beat (copy .extend 1) (.extension 3)) 0 0 false)).faultAt 0).map
        FaultRecord.target = some (some ⟨1, 0x402, 0⟩) := by decide
theorem test_beatTimeout_before_sample_tau_changes_nothing :
    after (.beatTimeout 1) (onBus (.beat (copy .extend 1) (.extension 14)) 0 2 false) =
      onBus (.beat (copy .extend 1) (.extension 14)) 0 2 false := by decide
theorem test_beatTimeout_takes_the_channel_offline :
    ((after (.beatTimeout 1) (onBus (.beat (copy .extend 1) (.extension 15)) 0 2 false)).chanAt 1).state = .offline := by decide
theorem test_recoveryEnd_grants_the_oldest :
    ((after (.recoveryEnd 1) (waits 0 0)).chanAt 1).onBus = some ⟨0, 2⟩ ∧
      ((after (.recoveryEnd 1) (waits 7 8)).chanAt 1).onBus = some ⟨0, 3⟩ := by decide

/-! ### Change sets -/

theorem test_applySet : (after .applySet (draining [])).slotAt 5 = { winSlot 0 with state := .free } ∧
    (after .applySet (draining [])).attention.commitApplied = true := by decide
theorem test_applySet_resolves_what_was_held :
    (after .applySet (held (draining [⟨0, 3⟩]))).ctxAt ⟨0, 3⟩ = some ⟨req, .done .noWindow .unbound⟩ := by decide

/-- An INSTALL request: slot, options, base, exponent, rank, channel, width, profile, rights, target base, label. -/
def installPayload (slot : Byte) : List Byte :=
  [slot, 0x03, 0x00, 0x20, 0, 0, 12, 1, 2, 4, 0, 0x03, 0, 0x10, 0, 0, 1, 2, 3, 4]

theorem test_stageInstall : answerOf (after .stageInstall (given .stageInstall (installPayload 63) windowed)) = some (.done, [1]) := by
  decide
theorem test_stageAmend_of_a_free_slot :
    answerOf (after .stageAmend (given .stageAmend (installPayload 63 ++ [0]) windowed)) = some (.badState, [0]) := by decide
theorem test_stageRetire_stale : answerOf (after .stageRetire (given .stageRetire [5, 4, 8] windowed)) = some (.stale, [7]) := by decide
theorem test_commit_applies_at_once :
    answerOf (after .commit (given .commit [] (withSet .opened [retire5] [] [] windowed))) = some (.accepted, [1, 0]) ∧
      (after .commit (given .commit [] (withSet .opened [retire5] [] [] windowed))).slotAt 5 = { winSlot 0 with state := .free } := by
  decide
theorem test_commit_overlap :
    answerOf (after .commit (given .commit [] (withSet .opened [.install 6 win] [] [] windowed))) = some (.overlap, [6, 0, 5, 0xFF]) := by
  decide
theorem test_discard : (after .discard (given .discard [] (draining []))).slotAt 5 = winSlot 0 := by decide
theorem test_querySet : answerOf (after .querySet (given .querySet [] ready)) = some (.done, [0, 0, 0, 0xFF, 0xFF]) := by decide

/-! ### Windows and resolution -/

theorem test_queryWindow : answerOf (after .queryWindow (given .queryWindow [5] windowed)) =
    some (.done, [5, 1, 7, 3, 0, 0x10, 0, 0, 12, 3, 1, 2, 2, 0x07, 0, 4, 0, 0, 0xCD, 0xAB, 0, 0, 0]) := by decide
theorem test_findAddress : answerOf (after .findAddress (given .findAddress [0, 1, 4, 0x02, 0x10, 0, 0] windowed)) =
    some (.done, [0, 1, 5, 7, 0xCD, 0xAB, 0, 0, 1, 0x02, 4, 0, 0, 2, 3, 0x02, 4, 0, 0, 3, 0x04, 4, 0, 0]) := by decide

/-! ### Ports, profiles, channels -/

theorem test_setPort : ((after .setPort (given .setPort [1, 1, 1] windowed)).portAt 1).state = .on ∧
    ((after .setPort (given .setPort [1, 1, 1] windowed)).portAt 1).cls = .urgent := by decide
theorem test_resetPort : answerOf (after .resetPort (given .resetPort [0] doneCtx)) = some (.done, []) ∧
    (after .resetPort (given .resetPort [0] doneCtx)).ctxAt ⟨0, 1⟩ = none := by decide
theorem test_queryPort : (answerOf (after .queryPort (given .queryPort [0] ready))).map (fun a => a.2.take 7) =
    some [1, 1, 0, 0, 0, 0, 0] := by decide
theorem test_setProfile : (after .setProfile (given .setProfile [7, 7, 31, 0, 16, 0, 7] ready)).profileAt 7 =
    { setup := 7, strobe := 31, policy := .ignore, timeout := 16, recovery := 7 } := by decide
theorem test_queryProfile : answerOf (after .queryProfile (given .queryProfile [7] ready)) =
    some (.done, [3, 31, 1, 0xFF, 0x0F, 3]) := by decide
theorem test_setChannel : ((after .setChannel (given .setChannel [3, 16] ready)).chanAt 3).divisor = 16 := by decide
theorem test_restoreChannel :
    ((after .restoreChannel (given .restoreChannel [1] (ready.putChan 1 { freshChannel with state := .offline, timeouts := 3 }))).chanAt 1) =
      freshChannel := by decide
theorem test_queryChannel : answerOf (after .queryChannel (given .queryChannel [1] (onBus (.beat (copy .extend 1) .strobe) 1 2 true))) =
    some (.done, [1, 4, 2, 3, 3, 3, 0, 1, 1, 2, 0]) := by decide

/-! ### Faults and attention -/

theorem test_readFault : answerOf (after .readFault (given .readFault [0] (ready.putFault 0 (some (fault 2))))) =
    some (.done, [1, 1, 1, 4, 0x02, 0x10, 0, 0, 0] ++ List.replicate 12 0xFF ++ [2]) := by decide
theorem test_clearFault : (after .clearFault (given .clearFault [0, 2] (ready.putFault 0 (some (fault 2))))).faultAt 0 = none := by decide
theorem test_ackAttention : answerOf (after .ackAttention (given .ackAttention [0, 1] ready.latchStartDone)) =
    some (.done, [0, 0, 0xFF, 0x07]) := by decide
theorem test_setAttentionMask : answerOf (after .setAttentionMask (given .setAttentionMask [0, 1] ready.latchStartDone)) =
    some (.done, [0, 1, 0, 1]) := by decide

/-! ### Exchanges -/

theorem test_commandFrame_dispatches :
    (after (.commandFrame [0x13, 9, 0, crc8 [0x13, 9, 0]]) ready).link.state =
      .executing { code := .commit, payload := [], taken := false } := by decide +kernel
theorem test_mcsRelease_of_a_short_frame :
    answerOf (after .mcsRelease (after (.commandFrame [0x13, 9]) ready)) = some (.badLength, []) := by decide
theorem test_collision : (after .collision (given .commit [] ready)).attention.linkCollision = true := by decide
theorem test_responseExchange :
    (after .responseExchange ready).link.exchange = .returning [0x02, 0x00, 0x04, 0x00, 0x00, 0x7A] := by decide +kernel
theorem test_attentionExchange : (after .attentionExchange ready).mdoByte 0 = 0xFF ∧ (after .attentionExchange ready).mdoByte 1 = 0x03 := by decide
theorem test_unknownTypeExchange : (after (.unknownTypeExchange 0x55) ready).mdoByte 1 = 0xFF := by decide
theorem test_identify : answerOf (after .identify (given .identify [] ready)) =
    some (.done, [0x42, 0x49, 0x64, 0x04, 0x01, 64, 4, 4, 8]) := by decide
theorem test_resetAll_with_nothing_to_wait_for :
    (after .resetAll (given .resetAll [] doneCtx)).startUp.state = .running .resetAll ∧
      (after .resetAll (given .resetAll [] doneCtx)).ctxAt ⟨0, 1⟩ = none := by decide
theorem test_resetAll_waits_for_a_beat :
    (after .resetAll (given .resetAll [] (onBus (.beat (copy .extend 1) .strobe) 0 0 false))).startUp.state = .waiting := by decide

/-! ### Every statement's hypotheses are met somewhere -/

theorem forall_ids {P : CtxId → Prop} (h : ∀ p t, P ⟨p, t⟩) (id : CtxId) : P id := h id.port id.tag

theorem test_meets_StepTakesTheFrontCommand : State.reset.pending = [] := rfl
theorem test_meets_RstReleasedSamplesStrapsAndBoots : State.reset.startUp.state = .reset := rfl
theorem test_meets_ReinitialisationEndsTheWait :
    ((waitingFor windowed).startUp.state = .waiting ∧ (∀ c copy stage, ((waitingFor windowed).chanAt c).state ≠ .beat copy stage) ∧
      ∀ id, (waitingFor windowed).ctxAt id = none) ∧
      windowed.startUp.state ≠ .waiting ∧
      ((onBus (.beat (copy .extend 1) .setup) 0 0 false).chanAt 1).state = .beat (copy .extend 1) .setup ∧
      doneCtx.ctxAt ⟨0, 1⟩ ≠ none :=
  ⟨⟨by decide, (noBeat_iff _).1 (by decide), (State.noContexts_iff _).1 (by decide)⟩, by decide⟩

/-- A marked context alone in the part while RESET_ALL waits, on channel 1, the others IDLE. -/
theorem test_meets_ReinitialisationEndsTheWait_last_context (st : ChanState) (n timeouts : Nat) :
    let s := waitingFor (onBus st n timeouts true)
    OnBus s 1 ⟨0, 1⟩ req (bnd n) 0 true ∧ s.startUp.state = .waiting ∧ (s.chanAt 1).state = st ∧
      (∀ d copy stage, d ≠ 1 → (s.chanAt d).state ≠ .beat copy stage) ∧ ∀ k, k ≠ ⟨0, 1⟩ → s.ctxAt k = none := by
  refine ⟨⟨rfl, rfl⟩, rfl, rfl, fun d copy stage hd h => ?_, fun k hk => ?_⟩
  · have idle : ∀ d, d ≠ 1 → ((waitingFor windowed).chanAt d).state = .idle := by decide
    have same : ((waitingFor (onBus st n timeouts true)).chanAt d).state = ((waitingFor windowed).chanAt d).state :=
      congrArg Channel.state (State.chanAt_putChan_ne _ _ _ _ hd)
    rw [same, idle d hd] at h
    cases h
  · have none : ∀ k, windowed.ctxAt k = .none := (State.noContexts_iff _).1 (by decide)
    exact (State.ctxAt_putCtx_ne _ _ _ _ hk).trans (none k)
theorem test_meets_StartupCompletionReleasesThePart :
    ∀ o, (State.reset.putStartUp { state := .running o, straps := Straps.low, levels := Straps.low }).startUp.state = .running o := fun _ => rfl
theorem test_meets_RequestRefusedByItsFirstFailingCheck :
    (ready.portAt 1).presenting = false ∧ (ready.portAt 1).state = .off ∧ (State.reset.portAt 0).state = .inReset ∧
      (State.reset.portAt 0).presenting = false ∧ kindOfLines true false = some .read ∧
      (doneCtx.portAt 0).presenting = false ∧ (doneCtx.portAt 0).state = .on ∧ doneCtx.ctxAt ⟨0, 1⟩ ≠ none ∧
      doneCtx.ctxAt ⟨0, 3⟩ = none ∧
      ∀ psz ∈ [(0 : BitVec 3), 3, 5, 6, 7], psz.toNat ≠ 1 ∧ psz.toNat ≠ 2 ∧ psz.toNat ≠ 4 := by decide
theorem test_takeable : Takeable windowed 0 1 1 ∧ Takeable windowed 0 1 2 ∧ Takeable windowed 0 1 4 := by
  exact ⟨⟨by decide, by decide, by decide, by decide⟩, ⟨by decide, by decide, by decide, by decide⟩,
    ⟨by decide, by decide, by decide, by decide⟩⟩
theorem test_meets_RequestMeetingFootprintIsHeld :
    Takeable (draining []) 0 1 2 ∧ HeldAtStep1 (draining []) (presented .read 0x1FFF 1 0) ∧
      HeldAtStep1 (draining []) (presented .read 0x0FFF 2 0) :=
  ⟨⟨by decide, by decide, by decide, by decide⟩, (footprintHit_iff _ _).1 (by decide), (footprintHit_iff _ _).1 (by decide)⟩

/-- A LIVE window at an address in slot 5 of a part whose other slots are FREE. -/
theorem live_only_five {s : State} (h : ∀ i, i ≠ 5 → (s.slotAt i).state = .free) {x : Nat} {i : Fin 64} (hl : LiveAt s i x) : i = 5 := by
  by_contra hne
  have := h i hne
  rw [hl.1] at this
  cases this

theorem selects_five {s : State} (h : ∀ i, i ≠ 5 → (s.slotAt i).state = .free) {x : Nat} (hx : s.candidate x 5 = true) :
    Selects s x 5 :=
  ⟨(candidate_iff _ _ _).1 hx, fun _ hj hl => absurd (live_only_five h hl) hj⟩

theorem nothing_at {s : State} (h : ∀ i, i ≠ 5 → (s.slotAt i).state = .free) {x : Nat} (hx : s.candidate x 5 = false) :
    NoWindowAt s x := by
  intro i hl
  have e := live_only_five h hl
  subst e
  rw [(candidate_iff _ _ _).2 hl] at hx
  cases hx

theorem selects_whole {s : State} (h : ∀ i, i ≠ 5 → (s.slotAt i).state = .free) {r : Request}
    (hr : ∀ k, k < r.size → s.candidate (r.address.toNat + k) 5 = true) : SelectsWhole s r 5 :=
  fun k hk => selects_five h (hr k hk)

def offlined : State := windowed.putChan 1 { freshChannel with state := .offline, timeouts := 3 }

theorem only_five : (∀ i, i ≠ 5 → (windowed.slotAt i).state = .free) ∧ ∀ i, i ≠ 5 → (offlined.slotAt i).state = .free := by
  decide

theorem not_held : ¬ windowed.changeSet.state = .committing ∧ ¬ offlined.changeSet.state = .committing := by decide

theorem test_meets_RequestFaultingAtResolutionIsDone :
    (Takeable windowed 0 1 1 ∧ ¬ HeldAtStep1 windowed (presented .read 0x0FFF 1 0)) ∧
    (∃ d k w, FaultsAs windowed 0 (presented .read 0x0FFF 1 0) .noWindow d k w) ∧
    (∃ d k w, FaultsAs windowed 0 (presented .read 0x1FFF 2 0) .span d k w) ∧
    (Takeable (windowed.putPort 1 (windowed.portAt 0)) 1 1 1 ∧
      ∃ d k w, FaultsAs windowed 1 (presented .write 0x1FFF 1 0) .denied d k w) ∧
    (Takeable offlined 0 1 1 ∧ ∃ d k w, FaultsAs offlined 0 (presented .read 0x1FFF 1 0) .channelOffline d k w) :=
  ⟨⟨⟨by decide, by decide, by decide, by decide⟩, fun h => not_held.1 h.1⟩,
    ⟨_, _, _, .noWindow (nothing_at only_five.1 (by decide))⟩,
    ⟨_, _, _, .span 5 (selects_five only_five.1 (by decide)) ⟨1, by decide, .inl (nothing_at only_five.1 (by decide))⟩⟩,
    ⟨⟨by decide, by decide, by decide, by decide⟩,
      ⟨_, _, _, .denied 5 (selects_whole only_five.1 (by decide)) (by rw [← granted_iff]; decide)⟩⟩,
    ⟨⟨by decide, by decide, by decide, by decide⟩,
      ⟨_, _, _, .channelOffline 5 (selects_whole only_five.2 (by decide)) ((granted_iff _ _ _).1 (by decide)) (by decide)⟩⟩⟩

def busy : State := windowed.putChan 1 { freshChannel with state := .recovery (copy .extend 1) }

theorem test_meets_RequestBindsAndWaits :
    Takeable busy 0 1 4 ∧ PassesUnder busy 0 (presented .swap 0x1FFC 4 0) 5 ∧
      (busy.chanAt (busy.slotAt 5).window.channel).state ≠ .idle :=
  ⟨⟨by decide, by decide, by decide, by decide⟩,
    ⟨fun h => not_held.1 h.1, selects_whole only_five.1 (by decide), (granted_iff _ _ _).1 (by decide), by decide⟩, by decide⟩
theorem test_meets_RequestBindsAndIsGranted :
    Takeable windowed 0 1 4 ∧ PassesUnder windowed 0 (presented .read 0x1000 4 0) 5 ∧
      (windowed.slotAt 5).window.channel = 1 ∧ (windowed.chanAt 1).state = .idle ∧ NoneWaits windowed 1 :=
  ⟨⟨by decide, by decide, by decide, by decide⟩,
    ⟨fun h => not_held.1 h.1, selects_whole only_five.1 (by decide), (granted_iff _ _ _).1 (by decide), by decide⟩, by decide, by decide,
    noneWaits_of (by decide)⟩
theorem test_meets_PresentationIsAnsweredOnce : (true || false) = true ∧
    ((after (.requestPresented 0 true false 0x1002 4 1 0) windowed).portAt 0).presenting = true := by decide
theorem test_meets_ResponseTakenFreesTheHead :
    ((doneCtx.portAt 0).prtk = false ∧ (doneCtx.portAt 0).queue = [1]) ∧
      ((windowed.portAt 0).prtk = false ∧ (windowed.portAt 0).queue = []) ∧
      ((after (.responseTaken 0) doneCtx).portAt 0).prtk = true := by decide
theorem test_meets_ResponseLinesOfferTheHead :
    (doneCtx.portAt 0).queue = [1] ∧ (∃ d, doneCtx.ctxAt ⟨0, 1⟩ = some ⟨req, .done .ok (.bound d)⟩) ∧
      ((after (.requestPresented 0 true false 0 1 1 0) windowed).portAt 0).queue = [1] ∧
      (after (.requestPresented 0 true false 0 1 1 0) windowed).ctxAt ⟨0, 1⟩ =
        some ⟨presented .read 0 1 0, .done .noWindow .unbound⟩ :=
  ⟨by decide, ⟨_, rfl⟩, by decide, by decide⟩
theorem test_meets_PrstnAssertedStartsAPortReset :
    ∀ s ∈ [windowed, doneCtx, onBus (.beat (copy .extend 1) .setup) 0 0 false, waits 0 0],
      (s.portAt 0).state ≠ .inReset ∧ s.changeSet.state ≠ .committing := by decide
theorem no_reset_waits : NoResetWaitsFor windowed 0 := noResetWaitsFor_of (by intro x h; cases h) 0

def leaving : State := windowed.putPort 0 (PortUnit.powerOn true)

theorem test_meets_PrstnAssertedStartsAPortReset_in_reset : (leaving.portAt 0).state = .inReset ∧ NoResetWaitsFor leaving 0 :=
  ⟨by decide, noResetWaitsFor_of (by intro x h; cases h) 0⟩

/-- A command taken that is no RESET_PORT of port 0 leaves its premises as they are: a RESET_ALL that waits, a RESET_PORT of port 1. -/
theorem test_meets_PrstnAssertedStartsAPortReset_other_commands :
    ∀ x ∈ [(⟨.resetAll, [], true⟩ : Executing), ⟨.resetPort, [1], true⟩],
      NoResetWaitsFor (leaving.putLink { leaving.link with state := .executing x }) 0 := by
  intro x hx payload h
  simp only [List.mem_cons, List.not_mem_nil, or_false] at hx
  obtain ⟨h1, h2⟩ := h
  rcases hx with rfl | rfl <;> cases h1
  cases h2
theorem test_prstnAsserted_in_the_wait :
    after (.prstnAsserted 0) ((waitingFor leaving).putLink { leaving.link with state := .executing ⟨.resetAll, [], true⟩ }) =
      ((waitingFor leaving).putPort 0 { PortUnit.powerOn true with prstn := true }).putLink
        { leaving.link with state := .executing ⟨.resetAll, [], true⟩ } := by decide

/-- The set that retires slot 5, COMMITTING, blocked by a BOUND context of port 0; port 1 has a context HELD, and port 0 too. -/
def boundDraining : State :=
  (((withSet .committing [retire5] [{ base := 0x1000, sizeExp := 12 }] [⟨0, 3⟩, ⟨1, 2⟩]
    (windowed.putSlot 5 { winSlot 1 with state := .frozen })).putCtx ⟨0, 2⟩ (some ⟨req, .bound (bnd 0) 1 0⟩)).putCtx ⟨0, 3⟩
      (some ⟨req, .held⟩)).putCtx ⟨1, 2⟩ (some ⟨req, .held⟩)

theorem boundDraining_ctxs : ∀ id, boundDraining.ctxAt id = if id = ⟨0, 2⟩ then some ⟨req, .bound (bnd 0) 1 0⟩ else
    if id = ⟨0, 3⟩ ∨ id = ⟨1, 2⟩ then some ⟨req, .held⟩ else none :=
  forall_ids (by decide +kernel)

theorem test_meets_PrstnAssertedStartsAPortReset_drains :
    (boundDraining.portAt 0).state ≠ .inReset ∧ NoResetWaitsFor boundDraining 0 ∧ ResetDrainsTheSet boundDraining 0 := by
  refine ⟨by decide, noResetWaitsFor_of (by intro x h; cases h) 0, by decide, by decide, ⟨⟨0, 2⟩, by decide⟩, fun id h => ?_⟩
  rw [boundDraining_ctxs] at h ⊢
  split_ifs at h ⊢ with h1 h2
  · exact ⟨by rw [h1], _, _, _, _, rfl⟩
  · cases h
  · cases h
theorem test_port_reset_applies_the_set_it_drains :
    (after (.prstnAsserted 0) boundDraining).changeSet = emptySet ∧
      (after (.prstnAsserted 0) boundDraining).slotAt 5 = { winSlot 0 with state := .free } ∧
      (after (.prstnAsserted 0) boundDraining).ctxAt ⟨0, 3⟩ = none ∧
      (after (.prstnAsserted 0) boundDraining).ctxAt ⟨1, 2⟩ = some ⟨req, .done .noWindow .unbound⟩ ∧
      ((after (.prstnAsserted 0) boundDraining).portAt 0).state = .inReset ∧
      answerOf (after .resetPort (given .resetPort [0] boundDraining)) = some (.done, []) ∧
      (after .resetPort (given .resetPort [0] boundDraining)).changeSet = emptySet := by decide +kernel
theorem test_meets_PrstnAssertedStartsAPortReset_drains_nothing :
    ResetDrainsNothing doneCtx 0 ∧ ResetDrainsNothing boundDraining 1 :=
  ⟨.inl (by decide), .inr ⟨⟨0, 2⟩, by decide, fun h => by cases h⟩⟩

theorem test_meets_PortLeavesResetForItsEnable :
    ((leaving.portAt 0).state = .inReset ∧ (∀ tag, leaving.ctxAt ⟨0, tag⟩ = none) ∧ leaving.startUp.state = .ready ∧
      NoResetWaitsFor leaving 0 ∧ (leaving.portAt 0).prstn = false) ∧
      ResetWaits (leaving.putLink { leaving.link with state := .executing ⟨.resetPort, [0], true⟩ }) 0 [0] ∧
      (∃ tag, (leaving.putCtx ⟨0, 3⟩ (some ⟨req, .held⟩)).ctxAt ⟨0, tag⟩ ≠ none) ∧
      State.reset.startUp.state ≠ .ready ∧ (windowed.portAt 0).state ≠ .inReset ∧
      ((leaving.putPort 0 { PortUnit.powerOn true with prstn := true }).portAt 0).prstn = true :=
  ⟨⟨by decide, by decide, by decide, noResetWaitsFor_of (by intro x h; cases h) 0, by decide⟩, ⟨rfl, by decide⟩, by decide, by decide⟩

theorem test_meets_StrobeAssertAndLowReady :
    ((onBus (.beat (copy .extend 1) .setup) 0 0 false).chanAt 1).state = .beat (copy .extend 1) .setup ∧
      ((onBus (.beat (copy .extend 1) .strobe) 0 0 false).chanAt 1).state = .beat (copy .extend 1) .strobe ∧
      (copy .extend 1).profile.policy = .extend ∧
      ((onBus (.beat (copy .extend 1) (.extension 14)) 0 0 false).chanAt 1).state = .beat (copy .extend 1) (.extension 14) ∧
      14 + 1 < (copy .extend 1).profile.timeout := by decide

/-- The context of port 0 tag 1 is ON_BUS in every such state. -/
theorem on_bus (st : ChanState) (n timeouts : Nat) (marked : Bool) :
    OnBus (onBus st n timeouts marked) 1 ⟨0, 1⟩ req (bnd n) 0 marked := ⟨rfl, rfl⟩

/-- In a state of a beat, each way to end it is met. -/
theorem test_ends_in_every_way (n t : Nat) (m : Bool) :
    EndsBeat (onBus (.beat (copy .ignore 1) .strobe) n t m) 1 (copy .ignore 1) (.minimumStrobeEnd 1 false false 7) .normal 7 ∧
    EndsBeat (onBus (.beat (copy .ignore 1) .strobe) n t m) 1 (copy .ignore 1) (.minimumStrobeEnd 1 false true 7) .error 7 ∧
    EndsBeat (onBus (.beat (copy .extend 0) .strobe) n t m) 1 (copy .extend 0) (.minimumStrobeEnd 1 true false 7) .normal 7 ∧
    EndsBeat (onBus (.beat (copy .extend 1) .strobe) n t m) 1 (copy .extend 1) (.minimumStrobeEnd 1 true true 7) .error 7 ∧
    EndsBeat (onBus (.beat (copy .extend 1) (.extension 15)) n t m) 1 (copy .extend 1) (.extensionPeriodEnd 1 true false 7) .normal 7 ∧
    EndsBeat (onBus (.beat (copy .extend 1) (.extension 0)) n t m) 1 (copy .extend 1) (.extensionPeriodEnd 1 true true 7) .error 7 ∧
    EndsBeat (onBus (.beat (copy .extend 1) (.extension 15)) n t m) 1 (copy .extend 1) (.extensionPeriodEnd 1 false true 7) .timeout 7 ∧
    EndsBeat (onBus (.beat (copy .extend 1) (.extension 15)) n t m) 1 (copy .extend 1) (.beatTimeout 1) .timeout 0 :=
  ⟨.ignoreNormal _ _ rfl rfl, .ignoreError _ _ rfl rfl, .readyNormal _ rfl rfl, .readyError _ rfl rfl, .extendedNormal 15 _ rfl,
    .extendedError 0 _ rfl, .lastSampleLow 15 _ _ rfl (by decide), .timeout 15 rfl (by decide)⟩

theorem test_meets_NormalBeatEndWithBeatsLeft :
    (bnd 0).plan[(bnd 0).completed]? = some ⟨.read, 0x402, 3⟩ ∧ (bnd 0).completed + 1 < (bnd 0).plan.length ∧
      (bnd 0).plan[(bnd 0).completed + 1]? = some ⟨.read, 0x404, 3⟩ ∧ 0 < (copy .extend 1).profile.recovery ∧
      (copy .extend 0).profile.recovery = 0 := by decide
theorem test_meets_CaptureIsByAddress :
    ∀ L : Fin 4, (⟨.read, 0x402, 3⟩ : Beat).lanes.getLsbD L.1 = true →
      (0x402 : TargetAddr).toNat ≤ (⟨.read, 0x402, 3⟩ : Beat).unit.toNat + L.1 := by decide
/-- The set that retires slot 5, COMMITTING, drained by the context on the bus. -/
def onBusDraining (st : ChanState) (n timeouts : Nat) (marked : Bool) : State :=
  withSet .committing [retire5] [{ base := 0x1000, sizeExp := 12 }] []
    ((onBus st n timeouts marked).putSlot 5 { winSlot 1 with state := .frozen })

theorem test_beat_end_applies_the_set_it_drains :
    (after (.minimumStrobeEnd 1 true false 0) (onBusDraining (.beat (copy .extend 0) .strobe) 1 0 false)).changeSet = emptySet ∧
      (after (.minimumStrobeEnd 1 true false 0) (onBusDraining (.beat (copy .extend 1) .strobe) 0 0 true)).changeSet = emptySet ∧
      (after (.recoveryEnd 1) (onBusDraining (.recovery (copy .extend 1)) 1 0 true)).changeSet = emptySet := by decide

theorem test_meets_LastBeatEndsTheAccessOk :
    (bnd 1).plan[(bnd 1).completed]? = some ⟨.read, 0x404, 3⟩ ∧ (bnd 1).completed + 1 = (bnd 1).plan.length ∧
      (∀ st, (onBus st 1 0 false).changeSet.state ≠ .committing) ∧ (∀ st n t m, (onBusDraining st n t m).changeSet.state = .committing ∧
        OnBus (onBusDraining st n t m) 1 ⟨0, 1⟩ req (bnd n) 0 m) ∧
      0 < (copy .extend 1).profile.recovery ∧ (copy .extend 0).profile.recovery = 0 :=
  ⟨by decide, by decide, (fun _ h => by cases h), (fun _ _ _ _ => ⟨rfl, rfl, rfl⟩), by decide, by decide⟩
theorem test_meets_FailedBeatEndsTheAccess :
    ∀ st n, ((onBus st 0 n false).chanAt 1).timeouts = n ∧ (onBus st 0 n false).changeSet.state ≠ .committing ∧
      (bnd 0).plan[(bnd 0).completed]? = some ⟨.read, 0x402, 3⟩ :=
  fun _ _ => ⟨rfl, (fun h => by cases h), by decide⟩

/-- The third timeout, with a context waiting. -/
def third (marked : Bool) : State :=
  (onBus (.beat (copy .extend 1) (.extension 15)) 0 2 marked).putCtx ⟨3, 3⟩ (some ⟨req, .bound (bnd 0) 4 8⟩)

theorem test_sweep_of_a_marked_third_timeout :
    (after (.beatTimeout 1) (third true)).ctxAt ⟨3, 3⟩ = some ⟨req, .done .channelOffline (.bound (bnd 0))⟩ ∧
      (after (.beatTimeout 1) (third true)).ctxAt ⟨0, 1⟩ = none ∧
      (after (.beatTimeout 1) (third true)).faultAt 3 = some (sweptFault ⟨3, 3⟩ req (bnd 0)) := by decide

theorem test_meets_ThirdTimeoutTakesTheChannelOffline :
    ∀ m, EndsBeat (third m) 1 (copy .extend 1) (.beatTimeout 1) .timeout 0 ∧ OnBus (third m) 1 ⟨0, 1⟩ req (bnd 0) 0 m ∧
      ((third m).chanAt 1).timeouts = 2 ∧ (third m).changeSet.state ≠ .committing ∧ (third m).startUp.state ≠ .waiting ∧
      WaitsOn (third m) 1 ⟨3, 3⟩ req (bnd 0) 4 8 :=
  fun _ => ⟨.timeout 15 rfl (by decide), ⟨rfl, rfl⟩, rfl, (fun h => by cases h), (fun h => by cases h), ⟨rfl, rfl⟩⟩
theorem test_meets_AbandonedContextIsFreedAtItsBeatEnd :
    ∀ st n, OnBus (onBus st 1 n true) 1 ⟨0, 1⟩ req (bnd 1) 0 true ∧ (onBus st 1 n true).changeSet.state ≠ .committing ∧
      (onBus st 1 n true).startUp.state ≠ .waiting ∧ NoResetWaitsFor (onBus st 1 n true) 0 :=
  fun _ _ => ⟨⟨rfl, rfl⟩, (fun h => by cases h), (fun h => by cases h), noResetWaitsFor_of (by intro x h; cases h) 0⟩

/-- A RESET_PORT of port 0 waits for the context on the bus. -/
def resetting (st : ChanState) : State :=
  ((onBus st 1 0 true).putPort 0 (PortUnit.powerOn true)).putLink { Link.starting with state := .executing ⟨.resetPort, [0], true⟩ }

theorem test_meets_AbandonedContextIsFreedAtItsBeatEnd_reset_waits (st : ChanState) :
    OnBus (resetting st) 1 ⟨0, 1⟩ req (bnd 1) 0 true ∧ ResetWaits (resetting st) 0 [0] ∧
      ((resetting st).portAt 0).state = .inReset ∧ ((resetting st).portAt 0).prstn = false ∧ (resetting st).startUp.state = .ready ∧
      (resetting st).changeSet.state ≠ .committing ∧ ∀ tag, tag ≠ 1 → (resetting st).ctxAt ⟨0, tag⟩ = none :=
  ⟨⟨rfl, rfl⟩, ⟨rfl, by decide⟩, rfl, rfl, rfl, (fun h => by cases h), by
    intro tag h
    have none : ∀ tag, windowed.ctxAt ⟨0, tag⟩ = .none := by decide
    exact (State.ctxAt_putCtx_ne (windowed.putSlot 5 (winSlot 1)) ⟨0, 1⟩ _ ⟨0, tag⟩ (fun e => h (congrArg CtxId.tag e))).trans (none tag)⟩
theorem test_beat_end_answers_the_waiting_reset :
    answerOf (after (.minimumStrobeEnd 1 true false 0) (resetting (.beat (copy .extend 1) .strobe))) = some (.done, []) := by decide
theorem test_meets_RecoveryEndStartsTheNextBeatOrIdles :
    (((onBus (.recovery (copy .extend 1)) 1 0 false).chanAt 1).state = .recovery (copy .extend 1) ∧
      (bnd 1).plan[(bnd 1).completed]? = some ⟨.read, 0x404, 3⟩) ∧
      ((windowed.putChan 1 { freshChannel with state := .recovery (copy .extend 1) }).chanAt 1).onBus = none ∧
      NoneWaits (windowed.putChan 1 { freshChannel with state := .recovery (copy .extend 1) }) 1 :=
  ⟨by decide, by decide, noneWaits_of (by decide)⟩
theorem test_meets_RecoveryEndStartsTheNextBeatOrIdles_marked :
    let s := onBus (.recovery (copy .extend 1)) 1 0 true
    (s.chanAt 1).state = .recovery (copy .extend 1) ∧ OnBus s 1 ⟨0, 1⟩ req (bnd 1) 0 true ∧ NoneWaits s 1 ∧
      s.changeSet.state ≠ .committing ∧ s.startUp.state ≠ .waiting ∧ NoResetWaitsFor s 0 :=
  ⟨rfl, ⟨rfl, rfl⟩, noneWaits_of (by decide), by decide, by decide, noResetWaitsFor_of (by intro x h; cases h) 0⟩

theorem test_meets_ArbitrationFollowsItsSteps_aged :
    ((waits 8 8).chanAt 1).state = .recovery (copy .extend 1) ∧ ((waits 8 8).chanAt 1).onBus = none ∧
      WaitsOn (waits 8 8) 1 ⟨0, 2⟩ req (bnd 0) 1 8 ∧
      ∀ k q w n, k ≠ ⟨0, 2⟩ → WaitsOn (waits 8 8) 1 k q w n 8 → 1 < n :=
  ⟨rfl, rfl, ⟨rfl, rfl⟩, fun k q w n hk hw =>
    forall_waits (P := fun k n _ => k ≠ ⟨0, 2⟩ → 1 < n) (by decide) k q w n 8 hw hk⟩

/-- Port 3, URGENT, and port 0, NORMAL, wait on channel 1. -/
def urgentWaits : State :=
  ((waits 7 0).putPort 3 { windowed.portAt 3 with state := .on, enable := true, cls := .urgent }).putCtx ⟨3, 0⟩
    (some ⟨req, .bound (bnd 0) 5 0⟩)

theorem test_meets_ArbitrationFollowsItsSteps_classes :
    (∀ k q w n m, WaitsOn urgentWaits 1 k q w n m → m < 8) ∧ WaitsOn urgentWaits 1 ⟨3, 0⟩ req (bnd 0) 5 0 ∧
      (urgentWaits.portAt 3).cls ≠ .normal ∧
      (∀ k q w n m, WaitsOn urgentWaits 1 k q w n m → (urgentWaits.portAt k.port).cls = .urgent → k.port ≠ 3 →
        placesAfter (urgentWaits.chanAt 1).urgentPtr 3 < placesAfter (urgentWaits.chanAt 1).urgentPtr k.port) ∧
      ∀ k q w n m, k ≠ ⟨3, 0⟩ → k.port = 3 → WaitsOn urgentWaits 1 k q w n m → 5 < n :=
  ⟨forall_waits (P := fun _ _ m => m < 8) (by decide), ⟨rfl, rfl⟩, by decide,
    forall_waits (P := fun k _ _ => (urgentWaits.portAt k.port).cls = .urgent → k.port ≠ 3 →
      placesAfter (urgentWaits.chanAt 1).urgentPtr 3 < placesAfter (urgentWaits.chanAt 1).urgentPtr k.port) (by decide),
    fun k q w n m hk hp hw => forall_waits (P := fun k n _ => k ≠ ⟨3, 0⟩ → k.port = 3 → 5 < n) (by decide) k q w n m hw hk hp⟩
/-- Ports 1 and 2, both NORMAL, wait on channel 1, the NORMAL pointer at port 1: port 2 comes first, though younger. -/
def rotating : State :=
  (((windowed.putSlot 5 (winSlot 2)).putCtx ⟨1, 0⟩ (some ⟨req, .bound (bnd 0) 1 3⟩)).putCtx ⟨2, 0⟩
    (some ⟨req, .bound (bnd 0) 2 0⟩)).putChan 1 { freshChannel with state := .recovery (copy .extend 1), normalPtr := 1 }

theorem test_meets_ArbitrationFollowsItsSteps_rotation :
    (rotating.chanAt 1).state = .recovery (copy .extend 1) ∧ (rotating.chanAt 1).onBus = none ∧
      (∀ k q w n m, WaitsOn rotating 1 k q w n m → m < 8) ∧ WaitsOn rotating 1 ⟨2, 0⟩ req (bnd 0) 2 0 ∧
      WaitsOn rotating 1 ⟨1, 0⟩ req (bnd 0) 1 3 ∧
      (∀ k q w n m, WaitsOn rotating 1 k q w n m → (rotating.portAt k.port).cls = .normal) ∧
      (∀ k q w n m, WaitsOn rotating 1 k q w n m → (rotating.portAt k.port).cls = (rotating.portAt 2).cls → k.port ≠ 2 →
        placesAfter (pointerOf (rotating.chanAt 1) (rotating.portAt 2).cls) 2 <
          placesAfter (pointerOf (rotating.chanAt 1) (rotating.portAt 2).cls) k.port) ∧
      ∀ k q w n m, k ≠ ⟨2, 0⟩ → k.port = 2 → WaitsOn rotating 1 k q w n m → 2 < n :=
  ⟨rfl, rfl, forall_waits (P := fun _ _ m => m < 8) (by decide), ⟨rfl, rfl⟩, ⟨rfl, rfl⟩,
    forall_waits (P := fun k _ _ => (rotating.portAt k.port).cls = .normal) (by decide),
    forall_waits (P := fun k _ _ => (rotating.portAt k.port).cls = (rotating.portAt 2).cls → k.port ≠ 2 →
      placesAfter (pointerOf (rotating.chanAt 1) (rotating.portAt 2).cls) 2 <
        placesAfter (pointerOf (rotating.chanAt 1) (rotating.portAt 2).cls) k.port) (by decide),
    fun k q w n m hk hp hw => forall_waits (P := fun k n _ => k ≠ ⟨2, 0⟩ → k.port = 2 → 2 < n) (by decide) k q w n m hw hk hp⟩
theorem test_recoveryEnd_rotates :
    ((after (.recoveryEnd 1) rotating).chanAt 1).onBus = some ⟨2, 0⟩ ∧ ((after (.recoveryEnd 1) rotating).chanAt 1).normalPtr = 2 ∧
      (after (.recoveryEnd 1) rotating).ctxAt ⟨1, 0⟩ = some ⟨req, .bound (bnd 0) 1 4⟩ ∧
      ((after (.recoveryEnd 1) rotating).chanAt 1).state.code = 1 ∧ (bnd 0).plan[(bnd 0).completed]? = some ⟨.read, 0x402, 3⟩ := by
  decide
theorem test_meets_ArbitrationFollowsItsSteps_normal :
    (∀ k q w n m, WaitsOn (waits 7 0) 1 k q w n m → m < 8) ∧ WaitsOn (waits 7 0) 1 ⟨0, 2⟩ req (bnd 0) 1 7 ∧
      (∀ k q w n m, WaitsOn (waits 7 0) 1 k q w n m → ((waits 7 0).portAt k.port).cls = .normal) ∧
      ∀ k q w n m, k ≠ ⟨0, 2⟩ → k.port = 0 → WaitsOn (waits 7 0) 1 k q w n m → 1 < n :=
  ⟨forall_waits (P := fun _ _ m => m < 8) (by decide), ⟨rfl, rfl⟩,
    forall_waits (P := fun k _ _ => ((waits 7 0).portAt k.port).cls = .normal) (by decide),
    fun k q w n m hk hp hw => forall_waits (P := fun k n _ => k ≠ ⟨0, 2⟩ → k.port = 0 → 1 < n) (by decide) k q w n m hw hk hp⟩

def entriesFrom (l : List (Fin 64)) : List Entry := l.map fun i => .retire i none

/-- An INSTALL or AMEND request with every field at a bound, and the same with a size exponent of 9. -/
def boundPayload (slot opts exp gen : Byte) : List Byte :=
  [slot, opts, 0, 0, 0, 0xF0, exp, 7, 3, 4, 7, 0xFF, 0, 0, 0, 0, 0xFF, 0xFF, 0xFF, 0xFF, gen]

theorem test_meets_StagingAppendsTheEntry :
    let es := entriesFrom [10, 11, 12, 13, 14, 15, 16]
    let s := withSet .opened es [] [] windowed
    s.changeSet.state ≠ .committing ∧ es.length = 7 ∧
      (byteAt (boundPayload 63 3 28 0) 0 = 63 ∧ fieldCheck (rawWindowOf (boundPayload 63 3 28 0)) = none ∧
        (∀ e ∈ es, e.slot ≠ slotOf (boundPayload 63 3 28 0)) ∧ (s.slotAt (slotOf (boundPayload 63 3 28 0))).state = .free) ∧
      (fieldCheck (rawWindowOf (boundPayload 5 7 28 7)) = none ∧ (∀ e ∈ es, e.slot ≠ slotOf (boundPayload 5 7 28 7)) ∧
        (s.slotAt (slotOf (boundPayload 5 7 28 7))).state = .live ∧ (rawAt (boundPayload 5 7 28 7) 1).getLsbD 2 = true ∧
        rawAt (boundPayload 5 7 28 7) 20 = (s.slotAt (slotOf (boundPayload 5 7 28 7))).generation) ∧
      (s.slotAt (slotOf [5, 4, 7])).state = .live ∧ rawAt [5, 4, 7] 2 = (s.slotAt (slotOf [5, 4, 7])).generation := by
  decide +kernel
theorem test_meets_StagingRefusedByItsFirstFailingCheck :
    (draining []).changeSet.state = .committing ∧ 63 < byteAt (boundPayload 64 7 28 7) 0 ∧
      fieldCheck (rawWindowOf (boundPayload 5 7 9 7)) = some 1 ∧ fieldCheck (rawWindowOf (boundPayload 5 7 28 7)) = none ∧
      ((entriesFrom [4, 5])[1]? = some (.retire 5 none) ∧
        ∀ j f, j < 1 → (entriesFrom [4, 5])[j]? = some f → f.slot ≠ slotOf (boundPayload 5 7 28 7)) ∧
      (entriesFrom [10, 11, 12, 13, 14, 15, 16, 17]).length = 8 ∧
      (windowed.slotAt (slotOf (boundPayload 6 7 28 7))).state ≠ .live ∧
      (windowed.slotAt (slotOf (boundPayload 5 7 28 7))).state ≠ .free ∧ (windowed.slotAt (slotOf [6, 0, 0])).state ≠ .live ∧
      rawAt (boundPayload 5 7 28 8) 20 ≠ (windowed.slotAt (slotOf (boundPayload 5 7 28 8))).generation ∧
      ((windowed.slotAt (slotOf [5, 4, 8])).state = .live ∧ (rawAt [5, 4, 8] 1).getLsbD 2 = true ∧
        rawAt [5, 4, 8] 2 ≠ (windowed.slotAt (slotOf [5, 4, 8])).generation) :=
  ⟨by decide, by decide, by decide +kernel, by decide +kernel, ⟨by decide, fun j f hj h => by
    obtain rfl : j = 0 := by omega
    cases h
    decide⟩, by decide, by decide, by decide, by decide, by decide, by decide⟩
theorem test_stageInstall_of_a_live_slot :
    answerOf (after .stageInstall (given .stageInstall (installPayload 5) windowed)) = some (.badState, [1]) := by decide

def opened : State := withSet .opened [retire5] [] [] windowed
def openedBusy : State := withSet .opened [retire5] [] [] (onBus (.beat (copy .extend 1) .strobe) 0 0 false)

theorem no_contexts : ∀ id, opened.ctxAt id = none := (State.noContexts_iff _).1 (by decide)

theorem test_meets_CommitAccepted :
    (openedBusy.changeSet.state = .opened ∧ openedBusy.changeSet.entries ≠ [] ∧ openedBusy.firstConflict openedBusy.changeSet.entries = none ∧
      ∃ id ∈ ctxIds, blocks (openedBusy.footprintFor openedBusy.changeSet.entries) (openedBusy.ctxAt id) = true) ∧
    (opened.changeSet.state = .opened ∧ opened.changeSet.entries ≠ [] ∧ opened.firstConflict opened.changeSet.entries = none ∧
      opened.startUp.state = .ready ∧ (opened.changeSet.entries.map Entry.slot).Nodup) ∧
    ∀ id, blocks (opened.footprintFor opened.changeSet.entries) (opened.ctxAt id) = false :=
  ⟨by decide +kernel, by decide +kernel, fun id => by rw [no_contexts id]; rfl⟩
theorem test_meets_CommitRefused :
    windowed.changeSet.state = .closed ∧ (withSet .opened [] [] [] windowed).changeSet.entries = [] ∧
      (draining []).changeSet.state = .committing ∧
      (windowed.firstConflict [.install 6 win]).isSome = true := by decide +kernel
theorem test_first_conflict_by_entry_and_slot :
    windowed.firstConflict [.install 9 { win with rank := 1 }, .install 8 win, .install 3 win] = some ⟨8, 1, 3, some 2⟩ := by
  decide +kernel
theorem test_meets_ApplyTakesEveryEntry :
    ((draining []).changeSet.state = .committing ∧ (draining []).startUp.state ≠ .waiting ∧ (draining []).blockingCount = 0 ∧
      (draining []).changeSet.holdList = [] ∧ ((draining []).changeSet.entries.map Entry.slot).Nodup) ∧
    0 < (withSet .committing [retire5] [{ base := 0x1000, sizeExp := 12 }] []
      (onBus (.beat (copy .extend 1) .strobe) 0 0 false)).blockingCount ∧
    (waitingFor windowed).startUp.state = .waiting ∧ windowed.changeSet.state ≠ .committing := by decide +kernel
theorem test_meets_HoldListEmptiesAtApplyAndDiscard :
    (held (draining [⟨0, 3⟩])).changeSet.state = .committing ∧ (held (draining [⟨0, 3⟩])).startUp.state ≠ .waiting ∧
      (held (draining [⟨0, 3⟩])).blockingCount = 0 ∧ (⟨0, 3⟩ : CtxId) ∈ (held (draining [⟨0, 3⟩])).changeSet.holdList ∧
      (held (draining [⟨0, 3⟩])).ctxAt ⟨0, 3⟩ = some ⟨req, .held⟩ := by decide +kernel
theorem test_meets_DiscardEmptiesTheSet :
    windowed.changeSet.state = .closed ∧ opened.changeSet.state = .opened ∧ opened.changeSet.holdList = [] ∧
      (draining []).changeSet.state = .committing ∧ (draining []).changeSet.holdList = [] := by decide

/-- A command just dispatched is in its owner's hands with its payload. -/
theorem test_dispatched (code : CommandCode) (p : List Byte) (s : State) : Dispatched code p (given code p s) := rfl

theorem test_meets_SetPortChecksThenReplaces :
    3 < byteAt [4, 2, 2] 0 ∧ byteAt [3, 2, 2] 0 = 3 ∧ 1 < byteAt [3, 2, 2] 1 ∧ byteAt [3, 1, 2] 1 = 1 ∧
      1 < byteAt [3, 1, 2] 2 ∧ byteAt [3, 1, 1] 2 = 1 ∧ (leaving.portAt 0).state = .inReset ∧
      (windowed.portAt 3).state ≠ .inReset := by decide

def onBusCtx : Option Context → Bool
  | some ⟨_, .onBus _ _ _⟩ => true
  | _ => false

theorem none_onBus (tag : Fin 4) (r : Request) (b : Binding) (stamp : Nat) (m : Bool) :
    doneCtx.ctxAt ⟨0, tag⟩ ≠ some ⟨r, .onBus b stamp m⟩ := by
  intro h
  have no : ∀ tag, onBusCtx (doneCtx.ctxAt ⟨0, tag⟩) = false := by decide
  have := no tag
  rw [h] at this
  cases this

theorem test_meets_ResetPortAnswersOrWaits :
    ((doneCtx.portAt 0).prstn = false ∧ (doneCtx.portAt 0).state ≠ .inReset ∧ doneCtx.changeSet.state ≠ .committing ∧
      doneCtx.startUp.state = .ready) ∧
    (∀ tag r b stamp m, doneCtx.ctxAt ⟨0, tag⟩ ≠ some ⟨r, .onBus b stamp m⟩) ∧
    (3 < byteAt [4] 0 ∧ byteAt [3] 0 = 3) ∧
    ((leaving.portAt 0).state = .inReset ∧ (leaving.putCtx ⟨0, 3⟩ (some ⟨req, .held⟩)).ctxAt ⟨0, 3⟩ ≠ none) ∧
    ResetWaits (leaving.putLink { leaving.link with state := .executing ⟨.resetPort, [0], true⟩ }) 0 [0] :=
  ⟨by decide, none_onBus, by decide, by decide, ⟨rfl, by decide⟩⟩
theorem test_meets_ResetPortAnswersOrWaits_set (st : ChanState) :
    ResetDrainsTheSet (given .resetPort [0] boundDraining) 0 ∧ ResetDrainsNothing (onBusDraining st 0 0 false) 0 ∧
      ((onBusDraining st 0 0 false).portAt 0).state ≠ .inReset ∧ ((onBusDraining st 0 0 false).portAt 0).prstn = false ∧
      onBusCtx ((onBusDraining st 0 0 false).ctxAt ⟨0, 1⟩) = true ∧
      ((doneCtx.putPort 0 { doneCtx.portAt 0 with prstn := true }).portAt 0).prstn = true :=
  ⟨test_meets_PrstnAssertedStartsAPortReset_drains.2.2, .inr ⟨⟨0, 1⟩, rfl, fun _ => ⟨_, _, _, _, rfl⟩⟩, (fun h => by cases h), rfl,
    rfl, by decide⟩
theorem test_meets_ResetPortAnswersOrWaits_on_bus (st : ChanState) :
    let s := onBus st 0 0 false
    (s.portAt 0).prstn = false ∧ (s.portAt 0).state ≠ .inReset ∧ s.changeSet.state ≠ .committing ∧
      ∃ tag r b stamp m, s.ctxAt ⟨0, tag⟩ = some ⟨r, .onBus b stamp m⟩ :=
  ⟨rfl, (fun h => by cases h), (fun h => by cases h), 1, req, bnd 0, 0, false, rfl⟩
theorem test_meets_SetProfileChecksThenReplaces :
    (7 < byteAt [8, 8] 0) ∧ (byteAt [7, 8, 0] 0 = 7 ∧ 7 < byteAt [7, 8, 0] 1) ∧
      (∀ n ∈ [(0 : Byte), 32], byteAt [7, 7, n] 2 = 0 ∨ 31 < byteAt [7, 7, n] 2) ∧ 1 < byteAt [7, 7, 31, 2] 3 ∧
      (byteAt [7, 7, 31, 1, 15, 0] 4 + 256 * byteAt [7, 7, 31, 1, 15, 0] 5 < 16 ∧
        4095 < byteAt [7, 7, 31, 1, 0, 16] 4 + 256 * byteAt [7, 7, 31, 1, 0, 16] 5) ∧
      7 < byteAt [7, 7, 31, 1, 255, 15, 8] 6 ∧
      byteAt [7, 7, 31, 1, 255, 15, 7] 4 + 256 * byteAt [7, 7, 31, 1, 255, 15, 7] 5 = 4095 ∧
      byteAt [7, 7, 31, 1, 255, 15, 7] 6 = 7 := by decide
theorem test_meets_SetChannelAndRestoreChannel :
    3 < byteAt [4, 1] 0 ∧ byteAt [3, 0] 1 = 0 ∧ 16 < byteAt [3, 17] 1 ∧ byteAt [3, 1] 1 = 1 ∧ byteAt [3, 16] 1 = 16 ∧
      (windowed.chanAt 1).state ≠ .offline ∧ (offlined.chanAt 1).state = .offline := by decide
theorem test_meets_ClearFaultNeedsTheCurrentCount :
    windowed.faultAt 3 = none ∧ (windowed.putFault 3 (some (fault 255))).faultAt 3 = some (fault 255) ∧
      byteAt [3, 255] 1 = (fault 255).further ∧ byteAt [3, 254] 1 ≠ (fault 255).further ∧ 3 < byteAt [4, 0] 0 := by decide
theorem test_meets_AckAttentionClearsNamedLatchedFlags :
    2048 ≤ byteAt [0, 8] 0 + 256 * byteAt [0, 8] 1 ∧ (byteAt [1, 7] 0 + 256 * byteAt [1, 7] 1 < 2048 ∧ byteAt [1, 7] 0 ≠ 0) ∧
      byteAt [0, 7] 0 + 256 * byteAt [0, 7] 1 < 2048 ∧ byteAt [0, 7] 0 = 0 := by decide
theorem test_meets_SetAttentionMaskReplacesTheMask :
    2048 ≤ byteAt [0, 8] 0 + 256 * byteAt [0, 8] 1 ∧ byteAt [0xFF, 7] 0 + 256 * byteAt [0xFF, 7] 1 < 2048 := by decide
theorem test_meets_QueryWindowReportsTheSlot :
    63 < byteAt [64] 0 ∧ byteAt [63] 0 = 63 ∧ (windowed.slotAt 63).state = .free ∧ (windowed.slotAt 5).state ≠ .free := by
  decide

def looked : Request := { kind := .write, size := 2, address := 0x1FFE, data := [] }

theorem test_meets_FindAddressAnswersTheOutcome :
    (3 < byteAt [4] 0 ∧ accessKindOf (byteAt [3, 0] 1) = none ∧ accessKindOf (byteAt [3, 4] 1) = none ∧
      accessKindOf (byteAt [3, 3, 3] 1) = some .swap ∧ byteAt [3, 3, 3] 2 = 3) ∧
    HeldAtStep1 (draining []) looked ∧ ¬ HeldAtStep1 windowed looked ∧
    NoWindowAt windowed 0x2000 ∧
    (∃ d w, FaultsAs windowed 0 { looked with address := 0x1FFF } .span d .span (some w)) ∧
    (∃ d w, FaultsAs windowed 1 looked .denied d .denied (some w)) ∧
    SelectsWhole windowed looked 5 ∧ Allows ((windowed.slotAt 5).window.rights.look 0) (windowed.slotAt 5).window.swapAllowed .write ∧
    (windowed.chanAt (windowed.slotAt 5).window.channel).state ≠ .offline ∧
    SelectsWhole offlined looked 5 ∧ (offlined.chanAt (offlined.slotAt 5).window.channel).state = .offline :=
  ⟨by decide, (footprintHit_iff _ _).1 (by decide), fun h => not_held.1 h.1, nothing_at only_five.1 (by decide),
    ⟨_, _, .span 5 (selects_five only_five.1 (by decide)) ⟨1, by decide, .inl (nothing_at only_five.1 (by decide))⟩⟩,
    ⟨_, _, .denied 5 (selects_whole only_five.1 (by decide)) (by rw [← granted_iff]; decide)⟩,
    selects_whole only_five.1 (by decide), (granted_iff _ _ _).1 (by decide), by decide,
    selects_whole only_five.2 (by decide), by decide⟩
theorem test_meets_QueriesChangeNothingButTheAnswer :
    byteAt [3] 0 ≤ 3 ∧ byteAt [7] 0 ≤ 7 ∧ 3 < byteAt [4] 0 ∧ 7 < byteAt [8] 0 := by decide
theorem test_meets_QueryChannelAndProfileReportTheItems (st : ChanState) :
    OnBus (onBus st 1 0 true) 1 ⟨0, 1⟩ req (bnd 1) 0 true ∧ (3 : Fin 4).1 = byteAt [3] 0 ∧ (7 : Fin 8).1 = byteAt [7] 0 ∧
      (windowed.chanAt 3).onBus = none :=
  ⟨⟨rfl, rfl⟩, by decide, by decide, by decide⟩
theorem test_queryChannel_with_nothing_on_bus : answerOf (after .queryChannel (given .queryChannel [3] ready)) =
    some (.done, [0, 4, 0, 3, 3, 0, 0xFF, 0xFF, 0xFF, 0xFF, 0]) := by decide
theorem test_meets_ReadFaultReportsTheRecord :
    windowed.faultAt 3 = none ∧ (windowed.putFault 3 (some (fault 255))).faultAt 3 = some (fault 255) ∧
      (fault 0).window = none ∧ (fault 0).target = none ∧ ({ fault 0 with target := some ⟨3, 0x3FF, 7⟩ } : FaultRecord).target.isSome ∧
      ({ fault 0 with window := some ⟨63, 255, none⟩ } : FaultRecord).window.isSome := by decide

theorem test_meets_CommandFrameIsDispatched :
    TakesFrames ready ∧ ready.link.exchange = .none ∧ commandOf 0x11 = some .stageAmend ∧ CommandCode.stageAmend ≠ .identify ∧
      (boundPayload 5 7 28 7).length = CommandCode.stageAmend.payloadLength :=
  ⟨.inl rfl, by decide⟩
theorem test_meets_CommandFrameIsRejected :
    TakesFrames (after .mcsRelease (after (.commandFrame [0x13, 9]) ready)) ∧
      (after .mcsRelease (after (.commandFrame [0x13, 9]) ready)).link.exchange = .none ∧ 48 < (49 : Byte).toNat ∧
      (List.replicate 48 (0 : Byte)).length = (48 : Byte).toNat ∧ (1 : Byte) ≠ crc8 ([0x13, 9, 0] ++ []) ∧
      commandOf 0x00 = none ∧ commandOf 0x13 = some .commit ∧ (1 : Byte).toNat ≠ CommandCode.commit.payloadLength ∧
      (after (.commandFrame [0x13, 9]) ready).link.exchange = .undecided [0x13, 9] ∧
      (([0x13, 9] : List Byte).length < 3) ∧ (byteAt [0x13, 9, 48] 2 ≤ 48 ∧ ([0x13, 9, 48] ++ List.replicate 48 (0 : Byte)).length = 3 + 48) ∧
      ∀ b, ready.link.exchange ≠ .undecided b :=
  ⟨.inr ⟨_, rfl⟩, by decide, by decide, by decide, by decide +kernel, by decide, by decide, by decide, by decide, by decide,
    by decide, fun b h => by cases h⟩
theorem test_meets_CommandWhileExecutingIsACollision (s : State) :
    (given .commit [] s).link.state = .executing ⟨.commit, [], false⟩ ∧ (given .commit [] s).link.exchange = .none := ⟨rfl, rfl⟩
theorem test_meets_ReadingExchangesReturnTheirFrames :
    (ready.link.state = .idle ∧ ready.link.exchange = .none) ∧
      (∃ r, (after .mcsRelease (after (.commandFrame [0x13, 9]) ready)).link.state = .answered r) ∧
      State.reset.link.state = .starting ∧ State.reset.link.exchange = .none ∧
      (∃ frame, (after .attentionExchange ready).link.exchange = .returning frame) ∧ ∀ frame, ready.link.exchange ≠ .returning frame :=
  ⟨by decide, ⟨_, rfl⟩, by decide, by decide, ⟨_, rfl⟩, fun _ h => by cases h⟩
theorem test_meets_ResetAllStopsThePart :
    (Dispatched .resetAll [] (given .resetAll [] doneCtx) ∧
      ∀ c copy stage, ((given .resetAll [] doneCtx).chanAt c).state ≠ .beat copy stage) ∧
    ((given .resetAll [] (onBus (.beat (copy .extend 1) .strobe) 0 0 false)).chanAt 1).state = .beat (copy .extend 1) .strobe ∧
    ∃ id r b stamp m, (given .resetAll [] (onBus (.recovery (copy .extend 1)) 1 0 false)).ctxAt id = some ⟨r, .onBus b stamp m⟩ :=
  ⟨⟨rfl, (noBeat_iff _).1 (by decide)⟩, by decide, ⟨0, 1⟩, req, bnd 1, 0, false, rfl⟩
theorem test_meets_QueryPortAndSetReportTheItems :
    (∀ q : Fin 4, q.1 = byteAt [byteOf q.1] 0) ∧ doneCtx.ctxAt ⟨0, 0⟩ = none ∧
      ((∃ d, doneCtx.ctxAt ⟨0, 1⟩ = some ⟨req, .done .ok d⟩) ∧ (doneCtx.portAt 0).queue[0]? = some 1) ∧
      ((held (draining [⟨0, 3⟩])).ctxAt ⟨0, 3⟩ = some ⟨req, .held⟩ ∧
        (held (draining [⟨0, 3⟩])).changeSet.holdList[0]? = some ⟨0, 3⟩ ∧
        (held (draining [⟨0, 3⟩])).changeSet.footprint[0]? = some { base := 0x1000, sizeExp := 12 } ∧
        (held (draining [⟨0, 3⟩])).changeSet.entries[0]? = some (.retire 5 none)) ∧
      (withSet .opened [.install 6 win] [] [] windowed).changeSet.entries[0]? = some (.install 6 win) :=
  ⟨by decide, by decide, ⟨⟨_, rfl⟩, by decide⟩, by decide, by decide⟩
theorem test_queryPort_of_a_done_context :
    (answerOf (after .queryPort (given .queryPort [0] doneCtx))).map (fun a => (a.2.drop 22).take 17) =
      some [1, 0x2D, 1, 4, 0x02, 0x10, 0, 0, 3, 0xFF, 5, 7, 1, 2, 2, 0, 0] := by decide
theorem test_querySet_of_a_retire :
    answerOf (after .querySet (given .querySet [] (held (draining [⟨0, 3⟩])))) =
      some (.done, [2, 1, 1, 0, 1, 2, 5, 0, 0xFF] ++ List.replicate 18 0xFF ++ [0x0C, 0x10, 0, 0]) := by decide
theorem test_meets_PlanCoversEveryByteOnce :
    ∀ n ∈ [1, 2, 4], (2 ^ 28 - n) + n ≤ 2 ^ 28 ∧ ∀ W ∈ [1, 2, 4], (planFor .read n (2 ^ 28 - n) W).length = (n + W - 1) / W := by
  decide +kernel

/-- A part with one context on the bus, one HELD, one DONE, a COMMITTING set and an event in its queue: it meets every law. -/
def lawful : State :=
  { ((((onBus (.beat (copy .extend 1) .strobe) 0 2 false).putSlot 5 { winSlot 1 with state := .frozen }).putCtx ⟨0, 3⟩
      (some ⟨req, .held⟩)).putCtx ⟨1, 2⟩ (some ⟨req, .done .noWindow .unbound⟩)).putPort 1 { ready.portAt 1 with queue := [2] } with
    changeSet := { state := .committing, entries := [retire5], footprint := [{ base := 0x1000, sizeExp := 12 }], holdList := [⟨0, 3⟩] }
    pending := [.minimumStrobeEnd 1 true false 7] }

/-- The contexts of the part, and what the others are. -/
theorem lawful_ctxs : ∀ id, lawful.ctxAt id = if id = ⟨0, 1⟩ then some ⟨req, .onBus (bnd 0) 0 false⟩ else
    if id = ⟨0, 3⟩ then some ⟨req, .held⟩ else if id = ⟨1, 2⟩ then some ⟨req, .done .noWindow .unbound⟩ else none :=
  forall_ids (by decide +kernel)

theorem test_meets_StepKeepsPortsFollowingEnables : PortsFollowEnables lawful ∧ ∃ t, step lawful = .next t :=
  ⟨by unfold PortsFollowEnables; decide, ⟨_, rfl⟩⟩
theorem test_meets_StepKeepsTheChangeSetLaw : ChangeSetLaw lawful := by unfold ChangeSetLaw; decide
theorem test_meets_StepKeepsTheChannelLaw : ChannelLaw lawful := by
  intro c
  refine ⟨?_, ?_, ?_⟩
  · revert c; decide
  · revert c; decide
  · intro h
    by_cases hc : c = 1
    · subst hc
      exact absurd rfl (h (copy .extend 1) .strobe)
    · clear h; revert c; decide +kernel
theorem test_meets_StepKeepsTheQueueLaw : QueueLaw lawful := by
  intro p
  refine ⟨by revert p; decide, fun t => ?_⟩
  rw [lawful_ctxs]
  have hq : t ∈ (lawful.portAt p).queue ↔ (⟨p, t⟩ : CtxId) = ⟨1, 2⟩ := by revert p t; decide
  rw [hq]
  split_ifs with h1 h2 h3
  · simp [h1]
  · simp [h2]
  · simp [h3]
  · simp [h3]
theorem test_meets_StepKeepsTheHoldListLaw : HoldListLaw lawful := by
  refine ⟨by decide, fun id => ?_, fun h => absurd rfl h⟩
  rw [lawful_ctxs]
  have hq : id ∈ lawful.changeSet.holdList ↔ id = ⟨0, 3⟩ := List.mem_singleton
  rw [hq]
  split_ifs with h1 h2 h3
  · simp [h1]
  · simp [h2]
  · simp [h3]
  · simp [h2]

/-- A COMMITTING set with nothing left to block it and one context held. -/
def heldPart : State := held (draining [⟨0, 3⟩])

theorem lawful_only_five : ∀ i, i ≠ 5 → lawful.slotAt i = freshSlot := by decide +kernel

theorem lawful_frozen (i : Fin 64) : (lawful.slotAt i).state = .frozen ↔ i = 5 := by
  by_cases h : i = 5
  · subst h; decide
  · rw [lawful_only_five i h]; simp [h, freshSlot]

theorem test_meets_HoldListEmptiesAtApplyAndDiscard_laws :
    OverlapLaw heldPart ∧ HoldListLaw heldPart ∧ heldPart.changeSet.state = .committing ∧ heldPart.startUp.state ≠ .waiting ∧
      heldPart.blockingCount = 0 := by
  have five : ∀ i, i ≠ 5 → heldPart.slotAt i = freshSlot := by decide +kernel
  have ctxs : ∀ id, heldPart.ctxAt id = if id = ⟨0, 3⟩ then some ⟨req, .held⟩ else none := forall_ids (by decide +kernel)
  refine ⟨⟨fun i j hij hi hj => ?_, ⟨fun i => ⟨fun h => ?_, ?_⟩, fun h => absurd rfl h, fun _ => by decide +kernel⟩, by decide⟩,
    ⟨by decide, fun id => ?_, fun h => absurd rfl h⟩, by decide, by decide, by decide⟩
  · exfalso
    by_cases h : i = 5
    · exact hj (by rw [five j (by rintro rfl; exact hij h)]; rfl)
    · exact hi (by rw [five i h]; rfl)
  · by_cases h5 : i = 5
    · exact ⟨rfl, retire5, by decide, rfl, h5.symm⟩
    · rw [five i h5] at h; cases h
  · rintro ⟨_, e, he, _, h⟩
    rw [← h, List.mem_singleton.1 he]; rfl
  · rw [ctxs]
    have hq : id ∈ heldPart.changeSet.holdList ↔ id = ⟨0, 3⟩ := List.mem_singleton
    rw [hq]
    split_ifs with h
    · simp [h]
    · simp [h]

theorem test_meets_StepKeepsTheOverlapLaw : OverlapLaw lawful := by
  refine ⟨fun i j hij hi hj => ?_, ⟨fun i => ?_, fun h => absurd rfl h, fun _ => by decide +kernel⟩, by decide⟩
  · exfalso
    by_cases h : i = 5
    · exact hj (by rw [lawful_only_five j (by rintro rfl; exact hij h)]; rfl)
    · exact hi (by rw [lawful_only_five i h]; rfl)
  · rw [lawful_frozen]
    exact ⟨fun h => ⟨rfl, retire5, by decide, rfl, h.symm⟩, fun ⟨_, e, he, _, h⟩ => by
      rw [← h, List.mem_singleton.1 he]; rfl⟩

theorem test_meets_StepKeepsTheBindingLaw : BindingLaw lawful := by
  refine ⟨by unfold CountsAgree; decide +kernel, fun id c b hc hb => ?_, ⟨by decide, by decide, fun i h => ?_, fun _ => by decide +kernel⟩,
    fun id c hc => ?_⟩
  · rw [lawful_ctxs] at hc
    split_ifs at hc
    all_goals cases hc
    all_goals cases hb
    refine ⟨by decide, by decide, ?_⟩
    unfold InRange
    decide +kernel
  · obtain rfl := (lawful_frozen i).1 h
    exact ⟨rfl, retire5, by decide, rfl, rfl⟩
  · rw [lawful_ctxs] at hc
    split_ifs at hc
    all_goals cases hc
    all_goals decide

end Sys2Proof.Tests
end

section
/-! SUPPORT. What a command can do to the slots, the contexts and the change set, said once: the inversion of exec for the laws of the tables. -/

namespace Sys2Proof.Machine

/-! ### What a command can do to the slots, the contexts and the set -/

/-- From s to t no slot, no context and nothing of the change set has changed. -/
structure State.SameTables (s t : State) : Prop where
  slots : t.slots = s.slots
  ctxs : t.ctxs = s.ctxs
  set : t.changeSet = s.changeSet

theorem State.SameTables.refl (s : State) : s.SameTables s := ⟨rfl, rfl, rfl⟩

theorem State.SameTables.trans {s t u : State} (h : s.SameTables t) (k : t.SameTables u) : s.SameTables u :=
  ⟨k.slots.trans h.slots, k.ctxs.trans h.ctxs, k.set.trans h.set⟩

theorem State.SameTables.kept {s t : State} (h : s.SameTables t) : s.TableKept t := tableKept_of h.slots h.set

theorem State.SameTables.overlapLaw {s t : State} (h : s.SameTables t) (hs : OverlapLaw s) : OverlapLaw t :=
  overlapLaw_kept h.kept hs

theorem State.SameTables.bindingLaw {s t : State} (h : s.SameTables t) (hs : BindingLaw s) : BindingLaw t :=
  bindingLaw_same hs h.ctxs h.slots h.set

theorem answer_sameTables (s : State) (st : AnswerStatus) (payload : List Byte) (lineHeld : Bool) :
    s.SameTables (s.answer st payload lineHeld) := ⟨rfl, rfl, rfl⟩

theorem markTaken_sameTables (s : State) : s.SameTables s.markTaken := by
  unfold State.markTaken
  split
  · exact ⟨rfl, rfl, rfl⟩
  · exact .refl s

theorem portCheck_sameTables (s : State) (p : Fin 4) : s.SameTables (s.portCheck p) :=
  let ⟨ctxs, set, slots⟩ := portCheck_tables s p
  ⟨slots, ctxs, set⟩

theorem recordFault_sameTables (s : State) (p : Fin 4) (f : FaultRecord) : s.SameTables (s.recordFault p f) :=
  let ⟨ctxs, set, slots⟩ := recordFault_ctxs s p f
  ⟨slots, ctxs, set⟩

theorem answerLineHeld_sameTables (s : State) (p : Fin 4) : s.SameTables (s.answerLineHeld p) := by
  unfold State.answerLineHeld
  split
  · exact answer_sameTables ..
  · exact .refl s

/-! The link reads and answers; it writes no table (R157 to R167). -/

theorem releaseMcs_sameTables (s : State) : s.SameTables s.releaseMcs := by
  unfold State.releaseMcs
  split <;> exact ⟨rfl, rfl, rfl⟩

theorem decideFrame_sameTables (s : State) (b : List Byte) : s.SameTables (s.decideFrame b) := by
  unfold State.decideFrame
  split
  case h_3 =>
    dsimp only
    split <;> exact ⟨rfl, rfl, rfl⟩
  all_goals exact ⟨rfl, rfl, rfl⟩

theorem commandExchange_sameTables (s : State) (b : List Byte) : s.SameTables (s.commandExchange b) := by
  unfold State.commandExchange
  split
  case h_1 | h_2 => exact ⟨rfl, rfl, rfl⟩
  case h_3 | h_4 => exact decideFrame_sameTables ..

theorem typedExchange_sameTables (s : State) (t : Byte) (b : List Byte) : s.SameTables (s.typedExchange t b) := by
  unfold State.typedExchange
  split
  · exact commandExchange_sameTables ..
  · split
    · exact ⟨rfl, rfl, rfl⟩
    · split <;> exact ⟨rfl, rfl, rfl⟩

theorem beginExchange_sameTables (s : State) (t : Byte) (b : List Byte) : s.SameTables (s.beginExchange t b) := by
  refine (releaseMcs_sameTables s).trans ?_
  unfold State.beginExchange
  dsimp only
  split
  case h_1 => exact ⟨rfl, rfl, rfl⟩
  all_goals exact typedExchange_sameTables ..

/-! ### The changes themselves -/

/-- A request as REQUEST_PRESENTED hands it over: its tag has no context, and it is of a size the part takes (R45, R47). -/
structure Takes (s : State) (id : CtxId) (r : Request) : Prop where
  free : s.ctxAt id = none
  size : 0 < r.size

/-- An entry that passed the staging checks: no set is COMMITTING, no entry names its slot, and the slot is LIVE for an AMEND or RETIRE and FREE for an INSTALL (R118). -/
structure Stageable (s : State) (e : Entry) : Prop where
  notCommitting : s.changeSet.state ≠ .committing
  new : ∀ f ∈ s.changeSet.entries, f.slot ≠ e.slot
  fits : (s.slotAt e.slot).state = if e.freezes then .live else .free

/-- Everything a command can do to the slots, the contexts and the change set. -/
inductive TableChange (s : State) : State → Prop where
  | same {t : State} (h : s.SameTables t) : TableChange s t
  | rst : TableChange s s.assertRst
  | reinitialised (u : State) (o : Origin) : TableChange s (u.reinitialise o)
  | resetAll : TableChange s s.takeResetAll.endWait
  | taken {u : State} {id : CtxId} {r : Request} (h : s.SameTables u) (new : Takes u id r) : TableChange s (u.resolveInto id r)
  | headTaken (p : Fin 4) (x : PortUnit) (h : x.queue = (s.portAt p).queue) : TableChange s ((s.putPort p x).takeHead p)
  | portReset {u t : State} (p : Fin 4) (h : s.SameTables u) (k : (u.startPortReset p).SameTables t) : TableChange s t
  | beatEnded (c : Fin 4) (copy : BeatCopy) (o : BeatOutcome) (cd : Word) : TableChange s (s.beatEnd c copy o cd)
  | recoveryEnded (c : Fin 4) : TableChange s (s.recoveryEnds c)
  | drainChecked : TableChange s s.drainCheck
  | staged (e : Entry) (h : Stageable s e) : TableChange s (s.appendEntry e)
  | accepted {t : State} (h : s.changeSet.state ≠ .committing) (free : s.firstConflict s.changeSet.entries = none)
      (k : s.accept.drainCheck.SameTables t) : TableChange s t
  | emptied {t : State} (h : s.changeSet.state = .opened) (k : s.closeSet.SameTables t) : TableChange s t
  | discarded {t : State} (k : s.discardCommitting.SameTables t) : TableChange s t

theorem TableChange.answered (s : State) (st : AnswerStatus) (payload : List Byte) (lineHeld : Bool := false) :
    TableChange s (s.answer st payload lineHeld) := .same (answer_sameTables ..)

/-- A command of an owner changes the tables as its owner does, or not at all (R169). -/
theorem own_tableChange {s : State} (code : CommandCode) {f : List Byte → State} (h : ∀ p, TableChange s (f p)) :
    TableChange s (s.own code f) :=
  own_keeps code (.same (.refl s)) fun p _ => h p

/-! ### Requests -/

theorem requestCheck_none {s : State} {id : CtxId} {n : Nat} (h : s.requestCheck id n = none) :
    s.ctxAt id = none ∧ 0 < n := by
  unfold State.requestCheck at h
  split at h
  · cases h
  · cases h
  · split at h
    · cases h
    · rename_i free
      split at h
      · rename_i size
        refine ⟨by simpa using free, ?_⟩
        simp only [sizeOk, Bool.or_eq_true, beq_iff_eq] at size
        omega
      · cases h

theorem present_tableChange (s : State) (id : CtxId) (r : Request) : TableChange s (s.present id r) := by
  unfold State.present
  split
  · dsimp only
    split
    · exact .same (.trans (t := s.answerRequest _ _) ⟨rfl, rfl, rfl⟩ (recordFault_sameTables ..))
    · exact .same ⟨rfl, rfl, rfl⟩
  · rename_i ok
    obtain ⟨free, size⟩ := requestCheck_none ok
    exact .taken (u := s.answerRequest id.port .taken) ⟨rfl, rfl, rfl⟩ ⟨free, size⟩

/-! ### Staging -/

/-- Staging checks that all pass leave the set not COMMITTING, the slot named by no entry, and in the state the entry needs (R118). -/
theorem stagingRefusal_none {s : State} {slot : Nat} {fields : Option RawWindow} {needs : SlotState} {g : Option Byte}
    (h : s.stagingRefusal slot fields needs g = none) :
    s.changeSet.state ≠ .committing ∧ (∀ f ∈ s.changeSet.entries, f.slot ≠ Fin.ofNat 64 slot) ∧
      (s.slotAt (Fin.ofNat 64 slot)).state = needs := by
  unfold State.stagingRefusal at h
  split at h
  · cases h
  · rename_i opened
    split at h
    · cases h
    · simp only [Option.or_eq_none_iff] at h
      obtain ⟨_, duplicate, _, state, _⟩ := h
      refine ⟨opened, entryNaming_none.1 (by simpa [State.duplicateRefusal] using duplicate), ?_⟩
      unfold State.stateRefusal at state
      split at state
      · assumption
      · cases state

theorem stage_tableChange {s : State} {slot : Nat} {fields : Option RawWindow} {needs : SlotState} {g : Option Byte}
    {e : Entry} (hslot : e.slot = Fin.ofNat 64 slot) (hneeds : needs = if e.freezes then .live else .free) :
    TableChange s (s.stage (s.stagingRefusal slot fields needs g) e) := by
  unfold State.stage
  split
  · exact .answered ..
  · rename_i ok
    obtain ⟨opened, new, state⟩ := stagingRefusal_none ok
    exact .staged e ⟨opened, hslot ▸ new, by rw [hslot, state, hneeds]⟩

/-! ### Every command -/

theorem commitOpen_tableChange {s : State} (h : s.changeSet.state = .opened) : TableChange s s.commitOpen := by
  unfold State.commitOpen
  split
  · exact .answered ..
  · rename_i free
    exact .accepted (by simp [h]) free (answer_sameTables ..)

theorem resetPort_tableChange (s : State) (p : Fin 4) : TableChange s (s.resetPort p) := by
  have follows : ∀ u : State, u.SameTables
      (if (s.portAt p).prstn then u.answer .done [] true else u.markTaken.portCheck p) := by
    intro u
    split
    · exact answer_sameTables ..
    · exact (markTaken_sameTables u).trans (portCheck_sameTables ..)
  unfold State.resetPort
  dsimp only
  by_cases h : (s.portAt p).state = .inReset
  · rw [if_pos h]
    exact .same (follows s)
  · rw [if_neg h]
    exact .portReset p (.refl s) (follows _)

theorem prstnAsserted_tableChange (s : State) (p : Fin 4) (x : PortUnit) (already : Prop) [Decidable already] :
    TableChange s ((if already then s.putPort p x else (s.putPort p x).startPortReset p).answerLineHeld p) := by
  have line : s.SameTables (s.putPort p x) := ⟨rfl, rfl, rfl⟩
  split
  · exact .same (line.trans (answerLineHeld_sameTables ..))
  · exact .portReset p line (answerLineHeld_sameTables ..)

theorem endWait_tableChange (s : State) {u : State} (h : s.SameTables u) : TableChange s u.endWait :=
  endWait_keeps (.same h) (.reinitialised ..)

/-- The one inversion of exec for the laws of the tables: whatever the command, the slots, the contexts and the set change in one of these ways. -/
theorem exec_tableChange {c : Instr} {s t : State} (h : exec c s = .next t) : TableChange s t := by
  cases c <;> cases h
  case rstAsserted => exact .rst
  case rstReleased =>
    split
    · exact .reinitialised ..
    · exact .same (.refl s)
  case reinitialisation => exact endWait_tableChange s ⟨rfl, rfl, rfl⟩
  case startupCompletion =>
    split
    · rename_i o _
      cases o <;> exact .same ⟨rfl, rfl, rfl⟩
    · exact .same (.refl s)
  case requestPresented =>
    split
    · exact .same (.refl s)
    · split
      · exact .same (.refl s)
      · exact present_tableChange ..
  case responseTaken =>
    split
    · exact .same (.refl s)
    · exact .headTaken _ _ rfl
  case prstnAsserted => exact prstnAsserted_tableChange ..
  case prstnDeasserted p =>
    exact .same (.trans (t := s.putPort p { s.portAt p with prstn := false }) ⟨rfl, rfl, rfl⟩ (portCheck_sameTables ..))
  case portLeavesInReset => exact .same (portCheck_sameTables ..)
  case requestRemoved | prtkSampledLow => exact .same ⟨rfl, rfl, rfl⟩
  case strobeAssert =>
    split
    · exact .same ⟨rfl, rfl, rfl⟩
    · exact .same (.refl s)
  case minimumStrobeEnd | extensionPeriodEnd =>
    split
    · split
      · exact .beatEnded ..
      · split
        · exact .beatEnded ..
        · exact .same ⟨rfl, rfl, rfl⟩
    · exact .same (.refl s)
  case beatTimeout =>
    split
    · split
      · exact .beatEnded ..
      · exact .same (.refl s)
    · exact .same (.refl s)
  case recoveryEnd =>
    split
    · exact .recoveryEnded _
    · exact .same (.refl s)
  case applySet => exact .drainChecked
  case commandFrame | responseExchange | attentionExchange | unknownTypeExchange => exact .same (beginExchange_sameTables ..)
  case mcsRelease => exact .same (releaseMcs_sameTables s)
  case collision =>
    split
    · exact .same (beginExchange_sameTables ..)
    · exact .same (.refl s)
  case resetAll => exact own_tableChange _ fun _ => .resetAll
  case stageInstall | stageAmend | stageRetire => exact own_tableChange _ fun _ => stage_tableChange rfl rfl
  case commit =>
    refine own_tableChange _ fun _ => ?_
    split
    · exact .answered ..
    · rename_i opened
      split
      · exact .answered ..
      · exact commitOpen_tableChange opened
    · exact .answered ..
  case discard =>
    refine own_tableChange _ fun _ => ?_
    split
    · exact .answered ..
    · rename_i opened
      exact .emptied opened (answer_sameTables ..)
    · exact .discarded (answer_sameTables ..)
  case resetPort =>
    refine own_tableChange _ fun _ => ?_
    split
    · exact .answered ..
    · exact resetPort_tableChange ..
  case identify | querySet => exact own_tableChange _ fun _ => .answered ..
  case queryWindow | queryPort | queryProfile | queryChannel =>
    refine own_tableChange _ fun _ => ?_
    split <;> exact .answered ..
  case findAddress =>
    refine own_tableChange _ fun _ => ?_
    split
    · exact .answered ..
    · split
      · exact .answered ..
      · split <;> exact .answered ..
  case readFault =>
    refine own_tableChange _ fun _ => ?_
    split
    · exact .answered ..
    · split <;> exact .answered ..
  case setPort =>
    refine own_tableChange _ fun _ => ?_
    split
    · exact .answered ..
    · split
      · exact .answered ..
      · exact .answered ..
      · dsimp only
        split
        · exact .answered ..
        · exact .same ⟨rfl, rfl, rfl⟩
  case setProfile | setAttentionMask =>
    refine own_tableChange _ fun _ => ?_
    split
    · exact .answered ..
    · exact .same ⟨rfl, rfl, rfl⟩
  case setChannel | ackAttention =>
    refine own_tableChange _ fun _ => ?_
    split
    · exact .answered ..
    · split
      · exact .answered ..
      · exact .same ⟨rfl, rfl, rfl⟩
  case restoreChannel =>
    refine own_tableChange _ fun _ => ?_
    split
    · exact .answered ..
    · dsimp only
      split
      · exact .same ⟨rfl, rfl, rfl⟩
      · exact .answered ..
  case clearFault =>
    refine own_tableChange _ fun _ => ?_
    split
    · exact .answered ..
    · split
      · exact .answered ..
      · split
        · exact .same ⟨rfl, rfl, rfl⟩
        · exact .answered ..

end Sys2Proof.Machine
end

section
/-! The law of overlaps and the law of bindings through every change of the tables (R9, R14 to R18, R120, R123). -/

namespace Sys2Proof.Machine

/-! ### The law of overlaps through the shared operations -/

theorem sweepOne_overlapLaw {s : State} {id : CtxId} (hs : OverlapLaw s) : OverlapLaw (s.sweepOne id) := by
  unfold State.sweepOne
  split
  case h_1 => exact drainCheck_overlapLaw (overlapLaw_kept ((lowerCount_kept ..).trans (endWithFault_kept ..)) hs)
  all_goals exact hs

theorem sweep_overlapLaw {s : State} {c : Fin 4} (hs : OverlapLaw s) : OverlapLaw (s.sweep c) := by
  unfold State.sweep
  split
  case h_1 => exact foldl_inv (fun _ _ h => sweepOne_overlapLaw h) _ _ hs
  all_goals exact hs

theorem planEnds_overlapLaw {s : State} {c : Fin 4} {copy : BeatCopy} {id : CtxId} {r : Request} {b : Binding}
    {o : BeatOutcome} (hs : OverlapLaw s) : OverlapLaw (s.planEnds c copy id r b o) := by
  have ended : s.TableKept ((s.lowerCount b.window.slot).clearOnBus c) := (lowerCount_kept ..).trans (tableKept_of rfl rfl)
  have follows : ∀ u : State, s.TableKept u → OverlapLaw (((u.settleChannel c copy).drainCheck).sweep c) :=
    fun u hu => sweep_overlapLaw (drainCheck_overlapLaw (overlapLaw_kept (hu.trans (settleChannel_kept ..)) hs))
  cases o with
  | normal => exact follows _ (ended.trans (tableKept_of rfl rfl))
  | error => exact follows _ (ended.trans (endWithFault_kept ..))
  | timeout => exact follows _ (ended.trans (endWithFault_kept ..))

theorem freeAbandoned_kept (s : State) (c : Fin 4) (id : CtxId) (b : Binding) : s.TableKept (s.freeAbandoned c id b) := by
  have freed : s.TableKept (s.putCtx id none) := tableKept_of rfl rfl
  exact (freed.trans (lowerCount_kept ..)).trans (tableKept_of rfl rfl)

theorem beatEnd_overlapLaw {s : State} {c : Fin 4} {copy : BeatCopy} {o : BeatOutcome} {cd : Word} (hs : OverlapLaw s) :
    OverlapLaw (s.beatEnd c copy o cd) := by
  have lines : OverlapLaw (s.endBeatLines c o) := overlapLaw_kept (tableKept_of rfl rfl) hs
  unfold State.beatEnd
  split
  · exact hs
  split
  case h_1 id _ r b stamp marked _ =>
    dsimp only
    split
    · refine endWait_keeps (overlapLaw_kept (portCheck_kept ..) (sweep_overlapLaw (drainCheck_overlapLaw ?_)))
        (reinitialise_overlapLaw ..)
      exact overlapLaw_kept ((freeAbandoned_kept ..).trans (settleChannel_kept ..)) lines
    · split
      · split
        · refine overlapLaw_kept (settleChannel_kept ..) (overlapLaw_kept ?_ lines)
          exact tableKept_of rfl rfl
        · exact planEnds_overlapLaw lines
      · exact planEnds_overlapLaw lines
      · exact planEnds_overlapLaw lines
  all_goals exact hs

theorem recoveryEnds_overlapLaw {s : State} {c : Fin 4} (hs : OverlapLaw s) : OverlapLaw (s.recoveryEnds c) := by
  have goesOn : OverlapLaw (s.afterRecovery c) := overlapLaw_kept (afterRecovery_kept ..) hs
  unfold State.recoveryEnds
  split
  · exact goesOn
  split
  case h_1 =>
    refine endWait_keeps (overlapLaw_kept (portCheck_kept ..) (drainCheck_overlapLaw ?_)) (reinitialise_overlapLaw ..)
    exact overlapLaw_kept ((freeAbandoned_kept ..).trans (afterRecovery_kept ..)) hs
  all_goals exact goesOn

/-- Freeing a port's BOUND contexts keeps the law, a set applied on the way or not (R54, R136). -/
theorem boundLeaves_overlapLaw {s t : State} {l : List CtxId} (h : BoundLeaves s l t) (hs : OverlapLaw s) : OverlapLaw t := by
  induction h with
  | done => exact hs
  | freed s t u k rest q b n m bound check more ih =>
    cases check
    have freed : s.TableKept (s.putCtx k none) := tableKept_of rfl rfl
    have lowered := lowerCount_kept (s.putCtx k none) b.window.slot
    exact ih (drainCheck_overlapLaw (overlapLaw_kept (freed.trans lowered) hs))
  | other s u k rest no more ih => exact ih hs

/-- The start of a port reset keeps the law, a set COMMITTING or not (R54). -/
theorem startPortReset_overlapLaw {s : State} {p : Fin 4} (hs : OverlapLaw s) : OverlapLaw (s.startPortReset p) := by
  obtain ⟨u, order, v, held, _, bound, ends⟩ := startPortReset_steps s p
  have slot : ∀ i, u.slotAt i = s.slotAt i := fun i => congrArg (Table.look · i) held.slots
  have kept : s.TableKept u := by
    constructor <;> simp [slot, held.set]
  exact overlapLaw_kept (tableKept_of ends.slots ends.set) (boundLeaves_overlapLaw bound (overlapLaw_kept kept hs))

theorem takeHead_kept (s : State) (p : Fin 4) : s.TableKept (s.takeHead p) := by
  unfold State.takeHead
  split <;> exact tableKept_of rfl rfl

theorem resetAllCtx_kept (s : State) (id : CtxId) : s.TableKept (s.resetAllCtx id) := by
  have set := (resetAllCtx_keeps s id).2.2.1
  refine ⟨fun i => ?_, fun i => ?_, fun i => ?_, by rw [set], by rw [set], by rw [set]⟩ <;>
    rw [resetAllCtx_slotAt] <;> rfl

/-- What the taking of RESET_ALL leaves of the slots, the contexts and the set: the freed contexts, and an empty hold list (R186). -/
theorem takeResetAll_tables (s : State) :
    (∀ i, s.takeResetAll.slotAt i = (ctxIds.foldl State.resetAllCtx s).slotAt i) ∧
      (∀ id, s.takeResetAll.ctxAt id = (ctxIds.foldl State.resetAllCtx s).ctxAt id) ∧
      s.takeResetAll.changeSet = { (ctxIds.foldl State.resetAllCtx s).changeSet with holdList := [] } := by
  unfold State.takeResetAll
  generalize ctxIds.foldl State.resetAllCtx s = u
  obtain ⟨slots, ctxs, set⟩ := markTaken_sameTables
    (((u.mapPorts PortUnit.enterReset).putChangeSet { u.changeSet with holdList := [] }).emptyFaults.putStartUp
      { s.startUp with state := .waiting })
  exact ⟨fun i => congrArg (Table.look · i) slots, fun id => congrArg (Table.look · id.idx) ctxs, set⟩

theorem takeResetAll_overlapLaw {s : State} (hs : OverlapLaw s) : OverlapLaw s.takeResetAll := by
  have freed : OverlapLaw (ctxIds.foldl State.resetAllCtx s) :=
    foldl_inv (fun u id h => overlapLaw_kept (resetAllCtx_kept u id) h) _ _ hs
  obtain ⟨slot, _, set⟩ := takeResetAll_tables s
  refine overlapLaw_kept ?_ freed
  constructor <;> simp [slot, set]

theorem takeResetAll_bindingLaw {s : State} (hs : BindingLaw s) : BindingLaw s.takeResetAll := by
  have freed : BindingLaw (ctxIds.foldl State.resetAllCtx s) := foldl_inv (fun _ _ h => resetAllCtx_bindingLaw h) _ _ hs
  obtain ⟨slot, ctx, set⟩ := takeResetAll_tables s
  exact bindingLaw_congr freed (fun id => by rw [ctx]) slot (by rw [set]) (by rw [set]) (by rw [set])

/-! ### Staging, and the discard of an OPEN set -/

/-- No slot is FROZEN outside a COMMITTING set. -/
theorem overlapLaw_not_frozen {s : State} (hs : OverlapLaw s) (hc : s.changeSet.state ≠ .committing) (i : Fin 64) :
    (s.slotAt i).state ≠ .frozen := by
  obtain ⟨_, ⟨frozen, _, _⟩, _⟩ := hs
  exact fun h => hc ((frozen i).1 h).1

theorem bindingLaw_not_frozen {s : State} (hs : BindingLaw s) (hc : s.changeSet.state ≠ .committing) (i : Fin 64) :
    (s.slotAt i).state ≠ .frozen := by
  obtain ⟨_, _, ⟨_, _, frozen, _⟩, _⟩ := hs
  exact fun h => hc (frozen i h).1

/-- A set whose entries each name another slot, with one more slot named. -/
theorem nodup_append_entry {es : List Entry} {e : Entry} (nd : (es.map Entry.slot).Nodup) (new : ∀ f ∈ es, f.slot ≠ e.slot) :
    ((es ++ [e]).map Entry.slot).Nodup := by
  rw [List.map_append, List.nodup_append]
  refine ⟨nd, by simp, fun i hi j hj => ?_⟩
  obtain ⟨f, hf, rfl⟩ := List.mem_map.1 hi
  obtain rfl : j = e.slot := by simpa using hj
  exact new f hf

theorem appendEntry_overlapLaw {s : State} {e : Entry} (hs : OverlapLaw s) (h : Stageable s e) : OverlapLaw (s.appendEntry e) := by
  have notFrozen := overlapLaw_not_frozen hs h.notCommitting
  obtain ⟨apart, ⟨_, live, _⟩, nd⟩ := hs
  refine ⟨apart, ⟨fun i => ⟨fun hf => absurd hf (notFrozen i), ?_⟩, fun _ f hf freezes => ?_, ?_⟩, nodup_append_entry nd h.new⟩
  · rintro ⟨hc, _⟩
    cases hc
  · rcases List.mem_append.1 hf with old | new
    · exact live h.notCommitting f old freezes
    · obtain rfl : f = e := by simpa using new
      have := h.fits
      rwa [if_pos freezes] at this
  · intro hc
    cases hc

theorem appendEntry_bindingLaw {s : State} {e : Entry} (hs : BindingLaw s) (h : Stageable s e) : BindingLaw (s.appendEntry e) := by
  have notFrozen := bindingLaw_not_frozen hs h.notCommitting
  obtain ⟨counts, bindings, ⟨nd, fit, _, _⟩, sized⟩ := hs
  refine ⟨counts, bindings, ⟨nodup_append_entry nd h.new, fun f hf => ?_, fun i hi => absurd hi (notFrozen i), ?_⟩, sized⟩
  · have fits : (s.slotAt f.slot).state = if f.freezes then .live else .free := by
      rcases List.mem_append.1 hf with old | new
      · rw [fit f old, if_neg h.notCommitting]
      · obtain rfl : f = e := by simpa using new
        exact h.fits
    exact fits
  · intro hc
    cases hc

theorem closeSet_overlapLaw {s : State} (hs : OverlapLaw s) (hc : s.changeSet.state ≠ .committing) : OverlapLaw s.closeSet := by
  have notFrozen := overlapLaw_not_frozen hs hc
  obtain ⟨apart, _, _⟩ := hs
  refine ⟨apart, ⟨fun i => ⟨fun hf => absurd hf (notFrozen i), ?_⟩, fun _ e he => ?_, ?_⟩, List.nodup_nil⟩
  · rintro ⟨h, _⟩
    cases h
  · cases he
  · intro h
    cases h

theorem closeSet_bindingLaw {s : State} (hs : BindingLaw s) (hc : s.changeSet.state ≠ .committing) : BindingLaw s.closeSet := by
  have notFrozen := bindingLaw_not_frozen hs hc
  obtain ⟨counts, bindings, _, sized⟩ := hs
  refine ⟨counts, bindings, ⟨List.nodup_nil, fun e he => ?_, fun i hi => absurd hi (notFrozen i), ?_⟩, sized⟩
  · cases he
  · intro h
    cases h

/-! ### RST -/

theorem assertRst_slotAt (s : State) (i : Fin 64) : s.assertRst.slotAt i = Slot.cleared := Table.look_replicate ..

theorem assertRst_ctxAt (s : State) (id : CtxId) : s.assertRst.ctxAt id = none := Table.look_replicate ..

theorem assertRst_set (s : State) : s.assertRst.changeSet = ChangeSet.closedEmpty := rfl

/-- A part whose slots, contexts and set are at their power-on values. -/
structure PoweredOn (s : State) : Prop where
  slot : ∀ i, s.slotAt i = Slot.cleared
  ctx : ∀ id, s.ctxAt id = none
  set : s.changeSet = ChangeSet.closedEmpty

theorem poweredOn_overlapLaw {s : State} (h : PoweredOn s) : OverlapLaw s := by
  refine ⟨fun i j _ hi _ => absurd (by rw [h.slot]; rfl) hi, ⟨fun i => ?_, fun _ e he => ?_, fun hc => ?_⟩, ?_⟩
  · simp [h.slot, h.set, Slot.cleared, ChangeSet.closedEmpty]
  · rw [h.set] at he
    cases he
  · rw [h.set] at hc
    cases hc
  · rw [h.set]
    exact List.nodup_nil

theorem poweredOn_bindingLaw {s : State} (h : PoweredOn s) : BindingLaw s := by
  have unnamed : ∀ i, Names s i = fun _ => false := fun i => by
    funext id
    simp [Names, h.ctx]
  refine ⟨fun i => ?_, fun id c b hc => ?_, ⟨?_, fun e he => ?_, fun i hi => ?_, fun hc => ?_⟩, fun id c hc => ?_⟩
  · simp [unnamed, h.slot, Slot.cleared]
  · rw [h.ctx] at hc
    cases hc
  · rw [h.set]
    exact List.nodup_nil
  · rw [h.set] at he
    cases he
  · rw [h.slot] at hi
    cases hi
  · rw [h.set] at hc
    cases hc
  · rw [h.ctx] at hc
    cases hc

theorem assertRst_poweredOn (s : State) : PoweredOn s.assertRst := ⟨assertRst_slotAt s, assertRst_ctxAt s, assertRst_set s⟩

theorem reset_poweredOn : PoweredOn State.reset :=
  ⟨fun _ => Table.look_replicate .., fun _ => Table.look_replicate .., rfl⟩

/-! ### Every change of the tables keeps both laws -/

theorem tableChange_overlapLaw {s t : State} (h : TableChange s t) (hs : OverlapLaw s) : OverlapLaw t := by
  cases h with
  | same h => exact h.overlapLaw hs
  | rst => exact poweredOn_overlapLaw (assertRst_poweredOn s)
  | reinitialised u o => exact reinitialise_overlapLaw u o
  | resetAll => exact endWait_keeps (takeResetAll_overlapLaw hs) (reinitialise_overlapLaw ..)
  | taken h _ => exact overlapLaw_kept (resolveInto_kept ..) (h.overlapLaw hs)
  | headTaken p x _ => exact overlapLaw_kept ((tableKept_of rfl rfl).trans (takeHead_kept (s.putPort p x) p)) hs
  | portReset p h k => exact k.overlapLaw (startPortReset_overlapLaw (h.overlapLaw hs))
  | beatEnded c copy o cd => exact beatEnd_overlapLaw hs
  | recoveryEnded c => exact recoveryEnds_overlapLaw hs
  | drainChecked => exact drainCheck_overlapLaw hs
  | staged e h => exact appendEntry_overlapLaw hs h
  | accepted h free k => exact k.overlapLaw (drainCheck_overlapLaw (accept_overlapLaw hs h free))
  | emptied h k => exact k.overlapLaw (closeSet_overlapLaw hs (by simp [h]))
  | discarded k => exact k.overlapLaw (discardCommitting_overlapLaw hs)

theorem tableChange_bindingLaw {s t : State} (h : TableChange s t) (hq : QueueLaw s) (hs : BindingLaw s) : BindingLaw t := by
  cases h with
  | same h => exact h.bindingLaw hs
  | rst => exact poweredOn_bindingLaw (assertRst_poweredOn s)
  | reinitialised u o => exact reinitialise_bindingLaw u o
  | resetAll => exact endWait_keeps (takeResetAll_bindingLaw hs) (reinitialise_bindingLaw ..)
  | taken h new => exact resolveInto_bindingLaw (h.bindingLaw hs) (by rw [new.free]; rfl) new.size
  | headTaken p x h => exact takeHead_bindingLaw (putPort_queueLaw hq h) (putPort_bindingLaw hs)
  | portReset p h k => exact k.bindingLaw (startPortReset_bindingLaw (h.bindingLaw hs))
  | beatEnded c copy o cd => exact beatEnd_bindingLaw hs
  | recoveryEnded c => exact recoveryEnds_bindingLaw hs
  | drainChecked => exact drainCheck_bindingLaw hs
  | staged e h => exact appendEntry_bindingLaw hs h
  | accepted h _ k => exact k.bindingLaw (drainCheck_bindingLaw (accept_bindingLaw hs h))
  | emptied h k => exact k.bindingLaw (closeSet_bindingLaw hs (by simp [h]))
  | discarded k => exact k.bindingLaw (discardCommitting_bindingLaw hs)

/-- Settles O58: exec_tableChange names every way in which a command touches the table and the set, and each keeps the law. -/
theorem stepKeepsTheOverlapLaw : Obligations.StepKeepsTheOverlapLaw := by
  intro s t hs ht
  exact step_keeps (P := OverlapLaw) (fun _ _ h => h) (fun _ _ _ h he => tableChange_overlapLaw (exec_tableChange he) h) hs ht

/-- Settles O59: as for O58, with the queue law for the take of a response, whose head must be DONE. -/
theorem stepKeepsTheBindingLaw : Obligations.StepKeepsTheBindingLaw := by
  intro s t hq hs ht
  cases hp : s.pending with
  | nil =>
    rw [step_empty hp] at ht
    cases ht
    exact hs
  | cons c rest =>
    rw [step_cons hp] at ht
    exact tableChange_bindingLaw (exec_tableChange ht) hq hs

end Sys2Proof.Machine
end

section
/-! RST, the state after reset, and the start of a port reset (R54, R56, R136, R182). -/

namespace Sys2Proof.Machine

/-! ### RST and the state after reset (R182) -/

theorem assertRst_portAt (s : State) (p : Fin 4) :
    s.assertRst.portAt p = ((s.portAt p).restart (decide (p = 0))).dropAnswer := by
  refine (Table.look_mapAll PortUnit.dropAnswer (restartPorts s.ports) p).trans ?_
  rw [restartPorts_look]
  rfl

theorem assertRst_profileAt (s : State) (i : Fin 8) : s.assertRst.profileAt i = Profile.powerOn := Table.look_replicate ..

theorem assertRst_chanAt (s : State) (c : Fin 4) : s.assertRst.chanAt c = Channel.powerOn := Table.look_replicate ..

theorem assertRst_faultAt (s : State) (p : Fin 4) : s.assertRst.faultAt p = none := Table.look_replicate ..

/-- With no record, no channel OFFLINE and nothing latched, no flag is true and ATN is low (R148, R153). -/
theorem atn_low {s : State} (faults : ∀ p, s.faultAt p = none) (chans : ∀ c, (s.chanAt c).state.isOffline = false)
    (latched : s.attention.startDone = false ∧ s.attention.commitApplied = false ∧ s.attention.linkCollision = false) :
    s.atn = false := by
  obtain ⟨startDone, commitApplied, linkCollision⟩ := latched
  have flags : ∀ n, s.flag n = false := by
    intro n
    unfold State.flag
    split <;> simp only [faults, chans, startDone, commitApplied, linkCollision, Option.isSome_none]
  simp [State.atn, flags]

theorem assertRst_blocks (s : State) : BlocksFresh s.assertRst where
  profiles := assertRst_profileAt s
  channels := assertRst_chanAt s
  set := rfl
  faults := assertRst_faultAt s
  attention := rfl
  atn := atn_low (assertRst_faultAt s) (fun c => by rw [assertRst_chanAt]; rfl) ⟨rfl, rfl, rfl⟩
  portState p := by rw [assertRst_portAt]; rfl
  portEnable p := by rw [assertRst_portAt]; rfl
  portClass p := by rw [assertRst_portAt]; rfl
  portQueue p := by rw [assertRst_portAt]; rfl

/-- The state after reset is one in which RST asserted again changes nothing (LOG 4, LOG 5). -/
theorem assertRst_reset : State.reset.assertRst = State.reset :=
  State.ext_fields rfl (by decide) rfl rfl rfl rfl rfl rfl rfl rfl rfl

theorem reset_blocks : BlocksFresh State.reset := assertRst_reset ▸ assertRst_blocks State.reset

/-- Settles O2: RST asserted writes every block, and the state after reset is what RST leaves of itself. -/
theorem resetAndRstTakePowerOnValues : Obligations.ResetAndRstTakePowerOnValues := by
  have rst : ∀ s : State, SlotsFresh s.assertRst ∧ BlocksFresh s.assertRst ∧ (∀ id, s.assertRst.ctxAt id = none) ∧
      s.assertRst.link = { state := .starting, lastSequence := 0, collisionMark := false, exchange := .none } ∧
      s.assertRst.startUp = { state := .reset, straps := ⟨false, false, false⟩, levels := s.startUp.levels } ∧
      s.assertRst.mrdy = false :=
    fun s => ⟨assertRst_slotAt s, assertRst_blocks s, assertRst_ctxAt s, rfl, rfl, rfl⟩
  refine ⟨fun s => ⟨s.assertRst, rfl, rst s, rfl⟩, ?_, rfl⟩
  have := rst State.reset
  rwa [assertRst_reset] at this

/-! ### Power-on values meet every law -/

theorem blocksFresh_portsFollowEnables {s : State} (h : BlocksFresh s) : PortsFollowEnables s :=
  fun p hp => absurd (h.portState p) hp

theorem blocksFresh_channelLaw {s : State} (h : BlocksFresh s) : ChannelLaw s := by
  intro c
  rw [h.channels]
  refine ⟨fun hs => ?_, fun _ => ?_, fun _ => ⟨rfl, rfl, rfl⟩⟩
  · cases hs
  · exact Nat.zero_le 2

theorem blocksFresh_changeSetLaw {s : State} (h : BlocksFresh s) : ChangeSetLaw s := by
  unfold ChangeSetLaw
  rw [h.set]
  decide

theorem blocksFresh_queueLaw {s : State} (h : BlocksFresh s) (ctx : ∀ id, s.ctxAt id = none) : QueueLaw s := by
  intro p
  rw [h.portQueue]
  exact ⟨List.nodup_nil, fun t => by simp [ctx]⟩

theorem blocksFresh_holdListLaw {s : State} (h : BlocksFresh s) (ctx : ∀ id, s.ctxAt id = none) : HoldListLaw s := by
  unfold HoldListLaw
  rw [h.set]
  exact ⟨List.nodup_nil, fun id => by simp [ctx], fun _ => rfl⟩

/-- Settles O52: power-on values meet each law, and the state after reset holds them (O2). -/
theorem resetStateMeetsEveryLaw : Obligations.ResetStateMeetsEveryLaw :=
  have blocks := reset_blocks
  have ctx := reset_poweredOn.ctx
  ⟨blocksFresh_portsFollowEnables blocks, blocksFresh_channelLaw blocks, blocksFresh_changeSetLaw blocks,
    blocksFresh_queueLaw blocks ctx, blocksFresh_holdListLaw blocks ctx, poweredOn_overlapLaw reset_poweredOn,
    poweredOn_bindingLaw reset_poweredOn⟩

/-! ### The line PRSTn and the start of a port reset (R54, R56) -/

/-- Freeing a port's BOUND contexts leaves the link, start-up and all of the ports but their queues alone, a set applied on the way or not. -/
theorem boundLeaves_still {s t : State} {l : List CtxId} (h : BoundLeaves s l t) : s.Still t := by
  induction h with
  | done s => exact .refl s
  | freed s t u k rest q b n m bound check more ih =>
    cases check
    exact (((putCtx_still s k none).trans (putSlot_still ..)).trans (drainCheck_still _)).trans ih
  | other s u k rest no more ih => exact ih

theorem portResetSteps_link {s t : State} {p : Fin 4} {prstn : Bool} (h : PortResetSteps s t p prstn) : t.link = s.link := by
  obtain ⟨u, order, v, held, _, bound, ends⟩ := h
  exact (ends.link.trans (boundLeaves_still bound).link).trans held.link

theorem portResetSteps_inReset {s t : State} {p : Fin 4} {prstn : Bool} (h : PortResetSteps s t p prstn) :
    (t.portAt p).state = .inReset := by
  obtain ⟨u, order, v, held, _, bound, ends⟩ := h
  rw [ends.port]
  refine ((boundLeaves_still bound).portState p).trans ?_
  rw [held.port]

/-- A port's reset line asserted. -/
def State.assertPrstn (s : State) (p : Fin 4) : State := s.putPort p { s.portAt p with prstn := true }

@[simp] theorem assertPrstn_portAt_same (s : State) (p : Fin 4) :
    (s.assertPrstn p).portAt p = { s.portAt p with prstn := true } := State.portAt_putPort_same ..

theorem assertPrstn_portAt_ne (s : State) {p q : Fin 4} (h : q ≠ p) : (s.assertPrstn p).portAt q = s.portAt q :=
  State.portAt_putPort_ne _ _ _ _ h

/-- A reset after the line is asserted is a reset of the part as it was, with the line at its new level. -/
theorem portResetSteps_assertPrstn {s t : State} {p : Fin 4} (h : PortResetSteps (s.assertPrstn p) t p true) :
    PortResetSteps s t p true := by
  obtain ⟨u, order, v, held, rest⟩ := h
  refine ⟨u, order, v, { held with port := ?_, otherPorts := fun q hq => ?_ }, rest⟩
  · rw [held.port, assertPrstn_portAt_same]
  · rw [held.otherPorts q hq, assertPrstn_portAt_ne s hq]

theorem portResetStarts_assertPrstn {s t : State} {p : Fin 4} (h : PortResetStarts (s.assertPrstn p) t p) :
    PortResetStarts s t p :=
  { h with otherPorts := fun q hq => (h.otherPorts q hq).trans (assertPrstn_portAt_ne s hq) }

/-- Where no RESET_PORT waits for the port, the line's assertion answers nothing (R57). -/
theorem answerLineHeld_none {s : State} {p : Fin 4} (h : NoResetWaitsFor s p) : s.answerLineHeld p = s := by
  unfold State.answerLineHeld
  rw [awaitsReset_not h]
  rfl

theorem noResetWaitsFor_of_link {s t : State} {p : Fin 4} (h : NoResetWaitsFor s p) (hl : t.link = s.link) :
    NoResetWaitsFor t p := by
  unfold NoResetWaitsFor ResetWaits
  rw [hl]
  exact h

theorem exec_prstnAsserted {s : State} {p : Fin 4} (h : (s.portAt p).state ≠ .inReset) :
    exec (.prstnAsserted p) s = .next (((s.assertPrstn p).startPortReset p).answerLineHeld p) := by
  simp only [exec, execPrstnAsserted, if_neg h, State.assertPrstn]

theorem exec_prstnAsserted_inReset {s : State} {p : Fin 4} (h : (s.portAt p).state = .inReset) :
    exec (.prstnAsserted p) s = .next ((s.assertPrstn p).answerLineHeld p) := by
  simp only [exec, execPrstnAsserted, if_pos h, State.assertPrstn]

/-- Settles O14: the steps, the quiet reset and the draining one are those of startPortReset after the line's assertion. -/
theorem prstnAssertedStartsAPortReset : Obligations.PrstnAssertedStartsAPortReset := by
  refine ⟨fun s p on wait => ?_, fun s p reset wait => ?_⟩
  · have steps : PortResetSteps s ((s.assertPrstn p).startPortReset p) p true := by
      have := startPortReset_steps (s.assertPrstn p) p
      rw [assertPrstn_portAt_same] at this
      exact portResetSteps_assertPrstn this
    have link := portResetSteps_link steps
    refine ⟨(s.assertPrstn p).startPortReset p, ?_, steps, portResetSteps_inReset steps, link, fun quiet => ?_, fun drains => ?_⟩
    · rw [exec_prstnAsserted on, answerLineHeld_none (noResetWaitsFor_of_link wait link)]
    · obtain ⟨starts, port, _⟩ := startPortReset_spec (s := s.assertPrstn p) quiet
      refine ⟨portResetStarts_assertPrstn starts, ?_⟩
      rw [port, assertPrstn_portAt_same]
    · exact startPortReset_drains (s := s.assertPrstn p) drains
  · rw [exec_prstnAsserted_inReset reset, answerLineHeld_none (s := s.assertPrstn p) (noResetWaitsFor_of_link wait rfl)]
    rfl

end Sys2Proof.Machine
end

section
/-! COMMIT, APPLY and DISCARD by the state of the set, and the conflict that COMMIT reports (R11 to R13, R122, R123, R127, R130, R133, R134). -/

namespace Sys2Proof.Machine

/-! ### DISCARD (R133, R134) -/

theorem closeSet_of_no_hold {s : State} (h : s.changeSet.holdList = []) : s.closeSet = s.putChangeSet emptySet := by
  unfold State.closeSet
  rw [h]
  rfl

theorem discardCommitting_of_no_hold {s : State} (h : s.changeSet.holdList = []) :
    s.discardCommitting = { s with slots := s.slots.mapAll Slot.thaw, changeSet := emptySet } := by
  unfold State.discardCommitting
  rw [h, State.reResolve, closeSet_of_no_hold (s := { s with slots := s.slots.mapAll Slot.thaw }) h]
  rfl

theorem exec_discard_closed {s : State} {p : List Byte} (h : Dispatched .discard p s) (st : s.changeSet.state = .closed) :
    exec .discard s = .next (answeredWith s .noSet [] false) := by
  simp only [exec, execDiscard, own_of h, st, answer_eq]

theorem exec_discard_opened {s : State} {p : List Byte} (h : Dispatched .discard p s) (st : s.changeSet.state = .opened) :
    exec .discard s = .next (answeredWith s.closeSet .done [] false) := by
  simp only [exec, execDiscard, own_of h, st, answer_eq]

theorem exec_discard_committing {s : State} {p : List Byte} (h : Dispatched .discard p s)
    (st : s.changeSet.state = .committing) :
    exec .discard s = .next (answeredWith s.discardCommitting .done [] false) := by
  simp only [exec, execDiscard, own_of h, st, answer_eq]

/-- Settles O32, by the state of the set; with nothing held the re-resolution of a discard has nothing to do. -/
theorem discardEmptiesTheSet : Obligations.DiscardEmptiesTheSet := by
  intro s p given
  refine ⟨exec_discard_closed given, fun unheld => ⟨fun opened => ?_, fun committing => ?_⟩⟩
  · rw [exec_discard_opened given opened, closeSet_of_no_hold unheld]
  · rw [exec_discard_committing given committing, discardCommitting_of_no_hold unheld]
    rfl

/-! ### APPLY (R11, R13, R127, R130) -/

theorem applyEntries_attention (s : State) (es : List Entry) : (s.applyEntries es).attention = s.attention :=
  foldl_same State.attention (fun u e => by rw [applyEntry_eq]; rfl) es s

/-- With one entry for each slot, every entry of the set takes effect in the slot it names and in no other (R11, R13). -/
theorem applyEntries_takeEffect {s : State} (nd : (s.changeSet.entries.map Entry.slot).Nodup) :
    EntriesTakeEffect s (s.applyEntries s.changeSet.entries) where
  install _ _ he := applyEntries_at nd he s
  amend _ _ _ he := applyEntries_at nd he s
  retire _ _ he := applyEntries_at nd he s
  others _ hn := applyEntries_else hn s

theorem applyNow_of_no_hold {s : State} (h : s.changeSet.holdList = []) :
    s.applyNow = ((s.applyEntries s.changeSet.entries).putChangeSet emptySet).latchCommitApplied := by
  have hold : (s.applyEntries s.changeSet.entries).changeSet.holdList = [] := by
    rw [(applyEntries_same s s.changeSet.entries).2.2.2.1, h]
  unfold State.applyNow
  rw [h, State.reResolve, closeSet_of_no_hold hold]

theorem drainCheck_of_drained {s : State} (committing : s.changeSet.state = .committing) (ready : s.startUp.state ≠ .waiting)
    (drained : s.blockingCount = 0) : s.drainCheck = s.applyNow := by
  unfold State.drainCheck State.drainOn
  rw [if_pos]
  simp [committing, ready, drained]

theorem drainCheck_of_undrained {s : State}
    (h : 0 < s.blockingCount ∨ s.startUp.state = .waiting ∨ s.changeSet.state ≠ .committing) : s.drainCheck = s := by
  unfold State.drainCheck State.drainOn
  rw [if_neg]
  simp only [Bool.and_eq_true, beq_iff_eq, bne_iff_ne]
  rintro ⟨⟨committing, ready⟩, drained⟩
  rcases h with h | h | h
  · omega
  · exact ready h
  · exact h committing

/-- Settles O30: the check either applies the set, which with nothing held is the entries, the empty set and the latch, or leaves the part as it is. -/
theorem applyTakesEveryEntry : Obligations.ApplyTakesEveryEntry := by
  refine ⟨fun s committing ready drained unheld nd => ?_, fun s h => congrArg _ (drainCheck_of_undrained h)⟩
  have table := applyEntries_takeEffect nd
  obtain ⟨ports, ctxs, chans, _, faults⟩ := applyEntries_same s s.changeSet.entries
  have still := applyEntries_still s s.changeSet.entries
  refine ⟨((s.applyEntries s.changeSet.entries).putChangeSet emptySet).latchCommitApplied, ?_,
    ⟨table.install, table.amend, table.retire, table.others⟩, rfl, ?_, ctxs, ports, still.profiles, chans, faults, still.link,
    still.startUp, still.pending⟩
  · rw [← applyNow_of_no_hold unheld, ← drainCheck_of_drained committing ready drained]
    rfl
  · show { (s.applyEntries s.changeSet.entries).attention with commitApplied := true } = _
    rw [applyEntries_attention]

/-! ### The conflict that COMMIT reports (R123) -/

theorem slotIds_increasing : slotIds.Pairwise (· < ·) := by
  unfold slotIds
  rw [List.pairwise_map]
  refine List.pairwise_lt_range.imp_of_mem fun {a b} ha hb lt => ?_
  rw [List.mem_range] at ha hb
  rw [Fin.lt_def]
  simpa [Fin.ofNat, Nat.mod_eq_of_lt ha, Nat.mod_eq_of_lt hb] using lt

theorem mem_conflictsOf {s : State} {es : List Entry} {i j : Fin 64} {w : Window} :
    j ∈ s.conflictsOf es i w ↔ j ≠ i ∧ ∃ v, s.resultWindow es j = some v ∧ Clash w v := by
  unfold State.conflictsOf
  rw [List.mem_filter, Bool.and_eq_true, bne_iff_ne]
  cases s.resultWindow es j with
  | none => simp
  | some v => simp [mem_slotIds, conflicts_iff]

/-- The first of an entry's conflicts is the one with the lowest slot. -/
theorem conflictsOf_head_least {s : State} {es : List Entry} {i j k : Fin 64} {w : Window} {rest : List (Fin 64)}
    (h : s.conflictsOf es i w = k :: rest) (lt : j < k) : j ∉ s.conflictsOf es i w := by
  have increasing : (s.conflictsOf es i w).Pairwise (· < ·) := slotIds_increasing.filter _
  rw [h, List.pairwise_cons] at increasing
  rw [h, List.mem_cons]
  rintro (rfl | mem)
  · exact lt_irrefl _ lt
  · exact lt_asymm lt (increasing.1 j mem)

/-- A clash of the entry with this index is one of the conflicts of its window. -/
theorem entryClashes_iff {s : State} {es : List Entry} {n : Nat} {i j : Fin 64} :
    EntryClashes s es n i j ↔ ∃ e w, es[n]? = some e ∧ e.slot = i ∧ e.window = some w ∧ j ∈ s.conflictsOf es i w := by
  constructor
  · rintro ⟨e, w, v, he, hi, hw, ne, hv, clash⟩
    exact ⟨e, w, he, hi, hw, mem_conflictsOf.2 ⟨ne, v, hv, clash⟩⟩
  · rintro ⟨e, w, he, hi, hw, mem⟩
    obtain ⟨ne, v, hv, clash⟩ := mem_conflictsOf.1 mem
    exact ⟨e, w, v, he, hi, hw, ne, hv, clash⟩

theorem entryConflict_none {s : State} {es : List Entry} {e : Entry} {n : Nat} :
    s.entryConflict es (e, n) = none ↔ ∀ w, e.window = some w → s.conflictsOf es e.slot w = [] := by
  unfold State.entryConflict
  dsimp only
  cases e.window with
  | none => simp
  | some w => cases hl : s.conflictsOf es e.slot w <;> simp [hl]

theorem entryConflict_some {s : State} {es : List Entry} {e : Entry} {n : Nat} {k : Conflict} :
    s.entryConflict es (e, n) = some k ↔ ∃ w rest, e.window = some w ∧ s.conflictsOf es e.slot w = k.second :: rest ∧
      k.first = e.slot ∧ k.firstIndex = n ∧ k.secondIndex = (entryNaming es k.second).map (·.1) := by
  obtain ⟨first, firstIndex, second, secondIndex⟩ := k
  unfold State.entryConflict
  dsimp only
  cases e.window with
  | none => simp
  | some w =>
    cases hl : s.conflictsOf es e.slot w with
    | nil => simp [hl]
    | cons j rest =>
      simp only [hl, Option.some.injEq, Conflict.mk.injEq]
      constructor
      · rintro ⟨rfl, rfl, rfl, rfl⟩
        exact ⟨w, rest, rfl, hl, rfl, rfl, rfl⟩
      · rintro ⟨_, _, rfl, head, rfl, rfl, rfl⟩
        rw [hl] at head
        cases head
        exact ⟨rfl, rfl, rfl, rfl⟩

/-- The conflict found is that of the first entry that has one. -/
theorem firstConflict_some {s : State} {es : List Entry} {k : Conflict} (h : s.firstConflict es = some k) :
    ∃ e, es[k.firstIndex]? = some e ∧ s.entryConflict es (e, k.firstIndex) = some k ∧
      ∀ m f, m < k.firstIndex → es[m]? = some f → s.entryConflict es (f, m) = none := by
  unfold State.firstConflict at h
  obtain ⟨before, ⟨e, n⟩, behind, split, found, noneBefore⟩ := List.findSome?_eq_some_iff.1 h
  obtain ⟨_, _, _, _, _, index, _⟩ := entryConflict_some.1 found
  have atSplit : es.zipIdx[before.length]? = some (e, n) := by rw [split]; simp
  obtain ⟨e', he, heq⟩ : ∃ e', es[before.length]? = some e' ∧ (e', before.length) = (e, n) := by
    simpa [List.getElem?_zipIdx] using atSplit
  cases heq
  rw [index]
  refine ⟨e, he, found, fun m f lt hf => noneBefore (f, m) ?_⟩
  have here : es.zipIdx[m]? = some (f, m) := by simp [List.getElem?_zipIdx, hf]
  rw [split, List.getElem?_append_left lt] at here
  exact List.mem_of_getElem? here

/-- The entry index reported for a slot is that of the first entry naming it. -/
theorem entryNaming_index {es : List Entry} {i : Fin 64} {n : Nat} :
    (entryNaming es i).map (·.1) = some n ↔ (∃ e, es[n]? = some e ∧ e.slot = i) ∧
      ∀ m e, m < n → es[m]? = some e → e.slot ≠ i := by
  have first : (entryNaming es i).map (·.1) = es.findIdx? (fun e => e.slot == i) := by
    rw [List.findIdx?_eq_fst_find?_zipIdx, entryNaming, Option.map_map]
    rfl
  rw [first, List.findIdx?_eq_some_iff_getElem]
  simp only [beq_iff_eq]
  constructor
  · rintro ⟨lt, names, before⟩
    refine ⟨⟨es[n], List.getElem?_eq_getElem lt, names⟩, fun m e hm he => ?_⟩
    obtain ⟨_, rfl⟩ := List.getElem?_eq_some_iff.1 he
    exact before m hm
  · rintro ⟨⟨e, he, names⟩, before⟩
    obtain ⟨lt, rfl⟩ := List.getElem?_eq_some_iff.1 he
    exact ⟨lt, names, fun m hm => before m _ hm (List.getElem?_eq_getElem (hm.trans lt))⟩

/-! ### COMMIT (R122, R123) -/

theorem exec_commit_closed {s : State} {p : List Byte} (h : Dispatched .commit p s) (st : s.changeSet.state = .closed) :
    exec .commit s = .next (answeredWith s .noSet [] false) := by
  simp only [exec, execCommit, own_of h, st, answer_eq]

theorem exec_commit_empty {s : State} {p : List Byte} (h : Dispatched .commit p s) (st : s.changeSet.state = .opened)
    (empty : s.changeSet.entries = []) : exec .commit s = .next (answeredWith s .noSet [] false) := by
  simp only [exec, execCommit, own_of h, st, if_pos empty, answer_eq]

theorem exec_commit_opened {s : State} {p : List Byte} (h : Dispatched .commit p s) (st : s.changeSet.state = .opened)
    (entries : s.changeSet.entries ≠ []) : exec .commit s = .next s.commitOpen := by
  simp only [exec, execCommit, own_of h, st, if_neg entries]

theorem exec_commit_committing {s : State} {p : List Byte} (h : Dispatched .commit p s)
    (st : s.changeSet.state = .committing) : exec .commit s = .next (answeredWith s .commitBusy [] false) := by
  simp only [exec, execCommit, own_of h, st, answer_eq]

theorem commitOpen_conflict {s : State} {k : Conflict} (h : s.firstConflict s.changeSet.entries = some k) :
    s.commitOpen = answeredWith s .overlap k.bytes false := by
  unfold State.commitOpen
  rw [h]
  rfl

/-- Settles O29: the refusals by the state of the set, then the search entry by entry (firstConflict_some) and slot by slot (conflictsOf_head_least). -/
theorem commitRefused : Obligations.CommitRefused := by
  refine ⟨fun s p given => ?_, firstConflict_none, fun s es k found => ?_⟩
  · refine ⟨exec_commit_closed given, exec_commit_empty given, exec_commit_committing given, fun k opened entries found => ?_⟩
    rw [exec_commit_opened given opened entries, commitOpen_conflict found]
    rfl
  · obtain ⟨e, he, conflict, before⟩ := firstConflict_some found
    obtain ⟨w, rest, hw, head, first, _, second⟩ := entryConflict_some.1 conflict
    refine ⟨?_, fun n i j lt clashes => ?_, fun j lt clashes => ?_, fun n => ?_⟩
    · exact entryClashes_iff.2 ⟨e, w, he, first.symm, hw, by rw [first, head]; exact List.mem_cons_self⟩
    · obtain ⟨f, v, hf, rfl, hv, mem⟩ := entryClashes_iff.1 clashes
      rw [entryConflict_none.1 (before n f lt hf) v hv] at mem
      cases mem
    · obtain ⟨f, v, hf, _, hv, mem⟩ := entryClashes_iff.1 clashes
      obtain rfl : e = f := Option.some.inj (he.symm.trans hf)
      obtain rfl : w = v := Option.some.inj (hw.symm.trans hv)
      rw [first] at mem
      exact conflictsOf_head_least head lt mem
    · rw [second]
      exact entryNaming_index

end Sys2Proof.Machine
end

section
/-! The field checks of Table 1-4, and the normal end of a plan's last beat (R7, R89, R102, R105). -/

namespace Sys2Proof.Machine

/-! ### The field checks (Table 1-4) -/

/-- The nine conditions of Table 1-4 in the spec's own words, each under its number. -/
def FieldFails (r : RawWindow) (n : Nat) : Prop :=
  match n with
  | 1 => r.sizeExp < 10 ∨ 28 < r.sizeExp
  | 2 => ¬ 2 ^ r.sizeExp ∣ r.base.toNat
  | 3 => ¬ 0x400 ∣ r.targetBase.toNat
  | 4 => 0x10000000 < r.targetBase.toNat + 2 ^ r.sizeExp
  | 5 => r.width ≠ 1 ∧ r.width ≠ 2 ∧ r.width ≠ 4
  | 6 => 7 < r.profile
  | 7 => 3 < r.channel
  | 8 => 7 < r.rank
  | 9 => ∃ p, p < 4 ∧ r.rights / 4 ^ p % 4 = 2
  | _ => False

theorem fieldFails_base {r : RawWindow} : FieldFails r 2 ↔ r.base.toNat % 2 ^ r.sizeExp ≠ 0 :=
  not_congr (Nat.dvd_iff_mod_eq_zero ..)

theorem fieldFails_target {r : RawWindow} : FieldFails r 3 ↔ r.targetBase.toNat % 0x400 ≠ 0 :=
  not_congr (Nat.dvd_iff_mod_eq_zero ..)

theorem fieldFails_rights {r : RawWindow} : FieldFails r 9 ↔
    rightsCode r.rights 0 = 2 ∨ rightsCode r.rights 1 = 2 ∨ rightsCode r.rights 2 = 2 ∨ rightsCode r.rights 3 = 2 := by
  constructor
  · rintro ⟨p, lt, code⟩
    have : p = 0 ∨ p = 1 ∨ p = 2 ∨ p = 3 := by omega
    rcases this with rfl | rfl | rfl | rfl
    · exact .inl code
    · exact .inr (.inl code)
    · exact .inr (.inr (.inl code))
    · exact .inr (.inr (.inr code))
  · rintro (code | code | code | code)
    · exact ⟨0, by decide, code⟩
    · exact ⟨1, by decide, code⟩
    · exact ⟨2, by decide, code⟩
    · exact ⟨3, by decide, code⟩

/-- No condition below a number holds, and neither does the one under it. -/
theorem none_below_succ {P : Nat → Prop} {k : Nat} (below : ∀ m, m < k → ¬ P m) (here : ¬ P k) : ∀ m, m < k + 1 → ¬ P m := by
  intro m hm
  rcases Nat.lt_succ_iff_lt_or_eq.1 hm with lt | rfl
  · exact below m lt
  · exact here

/-- The check stops at a condition that holds, or at none of them. -/
def StopsAtFirst (P : Nat → Prop) : Option Nat → Prop
  | some n => P n ∧ ∀ m, m < n → ¬ P m
  | none => ∀ n, ¬ P n

theorem fieldCheck_stops (r : RawWindow) : StopsAtFirst (FieldFails r) (fieldCheck r) := by
  have below1 : ∀ m, m < 1 → ¬ FieldFails r m := by
    intro m hm
    obtain rfl : m = 0 := by omega
    exact id
  unfold fieldCheck
  split
  · exact ⟨‹_›, below1⟩
  have below2 := none_below_succ below1 ‹_›
  split
  · exact ⟨fieldFails_base.2 ‹_›, below2⟩
  have below3 := none_below_succ below2 (mt fieldFails_base.1 ‹_›)
  split
  · exact ⟨fieldFails_target.2 ‹_›, below3⟩
  have below4 := none_below_succ below3 (mt fieldFails_target.1 ‹_›)
  split
  · exact ⟨‹_›, below4⟩
  have below5 := none_below_succ below4 ‹_›
  split
  · exact ⟨‹_›, below5⟩
  have below6 := none_below_succ below5 ‹_›
  split
  · exact ⟨‹_›, below6⟩
  have below7 := none_below_succ below6 ‹_›
  split
  · exact ⟨‹_›, below7⟩
  have below8 := none_below_succ below7 ‹_›
  split
  · exact ⟨‹_›, below8⟩
  have below9 := none_below_succ below8 ‹_›
  split
  · exact ⟨fieldFails_rights.2 ‹_›, below9⟩
  have below10 := none_below_succ below9 (mt fieldFails_rights.1 ‹_›)
  intro n
  by_cases small : n < 10
  · exact below10 n small
  · obtain ⟨k, rfl⟩ := Nat.exists_eq_add_of_le' (Nat.not_lt.1 small)
    exact id

/-- What stops at the first condition that holds names it, and names none exactly when none holds. -/
theorem stopsAtFirst_iff {P : Nat → Prop} {x : Option Nat} (h : StopsAtFirst P x) :
    (x = none ↔ ∀ n, ¬ P n) ∧ ∀ n, x = some n ↔ P n ∧ ∀ m, m < n → ¬ P m := by
  cases x with
  | none => exact ⟨⟨fun _ => h, fun _ => rfl⟩, fun n => ⟨fun e => (by cases e), fun ⟨holds, _⟩ => absurd holds (h n)⟩⟩
  | some k =>
    obtain ⟨holds, below⟩ := h
    refine ⟨⟨fun e => (by cases e), fun no => absurd holds (no k)⟩, fun n => ⟨?_, fun ⟨holds', below'⟩ => ?_⟩⟩
    · rintro ⟨⟩
      exact ⟨holds, below⟩
    · rcases Nat.lt_trichotomy k n with lt | rfl | gt
      · exact absurd holds (below' k lt)
      · rfl
      · exact absurd holds' (below n gt)

/-- Settles O27: fieldCheck stops at the first of the nine conditions that holds. -/
theorem fieldChecksFollowTable1_4 : Obligations.FieldChecksFollowTable1_4 :=
  fun r => stopsAtFirst_iff (fieldCheck_stops r)

/-! ### No channel goes OFFLINE outside a beat end (R107) -/

/-- Every channel that is OFFLINE in t was OFFLINE in s. -/
def State.NoneGoesOffline (s t : State) : Prop := ∀ d, (t.chanAt d).state = .offline → (s.chanAt d).state = .offline

theorem State.NoneGoesOffline.trans {s t u : State} (h : s.NoneGoesOffline t) (k : t.NoneGoesOffline u) : s.NoneGoesOffline u :=
  fun d hd => h d (k d hd)

theorem noneGoesOffline_of_chans {s t : State} (h : t.chans = s.chans) : s.NoneGoesOffline t := by
  intro d hd
  rwa [State.chanAt, h] at hd

theorem putChan_noneGoesOffline {s : State} {c : Fin 4} {x : Channel}
    (h : x.state = .offline → (s.chanAt c).state = .offline) : s.NoneGoesOffline (s.putChan c x) := by
  intro d hd
  by_cases same : d = c
  · subst same
    exact h (by rwa [State.chanAt_putChan_same] at hd)
  · rwa [State.chanAt_putChan_ne _ _ _ _ same] at hd

theorem startBeat_noneGoesOffline (s : State) (c : Fin 4) : s.NoneGoesOffline (s.startBeat c) := by
  unfold State.startBeat
  repeat' split
  case h_2 => exact putChan_noneGoesOffline fun h => by cases h
  all_goals exact fun _ h => h

theorem movePointer_state (x : Channel) (ch : Choice) : (x.movePointer ch).state = x.state := by
  unfold Channel.movePointer
  split <;> rfl

theorem arbitrate_noneGoesOffline (s : State) (c : Fin 4) : s.NoneGoesOffline (s.arbitrate c) := by
  have grant : ∀ ch, s.NoneGoesOffline (s.grant c ch) := by
    intro ch
    unfold State.grant
    split
    case h_1 r b stamp _ _ =>
      refine State.NoneGoesOffline.trans ?_ (startBeat_noneGoesOffline _ c)
      exact putChan_noneGoesOffline (s := (s.mapCtxs (passOver c)).putCtx ch.id (some ⟨r, .onBus b stamp false⟩))
        fun h => (movePointer_state ..).symm.trans h
    all_goals exact fun _ h => h
  unfold State.arbitrate
  split
  · split
    · exact grant _
    · exact fun _ h => h
  all_goals exact fun _ h => h

theorem settle_noneGoesOffline (s : State) (id : CtxId) (r : Request) (v : Verdict) : s.NoneGoesOffline (s.settle id r v) := by
  have fault : ∀ (st : Status) (d : DoneRecord) (f : FaultRecord), s.NoneGoesOffline (s.endWithFault id r st d f) := by
    intro st d f
    unfold State.endWithFault
    rw [recordFault_eq]
    exact noneGoesOffline_of_chans rfl
  cases v with
  | held => exact noneGoesOffline_of_chans rfl
  | bound b => exact (noneGoesOffline_of_chans rfl).trans (arbitrate_noneGoesOffline _ b.channel)
  | noWindow => exact fault _ _ _
  | span => exact fault _ _ _
  | denied => exact fault _ _ _
  | channelOffline => exact fault _ _ _

theorem reResolve_noneGoesOffline (s : State) (l : List CtxId) : s.NoneGoesOffline (s.reResolve l) := by
  induction l generalizing s with
  | nil => exact fun _ h => h
  | cons id rest ih =>
    have taken : s.NoneGoesOffline (s.putChangeSet { s.changeSet with holdList := rest }) := noneGoesOffline_of_chans rfl
    unfold State.reResolve
    dsimp only
    split
    case h_1 => exact (taken.trans (settle_noneGoesOffline _ _ _ _)).trans (ih _)
    all_goals exact taken.trans (ih _)

theorem drainCheck_noneGoesOffline (s : State) : s.NoneGoesOffline s.drainCheck := by
  rcases drainCheck_cases s with same | applied
  · rw [same]
    exact fun _ h => h
  · rw [applied, applyNow_eq]
    refine State.NoneGoesOffline.trans ?_ (reResolve_noneGoesOffline _ _)
    exact noneGoesOffline_of_chans (applyEntries_same s s.changeSet.entries).2.2.1

/-- A channel that is not OFFLINE has nothing to sweep (R107). -/
theorem sweep_online {s : State} {c : Fin 4} (h : (s.chanAt c).state ≠ .offline) : s.sweep c = s := by
  unfold State.sweep
  split
  case h_1 off => exact absurd off h
  all_goals rfl

/-! ### The normal end of a plan's last beat (R89, R102, R105) -/

/-- The binding after a normal end of a beat of its plan, in the words of the spec (R87, R102). -/
theorem afterBeat_of_beat {b : Binding} {beat : Beat} (h : b.plan[b.completed]? = some beat) (cd : Word) :
    b.afterBeat cd = afterNormalBeat b beat cd := by
  simp only [Binding.afterBeat, h, afterNormalBeat]

/-- The state a normal end of a plan's last beat has reached before its channel takes its next state (R88, R102, R105). -/
def State.accessDone (s : State) (c : Fin 4) (id : CtxId) (r : Request) (b : Binding) : State :=
  ((((s.endBeatLines c .normal).lowerCount b.window.slot).clearOnBus c)).endOk id r b

theorem accessDone_chanAt (s : State) (c : Fin 4) (id : CtxId) (r : Request) (b : Binding) :
    (s.accessDone c id r b).chanAt c =
      { s.chanAt c with lines := (s.chanAt c).lines.quiet, timeouts := 0, onBus := none } := by
  simp [State.accessDone, State.endOk, State.enqueue, State.clearOnBus, State.lowerCount, State.endBeatLines, countAfter]

/-- With its channel in a state it is the state the spec gives with that state. -/
theorem accessDone_chanState (s : State) (c : Fin 4) (id : CtxId) (r : Request) (b : Binding) (beat : Beat) (cd : Word)
    (x : ChanState) : (s.accessDone c id r (afterNormalBeat b beat cd)).chanState c x =
      accessEndedOk s c id r b beat cd (endedBeat (s.chanAt c) .normal x none) := by
  refine State.ext_at (fun _ => rfl) (fun _ => rfl) (fun _ => rfl) (fun _ => rfl) (fun d => ?_) rfl (fun _ => rfl) rfl rfl rfl rfl
  by_cases same : d = c
  · subst same
    rw [State.chanState, accessDone_chanAt, State.chanAt_putChan_same]
    exact (State.chanAt_putChan_same ..).symm
  · simp [State.chanState, State.accessDone, State.endOk, State.enqueue, State.clearOnBus, State.lowerCount,
      State.endBeatLines, accessEndedOk, State.chanAt_putChan_ne _ _ _ _ same]

theorem chanState_chanState (s : State) (c : Fin 4) (x y : ChanState) : (s.chanState c x).chanState c y = s.chanState c y := by
  unfold State.chanState
  rw [State.chanAt_putChan_same]
  exact congrArg (fun t => { s with chans := t }) (put_put ..)

theorem chanState_chanAt (s : State) (c : Fin 4) (x : ChanState) : (s.chanState c x).chanAt c = { s.chanAt c with state := x } :=
  State.chanAt_putChan_same ..

theorem afterRecovery_free {s : State} {c : Fin 4} (h : (s.chanAt c).onBus = none) :
    s.afterRecovery c = (s.chanState c .idle).arbitrate c := by
  unfold State.afterRecovery
  rw [h]

/-- RECOVERY_END at a channel with nothing on its bus (R89). -/
theorem exec_recoveryEnd_free {s : State} {c : Fin 4} {copy : BeatCopy} (st : (s.chanAt c).state = .recovery copy)
    (bus : (s.chanAt c).onBus = none) : exec (.recoveryEnd c) s = .next ((s.chanState c .idle).arbitrate c) := by
  simp only [exec, execRecoveryEnd, st, State.recoveryEnds, bus, afterRecovery_free bus]

/-- A channel whose count is below the limit goes into RECOVERY, or through it with recovery 0 (R89). -/
theorem settleChannel_recovery {s : State} {c : Fin 4} {copy : BeatCopy} (count : (s.chanAt c).timeouts = 0)
    (long : 0 < copy.profile.recovery) : s.settleChannel c copy = s.chanState c (.recovery copy) := by
  unfold State.settleChannel
  rw [count, if_neg (by decide), if_neg (by omega)]

theorem settleChannel_through {s : State} {c : Fin 4} {copy : BeatCopy} (count : (s.chanAt c).timeouts = 0)
    (through : copy.profile.recovery = 0) : s.settleChannel c copy = s.afterRecovery c := by
  unfold State.settleChannel
  rw [count, if_neg (by decide), if_pos through]

/-- The normal end of a plan's last beat, up to what follows from it (R102, R105). -/
theorem beatEnd_last {s : State} {c : Fin 4} {copy : BeatCopy} {cd : Word} {id : CtxId} {r : Request} {b : Binding}
    {stamp : Nat} {beat : Beat} (on : OnBus s c id r b stamp false) (hb : b.plan[b.completed]? = some beat)
    (last : b.completed + 1 = b.plan.length) :
    s.beatEnd c copy .normal cd =
      (((s.accessDone c id r (afterNormalBeat b beat cd)).settleChannel c copy).drainCheck).sweep c := by
  obtain ⟨bus, ctx⟩ := on
  unfold State.beatEnd
  simp only [bus, ctx, afterBeat_of_beat hb]
  rw [if_neg (by simp), if_neg]
  · rfl
  · show ¬ b.completed + 1 < b.plan.length
    omega

/-- After a drain check a channel that was not OFFLINE has nothing to sweep. -/
theorem sweep_drainCheck_online {s : State} {c : Fin 4} (h : (s.chanAt c).state ≠ .offline) :
    s.drainCheck.sweep c = s.drainCheck :=
  sweep_online (mt (drainCheck_noneGoesOffline s c) h)

/-- Settles O19: the channel's next state gives the state u, or with recovery 0 the RECOVERY_END of it, and then only the drain check is left. -/
theorem lastBeatEndsTheAccessOk : Obligations.LastBeatEndsTheAccessOk := by
  intro s c copy e cd id r b stamp beat ends on hb last u
  have u_eq : u = (s.accessDone c id r (afterNormalBeat b beat cd)).chanState c (.recovery copy) :=
    (accessDone_chanState ..).symm
  generalize hd : s.accessDone c id r (afterNormalBeat b beat cd) = done at u_eq
  have ended : exec e s = .next (((done.settleChannel c copy).drainCheck).sweep c) := by
    rw [exec_endsBeat ends, beatEnd_last on hb last, hd]
  have chan := hd ▸ accessDone_chanAt s c id r (afterNormalBeat b beat cd)
  have u_chan : u.chanAt c = { done.chanAt c with state := .recovery copy } := by rw [u_eq, chanState_chanAt]
  have count : (done.chanAt c).timeouts = 0 := by rw [chan]
  have bus : (done.chanAt c).onBus = none := by rw [chan]
  have drains : 0 < copy.profile.recovery → exec e s = exec .applySet u := by
    intro long
    rw [ended, settleChannel_recovery count long, ← u_eq, sweep_drainCheck_online (by simp [u_chan])]
    rfl
  refine ⟨fun long quiet => ?_, drains, fun through => ?_⟩
  · rw [drains long]
    exact congrArg _ (drainCheck_off (s := u) quiet)
  · refine ⟨_, exec_recoveryEnd_free (copy := copy) (by rw [u_chan]) (by rw [u_chan]; exact bus), ?_⟩
    have online : (((done.chanState c .idle).arbitrate c).chanAt c).state ≠ .offline := by
      refine mt (arbitrate_noneGoesOffline _ c c) ?_
      rw [chanState_chanAt]
      simp
    rw [ended, settleChannel_through count through, afterRecovery_free bus, sweep_drainCheck_online online, u_eq,
      chanState_chanState]
    rfl

end Sys2Proof.Machine
end

section
/-! The answer of QUERY_WINDOW byte by byte (R20, R173). -/

namespace Sys2Proof.Machine

/-! ### Bytes of an answer read back -/

theorem byteOf_toNat {n : Nat} (h : n < 256) : (byteOf n).toNat = n := by
  rw [byteOf, BitVec.toNat_ofNat]
  exact Nat.mod_eq_of_lt h

/-- Four bytes of a 32-bit value, put together again, are the value (00, 6.7). -/
theorem append_byteOfWord (w : Word) : byteOfWord w 3 ++ byteOfWord w 2 ++ byteOfWord w 1 ++ byteOfWord w 0 = w := by
  apply BitVec.eq_of_getLsbD_eq
  intro k hk
  simp only [BitVec.getLsbD_append, byteOfWord, BitVec.getLsbD_setWidth, BitVec.getLsbD_ushiftRight]
  have back : ∀ b m, b + m = k → m < 8 → (decide (m < 8) && w.getLsbD (b + m)) = w.getLsbD k := by
    rintro b m rfl small
    simp [small]
  split_ifs
  · exact back _ _ (by omega) (by omega)
  · exact back _ _ (by omega) (by omega)
  · exact back _ _ (by omega) (by omega)
  · exact back _ _ (by omega) (by omega)

/-- An absent label is sent as the label of all-ones (R173). -/
theorem labelBytes_eq (l : Option Word) : labelBytes l = bytes32 (l.getD 0xFFFFFFFF) := by
  cases l with
  | none => decide
  | some w => rfl

theorem options_bits (label swap : Bool) :
    (byteOf (bitIf label 0 + bitIf swap 1)).getLsbD 0 = label ∧ (byteOf (bitIf label 0 + bitIf swap 1)).getLsbD 1 = swap := by
  revert label swap
  decide

theorem rights_code_lt (r : Rights) : r.code < 4 := by
  cases r <;> decide

/-- Port q's two bits of the rights byte are the code of its rights (R5, Table 9-7). -/
theorem rightsByte_code (w : Window) (q : Fin 4) : (byteOf (rightsByte w)).toNat / 4 ^ q.1 % 4 = (w.rights.look q).code := by
  have h0 := rights_code_lt (w.rights.look 0)
  have h1 := rights_code_lt (w.rights.look 1)
  have h2 := rights_code_lt (w.rights.look 2)
  have h3 := rights_code_lt (w.rights.look 3)
  rw [byteOf_toNat (by unfold rightsByte; omega)]
  unfold rightsByte
  match q with
  | 0 => norm_num; omega
  | 1 => norm_num; omega
  | 2 => norm_num; omega
  | 3 => norm_num; omega

theorem width_bytes_lt (w : Width) : w.bytes < 256 := by
  cases w <;> decide

/-! ### QUERY_WINDOW (R20, R173) -/

theorem exec_queryWindow_badSlot {s : State} {p : List Byte} (h : Dispatched .queryWindow p s) (above : 63 < byteAt p 0) :
    exec .queryWindow s = .next (answeredWith s .badSlot [] false) := by
  simp only [exec, execQueryWindow, own_of h, if_pos above, answer_eq]

theorem exec_queryWindow_slot {s : State} {p : List Byte} (h : Dispatched .queryWindow p s) {i : Fin 64}
    (slot : i.1 = byteAt p 0) : exec .queryWindow s = .next (answeredWith s .done (s.queryWindowBytes i) false) := by
  have named : Fin.ofNat 64 (byteAt p 0) = i := by
    rw [← slot]
    exact Fin.ofNat_val_eq_self i
  simp only [exec, execQueryWindow, own_of h, if_neg (show ¬ 63 < byteAt p 0 by omega), named, answer_eq]

theorem queryWindowBytes_free {s : State} {i : Fin 64} (h : (s.slotAt i).state = .free) :
    s.queryWindowBytes i = [byteOf i.1, 0, (s.slotAt i).generation] := by
  simp only [State.queryWindowBytes, h]
  rfl

/-- The answer of a slot that holds a window, item by item (Table 9-8). -/
theorem queryWindowBytes_full {s : State} {i : Fin 64} (h : (s.slotAt i).state ≠ .free) :
    s.queryWindowBytes i = [byteOf i.1, byteOf (s.slotAt i).state.code, (s.slotAt i).generation,
        byteOf (bitIf (s.slotAt i).window.label.isSome 0 + bitIf (s.slotAt i).window.swapAllowed 1)] ++
      bytes32 (s.slotAt i).window.base ++
      [byteOf (s.slotAt i).window.sizeExp, byteOf (s.slotAt i).window.rank.1, byteOf (s.slotAt i).window.channel.1,
        byteOf (s.slotAt i).window.width.bytes, byteOf (s.slotAt i).window.profile.1,
        byteOf (rightsByte (s.slotAt i).window)] ++
      bytesTarget (s.slotAt i).window.targetBase ++ bytes32 ((s.slotAt i).window.label.getD 0xFFFFFFFF) ++
      [byteOf (s.slotAt i).inFlight] := by
  rw [← labelBytes_eq]
  cases hs : (s.slotAt i).state with
  | free => exact absurd hs h
  | live => simp [State.queryWindowBytes, windowBytes, hs]
  | frozen => simp [State.queryWindowBytes, windowBytes, hs]

theorem slotState_code {x : SlotState} (h : x ≠ .free) : (byteOf x.code).toNat = if x = .live then 1 else 2 := by
  cases x with
  | free => exact absurd rfl h
  | live => rfl
  | frozen => rfl

/-- Settles O40: the bytes of the answer are written out once (queryWindowBytes_full), and each offset is read back. -/
theorem queryWindowReportsTheSlot : Obligations.QueryWindowReportsTheSlot := by
  intro s p given
  refine ⟨exec_queryWindow_badSlot given, fun i slot => ⟨fun free => ?_, fun holds => ⟨_, exec_queryWindow_slot given slot, ?_⟩⟩⟩
  · rw [exec_queryWindow_slot given slot, queryWindowBytes_free free]
  · rw [queryWindowBytes_full holds]
    exact ⟨rfl, byteOf_toNat (by omega), slotState_code holds, rfl, (options_bits ..).1, (options_bits ..).2,
      append_byteOfWord _, rfl, byteOf_toNat (by omega), byteOf_toNat (by omega), byteOf_toNat (width_bytes_lt _),
      byteOf_toNat (by omega), rightsByte_code _, append_byteOfWord _, append_byteOfWord _, rfl⟩

end Sys2Proof.Machine
end

section
/-! What a taken request becomes at its presentation: HELD, DONE with a fault, BOUND, or granted at once (R28 to R35, R47, R80 to R82, R96 to R98). -/

namespace Sys2Proof.Machine

/-! ### The presentation of a request that is taken (R45, R47) -/

theorem sizeOk_iff (n : Nat) : sizeOk n = true ↔ n = 1 ∨ n = 2 ∨ n = 4 := by
  simp [sizeOk, or_assoc]

theorem takeable_size_pos {s : State} {p tag : Fin 4} {psz : BitVec 3} (h : Takeable s p tag psz) : 0 < psz.toNat := by
  have := h.size
  omega

theorem requestCheck_takeable {s : State} {p tag : Fin 4} {psz : BitVec 3} (h : Takeable s p tag psz) :
    s.requestCheck ⟨p, tag⟩ psz.toNat = none := by
  simp [State.requestCheck, h.on, h.free, (sizeOk_iff _).2 h.size]

/-- The part once it has answered a presentation of a port with PTKN, before the access is resolved. -/
def State.taking (s : State) (p : Fin 4) : State := s.putPort p (portAnswering (s.portAt p) .taken)

/-- Resolution reads the slots, the channels and the change set, and no port. -/
theorem taking_resolve (s : State) (p q : Fin 4) (r : Request) : (s.taking p).resolve q r = s.resolve q r := rfl

theorem present_takeable {s : State} {p tag : Fin 4} {psz : BitVec 3} (h : Takeable s p tag psz) {r : Request}
    (size : r.size = psz.toNat) : s.present ⟨p, tag⟩ r = (s.taking p).settle ⟨p, tag⟩ r (s.resolve p r) := by
  rw [← taking_resolve s p]
  simp only [State.present, size, requestCheck_takeable h]
  rfl

/-- A new presentation that passes every request check is answered PTKN and resolved in the same event (R47). -/
theorem exec_requestPresented_takeable {s : State} {p tag : Fin 4} {psz : BitVec 3} {pkr pkw : Bool} {kind : AccessKind}
    (lines : kindOfLines pkr pkw = some kind) (h : Takeable s p tag psz) (pa pwd : Word) :
    exec (.requestPresented p pkr pkw pa psz tag pwd) s =
      .next ((s.taking p).settle ⟨p, tag⟩ (presented kind pa psz pwd) (s.resolve p (presented kind pa psz pwd))) := by
  rw [← present_takeable h rfl]
  simp only [exec, execRequestPresented, lines, h.fresh]
  rfl

/-! ### Held, or done with a fault (R28, R35) -/

/-- Settles O7: the access stops at step 1. -/
theorem requestMeetingFootprintIsHeld : Obligations.RequestMeetingFootprintIsHeld := by
  intro s p pkr pkw kind pa psz tag pwd lines takes held
  rw [exec_requestPresented_takeable lines takes, resolve_held p held]
  rfl

/-- A context that joins the queue of a port just written is written beside that port with the longer queue (R51). -/
theorem enqueue_putCtx_putPort (s : State) (p tag : Fin 4) (u : PortUnit) (x : Option Context) :
    ((s.putPort p u).putCtx ⟨p, tag⟩ x).enqueue ⟨p, tag⟩ = (s.putPort p (queueJoined u tag)).putCtx ⟨p, tag⟩ x := by
  unfold State.enqueue
  rw [State.portAt_putCtx, State.portAt_putPort_same]
  exact State.ext_fields rfl (put_put ..) rfl rfl rfl rfl rfl rfl rfl rfl rfl

/-- Settles O8: the failing step writes the context, and the fault meets the record the port had before. -/
theorem requestFaultingAtResolutionIsDone : Obligations.RequestFaultingAtResolutionIsDone := by
  intro s p pkr pkw kind pa psz tag pwd st d k w lines takes unheld fails
  rw [exec_requestPresented_takeable lines takes, settle_faults (takeable_size_pos takes) unheld fails, State.endWithFault,
    State.taking, enqueue_putCtx_putPort, recordFault_eq]
  rfl

/-! ### Bound (R33, R34) -/

/-- The part once a taken request is BOUND under slot i with this stamp, before its channel arbitrates (R33, R34). -/
def State.binding (s : State) (id : CtxId) (r : Request) (i : Fin 64) (stamp : Nat) : State :=
  ((s.taking id.port).putCtx id (some ⟨r, .bound (boundUnder s i r) stamp 0⟩)).putSlot i
    { s.slotAt i with inFlight := (s.slotAt i).inFlight + 1 }

/-- A taken request that passes every step binds with a stamp later than every one on its channel, which then arbitrates (R33, R34, R96). -/
theorem exec_requestPresented_binds {s : State} {p tag : Fin 4} {psz : BitVec 3} {pkr pkw : Bool} {kind : AccessKind}
    {pa pwd : Word} {i : Fin 64} (lines : kindOfLines pkr pkw = some kind) (h : Takeable s p tag psz)
    (passes : PassesUnder s p (presented kind pa psz pwd) i) :
    ∃ stamp, (∀ id m, stampOn (s.slotAt i).window.channel (s.ctxAt id) = some m → m < stamp) ∧
      exec (.requestPresented p pkr pkw pa psz tag pwd) s =
        .next ((s.binding ⟨p, tag⟩ (presented kind pa psz pwd) i stamp).arbitrate (s.slotAt i).window.channel) := by
  refine ⟨s.nextStamp (s.slotAt i).window.channel, fun id m => nextStamp_gt, ?_⟩
  rw [exec_requestPresented_takeable lines h, resolve_passes (takeable_size_pos h) passes]
  rfl

/-- Settles O9: a channel that is not IDLE does not arbitrate. -/
theorem requestBindsAndWaits : Obligations.RequestBindsAndWaits := by
  intro s p pkr pkw kind pa psz tag pwd i lines takes passes busy
  obtain ⟨stamp, later, runs⟩ := exec_requestPresented_binds lines takes passes
  refine ⟨stamp, later, ?_⟩
  rw [runs, arbitrate_of_not_idle (s := s.binding _ _ i stamp) busy]
  rfl

/-! ### Granted at once (R96 to R98) -/

theorem planPhase_length_pos (ph : Phase) (n t W : Nat) : 0 < (planPhase ph n t W).length := by
  simp [planPhase, unitCount]

/-- Every access meets a unit, so its plan has a first beat (R64). -/
theorem planFor_length_pos (kind : AccessKind) (n t W : Nat) : 0 < (planFor kind n t W).length := by
  cases kind with
  | read => exact planPhase_length_pos ..
  | write => exact planPhase_length_pos ..
  | swap =>
    rw [planFor, List.length_append]
    exact Nat.add_pos_left (planPhase_length_pos ..) _

theorem boundUnder_firstBeat (s : State) (i : Fin 64) (r : Request) : ∃ beat, (boundUnder s i r).plan[0]? = some beat :=
  ⟨_, List.getElem?_eq_getElem (planFor_length_pos ..)⟩

theorem binding_ctxAt_same (s : State) (id : CtxId) (r : Request) (i : Fin 64) (stamp : Nat) :
    (s.binding id r i stamp).ctxAt id = some ⟨r, .bound (boundUnder s i r) stamp 0⟩ :=
  State.ctxAt_putCtx_same ..

theorem binding_ctxAt_ne {s : State} {id k : CtxId} (ne : k ≠ id) (r : Request) (i : Fin 64) (stamp : Nat) :
    (s.binding id r i stamp).ctxAt k = s.ctxAt k :=
  State.ctxAt_putCtx_ne (s.taking id.port) _ _ _ ne

/-- Where none waited, the context just bound waits alone, and has lost no grant. -/
theorem binding_waits_alone {s : State} {c : Fin 4} {id : CtxId} {r : Request} {i : Fin 64} {stamp : Nat}
    (empty : NoneWaits s c) (k : CtxId) (q : Request) (b : Binding) (n m : Nat)
    (waits : WaitsOn (s.binding id r i stamp) c k q b n m) : k = id ∧ m = 0 := by
  obtain ⟨bound, chan⟩ := waits
  by_cases e : k = id
  · subst e
    rw [binding_ctxAt_same] at bound
    cases bound
    exact ⟨rfl, rfl⟩
  · rw [binding_ctxAt_ne e] at bound
    exact absurd ⟨bound, chan⟩ (empty k q b n m)

/-- A context that waits alone is chosen by the step of its port's class (R97). -/
theorem binding_chosen {s : State} {c : Fin 4} {id : CtxId} {r : Request} {i : Fin 64} (stamp : Nat) (empty : NoneWaits s c)
    (chan : (s.slotAt i).window.channel = c) :
    (s.binding id r i stamp).choose c = some { id := id, moved := some (s.portAt id.port).cls } := by
  have cls : ((s.binding id r i stamp).portAt id.port).cls = (s.portAt id.port).cls := by
    unfold State.binding State.taking
    rw [State.portAt_putSlot, State.portAt_putCtx, State.portAt_putPort_same]
    rfl
  have alone := binding_waits_alone (id := id) (r := r) (i := i) (stamp := stamp) empty
  rw [← cls]
  refine choose_by_class (fun k q b n m waits => ?_) ⟨binding_ctxAt_same .., chan⟩ (fun normal k q b n m waits => ?_)
    (fun k q b n m waits _ ne => ?_) (fun k q b n m ne _ waits => ?_)
  · rw [(alone k q b n m waits).2]
    decide
  · rw [(alone k q b n m waits).1, normal]
  · exact absurd (congrArg CtxId.port (alone k q b n m waits).1) ne
  · exact absurd (alone k q b n m waits).1 ne

/-- Passing over the losers of a grant changes nobody but the one context that waits. -/
theorem binding_passedOver {s : State} {c : Fin 4} {id : CtxId} {r : Request} {i : Fin 64} {stamp : Nat} (empty : NoneWaits s c)
    (x : Option Context) :
    ((s.binding id r i stamp).mapCtxs (passOver c)).putCtx id x = (s.binding id r i stamp).putCtx id x := by
  refine State.ext_at (fun _ => rfl) (fun _ => rfl) (fun k => ?_) (fun _ => rfl) (fun _ => rfl) rfl (fun _ => rfl) rfl rfl rfl rfl
  by_cases e : k = id
  · subst e
    rw [State.ctxAt_putCtx_same, State.ctxAt_putCtx_same]
  · rw [State.ctxAt_putCtx_ne _ _ _ _ e, State.ctxAt_putCtx_ne _ _ _ _ e, State.ctxAt_mapCtxs]
    exact passOver_else fun q b n m waits => e (binding_waits_alone empty k q b n m waits).1

theorem arbitrate_of_idle {s : State} {c : Fin 4} {ch : Choice} (idle : (s.chanAt c).state = .idle)
    (chosen : s.choose c = some ch) : s.arbitrate c = s.grant c ch := by
  simp only [State.arbitrate, idle, chosen]

theorem binding_window (s : State) (id : CtxId) (r : Request) (i : Fin 64) (stamp : Nat) (j : Fin 64) :
    ((s.binding id r i stamp).slotAt j).window = (s.slotAt j).window :=
  (raiseCount_kept ((s.taking id.port).putCtx id (some ⟨r, .bound (boundUnder s i r) stamp 0⟩)) i).window j

/-- The start of a beat reads the profiles and the window of the binding, and of the part nothing else (R80, R82). -/
theorem startedBeat_congr {s t : State} {b : Binding} (profiles : t.profiles = s.profiles)
    (window : (t.slotAt b.window.slot).window = (s.slotAt b.window.slot).window) (x : Channel) (beat : Beat) (r : Request) :
    startedBeat t x beat b r = startedBeat s x beat b r := by
  unfold startedBeat State.profileAt
  rw [profiles, window]

/-- The grant of a context that waits alone: it is ON_BUS in place of BOUND, and its first beat starts on the channel with the pointer moved (R80, R97, R98). -/
theorem grant_binding {s : State} {c : Fin 4} {id : CtxId} {r : Request} {i : Fin 64} (stamp : Nat) {beat : Beat}
    (empty : NoneWaits s c) (first : (boundUnder s i r).plan[0]? = some beat) (m : Option UrgencyClass) :
    (s.binding id r i stamp).grant c { id := id, moved := m } =
      (((s.taking id.port).putCtx id (some ⟨r, .onBus (boundUnder s i r) stamp false⟩)).putSlot i
        { s.slotAt i with inFlight := (s.slotAt i).inFlight + 1 }).putChan c
          (startedBeat s { (s.chanAt c).movePointer { id := id, moved := m } with onBus := some id } beat
            (boundUnder s i r) r) := by
  rw [grant_eq (binding_ctxAt_same ..), binding_passedOver empty]
  generalize hu : ((s.binding id r i stamp).putCtx id (some ⟨r, .onBus (boundUnder s i r) stamp false⟩)).putChan c
    { ((s.binding id r i stamp).chanAt c).movePointer { id := id, moved := m } with onBus := some id } = u
  have chan : u.chanAt c = { (s.chanAt c).movePointer { id := id, moved := m } with onBus := some id } := by
    subst hu; exact State.chanAt_putChan_same ..
  have ctx : u.ctxAt id = some ⟨r, .onBus (boundUnder s i r) stamp false⟩ := by
    subst hu; exact State.ctxAt_putCtx_same ..
  have window : (u.slotAt i).window = (s.slotAt i).window := by
    subst hu; exact binding_window ..
  have profiles : u.profiles = s.profiles := by
    subst hu; rfl
  rw [startBeat_eq (by rw [chan]) ctx rfl first, startedBeat_congr profiles window, chan]
  subst hu
  exact State.ext_fields rfl rfl (put_put ..) rfl (put_put ..) rfl rfl rfl rfl rfl rfl

/-- Settles O10: the context just bound waits alone, so the arbitration chooses it and its first beat starts. -/
theorem requestBindsAndIsGranted : Obligations.RequestBindsAndIsGranted := by
  intro s p pkr pkw kind pa psz tag pwd i c lines takes passes chan idle empty
  obtain ⟨stamp, _, runs⟩ := exec_requestPresented_binds lines takes passes
  obtain ⟨beat, first⟩ := boundUnder_firstBeat s i (presented kind pa psz pwd)
  refine ⟨stamp, beat, first, ?_⟩
  rw [runs, chan, arbitrate_of_idle (s := s.binding _ _ i stamp) idle (binding_chosen stamp empty chan),
    grant_binding stamp empty first]
  cases (s.portAt p).cls with
  | urgent => rfl
  | normal => rfl

end Sys2Proof.Machine
end

section
/-! The answer of FIND_ADDRESS: the checks of its fields, and the outcome of the resolution it makes (R38 to R40, R175). -/

namespace Sys2Proof.Machine

/-! ### What a resolution past step 1 answers (R29 to R32) -/

section PastStep1

variable {s : State} {p : Fin 4} {r : Request} {i : Fin 64}

theorem resolve_noWindow (unheld : ¬ HeldAtStep1 s r) (no : NoWindowAt s r.address.toNat) : s.resolve p r = .noWindow := by
  simp [State.resolve, not_footprintHit unheld, select_none no]

/-- The window selected for byte 0 is not the one of every byte (R30). -/
theorem spanOk_false_of_later {k : Nat} (hk : k < r.size)
    (h : NoWindowAt s (r.address.toNat + k) ∨ ∃ j, j ≠ i ∧ Selects s (r.address.toNat + k) j) : s.spanOk i r = false := by
  rw [← Bool.not_eq_true, spanOk_iff]
  intro all
  have here := all k hk
  rcases h with no | ⟨j, ne, other⟩
  · rw [select_none no] at here
    cases here
  · rw [select_some other] at here
    exact ne (Option.some.inj here)

/-- A fault that names a window is SPAN or DENIED, and the resolution answers it with that window (R30, R31, R35). -/
theorem resolve_span {d : DoneRecord} {k : FaultKind} {w : WindowRef} (unheld : ¬ HeldAtStep1 s r)
    (h : FaultsAs s p r .span d k (some w)) : s.resolve p r = .span w := by
  cases h with
  | span i first later =>
    obtain ⟨k, hk, other⟩ := later
    simp [State.resolve, not_footprintHit unheld, select_some first, spanOk_false_of_later hk other]

theorem resolve_denied {d : DoneRecord} {k : FaultKind} {w : WindowRef} (unheld : ¬ HeldAtStep1 s r) (size : 0 < r.size)
    (h : FaultsAs s p r .denied d k (some w)) : s.resolve p r = .denied w := by
  cases h with
  | denied i whole no =>
    have no : granted ((s.slotAt i).window.rights.look p) (s.slotAt i).window.swapAllowed r.kind = false := by
      rw [← Bool.not_eq_true, granted_iff]
      exact no
    simp [State.resolve, not_footprintHit unheld, first_of_whole whole size, spanOk_whole whole, no]

theorem resolve_channelOffline (unheld : ¬ HeldAtStep1 s r) (size : 0 < r.size) (whole : SelectsWhole s r i)
    (yes : Allows ((s.slotAt i).window.rights.look p) (s.slotAt i).window.swapAllowed r.kind)
    (off : (s.chanAt (s.slotAt i).window.channel).state = .offline) :
    s.resolve p r = .channelOffline (s.windowRef i) (s.slotAt i).window.channel := by
  simp [State.resolve, not_footprintHit unheld, first_of_whole whole size, spanOk_whole whole, (granted_iff ..).2 yes, off,
    ChanState.isOffline]

end PastStep1

/-! ### FIND_ADDRESS (R38 to R40) -/

/-- The access a FIND_ADDRESS payload describes; it carries no write data (R38, R175). -/
def foundRequest (p : List Byte) (kind : AccessKind) : Request :=
  { kind := kind, size := byteAt p 2, address := wordAt p 3, data := [] }

section Fields

variable {s : State} {p : List Byte} {q : Fin 4}

theorem exec_findAddress_badPort (given : Dispatched .findAddress p s) (port : 3 < byteAt p 0) :
    exec .findAddress s = .next (answeredWith s .badField [1] false) := by
  simp only [exec, execFindAddress, own_of given, if_pos port]
  rfl

theorem exec_findAddress_badKind (given : Dispatched .findAddress p s) (port : q.1 = byteAt p 0)
    (kind : accessKindOf (byteAt p 1) = none) : exec .findAddress s = .next (answeredWith s .badField [2] false) := by
  simp only [exec, execFindAddress, own_of given, if_neg (show ¬ 3 < byteAt p 0 by omega), kind]
  rfl

theorem exec_findAddress_badSize {k : AccessKind} (given : Dispatched .findAddress p s) (port : q.1 = byteAt p 0)
    (kind : accessKindOf (byteAt p 1) = some k) (size : ¬ sizeOk (byteAt p 2) = true) :
    exec .findAddress s = .next (answeredWith s .badField [3] false) := by
  simp only [exec, execFindAddress, own_of given, if_neg (show ¬ 3 < byteAt p 0 by omega), kind, if_neg size]
  rfl

/-- With every field in order the answer is that of the resolution the access would meet now (R38, R39). -/
theorem exec_findAddress_resolves {k : AccessKind} {v : Verdict} (given : Dispatched .findAddress p s)
    (port : q.1 = byteAt p 0) (kind : accessKindOf (byteAt p 1) = some k) (size : sizeOk (byteAt p 2) = true)
    (outcome : s.resolve q (foundRequest p k) = v) : exec .findAddress s = .next (answeredWith s .done v.bytes false) := by
  have asked : Fin.ofNat 4 (byteAt p 0) = q := by rw [← port]; exact Fin.ofNat_val_eq_self q
  simp only [exec, execFindAddress, own_of given, if_neg (show ¬ 3 < byteAt p 0 by omega), kind, if_pos size, asked]
  rw [← outcome]
  rfl

end Fields

/-- Settles O41: each field check in its order, and then each outcome of the resolution with the bytes that name it. -/
theorem findAddressAnswersTheOutcome : Obligations.FindAddressAnswersTheOutcome := by
  intro s p given
  refine ⟨exec_findAddress_badPort given, fun q port => ⟨exec_findAddress_badKind given port, fun kind isKind =>
    ⟨fun n1 n2 n4 => ?_, fun size => ?_⟩⟩⟩
  · refine exec_findAddress_badSize given port isKind fun ok => ?_
    rcases (sizeOk_iff _).1 ok with e | e | e
    · exact n1 e
    · exact n2 e
    · exact n4 e
  have answers : ∀ v, s.resolve q (foundRequest p kind) = v → exec .findAddress s = .next (answeredWith s .done v.bytes false) :=
    fun v => exec_findAddress_resolves given port isKind ((sizeOk_iff _).2 size)
  have pos : 0 < (foundRequest p kind).size := by
    show 0 < byteAt p 2
    omega
  refine ⟨fun held => answers _ (resolve_held q held), fun unheld =>
    ⟨fun no => answers _ (resolve_noWindow unheld no), fun d w h => answers _ (resolve_span unheld h),
      fun d w h => answers _ (resolve_denied unheld pos h), fun i whole yes => ⟨fun off => ?_, fun up => ?_⟩⟩⟩
  · exact answers _ (resolve_channelOffline unheld pos whole yes off)
  · exact answers _ (resolve_passes pos ⟨unheld, whole, yes, up⟩)

end Sys2Proof.Machine
end

section
/-! Apply and discard of a COMMITTING set with accesses held: the hold list resolved again in hold order (R36, R130, R131, R134). -/

namespace Sys2Proof.Machine

theorem closedSet_not_committing (hold : List CtxId) : (closedSet hold).state ≠ .committing := by
  simp [closedSet]

section FromClosed

variable {u : State} {hold : List CtxId} (closed : u.changeSet = closedSet hold)

include closed

/-- Resolving a hold list again once the set is CLOSED: the set is then empty, each context keeps its request, and none of the list is left HELD (R36, R131). -/
theorem reResolve_fromClosed : (u.reResolve hold).changeSet = emptySet ∧
    (∀ k, requestAt (u.reResolve hold) k = requestAt u k) ∧ ∀ k ∈ hold, ¬ HeldAt (u.reResolve hold) k := by
  obtain ⟨set, requests, settled⟩ := reResolve_all (s := u) (l := hold)
    (by rw [closed]; exact closedSet_not_committing hold) (by rw [closed]; rfl)
  refine ⟨?_, requests, fun k listed => settled k (.inl listed)⟩
  rw [set, closed]
  rfl

theorem reResolve_not_held {id : CtxId} {r : Request} (listed : id ∈ hold) (held : u.ctxAt id = some ⟨r, .held⟩) :
    ∃ st, (u.reResolve hold).ctxAt id = some ⟨r, st⟩ ∧ st ≠ .held := by
  obtain ⟨_, requests, settled⟩ := reResolve_fromClosed closed
  refine notHeld_request ?_ (settled id listed)
  rw [requests, requestAt, held]
  rfl

end FromClosed

/-- From a CLOSED set and a table without overlaps, a hold list that lists the HELD contexts once each is resolved again in hold order (R36, R131). -/
theorem reResolve_holdList {s u : State} (law : HoldListLaw s) (closed : u.changeSet = closedSet s.changeSet.holdList)
    (ctxs : u.ctxs = s.ctxs) (table : NoOverlap u) :
    ResolvedInOrder u s.changeSet.holdList (u.reResolve s.changeSet.holdList) := by
  obtain ⟨nd, listed, _⟩ := law
  refine reResolve_inOrder table ?_ nd fun id mem => (heldAt_same ctxs id).2 ((listed id).1 mem)
  rw [closed]
  exact closedSet_not_committing _

/-! ### Apply (R130) -/

theorem beforeReResolve_changeSet (s : State) : s.beforeReResolve.changeSet = closedSet s.changeSet.holdList := by
  show closedSet (s.applyEntries s.changeSet.entries).changeSet.holdList = _
  obtain ⟨_, _, _, set, _⟩ := applyEntries_same s s.changeSet.entries
  rw [set]

theorem beforeReResolve_ctxs (s : State) : s.beforeReResolve.ctxs = s.ctxs := (applyEntries_same s s.changeSet.entries).2.1

/-- With one entry for each slot, table, set and latch are what an apply writes before the hold list (R11, R130). -/
theorem beforeReResolve_applied {s : State} (nd : (s.changeSet.entries.map Entry.slot).Nodup) :
    AppliedBeforeHoldList s s.beforeReResolve := by
  obtain ⟨ports, ctxs, chans, _, faults⟩ := applyEntries_same s s.changeSet.entries
  have still := applyEntries_still s s.changeSet.entries
  obtain ⟨install, amend, retire, others⟩ := applyEntries_takeEffect nd
  refine ⟨⟨install, amend, retire, others⟩, beforeReResolve_changeSet s, ?_, ctxs, ports, still.profiles, chans, faults,
    still.link, still.startUp, still.pending⟩
  show { (s.applyEntries s.changeSet.entries).attention with commitApplied := true } = _
  rw [applyEntries_attention]

theorem beforeReResolve_noOverlap {s : State} (law : OverlapLaw s) (committing : s.changeSet.state = .committing) :
    NoOverlap s.beforeReResolve :=
  (overlapLaw_applied (t := s.beforeReResolve) law committing (fun _ => ⟨rfl, rfl⟩) ⟨rfl, rfl⟩).1

/-! ### Discard (R134) -/

/-- The state in which a discard resolves the hold list again: the FROZEN slots LIVE, the set CLOSED. -/
def State.thawed (s : State) : State := { s with slots := s.slots.mapAll Slot.thaw }.closeSet

theorem discardCommitting_eq (s : State) : s.discardCommitting = s.thawed.reResolve s.changeSet.holdList := rfl

theorem thawed_changeSet (s : State) : s.thawed.changeSet = closedSet s.changeSet.holdList := rfl

theorem thawed_slotAt (s : State) (i : Fin 64) : s.thawed.slotAt i = (s.slotAt i).thaw := Table.look_mapAll ..

theorem thaw_free {x : Slot} : x.thaw.state = .free ↔ x.state = .free := by
  unfold Slot.thaw
  cases x.state <;> simp

/-- A thaw moves no window, and frees and fills no slot (R12). -/
theorem thawed_noOverlap {s : State} (h : NoOverlap s) : NoOverlap s.thawed := by
  intro i j ne hi hj
  rw [thawed_slotAt, ne_eq, thaw_free] at hi hj
  rw [thawed_slotAt, thawed_slotAt]
  exact h i j ne hi hj

/-- Settles O31: the table is written and the set closed first, by beforeReResolve or thawed, and from there the hold list is resolved again. -/
theorem holdListEmptiesAtApplyAndDiscard : Obligations.HoldListEmptiesAtApplyAndDiscard := by
  refine ⟨fun s committing ready drained => ?_, fun s p given committing => ?_⟩
  · have closed := beforeReResolve_changeSet s
    have ctxs := beforeReResolve_ctxs s
    obtain ⟨set, latch, _⟩ := applyNow_spec s
    refine ⟨s.applyNow, congrArg _ (drainCheck_of_drained committing ready drained), set, latch,
      fun id r listed held => reResolve_not_held closed listed ?_, fun overlaps law =>
        ⟨s.beforeReResolve, beforeReResolve_applied overlaps.2.2,
          reResolve_holdList law closed ctxs (beforeReResolve_noOverlap overlaps committing)⟩⟩
    rw [State.ctxAt, ctxs]
    exact held
  · have closed := thawed_changeSet s
    have kept := reResolve_kept s.thawed s.changeSet.holdList
    refine ⟨s.discardCommitting, exec_discard_committing given committing, (reResolve_fromClosed closed).1,
      reResolve_attention .., (reResolve_still ..).link, fun id r => reResolve_not_held closed, fun i => ?_,
      fun overlaps law => reResolve_holdList law closed rfl (thawed_noOverlap overlaps.1)⟩
    refine ⟨(kept.state i).trans ?_, (kept.window i).trans ?_, (kept.generation i).trans ?_⟩ <;> rw [thawed_slotAt] <;> rfl

end Sys2Proof.Machine
end

section
/-! What a command can do to the ports, said once, and the two laws of the ports through every command: a port not IN_RESET follows its enable, and a queue holds the DONE contexts (R42, R51). -/

namespace Sys2Proof.Machine

/-! ### What a command can do to the ports and the contexts -/

/-- From x to y a port keeps its state and its enable, or it is IN_RESET, or it has taken the state of its enable (R42). -/
inductive PortUnit.Follows (x y : PortUnit) : Prop where
  | kept (state : y.state = x.state) (enable : y.enable = x.enable)
  | reset (state : y.state = .inReset)
  | followed (state : y.state = stateOfEnable y.enable)

theorem PortUnit.Follows.refl (x : PortUnit) : x.Follows x := .kept rfl rfl

theorem PortUnit.Follows.trans {x y z : PortUnit} (h : x.Follows y) (k : y.Follows z) : x.Follows z := by
  cases k with
  | reset state => exact .reset state
  | followed state => exact .followed state
  | kept state enable =>
    cases h with
    | kept state' enable' => exact .kept (state.trans state') (enable.trans enable')
    | reset state' => exact .reset (state.trans state')
    | followed state' => exact .followed (by rw [state, state', enable])

/-- From s to t no context and no response queue has changed, and every port keeps its state and enable, is IN_RESET or follows its enable. -/
structure State.PortsSettle (s t : State) : Prop where
  ctxs : t.ctxs = s.ctxs
  queue : ∀ p, (t.portAt p).queue = (s.portAt p).queue
  follows : ∀ p, (s.portAt p).Follows (t.portAt p)

theorem State.PortsSettle.refl (s : State) : s.PortsSettle s := ⟨rfl, fun _ => rfl, fun _ => .refl _⟩

theorem State.PortsSettle.trans {s t u : State} (h : s.PortsSettle t) (k : t.PortsSettle u) : s.PortsSettle u :=
  ⟨k.ctxs.trans h.ctxs, fun p => (k.queue p).trans (h.queue p), fun p => (h.follows p).trans (k.follows p)⟩

theorem portsSettle_of {s t : State} (ports : t.ports = s.ports) (ctxs : t.ctxs = s.ctxs) : s.PortsSettle t := by
  have port : ∀ p, t.portAt p = s.portAt p := fun p => congrArg (Table.look · p) ports
  exact ⟨ctxs, fun p => by rw [port], fun p => by rw [port]; exact .refl _⟩

theorem putPort_portsSettle {s : State} {p : Fin 4} {x : PortUnit} (queue : x.queue = (s.portAt p).queue)
    (follows : (s.portAt p).Follows x) : s.PortsSettle (s.putPort p x) := by
  refine ⟨rfl, fun q => ?_, fun q => ?_⟩
  all_goals rw [State.portAt_putPort]; split
  · rename_i same; rw [same, queue]
  · rfl
  · rename_i same; rw [same]; exact follows
  · exact .refl _

theorem answer_portsSettle (s : State) (st : AnswerStatus) (payload : List Byte) (lineHeld : Bool) :
    s.PortsSettle (s.answer st payload lineHeld) := portsSettle_of rfl rfl

theorem leaveReset_portsSettle (s : State) (p : Fin 4) : s.PortsSettle (s.leaveReset p) := by
  have left : s.PortsSettle (s.putPort p { s.portAt p with state := stateOfEnable (s.portAt p).enable }) :=
    putPort_portsSettle rfl (.followed rfl)
  unfold State.leaveReset
  dsimp only
  split
  · exact left.trans (answer_portsSettle ..)
  · exact left

theorem portCheck_portsSettle (s : State) (p : Fin 4) : s.PortsSettle (s.portCheck p) := by
  unfold State.portCheck
  split
  · exact leaveReset_portsSettle s p
  · exact .refl s

theorem markTaken_ports (s : State) : s.markTaken.ports = s.ports := by
  unfold State.markTaken
  split <;> rfl

theorem markTaken_portsSettle (s : State) : s.PortsSettle s.markTaken :=
  portsSettle_of (markTaken_ports s) (markTaken_sameTables s).ctxs

theorem answerLineHeld_portsSettle (s : State) (p : Fin 4) : s.PortsSettle (s.answerLineHeld p) := by
  unfold State.answerLineHeld
  split
  · exact answer_portsSettle ..
  · exact .refl s

theorem recordFault_portsSettle (s : State) (p : Fin 4) (f : FaultRecord) : s.PortsSettle (s.recordFault p f) := by
  rw [recordFault_eq]
  exact portsSettle_of rfl rfl

/-! The link reads the ports and writes none (R157 to R167). -/

theorem releaseMcs_portsSettle (s : State) : s.PortsSettle s.releaseMcs := by
  unfold State.releaseMcs
  split <;> exact portsSettle_of rfl rfl

theorem decideFrame_portsSettle (s : State) (b : List Byte) : s.PortsSettle (s.decideFrame b) := by
  unfold State.decideFrame
  split
  case h_3 =>
    dsimp only
    split <;> exact portsSettle_of rfl rfl
  all_goals exact portsSettle_of rfl rfl

theorem typedExchange_portsSettle (s : State) (t : Byte) (b : List Byte) : s.PortsSettle (s.typedExchange t b) := by
  have command : s.PortsSettle (s.commandExchange b) := by
    unfold State.commandExchange
    split
    case h_1 | h_2 => exact portsSettle_of rfl rfl
    case h_3 | h_4 => exact decideFrame_portsSettle ..
  unfold State.typedExchange
  split
  · exact command
  · split
    · exact portsSettle_of rfl rfl
    · split <;> exact portsSettle_of rfl rfl

theorem beginExchange_portsSettle (s : State) (t : Byte) (b : List Byte) : s.PortsSettle (s.beginExchange t b) := by
  refine (releaseMcs_portsSettle s).trans ?_
  unfold State.beginExchange
  dsimp only
  split
  case h_1 => exact portsSettle_of rfl rfl
  all_goals exact typedExchange_portsSettle ..

theorem completeStartUp_portsSettle (s : State) (o : Origin) : s.PortsSettle (s.completeStartUp o) := by
  have released : s.PortsSettle (s.mapPorts PortUnit.release) := by
    refine ⟨rfl, fun p => ?_, fun p => ?_⟩ <;> rw [State.portAt_mapPorts, PortUnit.release]
    · split <;> rfl
    · split
      · exact .refl _
      · exact .followed rfl
  refine released.trans ?_
  cases o <;> exact portsSettle_of rfl rfl

/-- Everything a command can do to the ports and the contexts. -/
inductive PortChange (s : State) : State → Prop where
  | settled {t : State} (h : s.PortsSettle t) : PortChange s t
  | rst : PortChange s s.assertRst
  | reinitialised (u : State) (o : Origin) : PortChange s (u.reinitialise o)
  | resetAll : PortChange s s.takeResetAll.endWait
  | taken {u : State} {id : CtxId} {r : Request} (h : s.PortsSettle u) (free : s.ctxAt id = none) :
      PortChange s (u.resolveInto id r)
  | headTaken {u : State} (p : Fin 4) (h : s.PortsSettle u) : PortChange s (u.takeHead p)
  | portReset {u t : State} (p : Fin 4) (h : s.PortsSettle u) (k : (u.startPortReset p).PortsSettle t) : PortChange s t
  | beatEnded (c : Fin 4) (copy : BeatCopy) (o : BeatOutcome) (cd : Word) : PortChange s (s.beatEnd c copy o cd)
  | recoveryEnded (c : Fin 4) : PortChange s (s.recoveryEnds c)
  | drainChecked : PortChange s s.drainCheck
  | accepted {t : State} (k : s.accept.drainCheck.PortsSettle t) : PortChange s t
  | discarded {t : State} (k : s.discardCommitting.PortsSettle t) : PortChange s t

theorem PortChange.same (s : State) : PortChange s s := .settled (.refl s)

theorem PortChange.besides {s t : State} (ports : t.ports = s.ports) (ctxs : t.ctxs = s.ctxs) : PortChange s t :=
  .settled (portsSettle_of ports ctxs)

/-- A command of an owner changes the ports as its owner does, or not at all (R169). -/
theorem own_portChange {s : State} (code : CommandCode) {f : List Byte → State} (h : ∀ p, PortChange s (f p)) :
    PortChange s (s.own code f) :=
  own_keeps code (.same s) fun p _ => h p

theorem present_portChange (s : State) (id : CtxId) (r : Request) : PortChange s (s.present id r) := by
  have answered : ∀ a, s.PortsSettle (s.answerRequest id.port a) := fun a => putPort_portsSettle rfl (.kept rfl rfl)
  unfold State.present
  split
  · dsimp only
    split
    · exact .settled ((answered _).trans (recordFault_portsSettle ..))
    · exact .settled (answered _)
  · rename_i ok
    exact .taken (answered _) (requestCheck_none ok).1

theorem prstnAsserted_portChange (s : State) (p : Fin 4) (already : Prop) [Decidable already] :
    PortChange s ((if already then s.assertPrstn p else (s.assertPrstn p).startPortReset p).answerLineHeld p) := by
  have line : s.PortsSettle (s.assertPrstn p) := putPort_portsSettle rfl (.kept rfl rfl)
  split
  · exact .settled (line.trans (answerLineHeld_portsSettle ..))
  · exact .portReset p line (answerLineHeld_portsSettle ..)

theorem resetPort_portChange (s : State) (p : Fin 4) : PortChange s (s.resetPort p) := by
  have follows : ∀ u : State, u.PortsSettle
      (if (s.portAt p).prstn then u.answer .done [] true else u.markTaken.portCheck p) := by
    intro u
    split
    · exact answer_portsSettle ..
    · exact (markTaken_portsSettle u).trans (portCheck_portsSettle ..)
  unfold State.resetPort
  dsimp only
  by_cases h : (s.portAt p).state = .inReset
  · rw [if_pos h]
    exact .settled (follows s)
  · rw [if_neg h]
    exact .portReset p (.refl s) (follows _)

theorem commitOpen_portChange (s : State) : PortChange s s.commitOpen := by
  unfold State.commitOpen
  split
  · exact .besides rfl rfl
  · exact .accepted (answer_portsSettle ..)

theorem stage_portChange (s : State) (x : Option Refused) (e : Entry) : PortChange s (s.stage x e) := by
  unfold State.stage
  split <;> exact .besides rfl rfl

/-- The one inversion of exec for the laws of the ports: whatever the command, the ports and the contexts change in one of these ways. -/
theorem exec_portChange {c : Instr} {s t : State} (h : exec c s = .next t) : PortChange s t := by
  cases c <;> cases h
  case rstAsserted => exact .rst
  case rstReleased =>
    split
    · exact .reinitialised ..
    · exact .same s
  case reinitialisation => exact endWait_keeps (.besides rfl rfl) (.reinitialised ..)
  case startupCompletion =>
    split
    · exact .settled (completeStartUp_portsSettle ..)
    · exact .same s
  case requestPresented =>
    split
    · exact .same s
    · split
      · exact .same s
      · exact present_portChange ..
  case responseTaken p =>
    split
    · exact .same s
    · exact .headTaken p (putPort_portsSettle rfl (.kept rfl rfl))
  case prstnAsserted => exact prstnAsserted_portChange ..
  case prstnDeasserted p =>
    have line : s.PortsSettle (s.putPort p { s.portAt p with prstn := false }) := putPort_portsSettle rfl (.kept rfl rfl)
    exact .settled (line.trans (portCheck_portsSettle ..))
  case portLeavesInReset => exact .settled (portCheck_portsSettle ..)
  case requestRemoved | prtkSampledLow => exact .settled (putPort_portsSettle rfl (.kept rfl rfl))
  case strobeAssert =>
    split
    · exact .besides rfl rfl
    · exact .same s
  case minimumStrobeEnd | extensionPeriodEnd =>
    split
    · split
      · exact .beatEnded ..
      · split
        · exact .beatEnded ..
        · exact .besides rfl rfl
    · exact .same s
  case beatTimeout =>
    split
    · split
      · exact .beatEnded ..
      · exact .same s
    · exact .same s
  case recoveryEnd =>
    split
    · exact .recoveryEnded _
    · exact .same s
  case applySet => exact .drainChecked
  case commandFrame | responseExchange | attentionExchange | unknownTypeExchange =>
    exact .settled (beginExchange_portsSettle ..)
  case mcsRelease => exact .settled (releaseMcs_portsSettle s)
  case collision =>
    split
    · exact .settled (beginExchange_portsSettle ..)
    · exact .same s
  case resetAll => exact own_portChange _ fun _ => .resetAll
  case stageInstall | stageAmend | stageRetire => exact own_portChange _ fun _ => stage_portChange ..
  case commit =>
    refine own_portChange _ fun _ => ?_
    split
    · exact .besides rfl rfl
    · split
      · exact .besides rfl rfl
      · exact commitOpen_portChange s
    · exact .besides rfl rfl
  case discard =>
    refine own_portChange _ fun _ => ?_
    split
    · exact .besides rfl rfl
    · exact .besides rfl rfl
    · exact .discarded (answer_portsSettle ..)
  case resetPort =>
    refine own_portChange _ fun _ => ?_
    split
    · exact .besides rfl rfl
    · exact resetPort_portChange ..
  case setPort =>
    refine own_portChange _ fun _ => ?_
    split
    · exact .besides rfl rfl
    · split
      · exact .besides rfl rfl
      · exact .besides rfl rfl
      · dsimp only
        split
        · exact .besides rfl rfl
        · refine .settled (.trans (putPort_portsSettle ?_ (.followed ?_)) (answer_portsSettle ..)) <;> rfl
  case identify | querySet => exact own_portChange _ fun _ => .besides rfl rfl
  case queryWindow | queryPort | queryProfile | queryChannel | setProfile | setAttentionMask =>
    refine own_portChange _ fun _ => ?_
    split <;> exact .besides rfl rfl
  case findAddress =>
    refine own_portChange _ fun _ => ?_
    split
    · exact .besides rfl rfl
    · split
      · exact .besides rfl rfl
      · split <;> exact .besides rfl rfl
  case readFault | setChannel | ackAttention =>
    refine own_portChange _ fun _ => ?_
    split
    · exact .besides rfl rfl
    · split <;> exact .besides rfl rfl
  case restoreChannel =>
    refine own_portChange _ fun _ => ?_
    split
    · exact .besides rfl rfl
    · dsimp only
      split <;> exact .besides rfl rfl
  case clearFault =>
    refine own_portChange _ fun _ => ?_
    split
    · exact .besides rfl rfl
    · split
      · exact .besides rfl rfl
      · split <;> exact .besides rfl rfl

/-! ### The law of the enables (R42) -/

theorem State.PortsSettle.portsFollow {s t : State} (h : s.PortsSettle t) (hs : PortsFollowEnables s) : PortsFollowEnables t := by
  intro p on
  cases h.follows p with
  | kept state enable =>
    rw [state] at on
    rw [state, enable]
    exact hs p on
  | reset state => exact absurd state on
  | followed state => exact state

theorem State.Still.portsFollow {s t : State} (h : s.Still t) (hs : PortsFollowEnables s) : PortsFollowEnables t := by
  intro p
  rw [h.portState, h.portEnable]
  exact hs p

theorem portsFollow_of_inReset {s : State} (h : ∀ p, (s.portAt p).state = .inReset) : PortsFollowEnables s :=
  fun p on => absurd (h p) on

theorem takeHead_still (s : State) (p : Fin 4) : s.Still (s.takeHead p) := by
  unfold State.takeHead
  split
  · exact .refl s
  · exact (putCtx_still ..).trans (putQueue_still _ _ _ rfl)

theorem startPortReset_portsFollow {s : State} {p : Fin 4} (hs : PortsFollowEnables s) :
    PortsFollowEnables (s.startPortReset p) := by
  have steps := startPortReset_steps s p
  intro q on
  by_cases same : q = p
  · subst same
    exact absurd (portResetSteps_inReset steps) on
  · obtain ⟨u, order, v, held, _, bound, ends⟩ := steps
    have still := boundLeaves_still bound
    rw [ends.otherPorts q same, still.portState, held.otherPorts q same] at on
    rw [ends.otherPorts q same, still.portState, still.portEnable, held.otherPorts q same]
    exact hs q on

/-- The taking of RESET_ALL puts every port IN_RESET with an empty queue (R186). -/
theorem takeResetAll_portAt (s : State) (p : Fin 4) : s.takeResetAll.portAt p = (s.portAt p).enterReset := by
  have kept : (ctxIds.foldl State.resetAllCtx s).ports = s.ports :=
    foldl_same State.ports (fun u id => (resetAllCtx_keeps u id).1) ctxIds s
  have port : (ctxIds.foldl State.resetAllCtx s).portAt p = s.portAt p := congrArg (Table.look · p) kept
  rw [← port]
  unfold State.takeResetAll
  generalize ctxIds.foldl State.resetAllCtx s = u
  refine Eq.trans ?_ (State.portAt_mapPorts u PortUnit.enterReset p)
  exact congrArg (Table.look · p) (markTaken_ports _)

theorem beatEnd_portsFollow {s : State} {c : Fin 4} {copy : BeatCopy} {o : BeatOutcome} {cd : Word}
    (hs : PortsFollowEnables s) : PortsFollowEnables (s.beatEnd c copy o cd) := by
  unfold State.beatEnd
  split
  · exact hs
  split
  case h_1 r b stamp marked _ =>
    dsimp only
    have lines : PortsFollowEnables (s.endBeatLines c o) := (endBeatLines_still s c o).portsFollow hs
    split
    · refine endWait_keeps ((portCheck_portsSettle ..).portsFollow ?_) (reinitialise_ports _ _)
      refine (sweep_still ..).portsFollow ((drainCheck_still _).portsFollow ?_)
      exact (settleChannel_still ..).portsFollow ((freeAbandoned_still ..).portsFollow lines)
    · split
      · split
        · exact (settleChannel_still ..).portsFollow ((putCtx_still ..).portsFollow lines)
        · exact (planEnds_still ..).portsFollow lines
      · exact (planEnds_still ..).portsFollow lines
      · exact (planEnds_still ..).portsFollow lines
  all_goals exact hs

theorem recoveryEnds_portsFollow {s : State} {c : Fin 4} (hs : PortsFollowEnables s) : PortsFollowEnables (s.recoveryEnds c) := by
  have goesOn : PortsFollowEnables (s.afterRecovery c) := (afterRecovery_still s c).portsFollow hs
  unfold State.recoveryEnds
  split
  · exact goesOn
  split
  case h_1 =>
    refine endWait_keeps ((portCheck_portsSettle ..).portsFollow ?_) (reinitialise_ports _ _)
    exact (((freeAbandoned_still ..).trans (afterRecovery_still ..)).trans (drainCheck_still _)).portsFollow hs
  all_goals exact goesOn

theorem portChange_portsFollow {s t : State} (h : PortChange s t) (hs : PortsFollowEnables s) : PortsFollowEnables t := by
  cases h with
  | settled h => exact h.portsFollow hs
  | rst => exact blocksFresh_portsFollowEnables (assertRst_blocks s)
  | reinitialised u o => exact reinitialise_ports u o
  | resetAll => exact endWait_keeps (portsFollow_of_inReset fun p => by rw [takeResetAll_portAt]; rfl) (reinitialise_ports _ _)
  | taken h _ => exact (resolveInto_still ..).portsFollow (h.portsFollow hs)
  | headTaken p h => exact (takeHead_still ..).portsFollow (h.portsFollow hs)
  | portReset p h k => exact k.portsFollow (startPortReset_portsFollow (h.portsFollow hs))
  | beatEnded c copy o cd => exact beatEnd_portsFollow hs
  | recoveryEnded c => exact recoveryEnds_portsFollow hs
  | drainChecked => exact (drainCheck_still s).portsFollow hs
  | accepted k => exact k.portsFollow (((accept_still s).trans (drainCheck_still _)).portsFollow hs)
  | discarded k => exact k.portsFollow ((discardCommitting_still s).portsFollow hs)

/-- Settles O53: exec_portChange names every way in which a command touches a port, and after each a port not IN_RESET is in the state of its enable. -/
theorem stepKeepsPortsFollowingEnables : Obligations.StepKeepsPortsFollowingEnables := by
  intro s t hs ht
  exact step_keeps (P := PortsFollowEnables) (fun _ _ h => h) (fun _ _ _ h he => portChange_portsFollow (exec_portChange he) h) hs ht

/-! ### The law of the queues (R51) -/

theorem State.PortsSettle.queueLaw {s t : State} (h : s.PortsSettle t) (hs : QueueLaw s) : QueueLaw t := by
  refine queueLaw_congr hs h.queue fun id => ?_
  have ctx : t.ctxAt id = s.ctxAt id := congrArg (Table.look · id.idx) h.ctxs
  unfold DoneAt
  rw [ctx]

/-- What the taking of RESET_ALL makes of a context: an ON_BUS one is marked, any other is freed (R186). -/
def Context.atResetAll (x : Option Context) : Option Context :=
  match x with
  | some ⟨r, .onBus b stamp _⟩ => some ⟨r, .onBus b stamp true⟩
  | _ => none

theorem takeResetAll_ctxAt (s : State) (id : CtxId) : s.takeResetAll.ctxAt id = Context.atResetAll (s.ctxAt id) := by
  have one : ∀ (u : State) (j k : CtxId),
      (u.resetAllCtx j).ctxAt k = if k = j then Context.atResetAll (u.ctxAt k) else u.ctxAt k := resetAllCtx_ctxAt
  obtain ⟨_, ctx, _⟩ := takeResetAll_tables s
  rw [ctx, foldl_ctxs (fun _ => True) (fun _ _ _ => trivial) (fun u j _ k => one u j k) ctxIds nodup_ctxIds s trivial,
    if_pos (mem_ctxIds id)]

/-- The taking of RESET_ALL leaves no context DONE and nothing in a queue (R186). -/
theorem takeResetAll_queueLaw (s : State) : QueueLaw s.takeResetAll := by
  have none_done : ∀ id, ¬ DoneAt s.takeResetAll id := by
    rintro id ⟨r, st, d, h⟩
    rw [takeResetAll_ctxAt] at h
    unfold Context.atResetAll at h
    split at h <;> cases h
  intro p
  rw [takeResetAll_portAt]
  exact ⟨List.nodup_nil, fun t => ⟨fun mem => absurd mem List.not_mem_nil, fun done => absurd done (none_done ⟨p, t⟩)⟩⟩

theorem accept_queueLaw {s : State} (hs : QueueLaw s) : QueueLaw s.accept :=
  have ⟨ctxs, ports, _⟩ := foldl_freeze_same s.changeSet.entries s
  queueLaw_same hs ports ctxs

theorem portChange_queueLaw {s t : State} (h : PortChange s t) (hs : QueueLaw s) : QueueLaw t := by
  cases h with
  | settled h => exact h.queueLaw hs
  | rst => exact blocksFresh_queueLaw (assertRst_blocks s) (assertRst_ctxAt s)
  | reinitialised u o => exact reinitialise_queueLaw u o
  | resetAll => exact endWait_keeps (takeResetAll_queueLaw s) (reinitialise_queueLaw _ _)
  | taken h free =>
    rename_i u id r
    have ctx : u.ctxAt id = s.ctxAt id := congrArg (Table.look · id.idx) h.ctxs
    exact resolveInto_queueLaw (h.queueLaw hs) (not_done_of_none (by rw [ctx, free]))
  | headTaken p h => exact takeHead_queueLaw (h.queueLaw hs)
  | portReset p h k => exact k.queueLaw (startPortReset_queueLaw (h.queueLaw hs))
  | beatEnded c copy o cd => exact beatEnd_queueLaw hs
  | recoveryEnded c => exact recoveryEnds_queueLaw hs
  | drainChecked => exact drainCheck_queueLaw hs
  | accepted k => exact k.queueLaw (drainCheck_queueLaw (accept_queueLaw hs))
  | discarded k => exact k.queueLaw (reResolve_queueLaw (queueLaw_same (t := s.thawed) hs rfl rfl))

/-- Settles O56: exec_portChange names every way in which a command touches a queue or a context, and each keeps the law. -/
theorem stepKeepsTheQueueLaw : Obligations.StepKeepsTheQueueLaw := by
  intro s t hs ht
  exact step_keeps (P := QueueLaw) (fun _ _ h => h) (fun _ _ _ h he => portChange_queueLaw (exec_portChange he) h) hs ht

end Sys2Proof.Machine
end

section
/-! A presentation, its refusals and its end; the take of a response and the response lines; SET_PORT (R44 to R46, R52, R53, R58). -/

namespace Sys2Proof.Machine

/-! ### Presentations (R44 to R46) -/

theorem kindOfLines_isSome {pkr pkw : Bool} (h : (pkr || pkw) = true) : ∃ kind, kindOfLines pkr pkw = some kind := by
  revert h
  cases pkr <;> cases pkw <;> simp [kindOfLines]

theorem exec_requestPresented_again {s : State} {p : Fin 4} {pkr pkw : Bool} (pa : Word) (psz : BitVec 3) (tag : Fin 4)
    (pwd : Word) (h : (s.portAt p).presenting = true) : exec (.requestPresented p pkr pkw pa psz tag pwd) s = .next s := by
  simp only [exec, execRequestPresented, h, if_true]
  split <;> rfl

/-- Settles O11. -/
theorem presentationIsAnsweredOnce : Obligations.PresentationIsAnsweredOnce :=
  ⟨fun _ _ _ _ pa psz tag pwd _ again => exec_requestPresented_again pa psz tag pwd again, fun _ _ => rfl⟩

section Presented

variable {s : State} {p tag : Fin 4} {pkr pkw : Bool} {kind : AccessKind} {psz : BitVec 3} {why : RefusalReason}

/-- A new presentation is checked and then taken or refused in its event (R45). -/
theorem exec_requestPresented_new (lines : kindOfLines pkr pkw = some kind) (new : (s.portAt p).presenting = false)
    (pa : Word) (psz : BitVec 3) (tag : Fin 4) (pwd : Word) :
    exec (.requestPresented p pkr pkw pa psz tag pwd) s = .next (s.present ⟨p, tag⟩ (presented kind pa psz pwd)) := by
  simp only [exec, execRequestPresented, lines, new]
  rfl

/-- A refusal by the port's state answers the presentation and is recorded nowhere (R46). -/
theorem present_refused_unrecorded {id : CtxId} {r : Request} (h : s.requestCheck id r.size = some why)
    (unrecorded : refusalKind why = none) : s.present id r = s.putPort id.port (portAnswering (s.portAt id.port) (.refused why)) := by
  simp only [State.present, h, unrecorded]
  rfl

/-- A refusal of a port that is ON is recorded with the size as presented and no parts (R46). -/
theorem present_refused_recorded {id : CtxId} {r : Request} {k : FaultKind} (h : s.requestCheck id r.size = some why)
    (kind : refusalKind why = some k) :
    s.present id r = (s.putPort id.port (portAnswering (s.portAt id.port) (.refused why))).putFault id.port
      (recordAfter (s.faultAt id.port) (faultOf k id r none none)) := by
  simp only [State.present, h, kind, recordFault_eq]
  rfl

end Presented

theorem requestCheck_off {s : State} {id : CtxId} (h : (s.portAt id.port).state = .off) (n : Nat) :
    s.requestCheck id n = some .portOff := by
  simp only [State.requestCheck, h]

theorem requestCheck_inReset {s : State} {id : CtxId} (h : (s.portAt id.port).state = .inReset) (n : Nat) :
    s.requestCheck id n = some .portReset := by
  simp only [State.requestCheck, h]

theorem requestCheck_tagBusy {s : State} {id : CtxId} (on : (s.portAt id.port).state = .on) (busy : s.ctxAt id ≠ none) (n : Nat) :
    s.requestCheck id n = some .tagBusy := by
  simp only [State.requestCheck, on, if_pos (Option.isSome_iff_ne_none.2 busy)]

theorem requestCheck_badSize {s : State} {id : CtxId} {n : Nat} (on : (s.portAt id.port).state = .on) (free : s.ctxAt id = none)
    (size : ¬ (n = 1 ∨ n = 2 ∨ n = 4)) : s.requestCheck id n = some .badSize := by
  simp [State.requestCheck, on, free, mt (sizeOk_iff n).1 size]

/-- Settles O6, by the first check that fails. -/
theorem requestRefusedByItsFirstFailingCheck : Obligations.RequestRefusedByItsFirstFailingCheck := by
  refine ⟨fun s p pkr pkw pa psz tag pwd asserted new => ?_, fun s p pkr pkw kind pa psz tag pwd lines new on => ?_⟩
  · obtain ⟨kind, lines⟩ := kindOfLines_isSome asserted
    rw [exec_requestPresented_new lines new]
    exact ⟨fun off => congrArg _ (present_refused_unrecorded (requestCheck_off off _) rfl),
      fun reset => congrArg _ (present_refused_unrecorded (requestCheck_inReset reset _) rfl)⟩
  · rw [exec_requestPresented_new lines new]
    refine ⟨fun busy => congrArg _ (present_refused_recorded (requestCheck_tagBusy on busy _) rfl),
      fun free n1 n2 n4 => congrArg _ (present_refused_recorded (requestCheck_badSize on free ?_) rfl)⟩
    rintro (size | size | size)
    · exact n1 size
    · exact n2 size
    · exact n4 size

/-! ### The take of a response (R53) -/

theorem putPort_putPort (s : State) (p : Fin 4) (x y : PortUnit) : (s.putPort p x).putPort p y = s.putPort p y :=
  congrArg (fun t => { s with ports := t }) (put_put ..)

theorem exec_responseTaken_high {s : State} {p : Fin 4} (high : (s.portAt p).prtk = true) :
    exec (.responseTaken p) s = .next s := by
  simp only [exec, execResponseTaken, if_pos high]

theorem exec_responseTaken_low {s : State} {p : Fin 4} (low : (s.portAt p).prtk = false) :
    exec (.responseTaken p) s = .next ((s.putPort p { s.portAt p with prtk := true }).takeHead p) := by
  simp only [exec, execResponseTaken, low]
  rfl

theorem takeHead_nil {s : State} {p : Fin 4} (h : (s.portAt p).queue = []) : s.takeHead p = s := by
  simp only [State.takeHead, h]

theorem takeHead_cons {s : State} {p tag : Fin 4} {rest : List (Fin 4)} (h : (s.portAt p).queue = tag :: rest) :
    s.takeHead p = (s.putCtx ⟨p, tag⟩ none).putPort p { s.portAt p with queue := rest } := by
  simp only [State.takeHead, h]

/-- Settles O12, by the level PRTK was last sampled at and by the queue. -/
theorem responseTakenFreesTheHead : Obligations.ResponseTakenFreesTheHead := by
  refine ⟨fun s p tag rest low queue => ?_, fun s p low queue => ?_, fun s p high => exec_responseTaken_high high,
    fun _ _ => rfl⟩
  · rw [exec_responseTaken_low low, takeHead_cons (tag := tag) (rest := rest) (by rw [State.portAt_putPort_same]; exact queue),
      State.portAt_putPort_same]
    exact congrArg _ (putPort_putPort (s.putCtx ⟨p, tag⟩ none) p _ _)
  · rw [exec_responseTaken_low low, takeHead_nil (by rw [State.portAt_putPort_same]; exact queue)]

/-! ### The response lines (R52) -/

theorem responseLines_none {s : State} {p : Fin 4} (h : (s.portAt p).queue = []) :
    s.responseLines p = ⟨false, 3, 7, 0xFFFFFFFF⟩ := by
  simp only [State.responseLines, h]
  rfl

theorem responseLines_head {s : State} {p tag : Fin 4} {rest : List (Fin 4)} {x : Context}
    (queue : (s.portAt p).queue = tag :: rest) (head : s.ctxAt ⟨p, tag⟩ = some x) :
    s.responseLines p = { prv := true, prtag := BitVec.ofNat 2 tag.1, pstat := x.pstat, prdata := x.prdata } := by
  simp only [State.responseLines, queue, head]

/-- Without read data that ended OK the data lines are all-ones (R52). -/
theorem prdata_allOnes {r : Request} {st : Status} {d : DoneRecord} (h : st ≠ .ok ∨ r.kind = .write) :
    Context.prdata ⟨r, .done st d⟩ = 0xFFFFFFFF := by
  unfold Context.prdata
  split
  · rename_i done kind
    cases done
    rcases h with h | h
    · exact absurd rfl h
    · rw [kind] at h
      cases h
  · rename_i done kind
    cases done
    rcases h with h | h
    · exact absurd rfl h
    · rw [kind] at h
      cases h
  · rfl

/-- Four bytes put together, read back one by one (00, 6.7). -/
theorem byteOfWord_append (b : Fin 4 → Byte) (k : Fin 4) : byteOfWord (b 3 ++ b 2 ++ b 1 ++ b 0) k.1 = b k := by
  apply BitVec.eq_of_getLsbD_eq
  intro i hi
  simp only [byteOfWord, BitVec.getLsbD_setWidth, BitVec.getLsbD_ushiftRight, BitVec.getLsbD_append, hi, decide_true,
    Bool.true_and]
  match k with
  | 0 => rw [show 8 * (0 : Fin 4).1 + i = i by simp, if_pos hi]
  | 1 =>
    rw [show 8 * (1 : Fin 4).1 + i = i + 8 by simp [Nat.add_comm], if_neg (by omega), if_pos (by omega), Nat.add_sub_cancel]
  | 2 =>
    rw [show 8 * (2 : Fin 4).1 + i = i + 8 + 8 by simp; omega, if_neg (by omega), Nat.add_sub_cancel, if_neg (by omega),
      Nat.add_sub_cancel, if_pos hi]
  | 3 =>
    rw [show 8 * (3 : Fin 4).1 + i = i + 8 + 8 + 8 by simp; omega, if_neg (by omega), Nat.add_sub_cancel, if_neg (by omega),
      Nat.add_sub_cancel, if_neg (by omega), Nat.add_sub_cancel]

/-- The data of a READ or SWAP that ended OK are the bytes gathered by address (R52, R69). -/
theorem prdata_gathered {r : Request} {b : Binding} (h : r.kind ≠ .write) (k : Fin 4) :
    byteOfWord (Context.prdata ⟨r, .done .ok (.bound b)⟩) k.1 = responseByte r.size b.readData k := by
  have gathered : Context.prdata ⟨r, .done .ok (.bound b)⟩ = responseByte r.size b.readData 3 ++
      responseByte r.size b.readData 2 ++ responseByte r.size b.readData 1 ++ responseByte r.size b.readData 0 := by
    obtain ⟨kind, size, address, data⟩ := r
    cases kind with
    | read => rfl
    | write => exact absurd rfl h
    | swap => rfl
  rw [gathered]
  exact byteOfWord_append (responseByte r.size b.readData) k

/-- Settles O13: the lines are those of the head, and the head is DONE. -/
theorem responseLinesOfferTheHead : Obligations.ResponseLinesOfferTheHead := by
  refine ⟨fun s p empty => responseLines_none empty, fun s p tag rest r st d queue head => ?_⟩
  rw [responseLines_head queue head]
  refine ⟨rfl, ?_, ?_, prdata_allOnes, ?_⟩
  · exact Nat.mod_eq_of_lt tag.2
  · cases st <;> rfl
  · rintro b rfl rfl kind k
    exact prdata_gathered kind k

/-! ### SET_PORT (R58) -/

/-- The port a payload names in its first byte. -/
theorem portOf_byte {p : List Byte} {q : Fin 4} (h : q.1 = byteAt p 0) : Fin.ofNat 4 (byteAt p 0) = q := by
  rw [← h]
  exact Fin.ofNat_val_eq_self q

section SetPort

variable {s : State} {p : List Byte}

theorem exec_setPort_badPort (given : Dispatched .setPort p s) (bad : 3 < byteAt p 0) :
    exec .setPort s = .next (answeredWith s .badField [1] false) := by
  simp only [exec, execSetPort, own_of given, if_pos bad]
  rfl

theorem exec_setPort_badEnable (given : Dispatched .setPort p s) (port : byteAt p 0 ≤ 3) (bad : enableOf (byteAt p 1) = none) :
    exec .setPort s = .next (answeredWith s .badField [2] false) := by
  simp only [exec, execSetPort, own_of given, if_neg (Nat.not_lt.2 port), bad]
  rfl

theorem exec_setPort_badClass {enable : Bool} (given : Dispatched .setPort p s) (port : byteAt p 0 ≤ 3)
    (good : enableOf (byteAt p 1) = some enable) (bad : classOf (byteAt p 2) = none) :
    exec .setPort s = .next (answeredWith s .badField [3] false) := by
  simp only [exec, execSetPort, own_of given, if_neg (Nat.not_lt.2 port), good, bad]
  rfl

/-- With its fields in order SET_PORT asks for the state of the port (R58). -/
theorem exec_setPort_fields {q : Fin 4} {enable : Bool} {cls : UrgencyClass} (given : Dispatched .setPort p s)
    (port : q.1 = byteAt p 0) (isEnable : enableOf (byteAt p 1) = some enable) (isClass : classOf (byteAt p 2) = some cls) :
    exec .setPort s = .next (if (s.portAt q).state = .inReset then answeredWith s .badState [] false
      else answeredWith (s.putPort q { s.portAt q with enable := enable, cls := cls, state := stateOfEnable enable })
        .done [] false) := by
  simp only [exec, execSetPort, own_of given, if_neg (show ¬ 3 < byteAt p 0 by omega), isEnable, isClass,
    portOf_byte port, answer_eq]

end SetPort

/-- OFF is coded 0 and ON 1, and nothing else is an enable (R171). -/
theorem enableOf_eq (n : Nat) : enableOf n = if n ≤ 1 then some (decide (n = 1)) else none := by
  match n with
  | 0 => rfl
  | 1 => rfl
  | k + 2 => rfl

/-- NORMAL is coded 0 and URGENT 1, and nothing else is a class (R171). -/
theorem classOf_eq (n : Nat) : classOf n = if n ≤ 1 then some (if n = 1 then .urgent else .normal) else none := by
  match n with
  | 0 => rfl
  | 1 => rfl
  | k + 2 => rfl

/-- Settles O33, check by check. -/
theorem setPortChecksThenReplaces : Obligations.SetPortChecksThenReplaces := by
  intro s p given
  refine ⟨exec_setPort_badPort given, fun port => ⟨fun bad => ?_, fun enable => ⟨fun bad => ?_, fun cls q isPort => ?_⟩⟩⟩
  · exact exec_setPort_badEnable given port (by rw [enableOf_eq, if_neg (Nat.not_le.2 bad)])
  all_goals have isEnable := enableOf_eq (byteAt p 1); rw [if_pos enable] at isEnable
  · exact exec_setPort_badClass given port isEnable (by rw [classOf_eq, if_neg (Nat.not_le.2 bad)])
  · have isClass := classOf_eq (byteAt p 2)
    rw [if_pos cls] at isClass
    rw [exec_setPort_fields given isPort isEnable isClass]
    refine ⟨fun reset => by rw [if_pos reset], fun on => ?_⟩
    rw [if_neg on]
    simp only [stateOfEnable, decide_eq_true_eq]

end Sys2Proof.Machine
end

section
/-! How a port leaves IN_RESET, and RESET_PORT (R54, R56, R57, R136, R169). -/

namespace Sys2Proof.Machine

/-! ### The check whether a port leaves IN_RESET (R56, R57) -/

/-- A port with the state its enable gives (R42). -/
def PortUnit.enabled (x : PortUnit) : PortUnit := { x with state := stateOfEnable x.enable }

/-- What lets a port leave IN_RESET (R56, R60). -/
structure PortFree (s : State) (p : Fin 4) : Prop where
  reset : (s.portAt p).state = .inReset
  line : (s.portAt p).prstn = false
  empty : ∀ tag, s.ctxAt ⟨p, tag⟩ = none
  ready : s.startUp.state = .ready

theorem portFree_iff {s : State} {p : Fin 4} : s.mayLeave p = true ↔ PortFree s p := by
  rw [mayLeave_iff]
  exact ⟨fun ⟨reset, line, empty, ready⟩ => ⟨reset, line, empty, ready⟩, fun ⟨reset, line, empty, ready⟩ => ⟨reset, line, empty, ready⟩⟩

theorem portCheck_stays {s : State} {p : Fin 4} (h : ¬ PortFree s p) : s.portCheck p = s :=
  if_neg (mt portFree_iff.1 h)

theorem portCheck_leaves {s : State} {p : Fin 4} (h : PortFree s p) : s.portCheck p = s.leaveReset p :=
  if_pos (portFree_iff.2 h)

theorem portCheck_enables {s : State} {p : Fin 4} (h : PortFree s p) (wait : NoResetWaitsFor s p) :
    s.portCheck p = s.putPort p (s.portAt p).enabled := by
  rw [portCheck_leaves h, State.leaveReset, awaitsReset_not wait]
  rfl

/-- The RESET_PORT that waits for the port is answered as the port leaves IN_RESET (R57). -/
theorem portCheck_answers {s : State} {p : Fin 4} {payload : List Byte} (h : PortFree s p) (wait : ResetWaits s p payload) :
    s.portCheck p = answeredWith (s.putPort p (s.portAt p).enabled) .done [] false := by
  rw [portCheck_leaves h, State.leaveReset, awaitsReset_of wait]
  rfl

theorem portCheck_attention (s : State) (p : Fin 4) : (s.portCheck p).attention = s.attention := by
  unfold State.portCheck State.leaveReset
  dsimp only
  split
  · split <;> rfl
  · rfl

/-- A port's reset line deasserted. -/
def State.deassertPrstn (s : State) (p : Fin 4) : State := s.putPort p { s.portAt p with prstn := false }

@[simp] theorem deassertPrstn_portAt_same (s : State) (p : Fin 4) :
    (s.deassertPrstn p).portAt p = { s.portAt p with prstn := false } := State.portAt_putPort_same ..

/-- The level of the line counts for nothing where the port has a context, is not IN_RESET, or start-up is not READY (R56, R60). -/
theorem not_portFree {s : State} {p : Fin 4}
    (h : (∃ tag, s.ctxAt ⟨p, tag⟩ ≠ none) ∨ s.startUp.state ≠ .ready ∨ (s.portAt p).state ≠ .inReset) :
    ¬ PortFree s p := by
  rintro ⟨reset, _, empty, ready⟩
  rcases h with ⟨tag, left⟩ | unready | on
  · exact left (empty tag)
  · exact unready ready
  · exact on reset

/-- Settles O15: the three outcomes of the port check, after the line's deassertion or without it. -/
theorem portLeavesResetForItsEnable : Obligations.PortLeavesResetForItsEnable := by
  refine ⟨fun s p reset empty ready => ⟨fun wait => ?_, fun wait line => ?_, fun payload wait line => ?_⟩,
    fun s p => ⟨fun h => ⟨?_, congrArg _ (portCheck_stays (not_portFree h))⟩, fun line => ?_⟩⟩
  · have free : PortFree (s.deassertPrstn p) p := ⟨by simpa using reset, by simp, empty, ready⟩
    refine congrArg _ ((portCheck_enables free (noResetWaitsFor_of_link wait rfl)).trans ?_)
    rw [deassertPrstn_portAt_same]
    exact putPort_putPort ..
  · exact congrArg _ (portCheck_enables ⟨reset, line, empty, ready⟩ wait)
  · exact congrArg _ (portCheck_answers ⟨reset, line, empty, ready⟩ wait)
  · refine congrArg _ (portCheck_stays (s := s.deassertPrstn p) (not_portFree ?_))
    rw [deassertPrstn_portAt_same]
    exact h
  · refine congrArg _ (portCheck_stays fun free => ?_)
    rw [free.line] at line
    cases line

/-! ### RESET_PORT (R57, R169) -/

/-- The link while a RESET_PORT with this payload waits for its answer (R57, R169). -/
def resetWaiting (l : Link) (payload : List Byte) : Link :=
  { l with state := .executing { code := .resetPort, payload := payload, taken := true } }

theorem markTaken_resetPort {s w : State} {p : List Byte} (given : Dispatched .resetPort p s) (link : w.link = s.link) :
    w.markTaken = w.putLink (resetWaiting s.link p) := by
  have state : w.link.state = .executing { code := .resetPort, payload := p, taken := false } := by rw [link]; exact given
  simp only [State.markTaken, state]
  rw [link]
  rfl

theorem startPortReset_link (s : State) (p : Fin 4) : (s.startPortReset p).link = s.link :=
  portResetSteps_link (startPortReset_steps s p)

section ResetPort

variable {s : State} {p : List Byte} {q : Fin 4}

theorem exec_resetPort_badPort (given : Dispatched .resetPort p s) (bad : 3 < byteAt p 0) :
    exec .resetPort s = .next (answeredWith s .badField [1] false) := by
  simp only [exec, execResetPort, own_of given, if_pos bad]
  rfl

theorem exec_resetPort (given : Dispatched .resetPort p s) (port : q.1 = byteAt p 0) :
    exec .resetPort s = .next (s.resetPort q) := by
  simp only [exec, execResetPort, own_of given, if_neg (show ¬ 3 < byteAt p 0 by omega), portOf_byte port]

/-- With PRSTn asserted the answer carries LINE_HELD, the reset started unless the port is IN_RESET already (R57). -/
theorem resetPort_lineHeld (line : (s.portAt q).prstn = true) :
    s.resetPort q = answeredWith (if (s.portAt q).state = .inReset then s else s.startPortReset q) .done [] true := by
  simp only [State.resetPort, if_pos line, answer_eq]

/-- With PRSTn deasserted the command waits, and the port check is made (R56, R57). -/
theorem resetPort_checks (given : Dispatched .resetPort p s) (line : (s.portAt q).prstn = false) :
    s.resetPort q =
      ((if (s.portAt q).state = .inReset then s else s.startPortReset q).putLink (resetWaiting s.link p)).portCheck q := by
  have link : (if (s.portAt q).state = .inReset then s else s.startPortReset q).link = s.link := by
    split
    · rfl
    · exact startPortReset_link s q
  rw [← markTaken_resetPort given link]
  simp only [State.resetPort, line]
  rfl

end ResetPort

/-- What waits after the start of a reset is the RESET_PORT of its port. -/
theorem resetWaits_putLink (w : State) (l : Link) {q : Fin 4} {p : List Byte} (port : q.1 = byteAt p 0) :
    ResetWaits (w.putLink (resetWaiting l p)) q p := ⟨rfl, port.symm⟩

theorem resetPort_drains {s : State} {p : List Byte} {q : Fin 4} (given : Dispatched .resetPort p s)
    (on : (s.portAt q).state ≠ .inReset) (drains : ResetDrainsTheSet s q) :
    (s.resetPort q).changeSet = emptySet ∧ (s.resetPort q).attention.commitApplied = true := by
  have drained := startPortReset_drains drains
  cases line : (s.portAt q).prstn with
  | true =>
    rw [resetPort_lineHeld line, if_neg on]
    generalize s.startPortReset q = w at drained
    exact drained
  | false =>
    rw [resetPort_checks given line, if_neg on, portCheck_attention, (portCheck_sameTables _ q).set]
    generalize s.startPortReset q = w at drained
    exact drained

/-- Settles O34: startPortReset_steps and startPortReset_spec give what the reset leaves; the port check that follows meets a port without contexts, which leaves IN_RESET, or one with a context, which waits. -/
theorem resetPortAnswersOrWaits : Obligations.ResetPortAnswersOrWaits := by
  refine ⟨fun s p q given port on => ?_, fun s p q given port line on quiet ready unmarked => ?_,
    fun s p q given port line on quiet busy => ?_, fun s p given => ⟨exec_resetPort_badPort given, fun q port reset => ?_⟩,
    fun s p payload reset wait => ?_⟩
  · rw [exec_resetPort given port]
    refine ⟨s.startPortReset q, startPortReset_steps s q, fun line => ?_, fun line => ?_,
      fun drains => ⟨_, rfl, resetPort_drains given on drains⟩⟩
    · rw [resetPort_lineHeld line, if_neg on]
    · rw [resetPort_checks given line, if_neg on]
      rfl
  · obtain ⟨starts, here, _⟩ := startPortReset_spec quiet
    rw [exec_resetPort given port, resetPort_checks given line, if_neg on]
    generalize s.startPortReset q = w at starts here
    have free : PortFree (w.putLink (resetWaiting s.link p)) q :=
      ⟨by rw [State.portAt_putLink, here], by rw [State.portAt_putLink, here]; exact line,
        fun tag => starts.freed tag (unmarked tag), starts.startUp.symm ▸ ready⟩
    refine ⟨_, congrArg _ (portCheck_answers free (resetWaits_putLink _ _ port)), ?_⟩
    refine ⟨?_, free.empty, starts.fault, fun k ne => ⟨?_, starts.otherFaults k ne⟩, starts.otherContexts, starts.slots, starts.set,
      rfl, starts.profiles, starts.chans, starts.attention, starts.startUp, starts.pending⟩
    · refine (State.portAt_putPort_same ..).trans ?_
      rw [State.portAt_putLink, here]
      rfl
    · exact (State.portAt_putPort_ne _ _ _ _ ne).trans (starts.otherPorts k ne)
  · obtain ⟨starts, here, _⟩ := startPortReset_spec quiet
    obtain ⟨tag, r, b, stamp, m, bus⟩ := busy
    rw [exec_resetPort given port, resetPort_checks given line, if_neg on]
    generalize s.startPortReset q = w at starts here
    refine ⟨_, congrArg _ (portCheck_stays (not_portFree (.inl ⟨tag, ?_⟩))), { starts with }, here, rfl⟩
    rw [State.ctxAt_putLink, starts.marked tag r b stamp m bus]
    exact Option.some_ne_none _
  · rw [exec_resetPort given port]
    refine ⟨fun line => ?_, fun line left => ?_⟩
    · rw [resetPort_lineHeld line, if_pos reset]
    · rw [resetPort_checks given line, if_pos reset]
      exact congrArg _ (portCheck_stays (s := s.putLink _) (not_portFree (.inl left)))
  · rw [exec_prstnAsserted_inReset reset, State.answerLineHeld,
      awaitsReset_of (s := s.assertPrstn p) (payload := payload) wait]
    rfl

end Sys2Proof.Machine
end

section
/-! What follows when a channel becomes free: arbitration at the end of a recovery, and the freeing of an abandoned context at the end of its beat or of the recovery between two beats (R55, R56, R89, R93, R97, R98, R104, R105, R187). -/

namespace Sys2Proof.Machine

/-! ### Arbitration at the end of a recovery (R89, R96 to R98) -/

/-- A grant does not depend on the state its channel had before the beat starts. -/
theorem granted_of_idle {s t : State} {c : Fin 4} {x : Channel} {id : CtxId} {r : Request} {b : Binding} {stamp : Nat}
    (h : Granted (s.chanState c .idle) t c { x with state := .idle } id r b stamp) : Granted s t c x id r b stamp :=
  { h with otherChannels := fun d ne => (h.otherChannels d ne).trans (State.chanAt_putChan_ne _ _ _ _ ne) }

theorem movePointer_class (x : Channel) (id : CtxId) (cls : UrgencyClass) :
    x.movePointer { id := id, moved := some cls } = pointerMoved x cls id.port := by
  cases cls <;> rfl

/-- RECOVERY_END of a channel with nothing on its bus grants the context that its arbitration chooses (R89, R96). -/
theorem exec_recoveryEnd_grants {s : State} {c : Fin 4} {copy : BeatCopy} {id : CtxId} {m : Option UrgencyClass} {r : Request}
    {b : Binding} {stamp passes : Nat} (st : (s.chanAt c).state = .recovery copy) (bus : (s.chanAt c).onBus = none)
    (waits : WaitsOn s c id r b stamp passes) (chosen : (s.chanState c .idle).choose c = some { id := id, moved := m }) :
    ∃ t, exec (.recoveryEnd c) s = .next t ∧ Granted s t c ((s.chanAt c).movePointer { id := id, moved := m }) id r b stamp := by
  refine ⟨_, exec_recoveryEnd_free st bus, granted_of_idle ?_⟩
  have idle := chanState_chanAt s c .idle
  have granted := grant_granted (s := s.chanState c .idle) (m := m) waits
  rw [arbitrate_of_idle (by rw [idle]) chosen]
  rw [idle] at granted
  cases m with
  | none => exact granted
  | some cls => cases cls <;> exact granted

/-- Settles O24: the two choices of R97, each granted from the channel as its recovery left it. -/
theorem arbitrationFollowsItsSteps : Obligations.ArbitrationFollowsItsSteps := by
  refine ⟨fun s c copy id r b stamp st bus waits oldest => ?_,
    fun s c copy id r b stamp passes st bus young waits urgent first oldest => ?_⟩
  · exact exec_recoveryEnd_grants (m := none) st bus waits (choose_aged (s := s.chanState c .idle) waits oldest)
  · rw [← movePointer_class]
    refine exec_recoveryEnd_grants st bus waits (choose_by_class (s := s.chanState c .idle) young waits urgent ?_ oldest)
    rw [chanState_chanAt]
    exact first

/-! ### An abandoned context freed (R104) -/

theorem putPort_self (s : State) (p : Fin 4) : s.putPort p (s.portAt p) = s := by
  refine State.ext_at (fun _ => rfl) (fun q => ?_) (fun _ => rfl) (fun _ => rfl) (fun _ => rfl) rfl (fun _ => rfl) rfl rfl rfl rfl
  rw [State.portAt_putPort]
  split
  · rename_i same; rw [same]
  · rfl

theorem freeAbandoned_eq (s : State) (c : Fin 4) (id : CtxId) (b : Binding) :
    s.freeAbandoned c id b = abandonedFreed s c id b { s.chanAt c with onBus := none } := rfl

theorem abandonedFreed_chanAt (s : State) (c : Fin 4) (id : CtxId) (b : Binding) (x : Channel) :
    (abandonedFreed s c id b x).chanAt c = x := State.chanAt_putChan_same ..

theorem abandonedFreed_ctxAt (s : State) (c : Fin 4) (id k : CtxId) (b : Binding) (x : Channel) :
    (abandonedFreed s c id b x).ctxAt k = if k = id then none else s.ctxAt k := State.ctxAt_putCtx ..

theorem putChan_putChan (s : State) (c : Fin 4) (x y : Channel) : (s.putChan c x).putChan c y = s.putChan c y :=
  congrArg (fun t => { s with chans := t }) (put_put ..)

/-- The channel of a freed context takes a state. -/
theorem abandonedFreed_chanState (s : State) (c : Fin 4) (id : CtxId) (b : Binding) (x : Channel) (st : ChanState) :
    (abandonedFreed s c id b x).chanState c st = abandonedFreed s c id b { x with state := st } := by
  rw [State.chanState, abandonedFreed_chanAt]
  exact putChan_putChan ..

/-- A freed context may have been the last of its port (R56). -/
theorem portFree_abandonedFreed {s : State} {c : Fin 4} {id : CtxId} {b : Binding} {x : Channel} :
    PortFree (abandonedFreed s c id b x) id.port ↔ (s.portAt id.port).state = .inReset ∧ (s.portAt id.port).prstn = false ∧
      s.startUp.state = .ready ∧ ∀ tag, tag ≠ id.tag → s.ctxAt ⟨id.port, tag⟩ = none := by
  have ctx : ∀ tag, (abandonedFreed s c id b x).ctxAt ⟨id.port, tag⟩ = if tag = id.tag then none else s.ctxAt ⟨id.port, tag⟩ := by
    intro tag
    rw [abandonedFreed_ctxAt]
    obtain ⟨p, t⟩ := id
    simp
  constructor
  · rintro ⟨reset, line, empty, ready⟩
    refine ⟨reset, line, ready, fun tag ne => ?_⟩
    have := empty tag
    rwa [ctx, if_neg ne] at this
  · rintro ⟨reset, line, ready, others⟩
    refine ⟨reset, line, fun tag => ?_, ready⟩
    rw [ctx]
    split
    · rfl
    · exact others tag ‹_›

theorem portAfterFreeing_free {s : State} {c : Fin 4} {id : CtxId} {b : Binding} {x : Channel}
    (h : PortFree (abandonedFreed s c id b x) id.port) : portAfterFreeing s id = (s.portAt id.port).enabled := by
  unfold portAfterFreeing
  rw [if_pos (portFree_abandonedFreed.1 h)]
  rfl

theorem portAfterFreeing_busy {s : State} {c : Fin 4} {id : CtxId} {b : Binding} {x : Channel}
    (h : ¬ PortFree (abandonedFreed s c id b x) id.port) : portAfterFreeing s id = s.portAt id.port := by
  unfold portAfterFreeing
  rw [if_neg (mt portFree_abandonedFreed.2 h)]

/-- The port check after a freeing, where no RESET_PORT waits for the port (R56, R105). -/
theorem portCheck_abandonedFreed {s : State} {id : CtxId} (c : Fin 4) (b : Binding) (x : Channel)
    (wait : NoResetWaitsFor s id.port) :
    (abandonedFreed s c id b x).portCheck id.port = (abandonedFreed s c id b x).putPort id.port (portAfterFreeing s id) := by
  by_cases free : PortFree (abandonedFreed s c id b x) id.port
  · rw [portCheck_enables free (noResetWaitsFor_of_link wait rfl), portAfterFreeing_free free]
    rfl
  · rw [portCheck_stays free, portAfterFreeing_busy free]
    exact (putPort_self ..).symm

/-! ### What follows from the freeing (R105, R187) -/

theorem portCheck_startUp (s : State) (p : Fin 4) : (s.portCheck p).startUp = s.startUp := by
  unfold State.portCheck State.leaveReset
  dsimp only
  split
  · split <;> rfl
  · rfl

/-- What follows from the freeing of an abandoned context (R105, R187). -/
def State.afterFreeing (s : State) (p : Fin 4) : State := (s.drainCheck.portCheck p).endWait

/-- Each check that follows is the one its row makes, and the strap lines stand where they stood. -/
theorem freeingGoesOn_afterFreeing {u : State} {levels : Straps} (h : u.startUp.levels = levels) (p : Fin 4) :
    FreeingGoesOn levels p u (u.afterFreeing p) := by
  have startUp : (u.drainCheck.portCheck p).startUp = u.startUp :=
    (portCheck_startUp ..).trans (drainCheck_still u).startUp
  refine ⟨u.drainCheck, u.drainCheck.portCheck p, rfl, rfl, ?_⟩
  have same : (u.drainCheck.portCheck p).strapsAt levels = u.drainCheck.portCheck p := by
    subst h
    rw [← startUp]
    rfl
  exact congrArg (fun w : State => Host.Outcome.next w.endWait) same

/-- With no set COMMITTING and no RESET_ALL waiting only the port check is left. -/
theorem afterFreeing_quiet {s : State} (quiet : s.changeSet.state ≠ .committing) (awake : s.startUp.state ≠ .waiting)
    (c : Fin 4) (id : CtxId) (b : Binding) (x : Channel) (p : Fin 4) :
    (abandonedFreed s c id b x).afterFreeing p = (abandonedFreed s c id b x).portCheck p := by
  rw [State.afterFreeing, drainCheck_off (s := abandonedFreed s c id b x) quiet, endWait_off]
  rw [portCheck_startUp]
  exact awake

/-! ### RECOVERY_END (R80, R89, R93, R104) -/

theorem arbitrate_none {s : State} {c : Fin 4} (h : NoneWaits s c) : s.arbitrate c = s := by
  unfold State.arbitrate
  rw [choose_none h]
  split <;> rfl

theorem exec_recoveryEnd_next {s : State} {c : Fin 4} {copy : BeatCopy} {id : CtxId} {r : Request} {b : Binding} {stamp : Nat}
    (st : (s.chanAt c).state = .recovery copy) (on : OnBus s c id r b stamp false) :
    exec (.recoveryEnd c) s = .next (s.startBeat c) := by
  obtain ⟨bus, ctx⟩ := on
  simp only [exec, execRecoveryEnd, st, State.recoveryEnds, bus, ctx, State.afterRecovery]

/-- A context marked between two beats is freed, and its channel goes on as one with nothing on its bus (R104; LOG 21). -/
theorem exec_recoveryEnd_marked {s : State} {c : Fin 4} {copy : BeatCopy} {id : CtxId} {r : Request} {b : Binding} {stamp : Nat}
    (st : (s.chanAt c).state = .recovery copy) (on : OnBus s c id r b stamp true) :
    exec (.recoveryEnd c) s =
      .next (((abandonedFreed s c id b { s.chanAt c with state := .idle, onBus := none }).arbitrate c).afterFreeing id.port) := by
  obtain ⟨bus, ctx⟩ := on
  simp only [exec, execRecoveryEnd, st, State.recoveryEnds, bus, ctx]
  rw [freeAbandoned_eq, afterRecovery_free (by rw [abandonedFreed_chanAt]), abandonedFreed_chanState]
  rfl

/-- Settles O23, by what the channel has on its bus. -/
theorem recoveryEndStartsTheNextBeatOrIdles : Obligations.RecoveryEndStartsTheNextBeatOrIdles := by
  refine ⟨fun s c copy id r b stamp beat st on hb => ?_, fun s c copy st bus empty => ?_,
    fun s c copy id r b stamp st on => ⟨?_, fun empty quiet awake wait => ?_⟩⟩
  · rw [exec_recoveryEnd_next st on, startBeat_eq on.1 on.2 rfl hb]
  · rw [exec_recoveryEnd_free st bus, arbitrate_none (s := s.chanState c .idle) empty]
    rfl
  · have chan := abandonedFreed_chanAt s c id b { s.chanAt c with onBus := none }
    refine ⟨_, _, exec_recoveryEnd_free (copy := copy) (by rw [chan]; exact st) (by rw [chan]), exec_recoveryEnd_marked st on, ?_⟩
    rw [abandonedFreed_chanState]
    exact freeingGoesOn_afterFreeing (by rw [(arbitrate_still ..).startUp]; rfl) _
  · have noneWaits : NoneWaits (abandonedFreed s c id b { s.chanAt c with state := .idle, onBus := none }) c := by
      rintro k q w n m ⟨ctx, chan⟩
      rw [abandonedFreed_ctxAt] at ctx
      split at ctx
      · cases ctx
      · exact empty k q w n m ⟨ctx, chan⟩
    rw [exec_recoveryEnd_marked st on, arbitrate_none noneWaits, afterFreeing_quiet quiet awake,
      portCheck_abandonedFreed _ _ _ wait]

/-! ### The end of an abandoned beat (R88, R89, R104, R106) -/

theorem settleChannel_below {s : State} {c : Fin 4} {copy : BeatCopy} (count : (s.chanAt c).timeouts ≠ Config.timeoutLimit)
    (long : 0 < copy.profile.recovery) : s.settleChannel c copy = s.chanState c (.recovery copy) := by
  unfold State.settleChannel
  rw [if_neg count, if_neg (by omega)]

theorem settleChannel_below_through {s : State} {c : Fin 4} {copy : BeatCopy}
    (count : (s.chanAt c).timeouts ≠ Config.timeoutLimit) (through : copy.profile.recovery = 0) :
    s.settleChannel c copy = s.afterRecovery c := by
  unfold State.settleChannel
  rw [if_neg count, if_pos through]

/-- A count that does not reach 3 is the one R106 gives. -/
theorem countAfter_below {o : BeatOutcome} {n : Nat} (h : o = .timeout → n ≤ 1) :
    countAfter o n = timeoutsAfter o n ∧ countAfter o n ≠ Config.timeoutLimit := by
  cases o with
  | normal => exact ⟨rfl, Nat.zero_ne_add_one 2⟩
  | error => exact ⟨rfl, Nat.zero_ne_add_one 2⟩
  | timeout =>
    have := h rfl
    simp only [countAfter, timeoutsAfter, Config.timeoutLimit]
    omega

/-- The freeing at a beat end, in the state its channel had in the beat. -/
theorem endBeat_freeAbandoned {s : State} {c : Fin 4} {o : BeatOutcome} (below : o = .timeout → (s.chanAt c).timeouts ≤ 1)
    (id : CtxId) (b : Binding) :
    (s.endBeatLines c o).freeAbandoned c id b = abandonedFreed s c id b (endedBeat (s.chanAt c) o (s.chanAt c).state none) := by
  have chan : (s.endBeatLines c o).chanAt c =
      { s.chanAt c with lines := (s.chanAt c).lines.quiet, timeouts := countAfter o (s.chanAt c).timeouts } :=
    State.chanAt_putChan_same ..
  rw [freeAbandoned_eq, chan, (countAfter_below below).1]
  exact State.ext_fields rfl rfl rfl rfl (put_put ..) rfl rfl rfl rfl rfl rfl

/-- The end of a beat of a marked context, whatever its outcome (R104, R105, R107). -/
theorem beatEnd_marked {s : State} {c : Fin 4} {id : CtxId} {r : Request} {b : Binding} {stamp : Nat}
    (on : OnBus s c id r b stamp true) (copy : BeatCopy) (o : BeatOutcome) (cd : Word) :
    s.beatEnd c copy o cd =
      ((((((s.endBeatLines c o).freeAbandoned c id b).settleChannel c copy).drainCheck).sweep c).portCheck id.port).endWait := by
  obtain ⟨bus, ctx⟩ := on
  unfold State.beatEnd
  simp only [bus, ctx]
  rfl

section AbandonedBeat

variable {s : State} {c : Fin 4} {copy : BeatCopy} {e : Instr} {o : BeatOutcome} {cd : Word} {id : CtxId} {r : Request}
  {b : Binding} {stamp : Nat}

/-- An abandoned beat whose count stays below 3 ends in RECOVERY, and what follows from the freeing follows (R89, R104). -/
theorem exec_abandonedBeat_long (ends : EndsBeat s c copy e o cd) (on : OnBus s c id r b stamp true)
    (below : o = .timeout → (s.chanAt c).timeouts ≤ 1) (long : 0 < copy.profile.recovery) :
    exec e s = .next ((abandonedFreed s c id b (endedBeat (s.chanAt c) o (.recovery copy) none)).afterFreeing id.port) := by
  have count := (countAfter_below below).2
  rw [(countAfter_below below).1] at count
  rw [exec_endsBeat ends, beatEnd_marked on, endBeat_freeAbandoned below,
    settleChannel_below (by rw [abandonedFreed_chanAt]; exact count) long, abandonedFreed_chanState, sweep_drainCheck_online]
  · rfl
  · rw [abandonedFreed_chanAt]
    exact fun off => by cases off

/-- With recovery 0 the channel is through RECOVERY in the same event (R89). -/
theorem exec_abandonedBeat_through (ends : EndsBeat s c copy e o cd) (on : OnBus s c id r b stamp true)
    (below : o = .timeout → (s.chanAt c).timeouts ≤ 1) (through : copy.profile.recovery = 0) :
    exec e s = .next ((((abandonedFreed s c id b (endedBeat (s.chanAt c) o (.recovery copy) none)).chanState c .idle).arbitrate
      c).afterFreeing id.port) := by
  have count := (countAfter_below below).2
  rw [(countAfter_below below).1] at count
  rw [exec_endsBeat ends, beatEnd_marked on, endBeat_freeAbandoned below,
    settleChannel_below_through (by rw [abandonedFreed_chanAt]; exact count) through,
    afterRecovery_free (by rw [abandonedFreed_chanAt]; rfl), abandonedFreed_chanState, abandonedFreed_chanState,
    sweep_drainCheck_online]
  · rfl
  · refine mt (arbitrate_noneGoesOffline _ c c) ?_
    rw [abandonedFreed_chanAt]
    exact fun off => by cases off

end AbandonedBeat

/-- Settles O22: the freed context's channel goes into RECOVERY or through it, and the rest is afterFreeing. -/
theorem abandonedContextIsFreedAtItsBeatEnd : Obligations.AbandonedContextIsFreedAtItsBeatEnd := by
  intro s c copy e o cd id r b stamp ends on below u
  have chan : u.chanAt c = endedBeat (s.chanAt c) o (.recovery copy) none := abandonedFreed_chanAt ..
  refine ⟨fun long => ?_, fun through => ?_, fun long quiet awake => ?_⟩
  · exact ⟨_, exec_abandonedBeat_long ends on below long, freeingGoesOn_afterFreeing rfl id.port⟩
  · refine ⟨_, _, exec_recoveryEnd_free (copy := copy) (by rw [chan]; rfl) (by rw [chan]; rfl),
      exec_abandonedBeat_through ends on below through, ?_⟩
    exact freeingGoesOn_afterFreeing (by rw [(arbitrate_still ..).startUp]; rfl) id.port
  · have ended : exec e s = .next (u.portCheck id.port) := by
      rw [exec_abandonedBeat_long ends on below long, afterFreeing_quiet quiet awake]
    refine ⟨fun wait => ?_, fun payload wait reset line ready others => ?_⟩
    · rw [ended, portCheck_abandonedFreed _ _ _ wait]
    · have free : PortFree u id.port := portFree_abandonedFreed.2 ⟨reset, line, ready, others⟩
      rw [ended, portCheck_answers free wait, portAfterFreeing_free free]
      rfl

end Sys2Proof.Machine
end

section
/-! The answers of QUERY_PORT, QUERY_CHANNEL, QUERY_SET, QUERY_PROFILE and READ_FAULT: that they are all a query changes, their lengths, and the items of a port and of the set at their places (R59, R79, R110, R121, R145, R174, R176). -/

namespace Sys2Proof.Machine

/-! ### The queries -/

section Queries

variable {s : State} {p : List Byte}

theorem exec_queryPort {q : Fin 4} (given : Dispatched .queryPort p s) (port : q.1 = byteAt p 0) :
    exec .queryPort s = .next (answeredWith s .done (s.queryPortBytes q) false) := by
  simp only [exec, execQueryPort, own_of given, if_neg (show ¬ 3 < byteAt p 0 by omega), portOf_byte port, answer_eq]

theorem exec_queryPort_badPort (given : Dispatched .queryPort p s) (bad : 3 < byteAt p 0) :
    exec .queryPort s = .next (answeredWith s .badField [1] false) := by
  simp only [exec, execQueryPort, own_of given, if_pos bad]
  rfl

theorem exec_queryChannel (given : Dispatched .queryChannel p s) (good : byteAt p 0 ≤ 3) :
    exec .queryChannel s = .next (answeredWith s .done (s.queryChannelBytes (Fin.ofNat 4 (byteAt p 0))) false) := by
  simp only [exec, execQueryChannel, own_of given, if_neg (Nat.not_lt.2 good), answer_eq]

theorem exec_queryChannel_badChannel (given : Dispatched .queryChannel p s) (bad : 3 < byteAt p 0) :
    exec .queryChannel s = .next (answeredWith s .badField [1] false) := by
  simp only [exec, execQueryChannel, own_of given, if_pos bad]
  rfl

theorem exec_querySet (given : Dispatched .querySet p s) :
    exec .querySet s = .next (answeredWith s .done s.querySetBytes false) := by
  simp only [exec, execQuerySet, own_of given, answer_eq]

theorem exec_queryProfile (given : Dispatched .queryProfile p s) (good : byteAt p 0 ≤ 7) :
    exec .queryProfile s = .next (answeredWith s .done (s.profileAt (Fin.ofNat 8 (byteAt p 0))).bytes false) := by
  simp only [exec, execQueryProfile, own_of given, if_neg (Nat.not_lt.2 good), answer_eq]

theorem exec_queryProfile_badProfile (given : Dispatched .queryProfile p s) (bad : 7 < byteAt p 0) :
    exec .queryProfile s = .next (answeredWith s .badField [1] false) := by
  simp only [exec, execQueryProfile, own_of given, if_pos bad]
  rfl

theorem exec_readFault_empty (given : Dispatched .readFault p s) (good : byteAt p 0 ≤ 3)
    (empty : s.faultAt (Fin.ofNat 4 (byteAt p 0)) = none) :
    exec .readFault s = .next (answeredWith s .empty [] false) := by
  simp only [exec, execReadFault, own_of given, if_neg (Nat.not_lt.2 good), empty, answer_eq]

theorem exec_readFault_full {r : FaultRecord} (given : Dispatched .readFault p s) (good : byteAt p 0 ≤ 3)
    (full : s.faultAt (Fin.ofNat 4 (byteAt p 0)) = some r) :
    exec .readFault s = .next (answeredWith s .done r.bytes false) := by
  simp only [exec, execReadFault, own_of given, if_neg (Nat.not_lt.2 good), full, answer_eq]

theorem exec_readFault_badPort (given : Dispatched .readFault p s) (bad : 3 < byteAt p 0) :
    exec .readFault s = .next (answeredWith s .badField [1] false) := by
  simp only [exec, execReadFault, own_of given, if_pos bad]
  rfl

end Queries

/-! ### Lengths (R174, R176) -/

theorem labelBytes_length (l : Option Word) : (labelBytes l).length = 4 := by
  rw [labelBytes_eq]
  rfl

theorem queryPortEntry_length (s : State) (id : CtxId) : (s.queryPortEntry id).length = 17 := by
  unfold State.queryPortEntry
  split <;> rfl

theorem queryPortBytes_length (s : State) (p : Fin 4) : (s.queryPortBytes p).length = 73 := by
  simp [State.queryPortBytes, portIds, fours, queryPortEntry_length]

theorem onBusBytes_length (s : State) (c : Fin 4) : (s.onBusBytes c).length = 5 := by
  unfold State.onBusBytes
  split
  · rfl
  · split <;> rfl

theorem queryChannelBytes_length (s : State) (c : Fin 4) : (s.queryChannelBytes c).length = 11 := by
  simp [State.queryChannelBytes, onBusBytes_length]

theorem windowBytes_length (w : Window) : (windowBytes w).length = 18 := by
  simp [windowBytes, labelBytes_length, bytesTarget, bytes32]

theorem entryBytes_length (e : Entry) : e.bytes.length = 22 := by
  unfold Entry.bytes
  split
  · simp [windowBytes_length]
  · rfl

theorem rangeBytes_length (r : Range) : r.bytes.length = 4 := rfl

theorem windowPartBytes_length (w : Option WindowRef) : (windowPartBytes w).length = 6 := by
  cases w with
  | none => rfl
  | some w => simp [windowPartBytes, labelBytes_length]

theorem targetPartBytes_length (t : Option TargetPart) : (targetPartBytes t).length = 6 := by
  cases t <;> rfl

theorem faultBytes_length (r : FaultRecord) : r.bytes.length = 22 := by
  simp [FaultRecord.bytes, windowPartBytes_length, targetPartBytes_length, bytes32]

/-- The bytes of items that take the same number of bytes each. -/
theorem length_flatMap_same {α : Type} {f : α → List Byte} {n : Nat} (h : ∀ x, (f x).length = n) (l : List α) :
    (l.flatMap f).length = n * l.length := by
  induction l with
  | nil => rfl
  | cons x l ih =>
    rw [List.flatMap_cons, List.length_append, h, ih, List.length_cons]
    ring

/-- The answer of QUERY_SET has five bytes, the entries in order, and while COMMITTING the footprint (Table 9-13). -/
structure SetAnswer (s : State) (a : List Byte) (x y z : Byte) (ranges : List Byte) : Prop where
  bytes : a = [byteOf s.changeSet.state.code, byteOf s.changeSet.entries.length, x, y, z] ++
    (s.changeSet.entries.flatMap Entry.bytes ++ ranges)
  committing : s.changeSet.state = .committing → x = byteOf s.changeSet.footprint.length ∧ y = byteOf s.blockingCount ∧
    z = byteOf s.changeSet.holdList.length ∧ ranges = s.changeSet.footprint.flatMap Range.bytes
  else_ : s.changeSet.state ≠ .committing → x = 0 ∧ y = 0xFF ∧ z = 0xFF ∧ ranges = []

theorem querySetBytes_answer (s : State) : ∃ x y z ranges, SetAnswer s s.querySetBytes x y z ranges := by
  unfold State.querySetBytes
  cases st : s.changeSet.state with
  | closed => exact ⟨0, 0xFF, 0xFF, [], by simp [st], by simp [st], fun _ => ⟨rfl, rfl, rfl, rfl⟩⟩
  | opened => exact ⟨0, 0xFF, 0xFF, [], by simp [st], by simp [st], fun _ => ⟨rfl, rfl, rfl, rfl⟩⟩
  | committing => exact ⟨_, _, _, _, by simp [st], fun _ => ⟨rfl, rfl, rfl, rfl⟩, by simp [st]⟩

theorem querySetBytes_length (s : State) : s.querySetBytes.length = 5 + 22 * s.changeSet.entries.length +
    4 * (if s.changeSet.state = .committing then s.changeSet.footprint.length else 0) := by
  obtain ⟨x, y, z, ranges, answer⟩ := querySetBytes_answer s
  have ranges_length : ranges.length =
      4 * (if s.changeSet.state = .committing then s.changeSet.footprint.length else 0) := by
    split
    · rename_i committing
      obtain ⟨_, _, _, rfl⟩ := answer.committing committing
      exact length_flatMap_same rangeBytes_length _
    · rename_i quiet
      obtain ⟨_, _, _, rfl⟩ := answer.else_ quiet
      rfl
  rw [answer.bytes, List.length_append, List.length_append, length_flatMap_same entryBytes_length, ranges_length, ← Nat.add_assoc]
  rfl

/-- Settles O42, query by query. -/
theorem queriesChangeNothingButTheAnswer : Obligations.QueriesChangeNothingButTheAnswer := by
  refine ⟨fun s p given good => ?_, fun s p given good => ?_, fun s p given => ?_, fun s p given good => ?_,
    fun s p given good => ?_, fun s p bad => ?_⟩
  · exact ⟨_, exec_queryPort (q := ⟨byteAt p 0, by omega⟩) given rfl, queryPortBytes_length ..⟩
  · exact ⟨_, exec_queryChannel given good, queryChannelBytes_length ..⟩
  · exact ⟨_, exec_querySet given, querySetBytes_length s⟩
  · exact ⟨_, exec_queryProfile given good⟩
  · cases record : s.faultAt (Fin.ofNat 4 (byteAt p 0)) with
    | none => exact ⟨_, _, exec_readFault_empty given good record, .inl ⟨rfl, rfl⟩⟩
    | some r => exact ⟨_, _, exec_readFault_full given good record, .inr ⟨rfl, faultBytes_length r⟩⟩
  · exact ⟨fun given => exec_queryPort_badPort given bad, fun given => exec_queryChannel_badChannel given bad,
      fun given => exec_readFault_badPort given bad, fun given above => exec_queryProfile_badProfile given above⟩

/-! ### Bytes at their places -/

/-- The bytes l stand in a from offset n on. -/
def StandsAt (a : List Byte) (n : Nat) (l : List Byte) : Prop := l <+: a.drop n

theorem StandsAt.trans {a l k : List Byte} {n m : Nat} (h : StandsAt a n l) (g : StandsAt l m k) : StandsAt a (n + m) k := by
  unfold StandsAt
  rw [← List.drop_drop]
  exact List.IsPrefix.trans g (h.drop m)

theorem standsAt_append_left {a l : List Byte} {n : Nat} (b : List Byte) (h : StandsAt a n l) : StandsAt (a ++ b) n l := by
  unfold StandsAt
  rw [List.drop_append]
  exact List.IsPrefix.trans h (List.prefix_append _ _)

theorem standsAt_append_right (a b : List Byte) : StandsAt (a ++ b) a.length b := by
  unfold StandsAt
  rw [List.drop_left]

theorem standsAt_flatMap {α : Type} {f : α → List Byte} {n : Nat} (h : ∀ x, (f x).length = n) {l : List α} {i : Nat} {x : α}
    (hx : l[i]? = some x) : StandsAt (l.flatMap f) (n * i) (f x) := by
  induction l generalizing i with
  | nil => simp at hx
  | cons y l ih =>
    rw [List.flatMap_cons]
    cases i with
    | zero =>
      obtain rfl : y = x := by simpa using hx
      exact List.prefix_append _ _
    | succ i =>
      have behind := (standsAt_append_right (f y) (l.flatMap f)).trans (ih (by simpa using hx))
      rwa [h, Nat.add_comm, ← Nat.mul_succ] at behind

theorem StandsAt.getElem? {a l : List Byte} {n j : Nat} {x : Byte} (h : StandsAt a n l) (hx : l[j]? = some x) :
    a[n + j]? = some x := by
  obtain ⟨rest, split⟩ := h
  rw [← List.getElem?_drop, ← split, List.getElem?_append_left (List.getElem?_eq_some_iff.1 hx).1]
  exact hx

/-- A byte of what stands at an offset, read where it stands. -/
theorem StandsAt.rawAt {a l : List Byte} {n j : Nat} {x : Byte} (h : StandsAt a n l) (hx : l[j]? = some x) (i : Nat)
    (hi : i = n + j) : rawAt a i = x := by
  rw [hi, Machine.rawAt, List.getD_eq_getElem?_getD, h.getElem? hx]
  rfl

theorem StandsAt.byteAt {a l : List Byte} {n j : Nat} {x : Byte} (h : StandsAt a n l) (hx : l[j]? = some x) (i : Nat)
    (hi : i = n + j) : byteAt a i = x.toNat := congrArg BitVec.toNat (h.rawAt hx i hi)

/-- Four bytes of a 32-bit value, read where they stand (00, 6.7). -/
theorem StandsAt.wordAt {a : List Byte} {n : Nat} {w : Word} (h : StandsAt a n (bytes32 w)) (i : Nat) (hi : i = n) :
    wordAt a i = w := by
  subst hi
  rw [Machine.wordAt, h.rawAt (j := 3) rfl _ rfl, h.rawAt (j := 2) rfl _ rfl, h.rawAt (j := 1) rfl _ rfl,
    h.rawAt (j := 0) rfl i rfl]
  exact append_byteOfWord w

end Sys2Proof.Machine
end

section
/-! The items of QUERY_PORT and QUERY_SET, read at their places (R59, R121, R176). -/

namespace Sys2Proof.Machine

/-! ### Positions and bits -/

/-- The index of the first occurrence. -/
theorem idxOf_of_first {α : Type} [DecidableEq α] {l : List α} {x : α} {n : Nat} (at_ : l[n]? = some x)
    (first : ∀ m, m < n → l[m]? ≠ some x) : l.idxOf x = n := by
  have mem : x ∈ l := List.mem_of_getElem? at_
  rcases Nat.lt_trichotomy (l.idxOf x) n with before | same | behind
  · exact absurd (List.getElem?_idxOf mem) (first _ before)
  · exact same
  · obtain ⟨inside, here⟩ := List.getElem?_eq_some_iff.1 at_
    exact absurd here (by simpa using List.not_of_lt_findIdx behind)

theorem byteOf_byte (b : Byte) : byteOf b.toNat = b := BitVec.ofNat_toNat 8 b |>.trans (BitVec.setWidth_eq b)

theorem byteOf_flag (b : Bool) : (byteOf (bitIf b 0)).toNat = if b then 1 else 0 := by
  cases b <;> rfl

theorem byteOf_threeFlags (x y z : Bool) : (byteOf (bitIf x 0 + bitIf y 1 + bitIf z 2)).toNat =
    (if x then 1 else 0) + (if y then 2 else 0) + (if z then 4 else 0) := by
  revert x y z
  decide

theorem itemOr_map_some {α : Type} {o : Option α} {x : α} (f : α → Nat) (h : o = some x) : itemOr (o.map f) = byteOf (f x) := by
  rw [h]
  rfl

theorem itemOr_map_none {α : Type} {o : Option α} (f : α → Nat) (h : o = none) : itemOr (o.map f) = 0xFF := by
  rw [h]
  rfl

theorem absent_getElem? {j k : Nat} (h : j < k) : (absent k)[j]? = some 0xFF := List.getElem?_replicate_of_lt h

/-! ### QUERY_PORT (R59) -/

theorem portIds_getElem? (q k : Fin 4) : (portIds q)[k.1]? = some ⟨q, k⟩ := by
  match k with
  | 0 => rfl
  | 1 => rfl
  | 2 => rfl
  | 3 => rfl

/-- The entries follow the five bytes of the port, 17 bytes each. -/
theorem queryPortEntry_standsAt (s : State) (q k : Fin 4) :
    StandsAt (s.queryPortBytes q) (5 + 17 * k.1) (s.queryPortEntry ⟨q, k⟩) :=
  (standsAt_append_right _ _).trans (standsAt_flatMap (queryPortEntry_length s) (portIds_getElem? q k))

theorem queryPortEntry_none {s : State} {id : CtxId} (h : s.ctxAt id = none) :
    s.queryPortEntry id = [byteOf id.tag.1, 0] ++ absent 15 := by
  rw [State.queryPortEntry, h]

theorem queryPortEntry_some {s : State} {id : CtxId} {c : Context} (h : s.ctxAt id = some c) : s.queryPortEntry id =
    [byteOf id.tag.1,
      byteOf (1 + bitIf c.isHeld 1 + bitIf c.windowRef.isSome 2 + bitIf c.binding.isSome 3 + bitIf c.isMarked 4 +
        bitIf c.status.isSome 5),
      byteOf c.request.kind.code, byteOf c.request.size] ++ bytes32 c.request.address ++
    [byteOf c.state.code,
      itemOr (if c.isHeld then some (s.changeSet.holdList.idxOf id) else none),
      itemOr (c.windowRef.map fun w => w.slot.1), itemOr (c.windowRef.map fun w => w.generation.toNat),
      itemOr (c.binding.map fun b => b.channel.1), itemOr (c.binding.map fun b => b.completed),
      itemOr (c.binding.map fun b => b.plan.length), itemOr (c.status.map Status.code),
      itemOr (c.status.map fun _ => (s.portAt id.port).queue.idxOf id.tag)] := by
  rw [State.queryPortEntry, h]

theorem queryPortEntry_tag (s : State) (id : CtxId) : (s.queryPortEntry id)[0]? = some (byteOf id.tag.1) := by
  cases h : s.ctxAt id with
  | none => rw [queryPortEntry_none h]; rfl
  | some c => rw [queryPortEntry_some h]; rfl

/-- The options byte of a context's entry: valid, held, window, binding, abandon mark, done (Table 9-11). -/
theorem portOptions_toNat (c : Context) :
    (byteOf (1 + bitIf c.isHeld 1 + bitIf c.windowRef.isSome 2 + bitIf c.binding.isSome 3 + bitIf c.isMarked 4 +
      bitIf c.status.isSome 5)).toNat =
    1 + (if c.state = .held then 2 else 0) + (if c.windowRef.isSome then 4 else 0) + (if c.binding.isSome then 8 else 0) +
      (match c.state with | .onBus _ _ true => 16 | _ => 0) + (match c.state with | .done _ _ => 32 | _ => 0) := by
  obtain ⟨r, st⟩ := c
  cases st with
  | held => rfl
  | bound b stamp passes => rfl
  | onBus b stamp marked => cases marked <;> rfl
  | done st record => cases record <;> rfl

theorem isHeld_iff (c : Context) : c.isHeld = true ↔ c.state = .held := by
  unfold Context.isHeld
  split <;> simp_all

theorem status_of_done {c : Context} {st : Status} {d : DoneRecord} (h : c.state = .done st d) : c.status = some st := by
  rw [Context.status, h]

theorem status_of_not_done {c : Context} (h : ∀ st d, c.state ≠ .done st d) : c.status = none := by
  unfold Context.status
  split
  · rename_i st d done
    exact absurd done (h st d)
  · rfl

/-- The second byte of an entry without a context is 0 and its other fifteen are FFh (LOG 13). -/
theorem queryPortEntry_absent {s : State} {id : CtxId} {a : List Byte} {n : Nat} (h : StandsAt a n (s.queryPortEntry id))
    (free : s.ctxAt id = none) : rawAt a (n + 1) = 0 ∧ StandsAt a (n + 2) (absent 15) := by
  rw [queryPortEntry_none free] at h
  exact ⟨h.rawAt rfl _ rfl, h.trans (standsAt_append_right [_, _] _)⟩

/-! ### QUERY_SET (R121) -/

section SetAnswer

variable {s : State} {a ranges : List Byte} {x y z : Byte}

/-- The entries follow the five bytes of the set, 22 bytes each. -/
theorem SetAnswer.entry_standsAt (h : SetAnswer s a x y z ranges) {i : Nat} {e : Entry}
    (he : s.changeSet.entries[i]? = some e) : StandsAt a (5 + 22 * i) e.bytes := by
  rw [h.bytes]
  exact (standsAt_append_right _ _).trans (standsAt_append_left _ (standsAt_flatMap entryBytes_length he))

/-- The ranges follow the entries, four bytes each. -/
theorem SetAnswer.range_standsAt (h : SetAnswer s a x y z ranges) (committing : s.changeSet.state = .committing)
    {j : Nat} {f : Range} (hf : s.changeSet.footprint[j]? = some f) :
    StandsAt a (5 + 22 * s.changeSet.entries.length + 4 * j) f.bytes := by
  obtain ⟨_, _, _, rfl⟩ := h.committing committing
  have behind := standsAt_append_right (s.changeSet.entries.flatMap Entry.bytes) (s.changeSet.footprint.flatMap Range.bytes)
  rw [length_flatMap_same entryBytes_length] at behind
  rw [h.bytes, Nat.add_assoc]
  exact (standsAt_append_right _ _).trans (behind.trans (standsAt_flatMap rangeBytes_length hf))

end SetAnswer

/-- The options byte of an entry: label, swap allowed, expected generation (Table 9-13). -/
theorem entryOptions_toNat (e : Entry) : (byteOf e.options).toNat =
    (if (e.window.bind Window.label).isSome then 1 else 0) +
      (if (e.window.map Window.swapAllowed) = some true then 2 else 0) + (if e.expected.isSome then 4 else 0) := by
  rw [Entry.options, byteOf_threeFlags]
  cases e.window <;> simp

/-- The four bytes that every entry has. -/
theorem entryBytes_head (e : Entry) : StandsAt e.bytes 0 [byteOf e.code, byteOf e.slot.1, byteOf e.options, e.expected.getD 0xFF] :=
  List.prefix_append _ _

theorem entryBytes_none {e : Entry} (h : e.window = none) : StandsAt e.bytes 4 (absent 18) := by
  rw [Entry.bytes, h]
  exact standsAt_append_right _ _

theorem entryBytes_some {e : Entry} {w : Window} (h : e.window = some w) : StandsAt e.bytes 4 (windowBytes w) := by
  rw [Entry.bytes, h]
  exact standsAt_append_right _ _

/-- Settles O60: the items of both answers, each at its place. -/
theorem queryPortAndSetReportTheItems : Obligations.QueryPortAndSetReportTheItems := by
  refine ⟨fun s p q given port => ?_, fun s p given => ?_⟩
  · have head : StandsAt (s.queryPortBytes q) 0 [byteOf (s.portAt q).state.code, byteOf (bitIf (s.portAt q).enable 0),
        byteOf (s.portAt q).cls.code, byteOf (bitIf (s.portAt q).prstn 0), byteOf (s.portAt q).queue.length] :=
      List.prefix_append _ _
    refine ⟨_, exec_queryPort given port, (head.byteAt (j := 0) rfl _ rfl).trans ?_,
      (head.byteAt (j := 1) rfl _ rfl).trans (byteOf_flag _), (head.byteAt (j := 2) rfl _ rfl).trans ?_,
      (head.byteAt (j := 3) rfl _ rfl).trans (byteOf_flag _), head.rawAt (j := 4) rfl _ rfl, fun k => ?_⟩
    · cases (s.portAt q).state <;> rfl
    · cases (s.portAt q).cls <;> rfl
    have entry := queryPortEntry_standsAt s q k
    refine ⟨(entry.byteAt (queryPortEntry_tag s _) _ rfl).trans (byteOf_toNat (by omega)), fun free => ?_,
      fun x full => ?_⟩
    · obtain ⟨options, others⟩ := queryPortEntry_absent entry free
      refine ⟨?_, fun j hj => others.rawAt (absent_getElem? hj) _ (by omega)⟩
      rwa [show 6 + 17 * k.1 = 5 + 17 * k.1 + 1 by omega]
    · have items := entry
      rw [queryPortEntry_some full] at items
      refine ⟨?options, ?kind, ?size, ?address, ?state, ?notHeld, ?held, ?window, ?noWindow, ?binding, ?noBinding, ?done,
        ?notDone⟩
      case options => exact (items.byteAt (j := 1) rfl _ (by omega)).trans (portOptions_toNat x)
      case kind =>
        refine (items.byteAt (j := 2) rfl _ (by omega)).trans ?_
        cases x.request.kind <;> rfl
      case size => exact items.rawAt (j := 3) rfl _ (by omega)
      case address => exact (items.trans (m := 4) ⟨_, rfl⟩).wordAt _ (by omega)
      case state =>
        refine (items.byteAt (j := 8) rfl _ (by omega)).trans ?_
        cases x.state <;> rfl
      case notHeld =>
        intro other
        rw [items.rawAt (j := 9) rfl _ (by omega), if_neg (mt (isHeld_iff x).1 other)]
        rfl
      case held =>
        intro held n at_ first
        rw [items.rawAt (j := 9) rfl _ (by omega), if_pos ((isHeld_iff x).2 held), idxOf_of_first at_ first]
        rfl
      case window =>
        intro w some_
        rw [items.byteAt (j := 10) rfl _ (by omega), items.rawAt (j := 11) rfl _ (by omega), itemOr_map_some _ some_,
          itemOr_map_some _ some_]
        exact ⟨byteOf_toNat (by omega), byteOf_byte _⟩
      case noWindow =>
        intro none_
        rw [items.rawAt (j := 10) rfl _ (by omega), items.rawAt (j := 11) rfl _ (by omega)]
        exact ⟨itemOr_map_none _ none_, itemOr_map_none _ none_⟩
      case binding =>
        intro b some_
        rw [items.byteAt (j := 12) rfl _ (by omega), items.rawAt (j := 13) rfl _ (by omega),
          items.rawAt (j := 14) rfl _ (by omega), itemOr_map_some _ some_, itemOr_map_some _ some_, itemOr_map_some _ some_]
        exact ⟨byteOf_toNat (by omega), rfl, rfl⟩
      case noBinding =>
        intro none_ j hj
        match j with
        | 0 => exact (items.rawAt (j := 12) rfl _ (by omega)).trans (itemOr_map_none _ none_)
        | 1 => exact (items.rawAt (j := 13) rfl _ (by omega)).trans (itemOr_map_none _ none_)
        | 2 => exact (items.rawAt (j := 14) rfl _ (by omega)).trans (itemOr_map_none _ none_)
      case done =>
        intro st d done
        have status := status_of_done done
        refine ⟨?_, fun n at_ first => ?_⟩
        · rw [items.byteAt (j := 15) rfl _ (by omega), itemOr_map_some _ status]
          cases st <;> rfl
        · rw [items.rawAt (j := 16) rfl _ (by omega), itemOr_map_some _ status, idxOf_of_first at_ first]
      case notDone =>
        intro other
        have status := status_of_not_done other
        rw [items.rawAt (j := 15) rfl _ (by omega), items.rawAt (j := 16) rfl _ (by omega)]
        exact ⟨itemOr_map_none _ status, itemOr_map_none _ status⟩
  · obtain ⟨x, y, z, ranges, answer⟩ := querySetBytes_answer s
    have head : StandsAt s.querySetBytes 0 [byteOf s.changeSet.state.code, byteOf s.changeSet.entries.length, x, y, z] := by
      rw [answer.bytes]
      exact List.prefix_append _ _
    have counts : rawAt s.querySetBytes 2 = x ∧ rawAt s.querySetBytes 3 = y ∧ rawAt s.querySetBytes 4 = z :=
      ⟨head.rawAt (j := 2) rfl _ rfl, head.rawAt (j := 3) rfl _ rfl, head.rawAt (j := 4) rfl _ rfl⟩
    refine ⟨_, exec_querySet given, (head.byteAt (j := 0) rfl _ rfl).trans ?_, head.rawAt (j := 1) rfl _ rfl,
      fun quiet => ?_, fun committing => ?_, fun i e named => ?_⟩
    · cases s.changeSet.state <;> rfl
    · obtain ⟨rfl, rfl, rfl, -⟩ := answer.else_ quiet
      exact counts
    · obtain ⟨hx, hy, hz, -⟩ := answer.committing committing
      obtain ⟨ranges_, blocking, held⟩ := counts
      exact ⟨ranges_.trans hx, blocking.trans hy, held.trans hz,
        fun j f range => (answer.range_standsAt committing range).wordAt _ rfl⟩
    · have entry := answer.entry_standsAt named
      have first := entry.trans (entryBytes_head e)
      refine ⟨(first.byteAt (j := 0) rfl _ (by omega)).trans ?_,
        (first.byteAt (j := 1) rfl _ (by omega)).trans (byteOf_toNat (by omega)),
        (first.byteAt (j := 2) rfl _ (by omega)).trans (entryOptions_toNat e), first.rawAt (j := 3) rfl _ (by omega),
        fun none_ j hj => (entry.trans (entryBytes_none none_)).rawAt (absent_getElem? hj) _ (by omega), fun w some_ => ?_⟩
      · cases e <;> rfl
      · have window := entry.trans (entryBytes_some some_)
        refine ⟨?base, ?size, ?rank, ?channel, ?width, ?profile, ?rights, ?target, ?label⟩
        case base =>
          have base : StandsAt (windowBytes w) 0 (bytes32 w.base) := ⟨_, rfl⟩
          exact (window.trans base).wordAt _ (by omega)
        case size => exact window.rawAt (j := 4) rfl _ (by omega)
        case rank => exact (window.byteAt (j := 5) rfl _ (by omega)).trans (byteOf_toNat (by omega))
        case channel => exact (window.byteAt (j := 6) rfl _ (by omega)).trans (byteOf_toNat (by omega))
        case width => exact (window.byteAt (j := 7) rfl _ (by omega)).trans (byteOf_toNat (width_bytes_lt _))
        case profile => exact (window.byteAt (j := 8) rfl _ (by omega)).trans (byteOf_toNat (by omega))
        case rights =>
          intro q
          rw [window.byteAt (j := 9) rfl (18 + 22 * i) (by omega)]
          exact rightsByte_code w q
        case target => exact (window.trans (m := 10) ⟨_, rfl⟩).wordAt _ (by omega)
        case label =>
          rw [windowBytes, labelBytes_eq] at window
          exact (window.trans (m := 14) ⟨[], rfl⟩).wordAt _ (by omega)

end Sys2Proof.Machine
end

section
/-! Beat planning and lane steering: the beats of a plan with their units and lanes, and the capture of a READ beat by address (R64, R65, R68, R70, R87). -/

namespace Sys2Proof.Machine

/-! ### Capture by address (R65, R68) -/

/-- The lane is in the beat's lane set and stands at byte k of the access: u + L = t + k (R65). -/
def CarriesByte (beat : Beat) (target : TargetAddr) (k : Fin 4) (L : Nat) : Prop :=
  beat.lanes.getLsbD L = true ∧ beat.unit.toNat + L = target.toNat + k.1

theorem carriesByte_unique {beat : Beat} {target : TargetAddr} {k : Fin 4} {L M : Nat} (hL : CarriesByte beat target k L)
    (hM : CarriesByte beat target k M) : L = M :=
  Nat.add_left_cancel (hL.2.trans hM.2.symm)

/-- The lanes of the lane set all stand at bytes of the access or behind it, as in every planned beat. -/
def StartsInAccess (beat : Beat) (target : TargetAddr) : Prop :=
  ∀ L : Fin 4, beat.lanes.getLsbD L.1 = true → target.toNat ≤ beat.unit.toNat + L.1

section OneLane

variable {beat : Beat} {target : TargetAddr} {k L : Fin 4}

theorem captureLane_carried (h : CarriesByte beat target k L.1) (cd : Word) (d : Table (Option Byte) 4) :
    (captureLane beat target cd d L.1).look k = some (byteOfWord cd L.1) := by
  obtain ⟨used, address⟩ := h
  rw [captureLane_look, if_pos ⟨used, by omega⟩]

theorem captureLane_kept (starts : StartsInAccess beat target) (h : ¬ CarriesByte beat target k L.1) (cd : Word)
    (d : Table (Option Byte) 4) : (captureLane beat target cd d L.1).look k = d.look k := by
  rw [captureLane_look, if_neg]
  rintro ⟨used, address⟩
  have := starts L used
  exact h ⟨used, by omega⟩

end OneLane

theorem capture_write {beat : Beat} (h : beat.phase = .write) (target : TargetAddr) (cd : Word) (d : Table (Option Byte) 4) :
    capture beat target cd d = d := by
  unfold capture
  rw [h]

/-- A READ beat captures its four lanes one after another. -/
theorem capture_read {beat : Beat} (h : beat.phase = .read) (target : TargetAddr) (cd : Word) (d : Table (Option Byte) 4) :
    capture beat target cd d = fours.foldl (fun e L => captureLane beat target cd e L.1) d := by
  unfold capture
  rw [h]
  rfl

/-- Lanes that do not carry byte k leave it as it was. -/
theorem foldl_captureLane_kept {beat : Beat} {target : TargetAddr} {k : Fin 4} (starts : StartsInAccess beat target) (cd : Word)
    (lanes : List (Fin 4)) (none_ : ∀ L ∈ lanes, ¬ CarriesByte beat target k L.1) (d : Table (Option Byte) 4) :
    (lanes.foldl (fun e L => captureLane beat target cd e L.1) d).look k = d.look k := by
  induction lanes generalizing d with
  | nil => rfl
  | cons L rest ih =>
    rw [List.foldl_cons, ih fun M hM => none_ M (.tail _ hM)]
    exact captureLane_kept starts (none_ L (.head _)) cd d

/-- The lane that carries byte k writes it, and no other lane writes it again. -/
theorem foldl_captureLane_carried {beat : Beat} {target : TargetAddr} {k L : Fin 4} (starts : StartsInAccess beat target)
    (cd : Word) (carries : CarriesByte beat target k L.1) (lanes : List (Fin 4)) (mem : L ∈ lanes)
    (d : Table (Option Byte) 4) :
    (lanes.foldl (fun e L => captureLane beat target cd e L.1) d).look k = some (byteOfWord cd L.1) := by
  induction lanes generalizing d with
  | nil => cases mem
  | cons M rest ih =>
    rw [List.foldl_cons]
    by_cases later : L ∈ rest
    · exact ih later _
    · obtain rfl : L = M := (List.mem_cons.1 mem).resolve_right later
      rw [foldl_captureLane_kept starts cd rest]
      · exact captureLane_carried carries cd d
      · intro M hM other
        exact later (Fin.ext (carriesByte_unique carries other) ▸ hM)

/-- Settles O18: at most one lane carries a byte, and the capture is the four lanes one after another. -/
theorem captureIsByAddress : Obligations.CaptureIsByAddress := by
  intro beat target cd d k
  refine ⟨fun write => capture_write write target cd d, fun read starts => ⟨fun L used address => ?_, fun none_ => ?_⟩⟩
  · rw [capture_read read]
    exact foldl_captureLane_carried starts cd ⟨used, address⟩ fours (mem_fours L) d
  · rw [capture_read read]
    exact foldl_captureLane_kept starts cd fours (fun L _ carries => none_ L carries.1 carries.2) d

/-! ### The units an access meets (R64) -/

theorem unitOf_eq (x W : Nat) : unitOf x W = x / W * W := by
  have := Nat.div_add_mod' x W
  unfold unitOf
  omega

/-- Unit j after the first is the unit of number t / W + j. -/
theorem unitOf_add (t W j : Nat) : unitOf t W + j * W = (t / W + j) * W := by
  rw [unitOf_eq, Nat.add_mul]

section Units

variable {n t W j : Nat}

/-- A unit met begins at or before the last byte of the access. -/
theorem unit_met_lt (hn : 0 < n) (hW : 0 < W) (h : j < unitCount n t W) : unitOf t W + j * W < t + n := by
  have number : t / W + j ≤ (t + n - 1) / W := by
    have : t / W ≤ (t + n - 1) / W := Nat.div_le_div_right (by omega)
    unfold unitCount at h
    omega
  have := (Nat.le_div_iff_mul_le hW).1 number
  rw [unitOf_add]
  omega

/-- Every unit after the first begins behind the first byte. -/
theorem lt_later_unit (hW : 0 < W) (later : j ≠ 0) : t < unitOf t W + j * W := by
  rw [unitOf_add]
  exact (Nat.div_lt_iff_lt_mul hW).1 (by omega)

/-- An access of n bytes meets at most n units. -/
theorem unitCount_le (hn : 0 < n) (hW : 0 < W) : unitCount n t W ≤ n := by
  have last : (t + n - 1) / W < t / W + n := by
    have first := lt_later_unit (t := t) hW Nat.one_ne_zero
    have rest := Nat.le_mul_of_pos_right (n - 1) hW
    rw [Nat.div_lt_iff_lt_mul hW]
    calc t + n - 1 = t + (n - 1) := by omega
      _ < unitOf t W + 1 * W + (n - 1) * W := Nat.add_lt_add_of_lt_of_le first rest
      _ = (t / W + n) * W := by rw [unitOf_add, ← Nat.add_mul, Nat.add_assoc, Nat.add_sub_cancel' hn]
  unfold unitCount
  omega

/-- Byte k of an access lies in a unit that the access meets. -/
theorem byte_in_unit_met {k : Nat} (hk : k < n) : ∃ j, j < unitCount n t W ∧ unitOf t W + j * W = unitOf (t + k) W := by
  have first : t / W ≤ (t + k) / W := Nat.div_le_div_right (by omega)
  have last : (t + k) / W ≤ (t + n - 1) / W := Nat.div_le_div_right (by omega)
  refine ⟨(t + k) / W - t / W, ?_, ?_⟩
  · unfold unitCount
    omega
  · rw [unitOf_add, Nat.add_sub_cancel' first, ← unitOf_eq]

/-! ### Lane sets (R65) -/

theorem laneUsed_iff {u L : Nat} : laneUsed n t W u L = true ↔ L < W ∧ t ≤ u + L ∧ u + L < t + n := by
  simp [laneUsed, and_assoc]

/-- Four flags written as bits are read back. -/
theorem ofNat_bitIf_getLsbD (x y z w : Bool) (L : Fin 4) :
    (BitVec.ofNat 4 (bitIf x 0 + bitIf y 1 + bitIf z 2 + bitIf w 3)).getLsbD L.1 = ![x, y, z, w] L := by
  revert x y z w L
  decide

theorem laneSet_getLsbD (n t W u : Nat) (L : Fin 4) : (laneSet n t W u).getLsbD L.1 = laneUsed n t W u L.1 := by
  rw [laneSet, ofNat_bitIf_getLsbD]
  match L with
  | 0 => rfl
  | 1 => rfl
  | 2 => rfl
  | 3 => rfl

/-- The lane of byte k in its unit is in the lane set. -/
theorem laneSet_of_byte {k : Nat} (hk : k < n) (hW : 0 < W) (hW4 : W ≤ 4) :
    (laneSet n t W (unitOf (t + k) W)).getLsbD ((t + k) % W) = true := by
  have lane := Nat.mod_lt (t + k) hW
  have address : unitOf (t + k) W + (t + k) % W = t + k := Nat.sub_add_cancel (Nat.mod_le ..)
  refine (laneSet_getLsbD n t W _ ⟨(t + k) % W, by omega⟩).trans (laneUsed_iff.2 ⟨lane, ?_⟩)
  dsimp only
  omega

/-- A unit met carries a byte of the access: byte 0 in the first unit, and in every later one the byte on lane 0. -/
theorem laneSet_ne_zero (hn : 0 < n) (hW : 0 < W) (hW4 : W ≤ 4) (h : j < unitCount n t W) :
    laneSet n t W (unitOf t W + j * W) ≠ 0 := by
  have nonzero : ∀ (lanes : BitVec 4) (L : Nat), lanes.getLsbD L = true → lanes ≠ 0 := by
    rintro _ L used rfl
    simp at used
  by_cases first : j = 0
  · subst first
    rw [Nat.zero_mul, Nat.add_zero]
    exact nonzero _ (t % W) (laneSet_of_byte (k := 0) hn hW hW4)
  · have begins := lt_later_unit (t := t) hW first
    refine nonzero _ 0 ((laneSet_getLsbD n t W _ 0).trans (laneUsed_iff.2 ⟨hW, begins.le, ?_⟩))
    exact unit_met_lt hn hW h

/-! ### Plans (R64, R70) -/

/-- The beat of unit j after the first, in one phase. -/
def unitBeat (ph : Phase) (n t W j : Nat) : Beat :=
  { phase := ph, unit := BitVec.ofNat 28 (unitOf t W + j * W), lanes := laneSet n t W (unitOf t W + j * W) }

theorem planPhase_getElem? {ph : Phase} {b : Beat} :
    (planPhase ph n t W)[j]? = some b ↔ j < unitCount n t W ∧ unitBeat ph n t W j = b := by
  simp [planPhase, unitBeat, List.getElem?_eq_some_iff]

/-- In a target's 28 bits no unit address wraps. -/
theorem unitBeat_unit (ph : Phase) (hn : 0 < n) (hW : 0 < W) (fits : t + n ≤ 2 ^ 28) (h : j < unitCount n t W) :
    (unitBeat ph n t W j).unit.toNat = unitOf t W + j * W :=
  Nat.mod_eq_of_lt ((unit_met_lt hn hW h).trans_le fits)

/-- The plan of a READ or WRITE is one phase of its own kind. -/
theorem planFor_phase {kind : AccessKind} (h : kind ≠ .swap) (n t W : Nat) :
    planFor kind n t W = planPhase (if kind = .write then .write else .read) n t W := by
  cases kind with
  | read => rfl
  | write => rfl
  | swap => exact absurd rfl h

theorem planPhase_write (n t W : Nat) :
    planPhase .write n t W = (planPhase .read n t W).map fun b => { b with phase := .write } := by
  unfold planPhase
  rw [List.map_map]
  rfl

/-- A beat of a plan, with the lanes of the access's bytes in its unit. -/
theorem planPhase_beat {ph : Phase} {b : Beat} (hn : 0 < n) (hW : 0 < W) (hW4 : W ≤ 4) (fits : t + n ≤ 2 ^ 28)
    (h : (planPhase ph n t W)[j]? = some b) : b.unit.toNat = t - t % W + j * W ∧ b.phase = ph ∧ b.lanes ≠ 0 ∧
      ∀ L : Fin 4, b.lanes.getLsbD L.1 = decide (L.1 < W ∧ t ≤ b.unit.toNat + L.1 ∧ b.unit.toNat + L.1 < t + n) := by
  obtain ⟨met, rfl⟩ := planPhase_getElem?.1 h
  have unit := unitBeat_unit ph hn hW fits met
  refine ⟨unit, rfl, laneSet_ne_zero hn hW hW4 met, fun L => ?_⟩
  rw [unit, Bool.eq_iff_iff, decide_eq_true_iff, ← laneUsed_iff, ← laneSet_getLsbD]
  rfl

/-- Every byte of the access has a beat and a lane. -/
theorem planPhase_covers (ph : Phase) {k : Nat} (hk : k < n) (hW : 0 < W) (hW4 : W ≤ 4) (fits : t + n ≤ 2 ^ 28) :
    ∃ (j : Nat) (b : Beat), (planPhase ph n t W)[j]? = some b ∧ b.unit.toNat = t + k - (t + k) % W ∧
      b.lanes.getLsbD ((t + k) % W) = true := by
  obtain ⟨j, met, unit⟩ := byte_in_unit_met (t := t) (W := W) hk
  refine ⟨j, _, planPhase_getElem?.2 ⟨met, rfl⟩, (unitBeat_unit ph (by omega) hW fits met).trans unit, ?_⟩
  rw [unitBeat, unit]
  exact laneSet_of_byte hk hW hW4

/-- A SWAP's plan holds each READ beat, and behind all of them its WRITE beat (R70). -/
theorem planFor_swap_beat {b : Beat} (h : (planFor .read n t W)[j]? = some b) : (planFor .swap n t W)[j]? = some b ∧
    (planFor .swap n t W)[(planFor .read n t W).length + j]? = some { b with phase := .write } := by
  have inside := (List.getElem?_eq_some_iff.1 h).1
  have swap : planFor .swap n t W = planFor .read n t W ++ (planFor .read n t W).map fun b => { b with phase := .write } :=
    congrArg (planPhase .read n t W ++ ·) (planPhase_write n t W)
  constructor
  · rw [swap, List.getElem?_append_left inside, h]
  · rw [swap, List.getElem?_append_right (Nat.le_add_right ..), Nat.add_sub_cancel_left, List.getElem?_map, h]
    rfl

end Units

theorem oneTwoFour_bounds {n : Nat} (h : n = 1 ∨ n = 2 ∨ n = 4) : 0 < n ∧ n ≤ 4 := by omega

/-- Settles O51: a plan is one phase, its beats the units met, and a SWAP the READ phase twice. -/
theorem planCoversEveryByteOnce : Obligations.PlanCoversEveryByteOnce := by
  refine ⟨fun kind n t W plain size width fits => ?_,
    fun n t W _ _ _ => ⟨planFor_length_swap n t W, fun _ _ => planFor_swap_beat⟩⟩
  obtain ⟨hn, hn4⟩ := oneTwoFour_bounds size
  obtain ⟨hW, hW4⟩ := oneTwoFour_bounds width
  refine ⟨planFor_length_pos kind n t W, ?_, fun j b h => ?_, fun k hk => ?_⟩
  · rw [planFor_length kind n t W plain]
    exact (unitCount_le hn hW).trans hn4
  · rw [planFor_phase plain] at h
    exact planPhase_beat hn hW hW4 fits h
  · rw [planFor_phase plain]
    exact planPhase_covers _ hk hW hW4 fits

end Sys2Proof.Machine
end

section
/-! The end of a beat of a context without the abandon mark: normal with beats of its plan left, or failed (R68, R71, R80, R87 to R89, R102, R103, R105, R106, R127). -/

namespace Sys2Proof.Machine

/-! ### A normal end with beats left (R80, R87 to R89, R102) -/

theorem endBeatLines_chanAt (s : State) (c : Fin 4) (o : BeatOutcome) : (s.endBeatLines c o).chanAt c =
    { s.chanAt c with lines := (s.chanAt c).lines.quiet, timeouts := countAfter o (s.chanAt c).timeouts } :=
  State.chanAt_putChan_same ..

/-- The state a normal beat end has reached before its channel takes its next state (R87, R88, R102, R106). -/
def State.beatDone (s : State) (c : Fin 4) (id : CtxId) (r : Request) (b : Binding) (stamp : Nat) : State :=
  (s.endBeatLines c .normal).putCtx id (some ⟨r, .onBus b stamp false⟩)

section BeatsLeft

variable {s : State} {c : Fin 4} {copy : BeatCopy} {cd : Word} {id : CtxId} {r : Request} {b : Binding} {stamp : Nat}
  {beat : Beat}

theorem beatDone_onBus (bus : (s.chanAt c).onBus = some id) :
    OnBus (s.beatDone c id r b stamp) c id r b stamp false := by
  refine ⟨?_, State.ctxAt_putCtx_same ..⟩
  show ((s.endBeatLines c .normal).chanAt c).onBus = some id
  rw [endBeatLines_chanAt]
  exact bus

/-- The channel of a beat that has ended takes a state. -/
theorem beatDone_putChan (x : Channel) : (s.beatDone c id r b stamp).putChan c x =
    (s.putCtx id (some ⟨r, .onBus b stamp false⟩)).putChan c x :=
  State.ext_fields rfl rfl rfl rfl (put_put ..) rfl rfl rfl rfl rfl rfl

theorem beatDone_chanAt (bus : (s.chanAt c).onBus = some id) :
    (s.beatDone c id r b stamp).chanAt c = endedBeat (s.chanAt c) .normal (s.chanAt c).state (some id) := by
  show (s.endBeatLines c .normal).chanAt c = _
  rw [endBeatLines_chanAt, endedBeat, ← bus]
  rfl

/-- A normal beat end with beats left keeps the context on the bus, and the channel takes its next state (R89, R102). -/
theorem beatEnd_more (on : OnBus s c id r b stamp false) (hb : b.plan[b.completed]? = some beat)
    (more : b.completed + 1 < b.plan.length) : s.beatEnd c copy .normal cd =
      (s.beatDone c id r (afterNormalBeat b beat cd) stamp).settleChannel c copy := by
  obtain ⟨bus, ctx⟩ := on
  unfold State.beatEnd
  simp only [bus, ctx, afterBeat_of_beat hb]
  rw [if_neg Bool.false_ne_true]
  exact if_pos more

end BeatsLeft

/-- Settles O17: the channel goes into RECOVERY, or through it into the next beat of the context it kept. -/
theorem normalBeatEndWithBeatsLeft : Obligations.NormalBeatEndWithBeatsLeft := by
  refine ⟨fun s c copy e cd id r b stamp beat ends on hb more long => ?_,
    fun s c copy e cd id r b stamp beat next ends on hb hnext through => ?_⟩
  · have chan := beatDone_chanAt (r := r) (b := afterNormalBeat b beat cd) (stamp := stamp) on.1
    rw [exec_endsBeat ends, beatEnd_more on hb more, settleChannel_recovery (by rw [chan]; rfl) long, State.chanState, chan,
      beatDone_putChan]
    rfl
  · have more : b.completed + 1 < b.plan.length := (List.getElem?_eq_some_iff.1 hnext).1
    have chan := beatDone_chanAt (r := r) (b := afterNormalBeat b beat cd) (stamp := stamp) on.1
    obtain ⟨bus, ctx⟩ := beatDone_onBus (r := r) (b := afterNormalBeat b beat cd) (stamp := stamp) on.1
    have starts : (s.beatDone c id r (afterNormalBeat b beat cd) stamp).afterRecovery c =
        (s.beatDone c id r (afterNormalBeat b beat cd) stamp).startBeat c := by
      rw [State.afterRecovery, bus]
    rw [exec_endsBeat ends, beatEnd_more on hb more, settleChannel_through (by rw [chan]; rfl) through, starts,
      startBeat_eq bus ctx rfl hnext, chan, beatDone_putChan]
    rfl

/-! ### What follows a beat end that leaves nothing on the bus (R89, R105) -/

section NothingOnBus

variable {s : State} {c : Fin 4} {copy : BeatCopy}

/-- A channel that goes into RECOVERY leaves only the drain check to be made. -/
theorem settled_recovery (count : (s.chanAt c).timeouts ≠ Config.timeoutLimit) (long : 0 < copy.profile.recovery) :
    ((s.settleChannel c copy).drainCheck).sweep c = (s.chanState c (.recovery copy)).drainCheck := by
  rw [settleChannel_below count long, sweep_drainCheck_online]
  rw [chanState_chanAt]
  exact fun off => by cases off

/-- So does a channel that passes through RECOVERY and arbitrates. -/
theorem settled_through (count : (s.chanAt c).timeouts ≠ Config.timeoutLimit) (through : copy.profile.recovery = 0)
    (bus : (s.chanAt c).onBus = none) :
    ((s.settleChannel c copy).drainCheck).sweep c = ((s.chanState c .idle).arbitrate c).drainCheck := by
  rw [settleChannel_below_through count through, afterRecovery_free bus, sweep_drainCheck_online]
  refine mt (arbitrate_noneGoesOffline _ c c) ?_
  rw [chanState_chanAt]
  exact fun off => by cases off

end NothingOnBus

/-! ### A failed beat (R71, R103, R105, R106) -/

section AccessEnded

variable {s : State} {c : Fin 4} {copy : BeatCopy} {o : BeatOutcome} {cd : Word} {id : CtxId} {r : Request} {b : Binding}
  {stamp : Nat}

theorem accessEndedFailed_chanAt (s : State) (c : Fin 4) (id : CtxId) (r : Request) (b : Binding) (o : BeatOutcome)
    (x : Channel) : (accessEndedFailed s c id r b o x).chanAt c = x := State.chanAt_putChan_same ..

theorem accessEndedFailed_chanState (s : State) (c : Fin 4) (id : CtxId) (r : Request) (b : Binding) (o : BeatOutcome)
    (x : Channel) (st : ChanState) :
    (accessEndedFailed s c id r b o x).chanState c st = accessEndedFailed s c id r b o { x with state := st } := by
  rw [State.chanState, accessEndedFailed_chanAt]
  exact putChan_putChan ..

/-- The context's end with its fault, in the state its channel had in the beat (R103, R105). -/
theorem endWithFault_failed (below : o = .timeout → (s.chanAt c).timeouts ≤ 1) :
    (((s.endBeatLines c o).lowerCount b.window.slot).clearOnBus c).endWithFault id r
      (if o = .error then .targetError else .targetTimeout) (.bound b)
      (faultOf (if o = .error then .targetError else .targetTimeout) id r (some b.window) (targetPartOf b)) =
    accessEndedFailed s c id r b o (endedBeat (s.chanAt c) o (s.chanAt c).state none) := by
  have chan : ((s.endBeatLines c o).lowerCount b.window.slot).chanAt c =
      { s.chanAt c with lines := (s.chanAt c).lines.quiet, timeouts := timeoutsAfter o (s.chanAt c).timeouts } := by
    rw [← (countAfter_below below).1]
    exact endBeatLines_chanAt s c o
  rw [State.endWithFault, recordFault_eq, State.clearOnBus, chan]
  exact State.ext_fields rfl rfl rfl rfl (put_put ..) rfl rfl rfl rfl rfl rfl

/-- A failed beat ends the access; then come the channel's next state, the drain check and the sweep (R103, R105, R107). -/
theorem beatEnd_failed (on : OnBus s c id r b stamp false)
    (failed : o = .error ∨ o = .timeout ∧ (s.chanAt c).timeouts ≤ 1) : s.beatEnd c copy o cd =
      (((accessEndedFailed s c id r b o (endedBeat (s.chanAt c) o (s.chanAt c).state none)).settleChannel c copy).drainCheck).sweep
        c := by
  obtain ⟨bus, ctx⟩ := on
  unfold State.beatEnd
  simp only [bus, ctx]
  rw [if_neg Bool.false_ne_true]
  rcases failed with rfl | ⟨rfl, below⟩
  · rw [← endWithFault_failed (fun no => by cases no)]
    rfl
  · rw [← endWithFault_failed (fun _ => below)]
    rfl

end AccessEnded

/-- Settles O20: the access has ended in u but for the channel's next state, and after that only the drain check is left. -/
theorem failedBeatEndsTheAccess : Obligations.FailedBeatEndsTheAccess := by
  intro s c copy e o cd id r b stamp beat ends on hb failed u
  have below : o = .timeout → (s.chanAt c).timeouts ≤ 1 := by
    rintro rfl
    rcases failed with no | ⟨-, below⟩
    · cases no
    · exact below
  have chan : ∀ st, (accessEndedFailed s c id r b o (endedBeat (s.chanAt c) o st none)).chanAt c =
      endedBeat (s.chanAt c) o st none := fun _ => accessEndedFailed_chanAt ..
  have count : (endedBeat (s.chanAt c) o (s.chanAt c).state none).timeouts ≠ Config.timeoutLimit := by
    obtain ⟨same, limit⟩ := countAfter_below below
    rw [same] at limit
    exact limit
  have drains : 0 < copy.profile.recovery → exec e s = exec .applySet u := by
    intro long
    rw [exec_endsBeat ends, beatEnd_failed on failed, settled_recovery (by rw [chan]; exact count) long,
      accessEndedFailed_chanState]
    rfl
  refine ⟨by rw [failedPart, hb]; rfl, fun long quiet => ?_, drains, fun through => ?_⟩
  · rw [drains long]
    exact congrArg _ (drainCheck_off (s := u) quiet)
  · refine ⟨_, exec_recoveryEnd_free (copy := copy) (by rw [chan]; rfl) (by rw [chan]; rfl), ?_⟩
    rw [exec_endsBeat ends, beatEnd_failed on failed, settled_through (by rw [chan]; exact count) through (by rw [chan]; rfl),
      accessEndedFailed_chanState, accessEndedFailed_chanState]
    rfl

end Sys2Proof.Machine
end

section
/-! The law of the channels through every step: the count fits the state, and the lines are quiet outside a beat (R88 to R90, R94, R106, R107). -/

namespace Sys2Proof.Machine

/-! ### The law, channel by channel -/

/-- The lines of a channel that carries no beat (R88, R90). -/
def ChanLines.Silent (l : ChanLines) : Prop := l.cstbn = true ∧ l.cle = 0 ∧ l.cd = none

theorem quiet_silent (l : ChanLines) : l.quiet.Silent := ⟨rfl, rfl, rfl⟩

/-- What the law says of one channel (R90, R94). -/
def Channel.Lawful (x : Channel) : Prop :=
  (x.state = .offline → x.timeouts = 3) ∧ (x.state ≠ .offline → x.timeouts ≤ 2) ∧
    ((∀ copy stage, x.state ≠ .beat copy stage) → x.lines.Silent)

theorem channelLaw_at {s : State} (hs : ChannelLaw s) (c : Fin 4) : (s.chanAt c).Lawful := hs c

theorem Channel.Lawful.count_online {x : Channel} (h : x.Lawful) (online : x.state ≠ .offline) : x.timeouts ≤ 2 :=
  h.2.1 online

theorem Channel.Lawful.silent {x : Channel} (h : x.Lawful) (noBeat : ∀ copy stage, x.state ≠ .beat copy stage) :
    x.lines.Silent := h.2.2 noBeat

theorem lawful_beat {x : Channel} {copy : BeatCopy} {stage : BeatStage} (st : x.state = .beat copy stage)
    (count : x.timeouts ≤ 2) : x.Lawful := by
  refine ⟨fun off => ?_, fun _ => count, fun noBeat => absurd st (noBeat copy stage)⟩
  rw [st] at off
  cases off

theorem lawful_online {x : Channel} (online : x.state ≠ .offline) (count : x.timeouts ≤ 2) (silent : x.lines.Silent) :
    x.Lawful := ⟨fun off => absurd off online, fun _ => count, fun _ => silent⟩

theorem lawful_offline {x : Channel} (off : x.state = .offline) (count : x.timeouts = 3) (silent : x.lines.Silent) :
    x.Lawful := ⟨fun _ => count, fun online => absurd off online, fun _ => silent⟩

/-- The pointers and the on-bus reference are no part of the law. -/
theorem movePointer_lawful {x : Channel} (h : x.Lawful) (ch : Choice) : (x.movePointer ch).Lawful := by
  unfold Channel.movePointer
  split <;> exact h

theorem chanAt_of_chans {s t : State} (h : t.chans = s.chans) (c : Fin 4) : t.chanAt c = s.chanAt c :=
  congrArg (Table.look · c) h

theorem channelLaw_of_chans {s t : State} (hs : ChannelLaw s) (h : t.chans = s.chans) : ChannelLaw t := by
  intro c
  rw [chanAt_of_chans h]
  exact hs c

/-- Every channel but one meets the law. -/
def OthersLawful (s : State) (c : Fin 4) : Prop := ∀ d, d ≠ c → (s.chanAt d).Lawful

theorem channelLaw_others {s : State} (hs : ChannelLaw s) (c : Fin 4) : OthersLawful s c := fun d _ => hs d

theorem putChan_othersLawful {s : State} {c : Fin 4} (hs : OthersLawful s c) (x : Channel) : OthersLawful (s.putChan c x) c := by
  intro d ne
  rw [State.chanAt_putChan_ne _ _ _ _ ne]
  exact hs d ne

theorem putChan_channelLaw {s : State} {c : Fin 4} {x : Channel} (hs : OthersLawful s c) (hx : x.Lawful) :
    ChannelLaw (s.putChan c x) := by
  intro d
  by_cases same : d = c
  · rw [same, State.chanAt_putChan_same]
    exact hx
  · exact putChan_othersLawful hs x d same

/-! ### Grants, resolutions and the drain check -/

/-- Where the start of a beat finds a beat to start, its channel is in BEAT; else nothing changes (R80, R82). -/
theorem startBeat_cases (s : State) (c : Fin 4) : s.startBeat c = s ∨
    ∃ copy stage lines, s.startBeat c = s.putChan c { s.chanAt c with state := .beat copy stage, lines := lines } := by
  unfold State.startBeat
  split
  · exact .inl rfl
  split
  · exact .inl rfl
  split
  · exact .inl rfl
  split
  · exact .inl rfl
  · exact .inr ⟨_, _, _, rfl⟩

theorem startBeat_channelLaw {s : State} {c : Fin 4} (hs : ChannelLaw s) (online : (s.chanAt c).state ≠ .offline) :
    ChannelLaw (s.startBeat c) := by
  rcases startBeat_cases s c with same | ⟨copy, stage, lines, starts⟩
  · rwa [same]
  · rw [starts]
    exact putChan_channelLaw (channelLaw_others hs c) (lawful_beat rfl ((channelLaw_at hs c).count_online online))

theorem grant_channelLaw {s : State} {c : Fin 4} (hs : ChannelLaw s) (online : (s.chanAt c).state ≠ .offline) (ch : Choice) :
    ChannelLaw (s.grant c ch) := by
  unfold State.grant
  split
  case h_1 r b stamp _ _ =>
    refine startBeat_channelLaw ?_ ?_
    · have tables : ChannelLaw ((s.mapCtxs (passOver c)).putCtx ch.id (some ⟨r, .onBus b stamp false⟩)) := hs
      exact putChan_channelLaw (channelLaw_others tables c) (movePointer_lawful (hs c) ch)
    · rw [State.chanAt_putChan_same]
      exact (movePointer_state ..).trans_ne online
  all_goals exact hs

theorem arbitrate_channelLaw {s : State} (hs : ChannelLaw s) (c : Fin 4) : ChannelLaw (s.arbitrate c) := by
  unfold State.arbitrate
  split
  case h_1 idle =>
    split
    · exact grant_channelLaw hs (by simp [idle]) _
    · exact hs
  all_goals exact hs

theorem endWithFault_chans (s : State) (id : CtxId) (r : Request) (st : Status) (d : DoneRecord) (f : FaultRecord) :
    (s.endWithFault id r st d f).chans = s.chans := by
  unfold State.endWithFault
  rw [recordFault_eq]
  rfl

theorem settle_channelLaw {s : State} (hs : ChannelLaw s) (id : CtxId) (r : Request) (v : Verdict) :
    ChannelLaw (s.settle id r v) := by
  cases v with
  | held => exact hs
  | bound b =>
    have entered : ChannelLaw ((s.putCtx id (some ⟨r, .bound b (s.nextStamp b.channel) 0⟩)).raiseCount b.window.slot) := hs
    exact arbitrate_channelLaw entered b.channel
  | noWindow | span | denied | channelOffline => exact channelLaw_of_chans hs (endWithFault_chans ..)

theorem reResolve_channelLaw {s : State} (hs : ChannelLaw s) (l : List CtxId) : ChannelLaw (s.reResolve l) := by
  induction l generalizing s with
  | nil => exact hs
  | cons id rest ih =>
    have taken : ChannelLaw (s.putChangeSet { s.changeSet with holdList := rest }) := hs
    unfold State.reResolve
    dsimp only
    split
    case h_1 => exact ih (settle_channelLaw taken _ _ _)
    all_goals exact ih taken

theorem drainCheck_channelLaw {s : State} (hs : ChannelLaw s) : ChannelLaw s.drainCheck := by
  rcases drainCheck_cases s with same | applied
  · rwa [same]
  · rw [applied, applyNow_eq]
    have entered : s.beforeReResolve.chans = s.chans := (applyEntries_same s s.changeSet.entries).2.2.1
    exact reResolve_channelLaw (channelLaw_of_chans hs entered) _

/-! ### Ends of beats and of recoveries -/

/-- A channel at the end of its beat, the count acted on and its own next state still to come: it is not OFFLINE, its count is 3 at most and its lines are quiet (R88, R105, R106). -/
structure Channel.BeatOver (x : Channel) : Prop where
  online : x.state ≠ .offline
  count : x.timeouts ≤ 3
  silent : x.lines.Silent

theorem endBeatLines_beatOver {s : State} {c : Fin 4} {o : BeatOutcome} (hs : ChannelLaw s)
    (online : (s.chanAt c).state ≠ .offline) : ((s.endBeatLines c o).chanAt c).BeatOver := by
  have count := (channelLaw_at hs c).count_online online
  rw [endBeatLines_chanAt]
  refine ⟨online, ?_, quiet_silent _⟩
  cases o with
  | normal | error => exact Nat.zero_le 3
  | timeout => exact Nat.min_le_right _ 3

theorem clearOnBus_beatOver {s : State} {c : Fin 4} (h : (s.chanAt c).BeatOver) : ((s.clearOnBus c).chanAt c).BeatOver := by
  unfold State.clearOnBus
  rw [State.chanAt_putChan_same]
  exact ⟨h.online, h.count, h.silent⟩

/-- A channel without a beat to keep its lines driven goes on after RECOVERY with the next beat or with an arbitration (R80, R89). -/
theorem afterRecovery_channelLaw {s : State} {c : Fin 4} (hs : OthersLawful s c) (online : (s.chanAt c).state ≠ .offline)
    (count : (s.chanAt c).timeouts ≤ 2) (silent : (s.chanAt c).lines.Silent) : ChannelLaw (s.afterRecovery c) := by
  unfold State.afterRecovery
  split
  · have here : ChannelLaw s := State.putChan_self s c ▸ putChan_channelLaw hs (lawful_online online count silent)
    exact startBeat_channelLaw here online
  · refine arbitrate_channelLaw (putChan_channelLaw hs ?_) c
    exact lawful_online (by simp) count silent

/-- The channel's next state fits the count at which its beat ended: OFFLINE at 3, RECOVERY or what follows it below (R89, R107). -/
theorem settleChannel_channelLaw {s : State} {c : Fin 4} (hs : OthersLawful s c) (ended : (s.chanAt c).BeatOver)
    (copy : BeatCopy) : ChannelLaw (s.settleChannel c copy) := by
  unfold State.settleChannel
  split
  case isTrue third => exact putChan_channelLaw hs (lawful_offline rfl third ended.silent)
  case isFalse below =>
    have count : (s.chanAt c).timeouts ≤ 2 := Nat.lt_succ_iff.1 (Nat.lt_of_le_of_ne ended.count below)
    split
    · exact afterRecovery_channelLaw hs ended.online count ended.silent
    · exact putChan_channelLaw hs (lawful_online (by simp) count ended.silent)

theorem sweep_channelLaw {s : State} (hs : ChannelLaw s) (c : Fin 4) : ChannelLaw (s.sweep c) := by
  have one : ∀ (u : State) (id : CtxId), ChannelLaw u → ChannelLaw (u.sweepOne id) := by
    intro u id hu
    unfold State.sweepOne
    split
    case h_1 => exact drainCheck_channelLaw (channelLaw_of_chans hu (endWithFault_chans ..))
    all_goals exact hu
  unfold State.sweep
  split
  case h_1 => exact foldl_inv one _ _ hs
  all_goals exact hs

theorem portCheck_chans (s : State) (p : Fin 4) : (s.portCheck p).chans = s.chans := by
  unfold State.portCheck State.leaveReset
  dsimp only
  split
  · split <;> rfl
  · rfl

theorem planEnds_channelLaw {s : State} {c : Fin 4} (hs : OthersLawful s c) (ended : (s.chanAt c).BeatOver) (copy : BeatCopy)
    (id : CtxId) (r : Request) (b : Binding) (o : BeatOutcome) : ChannelLaw (s.planEnds c copy id r b o) := by
  have follows : ∀ u : State, u.chans = (s.clearOnBus c).chans → ChannelLaw (((u.settleChannel c copy).drainCheck).sweep c) := by
    intro u chans
    refine sweep_channelLaw (drainCheck_channelLaw (settleChannel_channelLaw ?_ ?_ copy)) c
    · intro d ne
      rw [chanAt_of_chans chans]
      exact putChan_othersLawful hs _ d ne
    · rw [chanAt_of_chans chans]
      exact clearOnBus_beatOver ended
  cases o with
  | normal => exact follows _ rfl
  | error | timeout => exact follows _ (endWithFault_chans ..)

theorem beatEnd_channelLaw {s : State} {c : Fin 4} (hs : ChannelLaw s) (online : (s.chanAt c).state ≠ .offline)
    (copy : BeatCopy) (o : BeatOutcome) (cd : Word) : ChannelLaw (s.beatEnd c copy o cd) := by
  have others : OthersLawful (s.endBeatLines c o) c := putChan_othersLawful (channelLaw_others hs c) _
  have ended : ((s.endBeatLines c o).chanAt c).BeatOver := endBeatLines_beatOver hs online
  unfold State.beatEnd
  split
  · exact hs
  split
  case h_1 id _ _ r b stamp marked _ =>
    dsimp only
    split
    · have freed : (((s.endBeatLines c o).freeAbandoned c id b).chanAt c).BeatOver := clearOnBus_beatOver ended
      refine endWait_keeps (channelLaw_of_chans ?_ (portCheck_chans ..)) (reinitialise_channels _ _)
      refine sweep_channelLaw (drainCheck_channelLaw (settleChannel_channelLaw ?_ freed copy)) c
      exact putChan_othersLawful others _
    · split
      · split
        · exact settleChannel_channelLaw (s := (s.endBeatLines c .normal).putCtx id _) others ended copy
        · exact planEnds_channelLaw others ended _ _ _ _ _
      · exact planEnds_channelLaw others ended _ _ _ _ _
      · exact planEnds_channelLaw others ended _ _ _ _ _
  all_goals exact hs

theorem recoveryEnds_channelLaw {s : State} {c : Fin 4} {copy : BeatCopy} (hs : ChannelLaw s)
    (recovery : (s.chanAt c).state = .recovery copy) : ChannelLaw (s.recoveryEnds c) := by
  have online : (s.chanAt c).state ≠ .offline := by simp [recovery]
  have count := (channelLaw_at hs c).count_online online
  have silent : (s.chanAt c).lines.Silent := (channelLaw_at hs c).silent (by simp [recovery])
  have goesOn : ChannelLaw (s.afterRecovery c) := afterRecovery_channelLaw (channelLaw_others hs c) online count silent
  unfold State.recoveryEnds
  split
  · exact goesOn
  split
  case h_1 id _ _ _ b _ _ =>
    have freed : (s.freeAbandoned c id b).chanAt c = { s.chanAt c with onBus := none } := State.chanAt_putChan_same ..
    refine endWait_keeps (channelLaw_of_chans (drainCheck_channelLaw ?_) (portCheck_chans ..)) (reinitialise_channels _ _)
    refine afterRecovery_channelLaw (putChan_othersLawful (channelLaw_others hs c) _) ?_ ?_ ?_ <;> rw [freed]
    · exact online
    · exact count
    · exact silent
  all_goals exact goesOn

/-! ### Port resets, acceptance and discard -/

/-- Freeing a port's BOUND contexts touches a channel only where the drain check applies a set (R54, R136). -/
theorem boundLeaves_channelLaw {s t : State} {l : List CtxId} (h : BoundLeaves s l t) (hs : ChannelLaw s) : ChannelLaw t := by
  induction h with
  | done => exact hs
  | freed s t u k rest q b n m bound check more ih =>
    cases check
    exact ih (drainCheck_channelLaw (channelLaw_of_chans hs rfl))
  | other s u k rest no more ih => exact ih hs

theorem startPortReset_channelLaw {s : State} (hs : ChannelLaw s) (p : Fin 4) : ChannelLaw (s.startPortReset p) := by
  obtain ⟨u, order, v, held, _, bound, ends⟩ := startPortReset_steps s p
  exact channelLaw_of_chans (boundLeaves_channelLaw bound (channelLaw_of_chans hs held.chans)) ends.chans

theorem accept_chans (s : State) : s.accept.chans = s.chans := (foldl_freeze_same s.changeSet.entries s).2.2.1

theorem discardCommitting_channelLaw {s : State} (hs : ChannelLaw s) : ChannelLaw s.discardCommitting :=
  reResolve_channelLaw (s := s.thawed) (channelLaw_of_chans hs rfl) _

/-! ### What a command can do to the channels -/

/-- A channel goes on within its beat, takes another divisor, or is restored from OFFLINE (R82 to R85, R95, R109). -/
inductive Channel.GoesOn (x : Channel) : Channel → Prop where
  | within {copy : BeatCopy} {stage : BeatStage} (st : x.state = .beat copy stage) (next : BeatStage) (lines : ChanLines) :
      GoesOn x { x with state := .beat copy next, lines := lines }
  | divisor (n : Nat) : GoesOn x { x with divisor := n }
  | restored (off : x.state = .offline) : GoesOn x { x with state := .idle, timeouts := 0 }

theorem Channel.GoesOn.lawful {x y : Channel} (h : x.GoesOn y) (hx : x.Lawful) : y.Lawful := by
  cases h with
  | within st next lines => exact lawful_beat rfl (hx.count_online (by simp [st]))
  | divisor n => exact hx
  | restored off => exact lawful_online (by simp) (Nat.zero_le 2) (hx.silent (by simp [off]))

/-- Everything a command can do to the channels. -/
inductive ChannelChange (s : State) : State → Prop where
  | same {t : State} (h : t.chans = s.chans) : ChannelChange s t
  | rst : ChannelChange s s.assertRst
  | reinitialised (u : State) (o : Origin) : ChannelChange s (u.reinitialise o)
  | wentOn {t : State} {c : Fin 4} {x : Channel} (h : (s.chanAt c).GoesOn x) (k : t.chans = (s.putChan c x).chans) :
      ChannelChange s t
  | taken {u : State} {id : CtxId} {r : Request} (h : u.chans = s.chans) : ChannelChange s (u.resolveInto id r)
  | portReset {u t : State} (p : Fin 4) (h : u.chans = s.chans) (k : t.chans = (u.startPortReset p).chans) : ChannelChange s t
  | beatEnded {c : Fin 4} {copy : BeatCopy} {stage : BeatStage} (st : (s.chanAt c).state = .beat copy stage) (o : BeatOutcome)
      (cd : Word) : ChannelChange s (s.beatEnd c copy o cd)
  | recoveryEnded {c : Fin 4} {copy : BeatCopy} (st : (s.chanAt c).state = .recovery copy) : ChannelChange s (s.recoveryEnds c)
  | drainChecked : ChannelChange s s.drainCheck
  | accepted {t : State} (k : t.chans = s.accept.drainCheck.chans) : ChannelChange s t
  | discarded {t : State} (k : t.chans = s.discardCommitting.chans) : ChannelChange s t

/-- A command of an owner changes the channels as its owner does, or not at all (R169). -/
theorem own_channelChange {s : State} (code : CommandCode) {f : List Byte → State} (h : ∀ p, ChannelChange s (f p)) :
    ChannelChange s (s.own code f) :=
  own_keeps code (.same rfl) fun p _ => h p

/-! The link reads and answers; it writes no channel (R157 to R167). -/

theorem markTaken_chans (s : State) : s.markTaken.chans = s.chans := by
  unfold State.markTaken
  split <;> rfl

theorem answerLineHeld_chans (s : State) (p : Fin 4) : (s.answerLineHeld p).chans = s.chans := by
  unfold State.answerLineHeld
  split <;> rfl

theorem releaseMcs_chans (s : State) : s.releaseMcs.chans = s.chans := by
  unfold State.releaseMcs
  split <;> rfl

theorem decideFrame_chans (s : State) (b : List Byte) : (s.decideFrame b).chans = s.chans := by
  unfold State.decideFrame
  split
  case h_3 =>
    dsimp only
    split <;> rfl
  all_goals rfl

theorem commandExchange_chans (s : State) (b : List Byte) : (s.commandExchange b).chans = s.chans := by
  unfold State.commandExchange
  split
  case h_1 | h_2 => rfl
  case h_3 | h_4 => exact decideFrame_chans ..

theorem typedExchange_chans (s : State) (t : Byte) (b : List Byte) : (s.typedExchange t b).chans = s.chans := by
  unfold State.typedExchange
  split
  · exact commandExchange_chans ..
  · split
    · rfl
    · split <;> rfl

theorem beginExchange_chans (s : State) (t : Byte) (b : List Byte) : (s.beginExchange t b).chans = s.chans := by
  refine Eq.trans ?_ (releaseMcs_chans s)
  unfold State.beginExchange
  dsimp only
  split
  case h_1 => rfl
  all_goals exact typedExchange_chans ..

/-! The commands with an outcome of their own. -/

theorem present_channelChange (s : State) (id : CtxId) (r : Request) : ChannelChange s (s.present id r) := by
  unfold State.present
  split
  · dsimp only
    split
    · rw [recordFault_eq]
      exact .same rfl
    · exact .same rfl
  · exact .taken rfl

theorem takeHead_chans (s : State) (p : Fin 4) : (s.takeHead p).chans = s.chans := by
  unfold State.takeHead
  split <;> rfl

theorem takeResetAll_chans (s : State) : s.takeResetAll.chans = s.chans := by
  have freed : (ctxIds.foldl State.resetAllCtx s).chans = s.chans :=
    foldl_same State.chans (fun u id => (resetAllCtx_keeps u id).2.1) ctxIds s
  unfold State.takeResetAll
  generalize ctxIds.foldl State.resetAllCtx s = u at freed
  exact (markTaken_chans _).trans freed

theorem prstnAsserted_channelChange (s : State) (p : Fin 4) (already : Prop) [Decidable already] :
    ChannelChange s ((if already then s.assertPrstn p else (s.assertPrstn p).startPortReset p).answerLineHeld p) := by
  split
  · exact .same (answerLineHeld_chans ..)
  · exact .portReset (u := s.assertPrstn p) p rfl (answerLineHeld_chans ..)

theorem resetPort_channelChange (s : State) (p : Fin 4) : ChannelChange s (s.resetPort p) := by
  have follows : ∀ u : State,
      (if (s.portAt p).prstn then u.answer .done [] true else u.markTaken.portCheck p).chans = u.chans := by
    intro u
    split
    · rfl
    · exact (portCheck_chans ..).trans (markTaken_chans u)
  unfold State.resetPort
  dsimp only
  by_cases h : (s.portAt p).state = .inReset
  · rw [if_pos h]
    exact .same (follows s)
  · rw [if_neg h]
    exact .portReset p rfl (follows _)

theorem commitOpen_channelChange (s : State) : ChannelChange s s.commitOpen := by
  unfold State.commitOpen
  split
  · exact .same rfl
  · exact .accepted rfl

/-- The one inversion of exec for the law of the channels: whatever the command, the channels change in one of these ways. -/
theorem exec_channelChange {c : Instr} {s t : State} (h : exec c s = .next t) : ChannelChange s t := by
  cases c <;> cases h
  case rstAsserted => exact .rst
  case rstReleased =>
    split
    · exact .reinitialised ..
    · exact .same rfl
  case reinitialisation => exact endWait_keeps (.same rfl) (.reinitialised ..)
  case startupCompletion =>
    split
    · rename_i o _
      cases o <;> exact .same rfl
    · exact .same rfl
  case requestPresented =>
    split
    · exact .same rfl
    · split
      · exact .same rfl
      · exact present_channelChange ..
  case responseTaken =>
    split
    · exact .same rfl
    · exact .same (takeHead_chans ..)
  case prstnAsserted => exact prstnAsserted_channelChange ..
  case prstnDeasserted | portLeavesInReset => exact .same (portCheck_chans ..)
  case requestRemoved | prtkSampledLow => exact .same rfl
  case strobeAssert =>
    split
    · rename_i st
      exact .wentOn (.within st ..) rfl
    · exact .same rfl
  case minimumStrobeEnd | extensionPeriodEnd =>
    split
    · rename_i st
      split
      · exact .beatEnded st ..
      · split
        · exact .beatEnded st ..
        · exact .wentOn (.within st ..) rfl
    · exact .same rfl
  case beatTimeout =>
    split
    · rename_i st
      split
      · exact .beatEnded st ..
      · exact .same rfl
    · exact .same rfl
  case recoveryEnd =>
    split
    · rename_i st
      exact .recoveryEnded st
    · exact .same rfl
  case applySet => exact .drainChecked
  case commandFrame | responseExchange | attentionExchange | unknownTypeExchange => exact .same (beginExchange_chans ..)
  case mcsRelease => exact .same (releaseMcs_chans s)
  case collision =>
    split
    · exact .same (beginExchange_chans ..)
    · exact .same rfl
  case resetAll => exact own_channelChange _ fun _ => endWait_keeps (.same (takeResetAll_chans s)) (.reinitialised ..)
  case stageInstall | stageAmend | stageRetire =>
    refine own_channelChange _ fun _ => ?_
    unfold State.stage
    split <;> exact .same rfl
  case commit =>
    refine own_channelChange _ fun _ => ?_
    split
    · exact .same rfl
    · split
      · exact .same rfl
      · exact commitOpen_channelChange s
    · exact .same rfl
  case discard =>
    refine own_channelChange _ fun _ => ?_
    split
    · exact .same rfl
    · exact .same rfl
    · exact .discarded rfl
  case resetPort =>
    refine own_channelChange _ fun _ => ?_
    split
    · exact .same rfl
    · exact resetPort_channelChange ..
  case setChannel =>
    refine own_channelChange _ fun _ => ?_
    split
    · exact .same rfl
    · split
      · exact .same rfl
      · exact .wentOn (.divisor _) rfl
  case restoreChannel =>
    refine own_channelChange _ fun _ => ?_
    split
    · exact .same rfl
    · dsimp only
      split
      · rename_i off
        exact .wentOn (.restored off) rfl
      · exact .same rfl
  case identify | querySet => exact own_channelChange _ fun _ => .same rfl
  case queryWindow | queryPort | queryProfile | queryChannel | setProfile | setAttentionMask =>
    refine own_channelChange _ fun _ => ?_
    split <;> exact .same rfl
  case readFault | ackAttention =>
    refine own_channelChange _ fun _ => ?_
    split
    · exact .same rfl
    · split <;> exact .same rfl
  case findAddress | clearFault =>
    refine own_channelChange _ fun _ => ?_
    split
    · exact .same rfl
    · split
      · exact .same rfl
      · split <;> exact .same rfl
  case setPort =>
    refine own_channelChange _ fun _ => ?_
    split
    · exact .same rfl
    · split
      · exact .same rfl
      · exact .same rfl
      · dsimp only
        split <;> exact .same rfl

theorem channelChange_channelLaw {s t : State} (h : ChannelChange s t) (hs : ChannelLaw s) : ChannelLaw t := by
  cases h with
  | same h => exact channelLaw_of_chans hs h
  | rst => exact blocksFresh_channelLaw (assertRst_blocks s)
  | reinitialised u o => exact reinitialise_channels u o
  | wentOn h k => exact channelLaw_of_chans (putChan_channelLaw (channelLaw_others hs _) (h.lawful (channelLaw_at hs _))) k
  | taken h => exact settle_channelLaw (channelLaw_of_chans hs h) _ _ _
  | portReset p h k => exact channelLaw_of_chans (startPortReset_channelLaw (channelLaw_of_chans hs h) p) k
  | beatEnded st o cd => exact beatEnd_channelLaw hs (fun off => by simp [st] at off) _ _ _
  | recoveryEnded st => exact recoveryEnds_channelLaw hs st
  | drainChecked => exact drainCheck_channelLaw hs
  | accepted k => exact channelLaw_of_chans (drainCheck_channelLaw (channelLaw_of_chans hs (accept_chans s))) k
  | discarded k => exact channelLaw_of_chans (discardCommitting_channelLaw hs) k

/-- Settles O54: exec_channelChange names every way in which a command touches a channel. A beat end leaves the channel at count 3 or below with quiet lines, and its next state is OFFLINE exactly at 3 (settleChannel_channelLaw); every other change keeps each channel's law. -/
theorem stepKeepsTheChannelLaw : Obligations.StepKeepsTheChannelLaw := by
  intro s t hs ht
  exact step_keeps (P := ChannelLaw) (fun _ _ h => h) (fun _ _ _ h he => channelChange_channelLaw (exec_channelChange he) h) hs ht

end Sys2Proof.Machine
end

section
/-! SET_PROFILE, and the answers of QUERY_PROFILE and QUERY_CHANNEL read at their places (R76, R78, R79, R110, R176). -/

namespace Sys2Proof.Machine

/-! ### SET_PROFILE (R78) -/

/-- IGNORE is coded 0 and EXTEND 1, and nothing else is a ready policy (R171). -/
theorem policyOf_eq (n : Nat) : policyOf n = if n ≤ 1 then some (if n = 1 then .extend else .ignore) else none := by
  match n with
  | 0 => rfl
  | 1 => rfl
  | k + 2 => rfl

theorem policyOf_none {n : Nat} : (policyOf n).isNone = true ↔ 1 < n := by
  rw [policyOf_eq]
  split <;> simp <;> omega

/-- The six checks of a SET_PROFILE payload in the spec's own words, each under its number (R78). -/
def ProfileFails (p : List Byte) (n : Nat) : Prop :=
  match n with
  | 1 => 7 < byteAt p 0
  | 2 => 7 < byteAt p 1
  | 3 => byteAt p 2 = 0 ∨ 31 < byteAt p 2
  | 4 => 1 < byteAt p 3
  | 5 => halfAt p 4 < 16 ∨ 4095 < halfAt p 4
  | 6 => 7 < byteAt p 6
  | _ => False

/-- The check the model makes of a SET_PROFILE payload (R78). -/
def profileRefusal (p : List Byte) : Option Nat :=
  profileCheck (byteAt p 0) (byteAt p 1) (byteAt p 2) (byteAt p 3) (halfAt p 4) (byteAt p 6)

theorem profileRefusal_stops (p : List Byte) : StopsAtFirst (ProfileFails p) (profileRefusal p) := by
  have below1 : ∀ m, m < 1 → ¬ ProfileFails p m := by
    intro m hm
    obtain rfl : m = 0 := by omega
    exact id
  unfold profileRefusal profileCheck
  split
  · exact ⟨‹_›, below1⟩
  have below2 := none_below_succ below1 ‹_›
  split
  · exact ⟨‹_›, below2⟩
  have below3 := none_below_succ below2 ‹_›
  split
  · exact ⟨‹_›, below3⟩
  have below4 := none_below_succ below3 ‹_›
  split
  · exact ⟨policyOf_none.1 ‹_›, below4⟩
  have below5 := none_below_succ below4 (mt policyOf_none.2 ‹_›)
  split
  · exact ⟨‹_›, below5⟩
  have below6 := none_below_succ below5 ‹_›
  split
  · exact ⟨‹_›, below6⟩
  have below7 := none_below_succ below6 ‹_›
  intro n
  by_cases small : n < 7
  · exact below7 n small
  · obtain ⟨k, rfl⟩ := Nat.exists_eq_add_of_le' (Nat.not_lt.1 small)
    exact id

/-- The profile a payload names in its first byte. -/
theorem profileOf_byte {p : List Byte} {i : Fin 8} (h : i.1 = byteAt p 0) : Fin.ofNat 8 (byteAt p 0) = i := by
  rw [← h]
  exact Fin.ofNat_val_eq_self i

section SetProfile

variable {s : State} {p : List Byte}

theorem exec_setProfile_refused {n : Nat} (given : Dispatched .setProfile p s) (bad : profileRefusal p = some n) :
    exec .setProfile s = .next (answeredWith s .badField [byteOf n] false) := by
  rw [profileRefusal] at bad
  simp only [exec, execSetProfile, own_of given, bad, badField_eq]

theorem exec_setProfile_replaces {i : Fin 8} (given : Dispatched .setProfile p s) (good : profileRefusal p = none)
    (index : i.1 = byteAt p 0) : exec .setProfile s = .next (answeredWith (s.putProfile i
      { setup := byteAt p 1, strobe := byteAt p 2, policy := (policyOf (byteAt p 3)).getD .extend, timeout := halfAt p 4,
        recovery := byteAt p 6 }) .done [] false) := by
  rw [profileRefusal] at good
  simp only [exec, execSetProfile, own_of given, good, profileOf_byte index, answer_eq]

end SetProfile

/-- Settles O35: the check stops at the first of the six conditions that holds, and with none of them the policy byte is a code. -/
theorem setProfileChecksThenReplaces : Obligations.SetProfileChecksThenReplaces := by
  intro s p given timeout fails
  obtain ⟨passes, stops⟩ := stopsAtFirst_iff (profileRefusal_stops p)
  refine ⟨fun n holds first => exec_setProfile_refused given ((stops n).2 ⟨holds, first⟩), fun none_ i index => ?_⟩
  have policy : policyOf (byteAt p 3) = some (if byteAt p 3 = 1 then .extend else .ignore) := by
    rw [policyOf_eq, if_pos (Nat.not_lt.1 (none_ 4))]
  rw [exec_setProfile_replaces given (passes.2 none_) index, policy]
  rfl

/-! ### QUERY_PROFILE (R79) -/

theorem profileBytes_eq (x : Profile) : x.bytes = [byteOf x.setup, byteOf x.strobe,
    (match x.policy with | .ignore => 0 | .extend => 1), byteOf x.timeout, byteOf (x.timeout / 256), byteOf x.recovery] := by
  unfold Profile.bytes
  cases x.policy <;> rfl

/-! ### QUERY_CHANNEL (R110, Table 9-12) -/

/-! Five bytes of the channel, five of the context on its bus, and the number of waiting contexts. -/

theorem queryChannelBytes_head (s : State) (c : Fin 4) : StandsAt (s.queryChannelBytes c) 0
    [byteOf (s.chanAt c).state.code, byteOf (s.chanAt c).divisor, byteOf (s.chanAt c).timeouts,
      byteOf (s.chanAt c).urgentPtr.1, byteOf (s.chanAt c).normalPtr.1] :=
  standsAt_append_left _ (List.prefix_append _ _)

theorem queryChannelBytes_onBus (s : State) (c : Fin 4) : StandsAt (s.queryChannelBytes c) 5 (s.onBusBytes c) :=
  standsAt_append_left _ (standsAt_append_right _ _)

theorem queryChannelBytes_waiting (s : State) (c : Fin 4) :
    StandsAt (s.queryChannelBytes c) 10 [byteOf (s.waiting c).length] := by
  have behind : StandsAt (s.queryChannelBytes c) _ [byteOf (s.waiting c).length] := standsAt_append_right _ _
  rwa [List.length_append, onBusBytes_length] at behind

theorem waiting_length_le (s : State) (c : Fin 4) : (s.waiting c).length ≤ 16 := List.length_filter_le _ ctxIds

theorem onBusBytes_none {s : State} {c : Fin 4} (free : (s.chanAt c).onBus = none) : s.onBusBytes c = [0] ++ absent 4 := by
  rw [State.onBusBytes, free]

theorem onBusBytes_of_onBus {s : State} {c : Fin 4} {id : CtxId} {r : Request} {b : Binding} {stamp : Nat} {m : Bool}
    (on : OnBus s c id r b stamp m) : s.onBusBytes c =
      [byteOf (1 + bitIf m 1), byteOf id.port.1, byteOf id.tag.1, byteOf b.completed, byteOf b.plan.length] := by
  obtain ⟨bus, context⟩ := on
  rw [State.onBusBytes, bus]
  dsimp only
  rw [context]
  rfl

/-- The options byte of a channel with a context on its bus: bit 0 set, bit 1 the abandon mark (Table 9-12). -/
theorem onBusOptions_bits (m : Bool) : (byteOf (1 + bitIf m 1)).getLsbD 0 = true ∧ (byteOf (1 + bitIf m 1)).getLsbD 1 = m := by
  cases m <;> decide

/-- The first bit of the options says whether the channel has an on-bus reference, whatever stands in the table. -/
theorem onBusBytes_options (s : State) (c : Fin 4) :
    ∃ options, (s.onBusBytes c)[0]? = some options ∧ options.getLsbD 0 = (s.chanAt c).onBus.isSome := by
  unfold State.onBusBytes
  split
  case h_1 free => exact ⟨0, rfl, by rw [free]; rfl⟩
  case h_2 id bus =>
    rw [bus]
    split
    case h_1 => exact ⟨1, rfl, rfl⟩
    case h_2 x _ => exact ⟨_, rfl, (onBusOptions_bits x.isMarked).1⟩

/-- Settles O43: each item is read where its part of the answer stands. -/
theorem queryChannelAndProfileReportTheItems : Obligations.QueryChannelAndProfileReportTheItems := by
  refine ⟨fun s p c given channel => ?_, fun s p i given profile => ?_⟩
  · have answered := exec_queryChannel given (by omega)
    rw [portOf_byte channel] at answered
    have head := queryChannelBytes_head s c
    have context := queryChannelBytes_onBus s c
    refine ⟨_, answered, ?state, head.rawAt (j := 1) rfl _ rfl, head.rawAt (j := 2) rfl _ rfl,
      (head.byteAt (j := 3) rfl _ rfl).trans (byteOf_toNat (by omega)),
      (head.byteAt (j := 4) rfl _ rfl).trans (byteOf_toNat (by omega)), ?valid, ?onBus, ?absent, ?waiting⟩
    case state =>
      refine (head.byteAt (j := 0) rfl _ rfl).trans ?_
      cases (s.chanAt c).state <;> rfl
    case valid =>
      obtain ⟨options, first, valid⟩ := onBusBytes_options s c
      rw [context.rawAt first _ rfl, valid]
    case onBus =>
      intro id r b stamp m on
      rw [onBusBytes_of_onBus on] at context
      refine ⟨?_, (context.byteAt (j := 1) rfl _ rfl).trans (byteOf_toNat (by omega)),
        (context.byteAt (j := 2) rfl _ rfl).trans (byteOf_toNat (by omega)), context.rawAt (j := 3) rfl _ rfl,
        context.rawAt (j := 4) rfl _ rfl⟩
      rw [context.rawAt (j := 0) rfl _ rfl]
      exact (onBusOptions_bits m).2
    case absent =>
      intro free
      rw [onBusBytes_none free] at context
      have others : StandsAt (s.queryChannelBytes c) 6 (absent 4) := context.trans (standsAt_append_right [0] _)
      refine ⟨?_, fun j hj => others.rawAt (absent_getElem? hj) _ rfl⟩
      rw [context.rawAt (j := 0) rfl _ rfl]
      rfl
    case waiting =>
      have few := waiting_length_le s c
      exact ((queryChannelBytes_waiting s c).byteAt (j := 0) rfl _ rfl).trans (byteOf_toNat (by omega))
  · have answered := exec_queryProfile given (by omega)
    rwa [profileOf_byte profile, profileBytes_eq] at answered

end Sys2Proof.Machine
end

section
/-! The strobe, and CRDY low at a sample before the last one (R82 to R86). -/

namespace Sys2Proof.Machine

/-- At the end of the setup periods the strobe is driven low (R82, R83). -/
theorem exec_strobeAssert {s : State} {c : Fin 4} {copy : BeatCopy} (st : (s.chanAt c).state = .beat copy .setup) :
    exec (.strobeAssert c) s = .next (s.putChan c { s.chanAt c with
      state := .beat copy .strobe, lines := { (s.chanAt c).lines with cstbn := false } }) := by
  simp only [exec, execStrobeAssert, st]

/-- Under EXTEND a low CRDY at sample 0 begins the extension (R84). -/
theorem exec_minimumStrobeEnd_low {s : State} {c : Fin 4} {copy : BeatCopy} (st : (s.chanAt c).state = .beat copy .strobe)
    (extends_ : copy.profile.policy = .extend) (cerr : Bool) (cd : Word) :
    exec (.minimumStrobeEnd c false cerr cd) s = .next (s.chanState c (.beat copy (.extension 0))) := by
  simp only [exec, execMinimumStrobeEnd, st, extends_, Bool.false_eq_true, if_false]

/-- A low CRDY at a sample before tau lengthens the extension by one period (R84, R85). -/
theorem exec_extensionPeriodEnd_low {s : State} {c : Fin 4} {copy : BeatCopy} {n : Nat}
    (st : (s.chanAt c).state = .beat copy (.extension n)) (early : n + 1 < copy.profile.timeout) (cerr : Bool) (cd : Word) :
    exec (.extensionPeriodEnd c false cerr cd) s = .next (s.chanState c (.beat copy (.extension (n + 1)))) := by
  simp only [exec, execExtensionPeriodEnd, st, Bool.false_eq_true, if_false, if_neg (Nat.not_le.2 early)]

/-- At a sample before tau there is no timeout (R85; LOG 3). -/
theorem exec_beatTimeout_early {s : State} {c : Fin 4} {copy : BeatCopy} {n : Nat}
    (st : (s.chanAt c).state = .beat copy (.extension n)) (early : n + 1 < copy.profile.timeout) :
    exec (.beatTimeout c) s = .next s := by
  simp only [exec, execBeatTimeout, st, if_neg (Nat.not_le.2 early)]

/-- Settles O16, sample by sample. -/
theorem strobeAssertAndLowReady : Obligations.StrobeAssertAndLowReady :=
  ⟨fun _ _ _ st => exec_strobeAssert st, fun _ _ _ cerr cd st policy => exec_minimumStrobeEnd_low st policy cerr cd,
    fun _ _ _ _ cerr cd st early => ⟨exec_extensionPeriodEnd_low st early cerr cd, exec_beatTimeout_early st early⟩⟩

end Sys2Proof.Machine
end

section
/-! SET_CHANNEL and RESTORE_CHANNEL: their checks, and what each replaces in its channel (R95, R109). -/

namespace Sys2Proof.Machine

section ChannelCommands

variable {s : State} {p : List Byte} {c : Fin 4}

theorem exec_setChannel_badChannel (given : Dispatched .setChannel p s) (bad : 3 < byteAt p 0) :
    exec .setChannel s = .next (answeredWith s .badField [1] false) := by
  simp only [exec, execSetChannel, own_of given, if_pos bad]
  rfl

theorem exec_setChannel_badDivisor (given : Dispatched .setChannel p s) (channel : c.1 = byteAt p 0)
    (bad : byteAt p 1 = 0 ∨ 16 < byteAt p 1) : exec .setChannel s = .next (answeredWith s .badField [2] false) := by
  simp only [exec, execSetChannel, own_of given, if_neg (show ¬ 3 < byteAt p 0 by omega), if_pos bad]
  rfl

/-- The divisor is replaced whatever the channel is doing; a beat in progress keeps its copy (R95). -/
theorem exec_setChannel_replaces (given : Dispatched .setChannel p s) (channel : c.1 = byteAt p 0)
    (good : ¬ (byteAt p 1 = 0 ∨ 16 < byteAt p 1)) : exec .setChannel s =
      .next (answeredWith (s.putChan c { s.chanAt c with divisor := byteAt p 1 }) .done [] false) := by
  simp only [exec, execSetChannel, own_of given, if_neg (show ¬ 3 < byteAt p 0 by omega), if_neg good, portOf_byte channel,
    answer_eq]

theorem exec_restoreChannel_badChannel (given : Dispatched .restoreChannel p s) (bad : 3 < byteAt p 0) :
    exec .restoreChannel s = .next (answeredWith s .badField [1] false) := by
  simp only [exec, execRestoreChannel, own_of given, if_pos bad]
  rfl

/-- A channel that is not OFFLINE has nothing to be restored from (R109). -/
theorem exec_restoreChannel_online (given : Dispatched .restoreChannel p s) (channel : c.1 = byteAt p 0)
    (online : (s.chanAt c).state ≠ .offline) : exec .restoreChannel s = .next (answeredWith s .badState [] false) := by
  simp only [exec, execRestoreChannel, own_of given, if_neg (show ¬ 3 < byteAt p 0 by omega), portOf_byte channel,
    answer_eq]

theorem exec_restoreChannel_offline (given : Dispatched .restoreChannel p s) (channel : c.1 = byteAt p 0)
    (off : (s.chanAt c).state = .offline) : exec .restoreChannel s =
      .next (answeredWith (s.putChan c { s.chanAt c with state := .idle, timeouts := 0 }) .done [] false) := by
  simp only [exec, execRestoreChannel, own_of given, if_neg (show ¬ 3 < byteAt p 0 by omega), portOf_byte channel, off,
    answer_eq]

end ChannelCommands

/-- Settles O36, check by check; the flag of a restored channel follows its state. -/
theorem setChannelAndRestoreChannel : Obligations.SetChannelAndRestoreChannel := by
  refine ⟨fun s p given => ⟨exec_setChannel_badChannel given, fun c channel => ⟨exec_setChannel_badDivisor given channel,
      fun low high => exec_setChannel_replaces given channel (by omega)⟩⟩,
    fun s p given => ⟨exec_restoreChannel_badChannel given, fun c channel => ⟨exec_restoreChannel_online given channel,
      fun off => ⟨exec_restoreChannel_offline given channel off, ?_⟩⟩⟩⟩
  have idle : ((answeredWith (s.putChan c { s.chanAt c with state := .idle, timeouts := 0 }) .done [] false).chanAt c).state =
      .idle := congrArg Channel.state (State.chanAt_putChan_same ..)
  rw [flag_offline, idle]
  rfl

end Sys2Proof.Machine
end

section
/-! The sweep of an OFFLINE channel: bind order, what the drain checks on the way leave of the channel, and the sweep context by context (R107, R108). -/

namespace Sys2Proof.Machine

/-! ### Bind order (R107) -/

/-- One context's stamp on a channel is not above another's. -/
abbrev State.StampLe (s : State) (c : Fin 4) (j k : CtxId) : Prop := s.waitStamp c j ≤ s.waitStamp c k

theorem insertByStamp_eq (s : State) (c : Fin 4) (id : CtxId) (l : List CtxId) :
    s.insertByStamp c id l = l.orderedInsert (s.StampLe c) id := by
  induction l with
  | nil => rfl
  | cons x xs ih => rw [State.insertByStamp, List.orderedInsert_cons, ih]

theorem inBindOrder_eq (s : State) (c : Fin 4) : s.inBindOrder c = (s.waiting c).insertionSort (s.StampLe c) := by
  rw [State.inBindOrder, funext₂ (insertByStamp_eq s c)]
  rfl

/-- The waiting set sorted by stamp is the waiting set in bind order (R107). -/
theorem inBindOrder_inBindOrder (s : State) (c : Fin 4) : WaitingInBindOrder s c (s.inBindOrder c) := by
  have perm : (s.inBindOrder c).Perm (s.waiting c) := inBindOrder_eq s c ▸ List.perm_insertionSort ..
  have total : Std.Total (s.StampLe c) := ⟨fun _ _ => Nat.le_total ..⟩
  have trans : IsTrans CtxId (s.StampLe c) := ⟨fun _ _ _ => Nat.le_trans⟩
  have sorted : (s.inBindOrder c).Pairwise (s.StampLe c) := inBindOrder_eq s c ▸ List.pairwise_insertionSort ..
  refine ⟨perm.nodup_iff.2 (nodup_waiting s c), fun k => perm.mem_iff.trans mem_waiting, sorted.imp ?_⟩
  intro j k le q b n m q' b' n' m' first second
  rwa [State.StampLe, waitStamp_of first, waitStamp_of second] at le

/-! ### What the drain check leaves an OFFLINE channel (R96, R131) -/

/-- From s to t the channel is as it was, and so is every context that waits on it. -/
structure State.WaitingKept (s t : State) (c : Fin 4) : Prop where
  chan : t.chanAt c = s.chanAt c
  waits : ∀ k q b n m, WaitsOn s c k q b n m → WaitsOn t c k q b n m

theorem State.WaitingKept.refl (s : State) (c : Fin 4) : s.WaitingKept s c := ⟨rfl, fun _ _ _ _ _ => id⟩

theorem State.WaitingKept.trans {s t u : State} {c : Fin 4} (h : s.WaitingKept t c) (k : t.WaitingKept u c) : s.WaitingKept u c :=
  ⟨k.chan.trans h.chan, fun j q b n m => k.waits j q b n m ∘ h.waits j q b n m⟩

theorem waitingKept_of {s t : State} (c : Fin 4) (chans : t.chans = s.chans) (ctxs : t.ctxs = s.ctxs) : s.WaitingKept t c := by
  refine ⟨chanAt_of_chans chans c, fun k q b n m waits => ?_⟩
  rwa [WaitsOn, State.ctxAt, ctxs]

/-- A context that does not wait on the channel may change. -/
theorem putCtx_waitingKept {s : State} {c : Fin 4} {id : CtxId} (idle : ∀ q b n m, ¬ WaitsOn s c id q b n m)
    (x : Option Context) : s.WaitingKept (s.putCtx id x) c := by
  refine ⟨rfl, fun k q b n m waits => ?_⟩
  have ne : k ≠ id := by
    rintro rfl
    exact idle q b n m waits
  rwa [WaitsOn, State.ctxAt_putCtx_ne _ _ _ _ ne]

/-- A grant touches one channel and the contexts that wait on it; an OFFLINE channel grants nothing (R96, R98). -/
theorem arbitrate_waitingKept {s : State} {c : Fin 4} (off : (s.chanAt c).state = .offline) (d : Fin 4) :
    s.WaitingKept (s.arbitrate d) c := by
  unfold State.arbitrate
  split
  case h_1 idle =>
    have other : c ≠ d := by
      rintro rfl
      rw [off] at idle
      cases idle
    split
    case h_1 ch chosen =>
      obtain ⟨r, b, n, m, here⟩ := mem_waiting.1 (choose_waits chosen)
      have granted := grant_granted (m := ch.moved) here
      refine ⟨granted.otherChannels c other, fun k q w i j waits => ?_⟩
      have elsewhere : ∀ q' w' i' j', ¬ WaitsOn s d k q' w' i' j' := by
        rintro q' w' i' j' ⟨same, on⟩
        rw [waits.1] at same
        cases same
        exact other (waits.2.symm.trans on)
      have ne : k ≠ ch.id := by
        rintro rfl
        exact elsewhere _ _ _ _ here
      rw [WaitsOn, granted.otherContexts k ne elsewhere]
      exact waits
    case h_2 => exact .refl s c
  all_goals exact .refl s c

theorem settle_waitingKept {s : State} {c : Fin 4} {id : CtxId} (off : (s.chanAt c).state = .offline)
    (idle : ∀ q b n m, ¬ WaitsOn s c id q b n m) (r : Request) (v : Verdict) : s.WaitingKept (s.settle id r v) c := by
  have fault : ∀ (st : Status) (d : DoneRecord) (f : FaultRecord), s.WaitingKept (s.endWithFault id r st d f) c :=
    fun st d f => (putCtx_waitingKept idle _).trans (waitingKept_of c (endWithFault_chans ..) (endWithFault_set ..).2.2)
  cases v with
  | held => exact (putCtx_waitingKept idle _).trans (waitingKept_of c rfl rfl)
  | bound b =>
    have entered : s.WaitingKept ((s.putCtx id (some ⟨r, .bound b (s.nextStamp b.channel) 0⟩)).raiseCount b.window.slot) c :=
      (putCtx_waitingKept idle _).trans (waitingKept_of c rfl rfl)
    exact entered.trans (arbitrate_waitingKept (by rw [entered.chan]; exact off) b.channel)
  | noWindow | span | denied | channelOffline => exact fault ..

theorem reResolve_waitingKept {s : State} {c : Fin 4} (off : (s.chanAt c).state = .offline) (l : List CtxId) :
    s.WaitingKept (s.reResolve l) c := by
  induction l generalizing s with
  | nil => exact .refl s c
  | cons id rest ih =>
    have taken : s.WaitingKept (s.putChangeSet { s.changeSet with holdList := rest }) c := waitingKept_of c rfl rfl
    unfold State.reResolve
    dsimp only
    split
    case h_1 r held =>
      have idle : ∀ q b n m, ¬ WaitsOn (s.putChangeSet { s.changeSet with holdList := rest }) c id q b n m := by
        rintro q b n m ⟨bound, -⟩
        rw [held] at bound
        cases bound
      have settled := settle_waitingKept (s := s.putChangeSet { s.changeSet with holdList := rest }) off idle r
        ((s.putChangeSet { s.changeSet with holdList := rest }).resolve id.port r)
      exact (taken.trans settled).trans (ih (settled.chan ▸ off))
    all_goals exact taken.trans (ih off)

/-- An apply leaves an OFFLINE channel and its waiting set as they are (R127, R131). -/
theorem drainCheck_waitingKept {s : State} {c : Fin 4} (off : (s.chanAt c).state = .offline) : s.WaitingKept s.drainCheck c := by
  rcases drainCheck_cases s with same | applied
  · rw [same]
    exact .refl s c
  · have entered : s.WaitingKept s.beforeReResolve c :=
      waitingKept_of c (applyEntries_same s s.changeSet.entries).2.2.1 (beforeReResolve_ctxs s)
    rw [applied, applyNow_eq]
    exact entered.trans (reResolve_waitingKept (by rw [entered.chan]; exact off) _)

/-! ### One context swept (R107) -/

section SweptOne

variable {s : State} {k : CtxId} {q : Request} {b : Binding} {n m : Nat}

/-- A waiting context is swept, and then the drain check is made. -/
theorem sweepOne_eq (waits : s.ctxAt k = some ⟨q, .bound b n m⟩) : s.sweepOne k = (sweptOne s k q b).drainCheck := by
  simp only [State.sweepOne, waits, State.endWithFault, recordFault_eq]
  rfl

theorem sweptOne_ctxAt (s : State) (k : CtxId) (q : Request) (b : Binding) (j : CtxId) : (sweptOne s k q b).ctxAt j =
    if j = k then some ⟨q, .done .channelOffline (.bound b)⟩ else s.ctxAt j := State.ctxAt_putCtx ..

theorem sweptOne_slotAt (waits : s.ctxAt k = some ⟨q, .bound b n m⟩) (i : Fin 64) :
    (sweptOne s k q b).slotAt i = fewerInFlight (s.slotAt i) (boundCount (s.ctxAt k) i) := by
  rw [waits]
  exact lowerCount_slotAt s b.window.slot i

theorem sweptOne_portAt (s : State) (k : CtxId) (q : Request) (b : Binding) (p : Fin 4) : (sweptOne s k q b).portAt p =
    if p = k.port then queueJoined (s.portAt k.port) k.tag else s.portAt p := State.portAt_putPort ..

theorem sweptOne_faultAt (s : State) (k : CtxId) (q : Request) (b : Binding) (p : Fin 4) : (sweptOne s k q b).faultAt p =
    if p = k.port then recordAfter (s.faultAt k.port) (sweptFault k q b) else s.faultAt p := State.faultAt_putFault ..

theorem sweptOne_ctxAt_fresh {rest : List CtxId} (fresh : k ∉ rest) (q : Request) (b : Binding) :
    ∀ j ∈ rest, (sweptOne s k q b).ctxAt j = s.ctxAt j := by
  intro j hj
  rw [sweptOne_ctxAt, if_neg fun same : j = k => fresh (same ▸ hj)]

/-- What the rest of a sweep adds to a port's queue comes after what its first context added (R51). -/
theorem sweptOne_queue (s : State) (k : CtxId) (q : Request) (b : Binding) (rest : List CtxId) (p : Fin 4) :
    ({ (sweptOne s k q b).portAt p with
        queue := ((sweptOne s k q b).portAt p).queue ++ (rest.filter fun j => j.port == p).map CtxId.tag } : PortUnit) =
      { s.portAt p with queue := (s.portAt p).queue ++ ((k :: rest).filter fun j => j.port == p).map CtxId.tag } := by
  rw [sweptOne_portAt]
  by_cases same : p = k.port
  · subst same
    simp [queueJoined]
  · simp [same, Ne.symm same]

/-- A port's record after the fault of one more swept context. -/
def State.recordSwept (s : State) (rec : Option FaultRecord) (k : CtxId) : Option FaultRecord :=
  match s.ctxAt k with
  | some ⟨q, .bound b _ _⟩ => recordAfter rec (sweptFault k q b)
  | _ => rec

/-- So do the faults of the rest of a sweep meet the record that its first context left (R143). -/
theorem sweptOne_record {rest : List CtxId} (waits : s.ctxAt k = some ⟨q, .bound b n m⟩) (fresh : k ∉ rest) (p : Fin 4) :
    (rest.filter fun j => j.port == p).foldl (sweptOne s k q b).recordSwept ((sweptOne s k q b).faultAt p) =
      ((k :: rest).filter fun j => j.port == p).foldl s.recordSwept (s.faultAt p) := by
  have first : s.recordSwept (s.faultAt k.port) k = recordAfter (s.faultAt k.port) (sweptFault k q b) := by
    simp only [State.recordSwept, waits]
  have later : ∀ rec, (rest.filter fun j => j.port == p).foldl (sweptOne s k q b).recordSwept rec =
      (rest.filter fun j => j.port == p).foldl s.recordSwept rec := by
    refine fun rec => List.foldl_ext _ _ _ fun rec j hj => ?_
    simp only [State.recordSwept, sweptOne_ctxAt_fresh fresh q b j (List.mem_filter.1 hj).1]
  rw [later, sweptOne_faultAt]
  by_cases same : p = k.port
  · subst same
    simp [first]
  · simp [same, Ne.symm same]

end SweptOne

/-! ### The sweep (R107) -/

/-- The sweep of contexts that wait on an OFFLINE channel reaches each of them while it still waits, whatever the drain checks before it have applied. -/
theorem foldl_sweepOne_sweeps {s : State} {c : Fin 4} {l : List CtxId} (nd : l.Nodup) (off : (s.chanAt c).state = .offline)
    (waiting : ∀ k ∈ l, ∃ q b n m, WaitsOn s c k q b n m) : Sweeps s l (l.foldl State.sweepOne s) := by
  induction l generalizing s with
  | nil => exact .done s
  | cons k rest ih =>
    obtain ⟨q, b, n, m, waits, -⟩ := waiting k List.mem_cons_self
    obtain ⟨fresh, nd⟩ := List.nodup_cons.1 nd
    have kept := drainCheck_waitingKept (s := sweptOne s k q b) (c := c) off
    rw [List.foldl_cons, sweepOne_eq waits]
    refine .next s _ _ k rest q b n m waits rfl (ih nd (by rw [kept.chan]; exact off) fun j hj => ?_)
    obtain ⟨q', b', n', m', still, chan⟩ := waiting j (List.mem_cons_of_mem k hj)
    refine ⟨q', b', n', m', kept.waits j q' b' n' m' ⟨?_, chan⟩⟩
    rw [sweptOne_ctxAt_fresh fresh q b j hj, still]

/-- With no set COMMITTING no drain check changes anything, and each context is written once (R107, R108). -/
theorem sweeps_swept {u t : State} {c : Fin 4} {l : List CtxId} (h : Sweeps u l t) (nd : l.Nodup)
    (quiet : u.changeSet.state ≠ .committing) (all : ∀ k q b n m, WaitsOn u c k q b n m → k ∈ l) : SweptInBindOrder u t c l := by
  induction h with
  | done s =>
    exact ⟨fun k q b n m waits => absurd (all k q b n m waits) List.not_mem_nil, fun _ _ => rfl, fun _ => rfl,
      fun p => by simp, fun _ => rfl, rfl, rfl, rfl, rfl, rfl, rfl, rfl⟩
  | next s v t k rest q b n m waits check more ih =>
    obtain ⟨fresh, nd⟩ := List.nodup_cons.1 nd
    have quietly : v = sweptOne s k q b := by
      cases check
      exact drainCheck_off (s := sweptOne s k q b) quiet
    subst quietly
    have ctxAt_else : ∀ j, j ≠ k → (sweptOne s k q b).ctxAt j = s.ctxAt j := fun j ne => by rw [sweptOne_ctxAt, if_neg ne]
    have swept := ih nd quiet fun j q' b' n' m' ⟨bound, chan⟩ => by
      rw [sweptOne_ctxAt] at bound
      split at bound
      · cases bound
      · exact (List.mem_cons.1 (all j q' b' n' m' ⟨bound, chan⟩)).resolve_left ‹_›
    refine ⟨fun j q' b' n' m' waits' => ?_, fun j hj => ?_, fun i => ?_, fun p => ?_, fun p => ?_, swept.chans, swept.changeSet,
      swept.profiles, swept.attention, swept.link, swept.startUp, swept.pending⟩
    · by_cases same : j = k
      · subst same
        rw [swept.otherContexts j fresh, sweptOne_ctxAt, if_pos rfl]
        obtain ⟨bound, -⟩ := waits'
        rw [waits] at bound
        cases bound
        rfl
      · refine swept.swept j q' b' n' m' ⟨?_, waits'.2⟩
        rw [ctxAt_else j same, waits'.1]
    · obtain ⟨ne, later⟩ := not_or.1 (mt List.mem_cons.2 hj)
      rw [swept.otherContexts j later, ctxAt_else j ne]
    · rw [swept.slots, sweptOne_slotAt waits, boundUnderSlot_congr (sweptOne_ctxAt_fresh fresh q b), boundUnderSlot_cons, fewer_fewer]
    · rw [swept.ports, sweptOne_queue]
    · exact (swept.faults p).trans (sweptOne_record waits fresh p)

theorem sweep_offline {s : State} {c : Fin 4} (off : (s.chanAt c).state = .offline) :
    s.sweep c = (s.inBindOrder c).foldl State.sweepOne s := by
  simp only [State.sweep, off]

theorem sweep_sweeps {s : State} {c : Fin 4} (off : (s.chanAt c).state = .offline) : Sweeps s (s.inBindOrder c) (s.sweep c) := by
  obtain ⟨nd, waiting, -⟩ := inBindOrder_inBindOrder s c
  rw [sweep_offline off]
  exact foldl_sweepOne_sweeps nd off fun k => (waiting k).1

theorem sweep_swept {s : State} {c : Fin 4} (off : (s.chanAt c).state = .offline) (quiet : s.changeSet.state ≠ .committing) :
    SweptInBindOrder s (s.sweep c) c (s.inBindOrder c) := by
  obtain ⟨nd, waiting, -⟩ := inBindOrder_inBindOrder s c
  exact sweeps_swept (sweep_sweeps off) nd quiet fun k q b n m waits => (waiting k).2 ⟨q, b, n, m, waits⟩

/-- The sweep leaves nothing waiting (R107). -/
theorem swept_noneWaits {u t : State} {c : Fin 4} {order : List CtxId} (h : SweptInBindOrder u t c order)
    (waiting : WaitingInBindOrder u c order) : NoneWaits t c := by
  rintro k q b n m ⟨bound, chan⟩
  by_cases hk : k ∈ order
  · obtain ⟨q', b', n', m', waits⟩ := (waiting.2.1 k).1 hk
    rw [h.swept k q' b' n' m' waits] at bound
    cases bound
  · rw [h.otherContexts k hk] at bound
    exact hk ((waiting.2.1 k).2 ⟨q, b, n, m, bound, chan⟩)

end Sys2Proof.Machine
end

section
/-! The third consecutive timeout: the channel goes OFFLINE with the count at 3, and its waiting set is swept (R103 to R107). -/

namespace Sys2Proof.Machine

section ThirdTimeout

variable {s : State} {c : Fin 4} {copy : BeatCopy} {e : Instr} {cd : Word} {id : CtxId} {r : Request} {b : Binding} {stamp : Nat}

/-- The lines fall quiet, and after the third timeout in a row the count is 3 (R88, R106). -/
theorem endBeatLines_third (count : (s.chanAt c).timeouts = 2) : s.endBeatLines c .timeout =
    s.putChan c (endedBeat (s.chanAt c) .timeout (s.chanAt c).state (s.chanAt c).onBus) := by
  rw [State.endBeatLines, endedBeat, count]
  rfl

theorem settleChannel_third (third : (s.chanAt c).timeouts = Config.timeoutLimit) :
    s.settleChannel c copy = s.chanState c .offline := if_pos third

/-- The access has ended and the channel is OFFLINE, with no recovery (R103, R105, R107). -/
theorem accessEnded_third (count : (s.chanAt c).timeouts = 2) :
    ((((s.endBeatLines c .timeout).lowerCount b.window.slot).clearOnBus c).endWithFault id r .targetTimeout (.bound b)
      (faultOf .targetTimeout id r (some b.window) (targetPartOf b))).settleChannel c copy =
    accessEndedFailed s c id r b .timeout (endedBeat (s.chanAt c) .timeout .offline none) := by
  have ended : (((s.endBeatLines c .timeout).lowerCount b.window.slot).clearOnBus c).endWithFault id r .targetTimeout (.bound b)
      (faultOf .targetTimeout id r (some b.window) (targetPartOf b)) =
      accessEndedFailed s c id r b .timeout (endedBeat (s.chanAt c) .timeout (s.chanAt c).state none) := by
    have chan : ((s.endBeatLines c .timeout).lowerCount b.window.slot).chanAt c =
        endedBeat (s.chanAt c) .timeout (s.chanAt c).state (s.chanAt c).onBus := by
      rw [endBeatLines_third count]
      exact State.chanAt_putChan_same ..
    rw [State.endWithFault, recordFault_eq, State.clearOnBus, chan]
    exact State.ext_fields rfl rfl rfl rfl (put_put ..) rfl rfl rfl rfl rfl rfl
  have third : (endedBeat (s.chanAt c) .timeout (s.chanAt c).state none).timeouts = Config.timeoutLimit := congrArg (· + 1) count
  rw [ended, settleChannel_third (by rw [accessEndedFailed_chanAt]; exact third), accessEndedFailed_chanState]
  rfl

theorem exec_thirdTimeout (ends : EndsBeat s c copy e .timeout cd) (on : OnBus s c id r b stamp false)
    (count : (s.chanAt c).timeouts = 2) : exec e s = .next
      ((accessEndedFailed s c id r b .timeout (endedBeat (s.chanAt c) .timeout .offline none)).drainCheck.sweep c) := by
  obtain ⟨bus, ctx⟩ := on
  rw [exec_endsBeat ends, ← accessEnded_third (copy := copy) count]
  unfold State.beatEnd
  simp only [bus, ctx]
  rw [if_neg Bool.false_ne_true]
  rfl

/-- A marked context is freed instead, and the channel is OFFLINE all the same (R104, R107). -/
theorem freed_third (count : (s.chanAt c).timeouts = 2) :
    ((s.endBeatLines c .timeout).freeAbandoned c id b).settleChannel c copy =
      abandonedFreed s c id b (endedBeat (s.chanAt c) .timeout .offline none) := by
  have freed : (s.endBeatLines c .timeout).freeAbandoned c id b =
      abandonedFreed s c id b (endedBeat (s.chanAt c) .timeout (s.chanAt c).state none) := by
    rw [freeAbandoned_eq, endBeatLines_third count, State.chanAt_putChan_same]
    exact putChan_putChan ((s.putCtx id none).putSlot b.window.slot (oneFewer (s.slotAt b.window.slot))) ..
  have third : (endedBeat (s.chanAt c) .timeout (s.chanAt c).state none).timeouts = Config.timeoutLimit := congrArg (· + 1) count
  rw [freed, settleChannel_third (by rw [abandonedFreed_chanAt]; exact third), abandonedFreed_chanState]
  rfl

theorem exec_thirdTimeout_marked (ends : EndsBeat s c copy e .timeout cd) (on : OnBus s c id r b stamp true)
    (count : (s.chanAt c).timeouts = 2) : exec e s = .next
      (((abandonedFreed s c id b (endedBeat (s.chanAt c) .timeout .offline none)).drainCheck.sweep c).portCheck id.port).endWait := by
  rw [exec_endsBeat ends, beatEnd_marked on, freed_third count]

end ThirdTimeout

/-- The wait of RESET_ALL is checked as its row does, at the levels where the strap lines stand (R187). -/
theorem exec_reinitialisation_levels {s : State} {levels : Straps} (h : s.startUp.levels = levels) :
    exec (.reinitialisation levels) s = .next s.endWait := by
  subst h
  rfl

/-- Settles O21: u is OFFLINE, the drain check leaves it so with its waiting set (drainCheck_waitingKept), and the rest is the sweep. -/
theorem thirdTimeoutTakesTheChannelOffline : Obligations.ThirdTimeoutTakesTheChannelOffline := by
  constructor
  · intro s c copy e cd id r b stamp ends on count u
    have off : (u.chanAt c).state = .offline := congrArg Channel.state (accessEndedFailed_chanAt ..)
    have drained : (u.drainCheck.chanAt c).state = .offline := (drainCheck_waitingKept off).chan ▸ off
    have ended : exec e s = .next (u.drainCheck.sweep c) := exec_thirdTimeout ends on count
    refine ⟨⟨u.drainCheck, _, _, rfl, inBindOrder_inBindOrder .., sweep_sweeps drained, ended⟩, fun quiet => ?_⟩
    have order := inBindOrder_inBindOrder u c
    have swept : SweptInBindOrder u (u.sweep c) c (u.inBindOrder c) := sweep_swept off quiet
    refine ⟨_, u.sweep c, ?_, order, swept, swept_noneWaits swept order, ?_⟩
    · rw [ended, drainCheck_off (s := u) quiet]
    · rw [flag_offline, chanAt_of_chans swept.chans, off]
      rfl
  · intro s c copy e cd id r b stamp ends on count u
    have off : (u.chanAt c).state = .offline := congrArg Channel.state (abandonedFreed_chanAt ..)
    have drained : (u.drainCheck.chanAt c).state = .offline := (drainCheck_waitingKept off).chan ▸ off
    have ended : exec e s = .next ((u.drainCheck.sweep c).portCheck id.port).endWait := exec_thirdTimeout_marked ends on count
    have startUp : ((u.drainCheck.sweep c).portCheck id.port).startUp = s.startUp :=
      (portCheck_startUp ..).trans ((drainCheck_still u).trans (sweep_still ..)).startUp
    refine ⟨⟨u.drainCheck, _, u.drainCheck.sweep c, _, _, rfl, inBindOrder_inBindOrder .., sweep_sweeps drained, rfl,
      exec_reinitialisation_levels (congrArg StartUp.levels startUp), ended⟩, fun quiet awake => ?_⟩
    refine ⟨_, u.sweep c, inBindOrder_inBindOrder u c, sweep_swept off quiet, ?_⟩
    rw [ended, endWait_off (by rw [startUp]; exact awake), drainCheck_off (s := u) quiet]
    rfl

end Sys2Proof.Machine
end

section
/-! What a command can do to the change set, said once, and the law of the set through every command (R114, R116). -/

namespace Sys2Proof.Machine

/-! ### Events that leave the set alone or apply it -/

/-- From s to t the set is as it was, or it has been emptied and CLOSED. -/
def State.SetStays (s t : State) : Prop := t.changeSet = s.changeSet ∨ t.changeSet = emptySet

theorem State.SetStays.trans {s t u : State} (h : s.SetStays t) (k : t.SetStays u) : s.SetStays u :=
  k.elim (fun same => h.imp same.trans same.trans) .inr

theorem State.SetStays.after {s t u : State} (k : t.SetStays u) (h : t.changeSet = s.changeSet) : s.SetStays u :=
  .trans (.inl h) k

theorem drainCheck_setStays (s : State) : s.SetStays s.drainCheck := by
  rcases drainCheck_cases s with same | applied
  · exact .inl (congrArg State.changeSet same)
  · obtain ⟨set, _⟩ := applyNow_spec s
    exact .inr ((congrArg State.changeSet applied).trans set)

theorem afterRecovery_setStays (s : State) (c : Fin 4) : s.SetStays (s.afterRecovery c) := by
  unfold State.afterRecovery
  split
  · obtain ⟨_, _, _, set⟩ := startBeat_same s c
    exact .inl set
  · exact .inl (arbitrate_set (s.chanState c .idle) c).1

theorem settleChannel_setStays (s : State) (c : Fin 4) (copy : BeatCopy) : s.SetStays (s.settleChannel c copy) := by
  unfold State.settleChannel
  split
  · exact .inl rfl
  · split
    · exact afterRecovery_setStays s c
    · exact .inl rfl

theorem sweepOne_setStays (s : State) (id : CtxId) : s.SetStays (s.sweepOne id) := by
  unfold State.sweepOne
  split
  case h_1 => exact (drainCheck_setStays _).after (endWithFault_set ..).1
  all_goals exact .inl rfl

theorem sweep_setStays (s : State) (c : Fin 4) : s.SetStays (s.sweep c) := by
  unfold State.sweep
  split
  case h_1 => exact foldl_inv (P := s.SetStays) (fun u id h => h.trans (sweepOne_setStays u id)) _ s (.inl rfl)
  all_goals exact .inl rfl

theorem planEnds_setStays (s : State) (c : Fin 4) (copy : BeatCopy) (id : CtxId) (r : Request) (b : Binding) (o : BeatOutcome) :
    s.SetStays (s.planEnds c copy id r b o) := by
  have follows : ∀ u : State, u.changeSet = s.changeSet → s.SetStays (((u.settleChannel c copy).drainCheck).sweep c) :=
    fun u h => (((settleChannel_setStays u c copy).after h).trans (drainCheck_setStays _)).trans (sweep_setStays _ c)
  cases o with
  | normal => exact follows _ rfl
  | error => exact follows _ (endWithFault_set ..).1
  | timeout => exact follows _ (endWithFault_set ..).1

/-- A port check changes no set, and a reinitialisation at the end of the wait empties it (R56, R187). -/
theorem portCheck_endWait_setStays (s : State) (p : Fin 4) : s.SetStays (s.portCheck p).endWait :=
  endWait_keeps (.inl (portCheck_sameTables s p).set) (.inr (reinitialise_set ..))

theorem beatEnd_setStays (s : State) (c : Fin 4) (copy : BeatCopy) (o : BeatOutcome) (cd : Word) :
    s.SetStays (s.beatEnd c copy o cd) := by
  unfold State.beatEnd
  split
  · exact .inl rfl
  split
  case h_1 id _ _ r b stamp marked _ =>
    dsimp only
    split
    · have freed := (settleChannel_setStays ((s.endBeatLines c o).freeAbandoned c id b) c copy).after (s := s) rfl
      exact ((freed.trans (drainCheck_setStays _)).trans (sweep_setStays _ c)).trans (portCheck_endWait_setStays _ id.port)
    · split
      · split
        · exact (settleChannel_setStays _ c copy).after rfl
        · exact (planEnds_setStays (s.endBeatLines c .normal) ..).after rfl
      · exact (planEnds_setStays (s.endBeatLines c .error) ..).after rfl
      · exact (planEnds_setStays (s.endBeatLines c .timeout) ..).after rfl
  all_goals exact .inl rfl

theorem recoveryEnds_setStays (s : State) (c : Fin 4) : s.SetStays (s.recoveryEnds c) := by
  have goesOn := afterRecovery_setStays s c
  unfold State.recoveryEnds
  split
  · exact goesOn
  split
  case h_1 id _ _ _ b _ _ =>
    have freed := (afterRecovery_setStays (s.freeAbandoned c id b) c).after (s := s) rfl
    exact (freed.trans (drainCheck_setStays _)).trans (portCheck_endWait_setStays _ id.port)
  all_goals exact goesOn

/-- Freeing a port's BOUND contexts leaves the set alone or applies it (R54, R136). -/
theorem boundLeaves_setStays {s t : State} {l : List CtxId} (h : BoundLeaves s l t) : s.SetStays t := by
  induction h with
  | done s => exact .inl rfl
  | freed s t u k rest q b n m bound check more ih =>
    cases check
    have checked := drainCheck_setStays ((s.putCtx k none).putSlot b.window.slot (oneFewer (s.slotAt b.window.slot)))
    exact (checked.after rfl).trans ih
  | other s u k rest no more ih => exact ih

/-! ### What a command can do to the set -/

/-- Everything a command can make of a change set. -/
inductive ChangeSet.Becomes (x : ChangeSet) : ChangeSet → Prop where
  | same : x.Becomes x
  | emptied : x.Becomes emptySet
  | held (id : CtxId) (committing : x.state = .committing) : x.Becomes { x with holdList := x.holdList ++ [id] }
  | released (kept : CtxId → Bool) : x.Becomes { x with holdList := x.holdList.filter kept }
  | staged (e : Entry) (idle : x.state ≠ .committing) (new : ∀ f ∈ x.entries, f.slot ≠ e.slot)
      (room : x.entries.length < Config.setCapacity) : x.Becomes { x with state := .opened, entries := x.entries ++ [e] }
  | accepted (entries : x.entries ≠ []) (footprint : List Range) : x.Becomes (committingSet x.entries footprint)
  | discarded (opened : x.state = .opened) : x.Becomes (closedSet x.holdList)

theorem ChangeSet.Becomes.of_eq {x y : ChangeSet} (h : y = x) : x.Becomes y := h ▸ .same

theorem ChangeSet.Becomes.of_empty {x y : ChangeSet} (h : y = emptySet) : x.Becomes y := h ▸ .emptied

/-- From s to t the change set becomes what a command can make of it. -/
def State.SetChange (s t : State) : Prop := s.changeSet.Becomes t.changeSet

theorem State.SetChange.of_eq {s t : State} (h : t.changeSet = s.changeSet) : s.SetChange t := ChangeSet.Becomes.of_eq h

theorem State.SetChange.of_empty {s t : State} (h : t.changeSet = emptySet) : s.SetChange t := ChangeSet.Becomes.of_empty h

theorem State.SetChange.same {s t : State} (h : s.SameTables t) : s.SetChange t := .of_eq h.set

theorem State.SetStays.setChange {s t : State} (h : s.SetStays t) : s.SetChange t := h.elim .of_eq .of_empty

/-- A command of an owner changes the set as its owner does, or not at all (R169). -/
theorem own_setChange {s : State} (code : CommandCode) {f : List Byte → State} (h : ∀ p, s.SetChange (f p)) :
    s.SetChange (s.own code f) :=
  own_keeps code (.of_eq rfl) fun p _ => h p

/-- A resolution writes the set only where it holds its access, and it holds one only while COMMITTING (R28). -/
theorem resolveInto_setChange (s : State) (id : CtxId) (r : Request) : s.SetChange (s.resolveInto id r) := by
  unfold State.resolveInto
  by_cases held : s.resolve id.port r = .held
  · have hit := (resolve_held_iff s id.port r).1 held
    simp only [State.footprintHit, Bool.and_eq_true, beq_iff_eq] at hit
    rw [held]
    exact ChangeSet.Becomes.held id hit.1
  · exact .of_eq (settle_held_else held).1

theorem present_setChange (s : State) (id : CtxId) (r : Request) : s.SetChange (s.present id r) := by
  unfold State.present
  split
  · dsimp only
    split
    · exact .of_eq (recordFault_sameTables ..).set
    · exact .of_eq rfl
  · exact resolveInto_setChange (s.answerRequest id.port .taken) id r

theorem takeHead_changeSet (s : State) (p : Fin 4) : (s.takeHead p).changeSet = s.changeSet := by
  unfold State.takeHead
  split <;> rfl

theorem startPortReset_setChange (s : State) (p : Fin 4) : s.SetChange (s.startPortReset p) := by
  obtain ⟨u, order, v, held, _, bound, ends⟩ := startPortReset_steps s p
  rcases boundLeaves_setStays bound with same | empty
  · have set := ends.set.trans (same.trans held.set)
    unfold State.SetChange
    rw [set]
    exact .released _
  · exact .of_empty (ends.set.trans empty)

theorem prstnAsserted_setChange (s : State) (p : Fin 4) (already : Prop) [Decidable already] :
    s.SetChange ((if already then s.assertPrstn p else (s.assertPrstn p).startPortReset p).answerLineHeld p) := by
  unfold State.SetChange
  rw [(answerLineHeld_sameTables ..).set]
  split
  · exact .same
  · exact startPortReset_setChange (s.assertPrstn p) p

theorem resetPort_setChange (s : State) (p : Fin 4) : s.SetChange (s.resetPort p) := by
  have follows : ∀ u : State,
      (if (s.portAt p).prstn then u.answer .done [] true else u.markTaken.portCheck p).changeSet = u.changeSet := by
    intro u
    split
    · rfl
    · exact ((markTaken_sameTables u).trans (portCheck_sameTables ..)).set
  unfold State.SetChange State.resetPort
  dsimp only
  rw [follows]
  split
  · exact .same
  · exact startPortReset_setChange s p

theorem takeResetAll_setChange (s : State) : s.SetChange s.takeResetAll := by
  have freed : (ctxIds.foldl State.resetAllCtx s).changeSet = s.changeSet :=
    foldl_same State.changeSet (fun u id => (resetAllCtx_keeps u id).2.2.1) ctxIds s
  obtain ⟨_, _, set⟩ := takeResetAll_tables s
  unfold State.SetChange
  rw [set, freed, ← List.filter_false s.changeSet.holdList]
  exact .released _

theorem fullRefusal_none {s : State} : s.fullRefusal = none ↔ s.changeSet.entries.length < Config.setCapacity := by
  simp [State.fullRefusal]

/-- A staging command that is not refused finds room in the set (R118). -/
theorem stagingRefusal_room {s : State} {slot : Nat} {fields : Option RawWindow} {needs : SlotState} {g : Option Byte}
    (h : s.stagingRefusal slot fields needs g = none) : s.changeSet.entries.length < Config.setCapacity := by
  unfold State.stagingRefusal at h
  split at h
  · cases h
  · split at h
    · cases h
    · simp only [Option.or_eq_none_iff] at h
      obtain ⟨_, _, full, _⟩ := h
      exact fullRefusal_none.1 full

theorem stage_setChange {s : State} {slot : Nat} {fields : Option RawWindow} {needs : SlotState} {g : Option Byte}
    {e : Entry} (hslot : e.slot = Fin.ofNat 64 slot) :
    s.SetChange (s.stage (s.stagingRefusal slot fields needs g) e) := by
  unfold State.stage
  split
  · exact .of_eq rfl
  · rename_i passed
    obtain ⟨idle, new, _⟩ := stagingRefusal_none passed
    exact ChangeSet.Becomes.staged e idle (hslot ▸ new) (stagingRefusal_room passed)

theorem commitOpen_setChange {s : State} (entries : s.changeSet.entries ≠ []) : s.SetChange s.commitOpen := by
  unfold State.commitOpen
  split
  · exact .of_eq rfl
  · rcases drainCheck_setStays s.accept with same | empty
    · show s.changeSet.Becomes s.accept.drainCheck.changeSet
      rw [same]
      exact .accepted entries _
    · exact .of_empty empty

/-- The one inversion of exec for the law of the set: whatever the command, the change set becomes one of these. -/
theorem exec_setChange {c : Instr} {s t : State} (h : exec c s = .next t) : s.SetChange t := by
  cases c <;> cases h
  case rstAsserted => exact .of_empty rfl
  case rstReleased =>
    split
    · exact .of_empty (reinitialise_set ..)
    · exact .of_eq rfl
  case reinitialisation st =>
    exact endWait_keeps (s := s.strapsAt st) (.of_eq rfl) (.of_empty (reinitialise_set ..))
  case startupCompletion =>
    split
    · rename_i o _
      cases o <;> exact .of_eq rfl
    · exact .of_eq rfl
  case requestPresented =>
    split
    · exact .of_eq rfl
    · split
      · exact .of_eq rfl
      · exact present_setChange ..
  case responseTaken =>
    split
    · exact .of_eq rfl
    · exact .of_eq (takeHead_changeSet ..)
  case prstnAsserted => exact prstnAsserted_setChange ..
  case prstnDeasserted | portLeavesInReset => exact .of_eq (portCheck_sameTables ..).set
  case requestRemoved | prtkSampledLow => exact .of_eq rfl
  case strobeAssert => split <;> exact .of_eq rfl
  case minimumStrobeEnd | extensionPeriodEnd =>
    split
    · split
      · exact (beatEnd_setStays ..).setChange
      · split
        · exact (beatEnd_setStays ..).setChange
        · exact .of_eq rfl
    · exact .of_eq rfl
  case beatTimeout =>
    split
    · split
      · exact (beatEnd_setStays ..).setChange
      · exact .of_eq rfl
    · exact .of_eq rfl
  case recoveryEnd =>
    split
    · exact (recoveryEnds_setStays ..).setChange
    · exact .of_eq rfl
  case applySet => exact (drainCheck_setStays s).setChange
  case commandFrame | responseExchange | attentionExchange | unknownTypeExchange => exact .same (beginExchange_sameTables ..)
  case mcsRelease => exact .same (releaseMcs_sameTables s)
  case collision =>
    split
    · exact .same (beginExchange_sameTables ..)
    · exact .of_eq rfl
  case resetAll =>
    exact own_setChange _ fun _ => endWait_keeps (takeResetAll_setChange s) (.of_empty (reinitialise_set ..))
  case stageInstall | stageAmend | stageRetire => exact own_setChange _ fun _ => stage_setChange rfl
  case commit =>
    refine own_setChange _ fun _ => ?_
    split
    · exact .of_eq rfl
    · split
      · exact .of_eq rfl
      · rename_i entries
        exact commitOpen_setChange entries
    · exact .of_eq rfl
  case discard =>
    refine own_setChange _ fun _ => ?_
    split
    · exact .of_eq rfl
    · rename_i opened
      exact ChangeSet.Becomes.discarded opened
    · exact .of_empty (reResolve_fromClosed (thawed_changeSet s)).1
  case resetPort =>
    refine own_setChange _ fun _ => ?_
    split
    · exact .of_eq rfl
    · exact resetPort_setChange ..
  case identify | querySet => exact own_setChange _ fun _ => .of_eq rfl
  case queryWindow | queryPort | queryProfile | queryChannel | setProfile | setAttentionMask =>
    refine own_setChange _ fun _ => ?_
    split <;> exact .of_eq rfl
  case readFault | setChannel | ackAttention =>
    refine own_setChange _ fun _ => ?_
    split
    · exact .of_eq rfl
    · split <;> exact .of_eq rfl
  case findAddress | clearFault =>
    refine own_setChange _ fun _ => ?_
    split
    · exact .of_eq rfl
    · split
      · exact .of_eq rfl
      · split <;> exact .of_eq rfl
  case restoreChannel =>
    refine own_setChange _ fun _ => ?_
    split
    · exact .of_eq rfl
    · dsimp only
      split <;> exact .of_eq rfl
  case setPort =>
    refine own_setChange _ fun _ => ?_
    split
    · exact .of_eq rfl
    · split
      · exact .of_eq rfl
      · exact .of_eq rfl
      · dsimp only
        split <;> exact .of_eq rfl

/-! ### The law of the set (R114, R116) -/

theorem setChange_changeSetLaw {s t : State} (h : s.SetChange t) (hs : ChangeSetLaw s) : ChangeSetLaw t := by
  obtain ⟨few, nd, closed, quiet⟩ := hs
  unfold State.SetChange at h
  unfold ChangeSetLaw
  generalize s.changeSet = x at *
  generalize t.changeSet = y at *
  cases h with
  | same => exact ⟨few, nd, closed, quiet⟩
  | emptied => decide
  | held id committing => exact ⟨few, nd, closed, fun h => absurd committing h⟩
  | released kept =>
    refine ⟨few, nd, closed, fun h => ?_⟩
    obtain ⟨footprint, hold⟩ := quiet h
    exact ⟨footprint, by simp [hold]⟩
  | staged e idle new room =>
    refine ⟨?_, nodup_append_entry nd new, by simp, fun _ => quiet idle⟩
    rw [List.length_append]
    exact room
  | accepted entries footprint =>
    refine ⟨few, nd, ?_, fun h => absurd rfl h⟩
    simp [committingSet, entries]
  | discarded opened =>
    obtain ⟨_, hold⟩ := quiet (by simp [opened])
    rw [hold]
    decide

/-- Settles O55: exec_setChange names what a command can make of the set, and each meets the law. -/
theorem stepKeepsTheChangeSetLaw : Obligations.StepKeepsTheChangeSetLaw := by
  intro s t hs ht
  exact step_keeps (P := ChangeSetLaw) (fun _ _ h => h) (fun _ _ _ h he => setChange_changeSetLaw (exec_setChange he) h) hs ht

end Sys2Proof.Machine
end
section
/-! The law of the change set and the law of the hold list through every command (R114, R116, R126). -/

namespace Sys2Proof.Machine

/-! ### The law of the hold list (R126) -/

theorem State.SameTables.holdListLaw {s t : State} (h : s.SameTables t) (hs : HoldListLaw s) : HoldListLaw t :=
  holdLaw_congr hs h.set (heldAt_same h.ctxs)

/-- Outside a COMMITTING set nothing is held. -/
theorem holdListLaw_not_held {s : State} (hs : HoldListLaw s) (hc : s.changeSet.state ≠ .committing) (id : CtxId) :
    ¬ HeldAt s id := by
  obtain ⟨_, listed, empty⟩ := hs
  intro held
  have mem := (listed id).2 held
  rw [empty hc] at mem
  cases mem

theorem holdListLaw_empty {s : State} (hs : HoldListLaw s) (hc : s.changeSet.state ≠ .committing) : s.changeSet.holdList = [] :=
  hs.2.2 hc

/-- Staging, acceptance and the discard of an OPEN set start from a set that holds nothing, and hold nothing. -/
theorem holdListLaw_unheld {s t : State} (hs : HoldListLaw s) (hc : s.changeSet.state ≠ .committing) (ctxs : t.ctxs = s.ctxs)
    (empty : t.changeSet.holdList = []) : HoldListLaw t :=
  holdLaw_of_empty empty fun id held => holdListLaw_not_held hs hc id ((heldAt_same ctxs id).1 held)

theorem appendEntry_holdListLaw {s : State} {e : Entry} (hs : HoldListLaw s) (hc : s.changeSet.state ≠ .committing) :
    HoldListLaw (s.appendEntry e) := holdListLaw_unheld hs hc rfl (holdListLaw_empty (s := s) hs hc)

theorem closeSet_holdListLaw {s : State} (hs : HoldListLaw s) (hc : s.changeSet.state ≠ .committing) : HoldListLaw s.closeSet :=
  holdListLaw_unheld hs hc rfl (holdListLaw_empty (s := s) hs hc)

theorem accept_holdListLaw {s : State} (hs : HoldListLaw s) (hc : s.changeSet.state ≠ .committing) : HoldListLaw s.accept :=
  holdListLaw_unheld hs hc (foldl_freeze_same s.changeSet.entries s).1 rfl

/-- The taking of RESET_ALL empties the hold list and leaves nothing HELD (R186). -/
theorem takeResetAll_holdListLaw (s : State) : HoldListLaw s.takeResetAll := by
  obtain ⟨_, _, set⟩ := takeResetAll_tables s
  refine holdLaw_of_empty (by rw [set]) fun id => ?_
  rintro ⟨r, held⟩
  rw [takeResetAll_ctxAt] at held
  unfold Context.atResetAll at held
  split at held <;> cases held

theorem tableChange_holdListLaw {s t : State} (h : TableChange s t) (hq : QueueLaw s) (hs : HoldListLaw s) : HoldListLaw t := by
  cases h with
  | same h => exact h.holdListLaw hs
  | rst => exact blocksFresh_holdListLaw (assertRst_blocks s) (assertRst_ctxAt s)
  | reinitialised u o => exact reinitialise_holdLaw u o
  | resetAll => exact endWait_keeps (takeResetAll_holdListLaw s) (reinitialise_holdLaw _ _)
  | taken h new => exact resolveInto_holdLaw (h.holdListLaw hs) (not_held_of new.free (by simp))
  | headTaken p x h => exact takeHead_holdLaw (putPort_queueLaw hq h) (putPort_holdLaw hs)
  | portReset p h k => exact k.holdListLaw (startPortReset_holdLaw (h.holdListLaw hs))
  | beatEnded c copy o cd => exact beatEnd_holdLaw hs
  | recoveryEnded c => exact recoveryEnds_holdLaw hs
  | drainChecked => exact drainCheck_holdLaw hs
  | staged e h => exact appendEntry_holdListLaw hs h.notCommitting
  | accepted h _ k => exact k.holdListLaw (drainCheck_holdLaw (accept_holdListLaw hs h))
  | emptied h k => exact k.holdListLaw (closeSet_holdListLaw hs (by simp [h]))
  | discarded k =>
    obtain ⟨set, unheld⟩ := discardCommitting_empties hs
    exact k.holdListLaw (holdLaw_of_empty (by rw [set]) unheld)

/-- Settles O57: exec_tableChange names every way in which a command touches a context and the set, and each keeps the law; the queue law says that the head a requester takes is DONE and so not HELD. -/
theorem stepKeepsTheHoldListLaw : Obligations.StepKeepsTheHoldListLaw := by
  intro s t hq hs ht
  have both := step_keeps (P := fun u => QueueLaw u ∧ HoldListLaw u) (fun _ _ h => h)
    (fun _ _ _ h he => ⟨portChange_queueLaw (exec_portChange he) h.1, tableChange_holdListLaw (exec_tableChange he) h.1 h.2⟩)
    ⟨hq, hs⟩ ht
  exact both.2

end Sys2Proof.Machine
end
section
/-! The staging commands by the checks of Table 7-3, and COMMIT of a set without conflict (R117 to R119, R124, R125, R130). -/

namespace Sys2Proof.Machine

/-! ### Staging (R117 to R119) -/

/-- The window items a staging command checks: a RETIRE has none (R118). -/
def stagedFields (code : CommandCode) (p : List Byte) : Option RawWindow :=
  if code = .stageRetire then none else some (rawWindowOf p)

/-- The expected generation a staging command checks, at its place in the payload: an INSTALL has none (R118). -/
def stagedGeneration (code : CommandCode) (p : List Byte) (place : Nat) : Option Byte :=
  if code = .stageInstall then none else expectedOf (rawAt p 1) (rawAt p place)

/-- The three staging commands: the code, the event, the slot state needed and the place of the expected generation (R118, R172). -/
inductive StagingRow : CommandCode → Instr → SlotState → Nat → Prop where
  | install : StagingRow .stageInstall .stageInstall .free 0
  | amend : StagingRow .stageAmend .stageAmend .live 20
  | retire : StagingRow .stageRetire .stageRetire .live 2

theorem stagingRow_of_mem {code : CommandCode} {cmd : Instr} {needs : SlotState} {place : Nat}
    (h : (code, cmd, needs, place) ∈ [(CommandCode.stageInstall, Instr.stageInstall, SlotState.free, 0),
      (.stageAmend, .stageAmend, .live, 20), (.stageRetire, .stageRetire, .live, 2)]) : StagingRow code cmd needs place := by
  simp only [List.mem_cons, List.not_mem_nil, or_false, Prod.mk.injEq] at h
  rcases h with ⟨rfl, rfl, rfl, rfl⟩ | ⟨rfl, rfl, rfl, rfl⟩ | ⟨rfl, rfl, rfl, rfl⟩
  · exact .install
  · exact .amend
  · exact .retire

section Staging

variable {s : State} {p : List Byte} {code : CommandCode} {cmd : Instr} {needs : SlotState} {place : Nat}

/-- The entry a staging command makes of its payload (R117). -/
def stagedEntry (code : CommandCode) (p : List Byte) : Entry :=
  match code with
  | .stageInstall => .install (slotOf p) (rawWindowOf p).window
  | .stageAmend => .amend (slotOf p) (rawWindowOf p).window (stagedGeneration .stageAmend p 20)
  | _ => .retire (slotOf p) (stagedGeneration .stageRetire p 2)

/-- The checks of a staging command on its payload, in the order of Table 7-3. -/
def State.stagedRefusal (s : State) (code : CommandCode) (p : List Byte) (needs : SlotState) (place : Nat) : Option Refused :=
  s.stagingRefusal (byteAt p 0) (stagedFields code p) needs (stagedGeneration code p place)

theorem exec_staging (row : StagingRow code cmd needs place) (given : Dispatched code p s) :
    exec cmd s = .next (s.stage (s.stagedRefusal code p needs place) (stagedEntry code p)) := by
  cases row with
  | install => simp only [exec, execStageInstall, own_of given]; rfl
  | amend => simp only [exec, execStageAmend, own_of given]; rfl
  | retire => simp only [exec, execStageRetire, own_of given]; rfl

theorem exec_staging_refused (row : StagingRow code cmd needs place) (given : Dispatched code p s) {st : AnswerStatus}
    {payload : List Byte} (refused : s.stagedRefusal code p needs place = some (st, payload)) :
    exec cmd s = .next (answeredWith s st payload false) := by
  rw [exec_staging row given, refused]
  rfl

theorem exec_staging_passed (row : StagingRow code cmd needs place) (given : Dispatched code p s)
    (passed : s.stagedRefusal code p needs place = none) :
    exec cmd s = .next (answeredWith (s.putChangeSet { s.changeSet with
      state := .opened, entries := s.changeSet.entries ++ [stagedEntry code p] }) .done
      [byteOf (s.changeSet.entries.length + 1)] false) := by
  rw [exec_staging row given, passed]
  rfl

/-! The checks one by one: each refuses, or hands over to the next (Table 7-3). -/

theorem stagedRefusal_committing (h : s.changeSet.state = .committing) :
    s.stagedRefusal code p needs place = some (.commitBusy, []) := if_pos h

theorem stagedRefusal_badSlot (h : s.changeSet.state ≠ .committing) (bad : 63 < byteAt p 0) :
    s.stagedRefusal code p needs place = some (.badSlot, []) := by
  rw [State.stagedRefusal, State.stagingRefusal, if_neg h, if_pos bad]

/-- With no set COMMITTING and the slot one of the 64, the other five checks decide in their order. -/
theorem stagedRefusal_slot (h : s.changeSet.state ≠ .committing) (slot : byteAt p 0 ≤ 63) :
    s.stagedRefusal code p needs place = (fieldRefusal (stagedFields code p)).or ((s.duplicateRefusal (slotOf p)).or
      (s.fullRefusal.or ((s.stateRefusal (slotOf p) needs).or (s.staleRefusal (slotOf p) (stagedGeneration code p place))))) := by
  rw [State.stagedRefusal, State.stagingRefusal, if_neg h, if_neg (Nat.not_lt.2 slot)]
  rfl

theorem fieldRefusal_fails {n : Nat} (windowed : code ≠ .stageRetire) (fails : fieldCheck (rawWindowOf p) = some n) :
    fieldRefusal (stagedFields code p) = some (.badField, [byteOf n]) := by
  simp [fieldRefusal, stagedFields, windowed, fails]

theorem fieldRefusal_passes (h : code = .stageRetire ∨ fieldCheck (rawWindowOf p) = none) :
    fieldRefusal (stagedFields code p) = none := by
  unfold stagedFields
  split
  · rfl
  · rename_i windowed
    simp [fieldRefusal, h.resolve_left windowed]

theorem duplicateRefusal_fails {i : Fin 64} {k : Nat} {e : Entry} (he : s.changeSet.entries[k]? = some e) (names : e.slot = i)
    (first : ∀ j f, j < k → s.changeSet.entries[j]? = some f → f.slot ≠ i) :
    s.duplicateRefusal i = some (.duplicateSlot, [byteOf k]) := by
  have index := entryNaming_index.2 ⟨⟨e, he, names⟩, first⟩
  obtain ⟨x, found, rfl⟩ := Option.map_eq_some_iff.1 index
  simp [State.duplicateRefusal, found]

theorem duplicateRefusal_passes {i : Fin 64} (new : ∀ e ∈ s.changeSet.entries, e.slot ≠ i) : s.duplicateRefusal i = none := by
  rw [State.duplicateRefusal, entryNaming_none.2 new]
  rfl

theorem fullRefusal_fails (full : 8 ≤ s.changeSet.entries.length) : s.fullRefusal = some (.setFull, [8]) := if_pos full

theorem stateRefusal_fails {i : Fin 64} (other : (s.slotAt i).state ≠ needs) : s.stateRefusal i needs =
    some (.badState, [match (s.slotAt i).state with | .free => 0 | .live => 1 | .frozen => 2]) := by
  rw [State.stateRefusal, if_neg other]
  cases (s.slotAt i).state <;> rfl

theorem stateRefusal_passes {i : Fin 64} (fits : (s.slotAt i).state = needs) : s.stateRefusal i needs = none := if_pos fits

theorem staleRefusal_fails {i : Fin 64} (expects : code ≠ .stageInstall) (given : (rawAt p 1).getLsbD 2 = true)
    (stale : rawAt p place ≠ (s.slotAt i).generation) :
    s.staleRefusal i (stagedGeneration code p place) = some (.stale, [(s.slotAt i).generation]) := by
  simp [State.staleRefusal, stagedGeneration, expects, expectedOf, given, stale]

theorem staleRefusal_passes {i : Fin 64} (fresh : (rawAt p 1).getLsbD 2 = true → rawAt p place = (s.slotAt i).generation) :
    s.staleRefusal i (expectedOf (rawAt p 1) (rawAt p place)) = none := by
  unfold expectedOf
  split
  · rename_i given
    exact if_pos (fresh given)
  · rfl

/-- Every check passes, each with its condition (R118). -/
theorem stagedRefusal_none (h : s.changeSet.state ≠ .committing) (slot : byteAt p 0 ≤ 63)
    (fields : code = .stageRetire ∨ fieldCheck (rawWindowOf p) = none) (new : ∀ e ∈ s.changeSet.entries, e.slot ≠ slotOf p)
    (room : s.changeSet.entries.length < 8) (fits : (s.slotAt (slotOf p)).state = needs)
    (fresh : s.staleRefusal (slotOf p) (stagedGeneration code p place) = none) :
    s.stagedRefusal code p needs place = none := by
  rw [stagedRefusal_slot h slot, fieldRefusal_passes fields, duplicateRefusal_passes new, fullRefusal_none.2 room,
    stateRefusal_passes fits, fresh]
  rfl

end Staging

/-- Settles O25: with every check passed the entry made of the payload joins the set. -/
theorem stagingAppendsTheEntry : Obligations.StagingAppendsTheEntry := by
  refine ⟨fun s p given idle slot fields new room fits => ?_, fun s p given idle slot fields new room fits fresh => ?_,
    fun s p given idle slot new room fits fresh => ?_⟩
  · exact exec_staging_passed .install given (stagedRefusal_none idle slot (.inr fields) new room fits rfl)
  · exact exec_staging_passed .amend given (stagedRefusal_none idle slot (.inr fields) new room fits (staleRefusal_passes fresh))
  · exact exec_staging_passed .retire given (stagedRefusal_none idle slot (.inl rfl) new room fits (staleRefusal_passes fresh))

/-- Settles O26, check by check: those before the one that fails have passed. -/
theorem stagingRefusedByItsFirstFailingCheck : Obligations.StagingRefusedByItsFirstFailingCheck := by
  intro s p code cmd needs place mem given
  have row := stagingRow_of_mem mem
  have refused {st payload} := exec_staging_refused (st := st) (payload := payload) row given
  refine ⟨fun committing => refused (stagedRefusal_committing committing), fun idle =>
    ⟨fun bad => refused (stagedRefusal_badSlot idle bad), fun slot => ?_⟩⟩
  rw [stagedRefusal_slot idle slot] at refused
  refine ⟨fun n windowed fails => ?_, fun fields => ?_⟩
  · exact refused (by rw [fieldRefusal_fails windowed fails]; rfl)
  rw [fieldRefusal_passes fields, Option.none_or] at refused
  refine ⟨fun k e he names first => ?_, fun new => ?_⟩
  · exact refused (by rw [duplicateRefusal_fails he names first]; rfl)
  rw [duplicateRefusal_passes new, Option.none_or] at refused
  refine ⟨fun full => ?_, fun room => ?_⟩
  · exact refused (by rw [fullRefusal_fails full]; rfl)
  rw [fullRefusal_none.2 room, Option.none_or] at refused
  refine ⟨fun other => ?_, fun fits expects present stale => ?_⟩
  · exact refused (by rw [stateRefusal_fails other]; rfl)
  · exact refused (by rw [stateRefusal_passes fits, staleRefusal_fails expects present stale]; rfl)

/-! ### COMMIT accepted (R124, R125, R130) -/

theorem accept_changeSet (s : State) :
    s.accept.changeSet = committingSet s.changeSet.entries (s.footprintFor s.changeSet.entries) := rfl

/-- Acceptance writes slots and the set alone (R124). -/
theorem accept_same (s : State) : s.accept.ctxs = s.ctxs ∧ s.accept.ports = s.ports ∧ s.accept.chans = s.chans ∧
    s.accept.faults = s.faults ∧ s.accept.attention = s.attention := foldl_freeze_same s.changeSet.entries s

theorem accept_slotAt (s : State) (i : Fin 64) : s.accept.slotAt i =
    if ∃ e ∈ s.changeSet.entries, e.freezes = true ∧ e.slot = i then { s.slotAt i with state := .frozen } else s.slotAt i :=
  foldl_freeze_slotAt s.changeSet.entries s i

/-- The contexts that block a set just accepted are those its footprint meets (R127). -/
theorem accept_blockingCount (s : State) : s.accept.blockingCount =
    (ctxIds.filter fun id => blocks (s.footprintFor s.changeSet.entries) (s.ctxAt id)).length := by
  obtain ⟨ctxs, _⟩ := accept_same s
  have ctx : ∀ id, s.accept.ctxAt id = s.ctxAt id := fun id => congrArg (Table.look · id.idx) ctxs
  simp only [State.blockingCount, accept_changeSet, ctx]
  rfl

/-- A COMMIT that meets no conflict is answered after the drain check of its acceptance (R124). -/
theorem exec_commit_accepted {s : State} {p : List Byte} (given : Dispatched .commit p s) (opened : s.changeSet.state = .opened)
    (entries : s.changeSet.entries ≠ []) (free : s.firstConflict s.changeSet.entries = none) :
    exec .commit s = .next (answeredWith s.accept.drainCheck .accepted
      [byteOf (s.footprintFor s.changeSet.entries).length, byteOf s.accept.blockingCount] false) := by
  rw [exec_commit_opened given opened entries, State.commitOpen, free]
  rfl

/-- A slot frozen at acceptance keeps its window and generation, so entries that take effect from there do so from before it (R9, R124, R130). -/
theorem entriesTakeEffect_of_accept {s t : State} (h : EntriesTakeEffect s.accept t) : EntriesTakeEffect s t where
  install i w he := by
    rw [h.install i w he, accept_slotAt]
    split <;> rfl
  amend i w g he := by
    rw [h.amend i w g he, accept_slotAt]
    split <;> rfl
  retire i g he := by
    rw [h.retire i g he, accept_slotAt]
    split <;> rfl
  others i unnamed := by
    rw [h.others i unnamed, accept_slotAt, if_neg]
    rintro ⟨e, he, _, names⟩
    exact unnamed e he names

/-- With no context blocking it, a set just accepted is applied at once, and nothing is held to be resolved again (R124, R130). -/
theorem accept_drainCheck_of_drained {s : State} (ready : s.startUp.state ≠ .waiting) (drained : s.accept.blockingCount = 0) :
    s.accept.drainCheck = s.accept.beforeReResolve :=
  drainCheck_of_drained rfl (by rwa [(accept_still s).startUp]) drained

/-- Settles O28: the drain check of the acceptance finds a blocking context and leaves the set COMMITTING, or finds none and applies it. -/
theorem commitAccepted : Obligations.CommitAccepted := by
  constructor
  · intro s p given opened entries free blocking
    have undrained : 0 < s.accept.blockingCount := by
      rw [accept_blockingCount, List.length_pos_iff_exists_mem]
      obtain ⟨id, mem, hit⟩ := blocking
      exact ⟨id, List.mem_filter.2 ⟨mem, hit⟩⟩
    obtain ⟨ctxs, ports, chans, faults, attention⟩ := accept_same s
    have still := accept_still s
    refine ⟨_, exec_commit_accepted given opened entries free, ?_⟩
    rw [drainCheck_of_undrained (.inl undrained), accept_blockingCount]
    refine ⟨rfl, accept_slotAt s, ?_, ctxs, ports, still.profiles, chans, faults, attention, still.startUp, still.pending⟩
    simp only [answeredWith, still.link]
  · intro s p given opened entries free ready nd none_blocks
    have drained : s.accept.blockingCount = 0 := by
      rw [accept_blockingCount, List.length_eq_zero_iff, List.filter_eq_nil_iff]
      exact fun id _ => by simp [none_blocks id]
    obtain ⟨ctxs, ports, chans, faults, attention⟩ := accept_same s
    have still := accept_still s
    have applied := beforeReResolve_applied (s := s.accept) nd
    refine ⟨_, exec_commit_accepted given opened entries free, ?_⟩
    rw [accept_drainCheck_of_drained (by simp [ready]) drained, drained]
    refine ⟨?_, applied.set, applied.attention.trans (by rw [attention]), ?_, applied.ctxs.trans ctxs, applied.ports.trans ports,
      applied.profiles.trans still.profiles, applied.chans.trans chans, applied.faults.trans faults,
      applied.startUp.trans still.startUp, applied.pending.trans still.pending⟩
    · obtain ⟨install, amend, retire, others⟩ := entriesTakeEffect_of_accept applied.table
      exact ⟨install, amend, retire, others⟩
    · simp only [answeredWith, applied.link, still.link]
      rfl

end Sys2Proof.Machine
end

section
/-! CLEAR_FAULT and READ_FAULT: a record emptied against its further count, and its fields read at their places (R145, R146, R174). -/

namespace Sys2Proof.Machine

/-! ### CLEAR_FAULT (R146) -/

section ClearFault

variable {s : State} {p : List Byte} {q : Fin 4} {f : FaultRecord}

theorem exec_clearFault_badPort (given : Dispatched .clearFault p s) (bad : 3 < byteAt p 0) :
    exec .clearFault s = .next (answeredWith s .badField [1] false) := by
  simp only [exec, execClearFault, own_of given, if_pos bad]
  rfl

theorem exec_clearFault_empty (given : Dispatched .clearFault p s) (port : q.1 = byteAt p 0) (empty : s.faultAt q = none) :
    exec .clearFault s = .next (answeredWith s .done [] false) := by
  simp only [exec, execClearFault, own_of given, if_neg (show ¬ 3 < byteAt p 0 by omega), portOf_byte port, empty, answer_eq]

theorem exec_clearFault_current (given : Dispatched .clearFault p s) (port : q.1 = byteAt p 0) (full : s.faultAt q = some f)
    (current : byteAt p 1 = f.further) : exec .clearFault s = .next (answeredWith (s.putFault q none) .done [] false) := by
  simp only [exec, execClearFault, own_of given, if_neg (show ¬ 3 < byteAt p 0 by omega), portOf_byte port, full,
    if_pos current, answer_eq]

theorem exec_clearFault_stale (given : Dispatched .clearFault p s) (port : q.1 = byteAt p 0) (full : s.faultAt q = some f)
    (stale : byteAt p 1 ≠ f.further) : exec .clearFault s = .next (answeredWith s .stale [byteOf f.further] false) := by
  simp only [exec, execClearFault, own_of given, if_neg (show ¬ 3 < byteAt p 0 by omega), portOf_byte port, full,
    if_neg stale, answer_eq]

end ClearFault

/-- An answer is stored in the link, and no flag follows the link (R148). -/
theorem flag_answeredWith (s : State) (st : AnswerStatus) (payload : List Byte) (lineHeld : Bool) (n : Nat) :
    (answeredWith s st payload lineHeld).flag n = s.flag n := rfl

/-- The FAULT flag of a port whose record has been emptied is false (R148). -/
theorem flag_putFault_none (s : State) (q : Fin 4) : (s.putFault q none).flag q.1 = false := by
  rw [flag_fault, State.faultAt_putFault_same]
  rfl

/-- Settles O37, by the record and the count the payload expects of it; the FAULT flag follows the record. -/
theorem clearFaultNeedsTheCurrentCount : Obligations.ClearFaultNeedsTheCurrentCount := by
  intro s p given
  refine ⟨exec_clearFault_badPort given, fun q port => ⟨exec_clearFault_empty given port, fun f full =>
    ⟨fun current => ⟨exec_clearFault_current given port full current, ?_⟩, exec_clearFault_stale given port full⟩⟩⟩
  rw [flag_answeredWith, flag_putFault_none]

/-! ### READ_FAULT (R145, R174) -/

/-! The parts of a full record's answer: kind, tag, access and size, the address, the options, the window part, the target part, the further count (Table 9-9). -/

theorem faultBytes_head (r : FaultRecord) :
    StandsAt r.bytes 0 [byteOf r.kind.code, byteOf r.tag.1, byteOf r.access.code, byteOf r.size] :=
  standsAt_append_left _ (standsAt_append_left _ (standsAt_append_left _ (standsAt_append_left _ (List.prefix_append _ _))))

theorem faultBytes_address (r : FaultRecord) : StandsAt r.bytes 4 (bytes32 r.address) :=
  standsAt_append_left _ (standsAt_append_left _ (standsAt_append_left _ (standsAt_append_left _ (standsAt_append_right _ _))))

theorem faultBytes_options (r : FaultRecord) : StandsAt r.bytes 8
    [byteOf (bitIf r.window.isSome 0 + bitIf ((r.window.map fun w => w.label.isSome).getD false) 1 +
      bitIf r.target.isSome 2)] :=
  standsAt_append_left _ (standsAt_append_left _ (standsAt_append_left _ (standsAt_append_right _ _)))

theorem faultBytes_window (r : FaultRecord) : StandsAt r.bytes 9 (windowPartBytes r.window) :=
  standsAt_append_left _ (standsAt_append_left _ (standsAt_append_right _ _))

theorem faultBytes_target (r : FaultRecord) : StandsAt r.bytes 15 (targetPartBytes r.target) := by
  have behind : StandsAt r.bytes _ (targetPartBytes r.target) := standsAt_append_left _ (standsAt_append_right _ _)
  rwa [List.length_append, windowPartBytes_length] at behind

theorem faultBytes_further (r : FaultRecord) : StandsAt r.bytes 21 [byteOf r.further] := by
  have behind : StandsAt r.bytes _ [byteOf r.further] := standsAt_append_right _ _
  rwa [List.length_append, List.length_append, windowPartBytes_length, targetPartBytes_length] at behind

theorem windowPartBytes_some (w : WindowRef) :
    windowPartBytes (some w) = [byteOf w.slot.1, w.generation] ++ bytes32 (w.label.getD 0xFFFFFFFF) := by
  rw [← labelBytes_eq]
  rfl

/-- An absent window part is sent as FFh in each of its bytes, and so is an absent target part (R174). -/
theorem windowPartBytes_none : windowPartBytes none = [0xFF, 0xFF] ++ bytes32 0xFFFFFFFF := by decide

theorem targetPartBytes_none : targetPartBytes none = [0xFF] ++ bytes32 0xFFFFFFFF ++ [0xFF] := by decide

/-- A window part read back: slot, generation, label. -/
theorem StandsAt.windowPart {a : List Byte} {x y : Byte} {w : Word} (h : StandsAt a 9 ([x, y] ++ bytes32 w)) :
    Machine.rawAt a 9 = x ∧ Machine.rawAt a 10 = y ∧ Machine.wordAt a 11 = w :=
  ⟨h.rawAt (j := 0) rfl _ rfl, h.rawAt (j := 1) rfl _ rfl, (h.trans (standsAt_append_right _ _)).wordAt _ rfl⟩

/-- A target part read back: channel, byte address, beat index. -/
theorem StandsAt.targetPart {a : List Byte} {x y : Byte} {w : Word} (h : StandsAt a 15 ([x] ++ bytes32 w ++ [y])) :
    Machine.rawAt a 15 = x ∧ Machine.wordAt a 16 = w ∧ Machine.rawAt a 20 = y :=
  ⟨h.rawAt (j := 0) rfl _ rfl, (h.trans (standsAt_append_left _ (standsAt_append_right _ _))).wordAt _ rfl,
    h.rawAt (j := 5) rfl _ rfl⟩

theorem byteOf_threeFlags_bits (x y z : Bool) : (byteOf (bitIf x 0 + bitIf y 1 + bitIf z 2)).getLsbD 0 = x ∧
    (byteOf (bitIf x 0 + bitIf y 1 + bitIf z 2)).getLsbD 1 = y ∧
    (byteOf (bitIf x 0 + bitIf y 1 + bitIf z 2)).getLsbD 2 = z := by
  revert x y z
  decide

/-- Settles O44: each item is read where its part of the answer stands. -/
theorem readFaultReportsTheRecord : Obligations.ReadFaultReportsTheRecord := by
  intro s p q given port
  have good : byteAt p 0 ≤ 3 := by omega
  rw [← portOf_byte port]
  refine ⟨exec_readFault_empty given good, fun f full => ⟨_, exec_readFault_full given good full, faultBytes_length f, ?_⟩⟩
  have head := faultBytes_head f
  have options := (faultBytes_options f).rawAt (j := 0) rfl _ rfl
  obtain ⟨window, label, target⟩ := byteOf_threeFlags_bits f.window.isSome
    ((f.window.map fun w => w.label.isSome).getD false) f.target.isSome
  rw [← options] at window label target
  refine ⟨(head.byteAt (j := 0) rfl _ rfl).trans ?kind, (head.byteAt (j := 1) rfl _ rfl).trans (byteOf_toNat (by omega)),
    (head.byteAt (j := 2) rfl _ rfl).trans ?access, head.rawAt (j := 3) rfl _ rfl, (faultBytes_address f).wordAt _ rfl,
    window, label.trans ?labelled, target, fun w some_ => ?window, fun none_ => ?noWindow, fun x some_ => ?target,
    fun none_ => ?noTarget, (faultBytes_further f).rawAt (j := 0) rfl _ rfl⟩
  case kind => cases f.kind <;> rfl
  case access => cases f.access <;> rfl
  case labelled => cases f.window <;> rfl
  case window =>
    have part := faultBytes_window f
    rw [some_, windowPartBytes_some] at part
    obtain ⟨slot, rest⟩ := part.windowPart
    exact ⟨(congrArg BitVec.toNat slot).trans (byteOf_toNat (by omega)), rest⟩
  case noWindow =>
    have part := faultBytes_window f
    rw [none_, windowPartBytes_none] at part
    exact part.windowPart
  case target =>
    have part := faultBytes_target f
    rw [some_] at part
    obtain ⟨channel, rest⟩ := part.targetPart
    exact ⟨(congrArg BitVec.toNat channel).trans (byteOf_toNat (by omega)), rest⟩
  case noTarget =>
    have part := faultBytes_target f
    rw [none_, targetPartBytes_none] at part
    exact part.targetPart

end Sys2Proof.Machine
end

section
/-! ACK_ATTENTION and SET_ATTENTION_MASK: the latched flags, the mask, and ATN (R148, R151 to R153). -/

namespace Sys2Proof.Machine

/-! ### The latched flags (R148, R151) -/

/-- A number whose low byte is 0 names no flag below 8. -/
theorem testBit_of_low_byte_zero {named n : Nat} (low : named % 2 ^ 8 = 0) (level : n < 8) : named.testBit n = false := by
  have bit := Nat.testBit_mod_two_pow named 8 n
  rw [low, Nat.zero_testBit, decide_eq_true level, Bool.true_and] at bit
  exact bit.symm

/-- Of the flags named, the latched ones are cleared; the level flags follow records and channels, and none is named (R148, R151). -/
theorem flag_clearLatched (s : State) {named : Nat} (low : named % 2 ^ 8 = 0) (n : Nat) :
    (s.clearLatched named).flag n = (s.flag n && !named.testBit n) := by
  have level : ∀ k, k < 8 → (s.clearLatched named).flag k = s.flag k →
      (s.clearLatched named).flag k = (s.flag k && !named.testBit k) := by
    intro k hk same
    rw [same, testBit_of_low_byte_zero low hk, Bool.not_false, Bool.and_true]
  match n with
  | 0 | 1 | 2 | 3 | 4 | 5 | 6 | 7 => exact level _ (by decide) rfl
  | 8 | 9 | 10 => rfl
  | k + 11 => simp [flag_above _ (k + 11) (by omega)]

/-! ### The two commands, check by check (R151, R152) -/

/-- The number a two-byte payload names: its low byte is the payload's first byte. -/
theorem halfAt_low (p : List Byte) : halfAt p 0 % 2 ^ 8 = byteAt p 0 := by
  have small : byteAt p 0 < 2 ^ 8 := BitVec.isLt _
  unfold halfAt
  omega

/-- The part with another mask (R152). -/
def State.withMask (s : State) (mask : Nat) : State := s.putAttention { s.attention with mask := BitVec.ofNat 11 mask }

section AttentionCommands

variable {s : State} {p : List Byte}

theorem exec_ackAttention_above (given : Dispatched .ackAttention p s) (above : 2048 ≤ halfAt p 0) :
    exec .ackAttention s = .next (answeredWith s .badField [1] false) := by
  simp only [exec, execAckAttention, own_of given, if_pos (show 2 ^ 11 ≤ halfAt p 0 from above)]
  rfl

theorem exec_ackAttention_level (given : Dispatched .ackAttention p s) (below : halfAt p 0 < 2048) (level : byteAt p 0 ≠ 0) :
    exec .ackAttention s = .next (answeredWith s .badField [2] false) := by
  simp only [exec, execAckAttention, own_of given, if_neg (show ¬ 2 ^ 11 ≤ halfAt p 0 by omega), halfAt_low, if_pos level]
  rfl

theorem exec_ackAttention_latched (given : Dispatched .ackAttention p s) (below : halfAt p 0 < 2048) (latched : byteAt p 0 = 0) :
    exec .ackAttention s = .next (answeredWith (s.clearLatched (halfAt p 0)) .done
      (s.clearLatched (halfAt p 0)).attentionBytes false) := by
  simp only [exec, execAckAttention, own_of given, if_neg (show ¬ 2 ^ 11 ≤ halfAt p 0 by omega), halfAt_low,
    if_neg (not_not.2 latched), answer_eq]

theorem exec_setAttentionMask_above (given : Dispatched .setAttentionMask p s) (above : 2048 ≤ halfAt p 0) :
    exec .setAttentionMask s = .next (answeredWith s .badField [1] false) := by
  simp only [exec, execSetAttentionMask, own_of given, if_pos (show 2 ^ 11 ≤ halfAt p 0 from above)]
  rfl

theorem exec_setAttentionMask_replaces (given : Dispatched .setAttentionMask p s) (below : halfAt p 0 < 2048) :
    exec .setAttentionMask s = .next (answeredWith (s.withMask (halfAt p 0)) .done (s.withMask (halfAt p 0)).attentionBytes
      false) := by
  simp only [exec, execSetAttentionMask, own_of given, if_neg (show ¬ 2 ^ 11 ≤ halfAt p 0 by omega), answer_eq]
  rfl

end AttentionCommands

/-- Settles O38: the checks, and then what clearLatched does to each flag. -/
theorem ackAttentionClearsNamedLatchedFlags : Obligations.AckAttentionClearsNamedLatchedFlags := by
  intro s p given named
  refine ⟨exec_ackAttention_above given, exec_ackAttention_level given, fun below latched =>
    ⟨_, exec_ackAttention_latched given below latched, fun n _ => ?_, rfl, rfl, rfl, rfl, rfl, rfl, rfl, rfl, rfl, rfl, rfl⟩⟩
  rw [flag_answeredWith]
  exact flag_clearLatched s ((halfAt_low p).trans latched) n

/-! ### The mask and ATN (R152, R153) -/

/-- No flag depends on the mask (R152). -/
theorem flag_withMask (s : State) (mask n : Nat) : (s.withMask mask).flag n = s.flag n := rfl

theorem mask_getLsbD {mask n : Nat} (h : n < 11) : (BitVec.ofNat 11 mask).getLsbD n = mask.testBit n := by
  rw [BitVec.getLsbD_ofNat, decide_eq_true h, Bool.true_and]

/-- ATN is high exactly while some flag is both true and enabled (R153). -/
theorem atn_iff (s : State) : s.atn = true ↔ ∃ n, n < 11 ∧ s.flag n = true ∧ s.attention.mask.getLsbD n = true := by
  simp only [State.atn, List.any_eq_true, List.mem_range, Bool.and_eq_true]

theorem withMask_atn_iff (s : State) (mask : Nat) :
    (s.withMask mask).atn = true ↔ ∃ n, n < 11 ∧ s.flag n = true ∧ mask.testBit n = true := by
  rw [atn_iff]
  refine exists_congr fun n => and_congr_right fun small => ?_
  rw [flag_withMask, ← mask_getLsbD small]
  rfl

theorem withMask_attentionBytes (s : State) {mask : Nat} (below : mask < 2048) :
    (s.withMask mask).attentionBytes = bytes16 (s.withMask mask).attentionSet ++ bytes16 mask := by
  have whole : (s.withMask mask).attention.mask.toNat = mask := Nat.mod_eq_of_lt below
  rw [State.attentionBytes, whole]

/-- Settles O39: the flags do not depend on the mask, and ATN is read from the flags and the new mask. -/
theorem setAttentionMaskReplacesTheMask : Obligations.SetAttentionMaskReplacesTheMask := by
  intro s p given mask
  refine ⟨exec_setAttentionMask_above given, fun below => ⟨_, exec_setAttentionMask_replaces given below,
    fun n small => mask_getLsbD small, fun n => ?_, withMask_atn_iff s mask, ?_,
    rfl, rfl, rfl, rfl, rfl, rfl, rfl, rfl, rfl, rfl⟩⟩
  · rw [flag_answeredWith, flag_withMask]
  · rw [withMask_attentionBytes (mask := halfAt p 0) s below]
    rfl

end Sys2Proof.Machine
end

section
/-! The exchanges that read: the frame each returns on MDO, and that nothing but the exchange changes (R154, R157 to R159, R165 to R167). -/

namespace Sys2Proof.Machine

/-! ### The opening of an exchange (R157) -/

theorem putExchange_eq (s : State) (x : Exchange) : s.putExchange x = s.putLink (withExchange s.link x) := rfl

/-- With MCS high there is nothing to release. -/
theorem releaseMcs_of_none {s : State} (fresh : s.link.exchange = .none) : s.releaseMcs = s := by
  simp only [State.releaseMcs, fresh]
  rw [putExchange_eq, withExchange, ← fresh]
  rfl

/-- While STARTING an exchange of any type is ignored (R159). -/
theorem beginExchange_starting {s : State} (fresh : s.link.exchange = .none) (starting : s.link.state = .starting) (t : Byte)
    (b : List Byte) : s.beginExchange t b = s.putLink (withExchange s.link .ignored) := by
  simp only [State.beginExchange, releaseMcs_of_none fresh, starting, putExchange_eq]

/-- Out of STARTING the type byte decides (R157). -/
theorem beginExchange_typed {s : State} (fresh : s.link.exchange = .none) (started : s.link.state ≠ .starting) (t : Byte)
    (b : List Byte) : s.beginExchange t b = s.typedExchange t b := by
  simp only [State.beginExchange, releaseMcs_of_none fresh]
  split
  case h_1 starting => exact absurd starting started
  all_goals rfl

theorem typedExchange_response (s : State) (b : List Byte) :
    s.typedExchange 0x02 b = s.putLink (withExchange s.link (.returning s.currentResponse)) := by
  rw [State.typedExchange, if_neg (by decide), if_pos rfl, putExchange_eq]

theorem typedExchange_attention (s : State) (b : List Byte) :
    s.typedExchange 0x03 b = s.putLink (withExchange s.link (.returning s.attentionFrame)) := by
  rw [State.typedExchange, if_neg (by decide), if_neg (by decide), if_pos rfl, putExchange_eq]

theorem typedExchange_unknown (s : State) {t : Byte} (b : List Byte) (command : t ≠ 1) (response : t ≠ 2)
    (attention : t ≠ 3) : s.typedExchange t b = s.putLink (withExchange s.link .ignored) := by
  rw [State.typedExchange, if_neg command, if_neg response, if_neg attention, putExchange_eq]

/-! ### The frames returned (R154, R165 to R167) -/

/-- The flags byte of a response: COLLIDED in bit 0, LINE_HELD in bit 1 (R159). -/
theorem responseFlags_eq (collided lineHeld : Bool) : byteOf (bitIf collided 0 + bitIf lineHeld 1) =
    (if collided then 1 else 0) + (if lineHeld then 2 else 0) := by
  revert collided lineHeld
  decide

theorem responseFrame_eq (seq : Byte) (st : AnswerStatus) (collided lineHeld : Bool) (payload : List Byte) :
    responseFrame seq st collided lineHeld payload = returnedFrame seq st collided lineHeld payload := by
  rw [responseFrame, returnedFrame, responseFlags_eq]
  rfl

theorem currentResponse_idle {s : State} (h : s.link.state = .idle) :
    s.currentResponse = [0x02, 0, 0x04, 0, 0, crc8 [0, 0x04, 0, 0]] := by
  simp only [State.currentResponse, h]
  rfl

theorem currentResponse_executing {s : State} {x : Executing} (h : s.link.state = .executing x) :
    s.currentResponse = returnedFrame s.link.lastSequence .pending s.link.collisionMark false [] := by
  simp only [State.currentResponse, h, responseFrame_eq]

theorem currentResponse_answered {s : State} {r : Response} (h : s.link.state = .answered r) :
    s.currentResponse = returnedFrame r.sequence r.status r.collided r.lineHeld r.payload := by
  simp only [State.currentResponse, h, responseFrame_eq]

theorem exec_responseExchange {s : State} (fresh : s.link.exchange = .none) (started : s.link.state ≠ .starting) :
    exec .responseExchange s = .next (s.putLink (withExchange s.link (.returning s.currentResponse))) := by
  simp only [exec, execResponseExchange, beginExchange_typed fresh started, typedExchange_response]

theorem exec_attentionExchange {s : State} (fresh : s.link.exchange = .none) (started : s.link.state ≠ .starting) :
    exec .attentionExchange s = .next (s.putLink (withExchange s.link (.returning s.attentionFrame))) := by
  simp only [exec, execAttentionExchange, beginExchange_typed fresh started, typedExchange_attention]

theorem exec_unknownTypeExchange {s : State} {t : Byte} (fresh : s.link.exchange = .none) (started : s.link.state ≠ .starting)
    (command : t ≠ 1) (response : t ≠ 2) (attention : t ≠ 3) :
    exec (.unknownTypeExchange t) s = .next (s.putLink (withExchange s.link .ignored)) := by
  simp only [exec, execUnknownTypeExchange, beginExchange_typed fresh started,
    typedExchange_unknown s [] command response attention]

/-! ### MDO (R157, R158) -/

theorem mdoByte_returning {s : State} {frame : List Byte} (h : s.link.exchange = .returning frame) (k : Nat) :
    s.mdoByte (k + 1) = frame.getD k 0xFF := by
  simp only [State.mdoByte, h]

theorem mdoByte_silent {s : State} (h : ∀ frame, s.link.exchange ≠ .returning frame) (k : Nat) : s.mdoByte k = 0xFF := by
  cases k with
  | zero => rfl
  | succ k =>
    cases exchange : s.link.exchange with
    | returning frame => exact absurd exchange (h frame)
    | none | ignored | undecided _ | decided => simp only [State.mdoByte, exchange]

/-- Each of the four rows of an exchange opens it with a type byte (LOG 11). -/
theorem exec_opens {s : State} {bytes : List Byte} {t : Byte} {e : Instr}
    (h : e ∈ [Instr.commandFrame bytes, .responseExchange, .attentionExchange, .unknownTypeExchange t]) :
    ∃ type b, exec e s = .next (s.beginExchange type b) := by
  simp only [List.mem_cons, List.not_mem_nil, or_false] at h
  rcases h with rfl | rfl | rfl | rfl
  · exact ⟨0x01, bytes, rfl⟩
  · exact ⟨0x02, [], rfl⟩
  · exact ⟨0x03, [], rfl⟩
  · exact ⟨t, [], rfl⟩

/-- Settles O48: the response by the link state, the attention frame, MDO byte by byte, and the exchanges of STARTING. -/
theorem readingExchangesReturnTheirFrames : Obligations.ReadingExchangesReturnTheirFrames := by
  refine ⟨fun s fresh => ⟨fun idle => ?idle, fun x executing => ?executing, fun r answered => ?answered, fun started =>
      ⟨exec_attentionExchange fresh started, fun t => exec_unknownTypeExchange fresh started⟩⟩,
    fun s => ⟨rfl, fun frame k returning => mdoByte_returning returning k, fun k silent => mdoByte_silent silent k⟩,
    fun s bytes t starting fresh e mem => ?starting⟩
  case idle => rw [exec_responseExchange fresh (by simp [idle]), currentResponse_idle idle]
  case executing => rw [exec_responseExchange fresh (by simp [executing]), currentResponse_executing executing]
  case answered => rw [exec_responseExchange fresh (by simp [answered]), currentResponse_answered answered]
  case starting =>
    obtain ⟨type, b, opens⟩ := exec_opens (s := s) mem
    rw [opens, beginExchange_starting fresh starting]

end Sys2Proof.Machine
end

section
/-! The CRC-8 of a frame: a register that takes its own value is zero (R168). -/

namespace Sys2Proof.Machine

theorem crc8_append_byte (bytes : List Byte) (b : Byte) : crc8 (bytes ++ [b]) = crcByte (crc8 bytes) b := by
  rw [crc8, List.foldl_append]
  rfl

/-- A zero register shifts no 1 out, so nothing is combined in. -/
theorem crcShift_zero : crcShift 0#8 = 0#8 := by decide

theorem crcByte_self (r : Byte) : crcByte r r = 0 := by
  simp only [crcByte, BitVec.xor_self, crcShift_zero]
  rfl

/-- Settles O50: the CRC byte is the register itself when it is taken in. -/
theorem crcOverItsOwnByteIsZero : Obligations.CrcOverItsOwnByteIsZero := by
  intro bytes
  rw [crc8_append_byte, crcByte_self]

end Sys2Proof.Machine
end

section
/-! Command exchanges: the decision on a frame by what it holds, its dispatch or rejection, the release of MCS, and the collision (R158, R161 to R164, R177). -/

namespace Sys2Proof.Machine

/-! ### The decision on a frame (R161, Table 9-2) -/

section
variable {code seq len : Byte}

/-- A length byte above 48 decides before anything behind it is received. -/
theorem frameDecision_tooLong (rest : List Byte) (long : 48 < len.toNat) :
    frameDecision ([code, seq, len] ++ rest) = .rejected .badLength := by
  have received : 3 ≤ ([code, seq, len] ++ rest).length := by simp
  rw [frameDecision, if_pos ⟨received, long⟩]

/-- Without its length byte, or without the CRC byte that a length of 48 or less announces, a frame is undecided. -/
theorem frameDecision_short {b : List Byte} (short : b.length < 3 ∨ byteAt b 2 ≤ 48 ∧ b.length < 4 + byteAt b 2) :
    frameDecision b = .undecided := by
  have not_tooLong : ¬ (3 ≤ b.length ∧ Config.payloadLimit < byteAt b 2) := by
    simp only [Config.payloadLimit]
    omega
  have stops : b.length < 3 ∨ b.length < 4 + byteAt b 2 := by omega
  rw [frameDecision, if_neg not_tooLong, if_pos stops]

/-- A frame received up to its CRC byte is decided by its CRC, then by its code, then by the length its command has; the bytes behind the CRC byte do not count. -/
theorem frameDecision_whole {payload : List Byte} (crc : Byte) (later : List Byte) (short : len.toNat ≤ 48)
    (fits : payload.length = len.toNat) :
    frameDecision ([code, seq, len] ++ (payload ++ [crc] ++ later)) =
      if crc ≠ crc8 ([code, seq, len] ++ payload) then .rejected .badCrc
      else (commandOf code).elim (.rejected .unknownCommand) fun cmd =>
        if payload.length ≠ cmd.payloadLength then .rejected .badLength else .taken cmd payload := by
  generalize frame : [code, seq, len] ++ (payload ++ [crc] ++ later) = b
  have split_at_crc : b = ([code, seq, len] ++ payload) ++ crc :: later := by simp [← frame]
  have covered_length : ([code, seq, len] ++ payload).length = 3 + payload.length := by simp; omega
  have length_byte : byteAt b 2 = payload.length := by rw [fits, ← frame]; rfl
  have first_byte : rawAt b 0 = code := by rw [← frame]; rfl
  have received : b.length = 4 + payload.length + later.length := by simp [← frame]; omega
  have covered : b.take (3 + payload.length) = [code, seq, len] ++ payload := by
    rw [split_at_crc, ← covered_length, List.take_left]
  have crc_byte : rawAt b (3 + payload.length) = crc := by
    rw [split_at_crc, ← covered_length, rawAt, List.getD_append_right _ _ _ _ (Nat.le_refl _), Nat.sub_self]
    rfl
  have carried : (b.drop 3).take payload.length = payload := by simp [← frame]
  have not_tooLong : ¬ (3 ≤ b.length ∧ Config.payloadLimit < payload.length) := by
    simp only [Config.payloadLimit]
    omega
  have not_short : ¬ (b.length < 3 ∨ b.length < 4 + payload.length) := by omega
  simp only [frameDecision, length_byte, if_neg not_tooLong, if_neg not_short, covered, crc_byte, first_byte, carried]
  cases commandOf code <;> rfl

end

/-- No command has a payload above 21 bytes (Table 9-6). -/
theorem payloadLength_le (cmd : CommandCode) : cmd.payloadLength ≤ 21 := by cases cmd <;> decide

/-! ### What the decision makes of the link (R161 to R163) -/

theorem decideFrame_undecided {s : State} {b : List Byte} (h : frameDecision b = .undecided) :
    s.decideFrame b = s.putLink (withExchange s.link (.undecided b)) := by
  simp only [State.decideFrame, h, putExchange_eq]

theorem decideFrame_rejected {s : State} {b : List Byte} {status : AnswerStatus} (h : frameDecision b = .rejected status) :
    s.decideFrame b = s.putLink (withExchange (rejectedWith s.link status (frameSequence b)) .decided) := by
  simp only [State.decideFrame, h]
  rfl

theorem decideFrame_taken {s : State} {b payload : List Byte} {cmd : CommandCode} (h : frameDecision b = .taken cmd payload)
    (other : cmd ≠ .identify) :
    s.decideFrame b = s.putLink { state := .executing { code := cmd, payload := payload, taken := false },
                                  lastSequence := frameSequence b, collisionMark := false, exchange := .decided } := by
  simp only [State.decideFrame, h, if_neg other]
  rfl

/-- The nine bytes of IDENTIFY, written out (R177). -/
theorem identifyBytes_eq : identifyBytes = [0x42, 0x49, 0x64, 0x04, 0x01, 64, 4, 4, 8] := by decide

/-- The link is the owner of IDENTIFY, and answers it in the event of its dispatch (R177; LOG 10). -/
theorem decideFrame_identify {s : State} {b payload : List Byte} (h : frameDecision b = .taken .identify payload) :
    s.decideFrame b = s.putLink
      { state := .answered { sequence := frameSequence b, status := .done, collided := false, lineHeld := false,
                             payload := [0x42, 0x49, 0x64, 0x04, 0x01, 64, 4, 4, 8] }
        lastSequence := frameSequence b, collisionMark := false, exchange := .decided } := by
  simp only [State.decideFrame, h, identifyBytes_eq]
  rfl

/-! ### Command exchanges by the link state (R160) -/

theorem typedExchange_command (s : State) (b : List Byte) : s.typedExchange 0x01 b = s.commandExchange b := by
  rw [State.typedExchange, if_pos rfl]

/-- In IDLE and ANSWERED a command exchange is decided by its frame (R161). -/
theorem exec_commandFrame {s : State} (takes : TakesFrames s) (fresh : s.link.exchange = .none) (b : List Byte) :
    exec (.commandFrame b) s = .next (s.decideFrame b) := by
  obtain idle | ⟨r, answered⟩ := takes
  · simp only [exec, execCommandFrame, beginExchange_typed fresh (by simp [idle]), typedExchange_command,
      State.commandExchange, idle]
  · simp only [exec, execCommandFrame, beginExchange_typed fresh (by simp [answered]), typedExchange_command,
      State.commandExchange, answered]

theorem exec_commandFrame_rejected {s : State} {b : List Byte} {status : AnswerStatus} (takes : TakesFrames s)
    (fresh : s.link.exchange = .none) (h : frameDecision b = .rejected status) : exec (.commandFrame b) s =
      .next (s.putLink (withExchange (rejectedWith s.link status (frameSequence b)) .decided)) := by
  rw [exec_commandFrame takes fresh, decideFrame_rejected h]

/-- While EXECUTING a command exchange is a collision, whatever it carries (R164). -/
theorem beginExchange_collides {s : State} {x : Executing} (executing : s.link.state = .executing x)
    (fresh : s.link.exchange = .none) (b : List Byte) : s.beginExchange 0x01 b = s.collide := by
  simp only [beginExchange_typed fresh (by simp [executing]), typedExchange_command, State.commandExchange, executing]

/-! ### The release of MCS (R161) -/

theorem releaseMcs_undecided {s : State} {b : List Byte} (h : s.link.exchange = .undecided b) :
    s.releaseMcs = s.putLink (withExchange (rejectedWith s.link .badLength (b.getD 1 0)) .none) := by
  simp only [State.releaseMcs, h]
  rfl

theorem releaseMcs_other {s : State} (h : ∀ b, s.link.exchange ≠ .undecided b) :
    s.releaseMcs = s.putLink (withExchange s.link .none) := by
  unfold State.releaseMcs
  split
  case h_1 b undecided => exact absurd undecided (h b)
  case h_2 => rfl

/-! ### The statements -/

/-- Settles O45: the decision on a whole frame takes it, and the link that has IDENTIFY answers it. -/
theorem commandFrameIsDispatched : Obligations.CommandFrameIsDispatched := by
  refine ⟨fun s code seq payload later cmd takes fresh known other fits => ?dispatched,
    fun s seq later takes fresh => ?identify, fun s p given => ?owner⟩
  case dispatched =>
    have bound := payloadLength_le cmd
    have length_byte : (byteOf payload.length).toNat = payload.length := byteOf_toNat (by omega)
    have taken := frameDecision_whole (code := code) (seq := seq) (crc8 ([code, seq, byteOf payload.length] ++ payload)) later
      (by omega) length_byte.symm
    rw [if_neg (not_not_intro rfl), known, Option.elim_some, if_neg (not_not_intro fits)] at taken
    rw [List.append_assoc, List.append_assoc, ← List.append_assoc payload, exec_commandFrame takes fresh,
      decideFrame_taken taken other]
    rfl
  case identify =>
    have taken := frameDecision_whole (code := 0x01) (seq := seq) (len := 0) (payload := []) (crc8 [0x01, seq, 0]) later
      (by decide) rfl
    rw [List.append_nil, if_neg (not_not_intro rfl)] at taken
    exact (exec_commandFrame takes fresh _).trans (congrArg _ (decideFrame_identify taken))
  case owner => simp only [exec, execIdentify, own_of given, answer_eq, identifyBytes_eq]

/-- Settles O46: each condition of the decision in its order, and then the release of MCS. -/
theorem commandFrameIsRejected : Obligations.CommandFrameIsRejected := by
  refine ⟨fun s code seq len rest takes fresh => ⟨fun long => ?tooLong, fun short payload later crc fits whole => ?whole⟩,
    fun s b takes fresh short => ?short, fun s b undecided => ?released, fun s other => ?other⟩
  case tooLong => exact exec_commandFrame_rejected takes fresh (frameDecision_tooLong rest long)
  case whole =>
    have decision := frameDecision_whole (code := code) (seq := seq) crc later short fits
    rw [← whole] at decision
    refine ⟨fun bad => ?badCrc, fun good => ?goodCrc⟩
    case badCrc =>
      rw [if_pos bad] at decision
      exact exec_commandFrame_rejected takes fresh decision
    case goodCrc =>
      rw [if_neg (not_not_intro good)] at decision
      refine ⟨fun unknown => ?unknown, fun cmd known wrong => ?wrongLength⟩
      case unknown =>
        rw [unknown, Option.elim_none] at decision
        exact exec_commandFrame_rejected takes fresh decision
      case wrongLength =>
        rw [known, Option.elim_some, fits, if_pos wrong] at decision
        exact exec_commandFrame_rejected takes fresh decision
  case short => rw [exec_commandFrame takes fresh, decideFrame_undecided (frameDecision_short short)]
  case released => simp only [exec, execMcsRelease, releaseMcs_undecided undecided]
  case other => simp only [exec, execMcsRelease, releaseMcs_other other]

/-- Settles O47: either row opens a command exchange, and the link that executes collides with it. -/
theorem commandWhileExecutingIsACollision : Obligations.CommandWhileExecutingIsACollision := by
  intro s x bytes executing fresh
  have frame : exec (.commandFrame bytes) s = .next s.collide := by
    rw [exec, execCommandFrame, beginExchange_collides executing fresh]
  have row : exec .collision s = .next s.collide := by
    simp only [exec, execCollision, executing, beginExchange_collides executing fresh]
  exact ⟨frame.trans row.symm, row⟩

end Sys2Proof.Machine
end

section
/-! The reinitialisation event, the end of the wait of RESET_ALL in the event that frees the last context, and the completion of start-up (R105, R181, R183, R184, R187, R188). -/

namespace Sys2Proof.Machine

/-! ### The reinitialisation event (R181, R183, R184, R188) -/

theorem reinitialise_faultAt (s : State) (o : Origin) (p : Fin 4) : (s.reinitialise o).faultAt p = none := by
  obtain ⟨_, _, _, _, _, faults, _⟩ := reinitialise_blocks s o
  unfold State.faultAt
  rw [faults, Table.look_replicate]

theorem reinitialise_profileAt (s : State) (o : Origin) (i : Fin 8) : (s.reinitialise o).profileAt i = Profile.powerOn := by
  obtain ⟨_, _, profiles, _⟩ := reinitialise_blocks s o
  unfold State.profileAt
  rw [profiles, Table.look_replicate]

theorem reinitialise_attention (s : State) (o : Origin) : (s.reinitialise o).attention = Attention.powerOn := by
  obtain ⟨_, _, _, _, _, _, attention, _⟩ := reinitialise_blocks s o
  exact attention

theorem reinitialise_blocksFresh (s : State) (o : Origin) : BlocksFresh (s.reinitialise o) where
  profiles := reinitialise_profileAt s o
  channels := reinitialise_chanAt s o
  set := reinitialise_set s o
  faults := reinitialise_faultAt s o
  attention := reinitialise_attention s o
  atn := atn_low (reinitialise_faultAt s o) (fun c => by rw [reinitialise_chanAt]; rfl)
    (by rw [reinitialise_attention]; exact ⟨rfl, rfl, rfl⟩)
  portState p := by rw [reinitialise_portAt]; rfl
  portEnable p := by rw [reinitialise_portAt]; rfl
  portClass p := by rw [reinitialise_portAt]; rfl
  portQueue p := by rw [reinitialise_portAt]; rfl

/-- The boot window stands in slot 0 where BOOTEN is sampled high (R184, Table 10-1). -/
theorem reinitialise_slotsBooted (s : State) (o : Origin) : SlotsBooted s.startUp.levels (s.reinitialise o) := by
  refine ⟨?_, fun i other => ?_⟩
  · rw [reinitialise_slotAt]
    by_cases boots : s.startUp.levels.booten = true
    · rw [if_pos ⟨boots, rfl⟩, if_pos boots]
      rfl
    · rw [if_neg fun h => boots h.1, if_neg boots]
      rfl
  · rw [reinitialise_slotAt, if_neg fun h => other h.2]
    rfl

/-- The straps sampled are the levels at which the lines stand (R181). -/
theorem reinitialise_reinitialised (s : State) (o : Origin) : Reinitialised s (s.reinitialise o) s.startUp.levels o := by
  obtain ⟨_, _, _, _, _, _, _, link, startUp, pending⟩ := reinitialise_blocks s o
  exact { slots := reinitialise_slotsBooted s o, blocks := reinitialise_blocksFresh s o, contexts := reinitialise_ctxAt s o,
          startUp := startUp, link := link, pending := pending }

/-- Of the part before it, reinitialisation keeps the link and the queue of commands only. -/
theorem reinitialised_of_same {s u t : State} {st : Straps} {o : Origin} (h : Reinitialised u t st o) (link : u.link = s.link)
    (pending : u.pending = s.pending) : Reinitialised s t st o :=
  { h with link := h.link.trans link, pending := h.pending.trans pending }

/-- Settles O3: the straps are sampled where RST_RELEASED gives them, and reinitialise_reinitialised says the rest. -/
theorem rstReleasedSamplesStrapsAndBoots : Obligations.RstReleasedSamplesStrapsAndBoots := by
  intro s st inReset
  refine ⟨(s.strapsAt st).reinitialise .rst, ?_, ?_⟩
  · rw [exec, execRstReleased, if_pos inReset]
  · exact reinitialised_of_same (reinitialise_reinitialised ..) rfl rfl

/-! ### The end of the wait (R187) -/

theorem reinitDue_iff {s : State} : s.reinitDue = true ↔
    s.startUp.state = .waiting ∧ (∀ c copy stage, (s.chanAt c).state ≠ .beat copy stage) ∧ ∀ id, s.ctxAt id = none := by
  rw [State.reinitDue, Bool.and_eq_true, Bool.and_eq_true, beq_iff_eq, noBeat_iff, State.noContexts_iff, and_assoc]

/-- An event after which the wait is over reinitialises in itself, at the levels where it leaves the strap lines (R181, R187). -/
theorem endWait_reinitialised {s u : State} (due : u.reinitDue = true) (link : u.link = s.link)
    (pending : u.pending = s.pending) : Reinitialised s u.endWait u.startUp.levels .resetAll := by
  rw [endWait_due due]
  exact reinitialised_of_same (reinitialise_reinitialised ..) link pending

theorem exec_reinitialisation (s : State) (st : Straps) : exec (.reinitialisation st) s = .next (s.strapsAt st).endWait := rfl

/-! ### Nothing else follows a freeing in the wait (R56, R107, R138) -/

/-- From the taking of RESET_ALL until reinitialisation no drain check is made (R138). -/
theorem drainCheck_waiting {s : State} (waiting : s.startUp.state = .waiting) : s.drainCheck = s := by
  unfold State.drainCheck State.drainOn
  rw [if_neg]
  simp [waiting]

theorem portCheck_waiting {s : State} (waiting : s.startUp.state = .waiting) (p : Fin 4) : s.portCheck p = s :=
  portCheck_stays (not_portFree (.inr (.inl (by simp [waiting]))))

theorem noneWaits_of_noContexts {s : State} (empty : ∀ id, s.ctxAt id = none) (c : Fin 4) : NoneWaits s c := by
  rintro id r b stamp passes ⟨bound, _⟩
  rw [empty] at bound
  cases bound

theorem sweep_noContexts {s : State} (empty : ∀ id, s.ctxAt id = none) (c : Fin 4) : s.sweep c = s := by
  by_cases off : (s.chanAt c).state = .offline
  · rw [sweep_offline off, State.inBindOrder, waiting_nil (noneWaits_of_noContexts empty c)]
    rfl
  · exact sweep_online off

/-- With no context left in the part a channel settles OFFLINE, IDLE or in RECOVERY (R89, R105, R107). -/
theorem settleChannel_noContexts {s : State} {c : Fin 4} (bus : (s.chanAt c).onBus = none) (empty : ∀ id, s.ctxAt id = none)
    (copy : BeatCopy) :
    ∃ x, s.settleChannel c copy = s.chanState c x ∧ ∀ copy' stage, x ≠ .beat copy' stage := by
  unfold State.settleChannel
  split
  · exact ⟨.offline, rfl, fun _ _ h => by cases h⟩
  · split
    · refine ⟨.idle, ?_, fun _ _ h => by cases h⟩
      rw [afterRecovery_free bus, arbitrate_none (noneWaits_of_noContexts (s := s.chanState c .idle) empty c)]
    · exact ⟨.recovery copy, rfl, fun _ _ h => by cases h⟩

section LastContext

variable {s : State} {c : Fin 4} {id : CtxId} {r : Request} {b : Binding} {stamp : Nat}

theorem abandonedFreed_noContexts (alone : ∀ k, k ≠ id → s.ctxAt k = none) (x : Channel) (k : CtxId) :
    (abandonedFreed s c id b x).ctxAt k = none := by
  rw [abandonedFreed_ctxAt]
  split
  · rfl
  · exact alone k ‹_›

/-- The freeing of the last context ends the wait, where its channel is left in no BEAT and no other is in one (R187). -/
theorem abandonedFreed_reinitDue (waiting : s.startUp.state = .waiting)
    (others : ∀ d copy stage, d ≠ c → (s.chanAt d).state ≠ .beat copy stage) (alone : ∀ k, k ≠ id → s.ctxAt k = none)
    {x : Channel} (quiet : ∀ copy stage, x.state ≠ .beat copy stage) : (abandonedFreed s c id b x).reinitDue = true := by
  refine reinitDue_iff.2 ⟨waiting, fun d copy stage => ?_, abandonedFreed_noContexts alone x⟩
  by_cases same : d = c
  · rw [same, abandonedFreed_chanAt]
    exact quiet copy stage
  · rw [show (abandonedFreed s c id b x).chanAt d = s.chanAt d from State.chanAt_putChan_ne _ _ _ _ same]
    exact others d copy stage same

/-- The end of the beat of the last context, whatever its outcome: the freeing, and then only the end of the wait (R104, R105). -/
theorem beatEnd_lastContext (on : OnBus s c id r b stamp true) (waiting : s.startUp.state = .waiting)
    (alone : ∀ k, k ≠ id → s.ctxAt k = none) (copy : BeatCopy) (o : BeatOutcome) (cd : Word) :
    ∃ x : Channel, s.beatEnd c copy o cd = (abandonedFreed (s.endBeatLines c o) c id b x).endWait ∧
      ∀ copy' stage, x.state ≠ .beat copy' stage := by
  have empty (x : Channel) : ∀ k, (abandonedFreed (s.endBeatLines c o) c id b x).ctxAt k = none :=
    abandonedFreed_noContexts (s := s.endBeatLines c o) alone x
  obtain ⟨st, settled, quiet⟩ := settleChannel_noContexts (c := c) (by rw [abandonedFreed_chanAt])
    (empty { (s.endBeatLines c o).chanAt c with onBus := none }) copy
  refine ⟨{ (s.endBeatLines c o).chanAt c with onBus := none, state := st }, ?_, quiet⟩
  rw [beatEnd_marked on, freeAbandoned_eq, settled, abandonedFreed_chanState, drainCheck_waiting, sweep_noContexts (empty _),
    portCheck_waiting]
  all_goals exact waiting

theorem beatEnd_reinitialises (on : OnBus s c id r b stamp true) (waiting : s.startUp.state = .waiting)
    (others : ∀ d copy stage, d ≠ c → (s.chanAt d).state ≠ .beat copy stage) (alone : ∀ k, k ≠ id → s.ctxAt k = none)
    (copy : BeatCopy) (o : BeatOutcome) (cd : Word) :
    Reinitialised s (s.beatEnd c copy o cd) s.startUp.levels .resetAll := by
  obtain ⟨x, ended, quiet⟩ := beatEnd_lastContext on waiting alone copy o cd
  have others_ended : ∀ d copy stage, d ≠ c → ((s.endBeatLines c o).chanAt d).state ≠ .beat copy stage := by
    intro d copy stage other
    rw [State.endBeatLines, State.chanAt_putChan_ne _ _ _ _ other]
    exact others d copy stage other
  rw [ended]
  exact endWait_reinitialised (abandonedFreed_reinitDue (s := s.endBeatLines c o) waiting others_ended alone quiet) rfl rfl

/-- The end of the recovery between two beats of the last context reinitialises (R104, R187). -/
theorem exec_recoveryEnd_reinitialises {copy : BeatCopy} (st : (s.chanAt c).state = .recovery copy)
    (on : OnBus s c id r b stamp true) (waiting : s.startUp.state = .waiting)
    (others : ∀ d copy stage, d ≠ c → (s.chanAt d).state ≠ .beat copy stage) (alone : ∀ k, k ≠ id → s.ctxAt k = none) :
    ∃ t, exec (.recoveryEnd c) s = .next t ∧ Reinitialised s t s.startUp.levels .resetAll := by
  refine ⟨_, exec_recoveryEnd_marked st on, ?_⟩
  rw [arbitrate_none (noneWaits_of_noContexts (abandonedFreed_noContexts alone _) c), State.afterFreeing, drainCheck_waiting,
    portCheck_waiting]
  · exact endWait_reinitialised (abandonedFreed_reinitDue waiting others alone fun _ _ h => by cases h) rfl rfl
  all_goals exact waiting

end LastContext

/-- Settles O4: the row by whether the wait is over (reinitDue_iff), and the two events that free the last context. -/
theorem reinitialisationEndsTheWait : Obligations.ReinitialisationEndsTheWait := by
  refine ⟨fun s st waiting quiet empty => ?ended, fun s st unmet => ?unmet,
    fun s c copy e o cd id r b stamp ends on waiting others alone => ?beatEnd,
    fun s c copy id r b stamp st on waiting others alone => exec_recoveryEnd_reinitialises st on waiting others alone⟩
  case ended =>
    have due : (s.strapsAt st).reinitDue = true := reinitDue_iff.2 ⟨waiting, quiet, empty⟩
    exact ⟨_, exec_reinitialisation s st, endWait_reinitialised due rfl rfl⟩
  case unmet =>
    rw [exec_reinitialisation, endWait_not_due]
    · rfl
    · intro due
      obtain ⟨waiting, quiet, empty⟩ := reinitDue_iff.1 due
      rcases unmet with awake | ⟨c, copy, stage, beat⟩ | ⟨id, left⟩
      · exact awake waiting
      · exact quiet c copy stage beat
      · exact left (empty id)
  case beatEnd => exact ⟨_, exec_endsBeat ends, beatEnd_reinitialises on waiting others alone copy o cd⟩

/-! ### The completion of start-up (R183, R188) -/

theorem strapBytes_eq (st : Straps) :
    strapBytes st = [if st.booten then 1 else 0, if st.bootw then 1 else 0, if st.bootsz then 1 else 0] := by
  have bit : ∀ x : Bool, byteOf (bitIf x 0) = if x then 1 else 0 := by decide
  simp only [strapBytes, bit]

/-- Step 7 for each port, whatever the origin (R183). -/
theorem completeStartUp_portAt (s : State) (o : Origin) (p : Fin 4) :
    (s.completeStartUp o).portAt p = (s.portAt p).release := by
  cases o <;> exact State.portAt_mapPorts s.latchStartDone PortUnit.release p

/-- With origin RESET_ALL the completion is the answer to the command, which carries the held straps (R188). -/
theorem completeStartUp_resetAll_link (s : State) : (s.completeStartUp .resetAll).link = (answeredWith s .done
    [if s.startUp.straps.booten then 1 else 0, if s.startUp.straps.bootw then 1 else 0,
      if s.startUp.straps.bootsz then 1 else 0] false).link := by
  rw [← strapBytes_eq]
  rfl

theorem completeStartUp_keeps (s : State) (o : Origin) :
    (s.completeStartUp o).slots = s.slots ∧ (s.completeStartUp o).ctxs = s.ctxs ∧
      (s.completeStartUp o).profiles = s.profiles ∧ (s.completeStartUp o).chans = s.chans ∧
      (s.completeStartUp o).changeSet = s.changeSet ∧ (s.completeStartUp o).faults = s.faults ∧
      (s.completeStartUp o).pending = s.pending := by
  cases o <;> exact ⟨rfl, rfl, rfl, rfl, rfl, rfl, rfl⟩

/-- Settles O5: the completion, block by block. -/
theorem startupCompletionReleasesThePart : Obligations.StartupCompletionReleasesThePart := by
  intro s o running
  refine ⟨s.completeStartUp o, ?completes, ?attention, ?startUp, completeStartUp_portAt s o, ?link, completeStartUp_keeps s o⟩
  case completes => simp only [exec, execStartupCompletion, running]
  case attention => cases o <;> rfl
  case startUp => cases o <;> rfl
  case link =>
    cases o with
    | rst => rfl
    | resetAll => exact completeStartUp_resetAll_link s

end Sys2Proof.Machine
end

section
/-! The taking of RESET_ALL: what it stops and what it keeps while it waits, and the reinitialisation that follows directly where nothing is to be waited for (R186, R187). -/

namespace Sys2Proof.Machine

/-! ### The taking of RESET_ALL (R186) -/

/-- A context is left by the taking of RESET_ALL exactly where it was ON_BUS. -/
theorem atResetAll_none_iff {x : Option Context} :
    Context.atResetAll x = none ↔ ∀ r b stamp m, x ≠ some ⟨r, .onBus b stamp m⟩ := by
  unfold Context.atResetAll
  split
  · exact ⟨fun h => (by cases h), fun h => absurd rfl (h _ _ _ _)⟩
  · rename_i other
    exact ⟨fun _ => other, fun _ => rfl⟩

theorem takeResetAll_slotAt (s : State) (i : Fin 64) :
    s.takeResetAll.slotAt i = fewerInFlight (s.slotAt i) (boundUnderSlot s ctxIds i) := by
  obtain ⟨slot, _, _⟩ := takeResetAll_tables s
  rw [slot]
  exact foldl_counts (fun _ => True) (fun _ _ _ => trivial) (fun u id _ k ne => by rw [resetAllCtx_ctxAt, if_neg ne])
    (fun u id _ => resetAllCtx_slotAt u id) ctxIds nodup_ctxIds s trivial i

/-- The hold list is emptied, and the entries and the footprint stay (R186). -/
theorem takeResetAll_set (s : State) : s.takeResetAll.changeSet = { s.changeSet with holdList := [] } := by
  have kept : (ctxIds.foldl State.resetAllCtx s).changeSet = s.changeSet :=
    foldl_same State.changeSet (fun u id => (resetAllCtx_keeps u id).2.2.1) ctxIds s
  obtain ⟨_, _, set⟩ := takeResetAll_tables s
  rw [set, kept]

/-- The owner of a dispatched command takes it in an event that has left the link alone so far (R169). -/
theorem markTaken_of {s w : State} {code : CommandCode} {p : List Byte} (given : Dispatched code p s) (link : w.link = s.link) :
    w.markTaken = w.putLink { s.link with state := .executing { code := code, payload := p, taken := true } } := by
  have state : w.link.state = .executing { code := code, payload := p, taken := false } := by rw [link]; exact given
  simp only [State.markTaken, state]
  rw [link]

/-- What the taking of RESET_ALL leaves in the blocks without a rule of their own above. -/
theorem takeResetAll_blocks {s : State} {p : List Byte} (given : Dispatched .resetAll p s) :
    (∀ q, s.takeResetAll.faultAt q = none) ∧ s.takeResetAll.startUp = { s.startUp with state := .waiting } ∧
      s.takeResetAll.link = { s.link with state := .executing { code := .resetAll, payload := p, taken := true } } ∧
      s.takeResetAll.profiles = s.profiles ∧ s.takeResetAll.attention = s.attention ∧ s.takeResetAll.pending = s.pending := by
  have still : s.Still (ctxIds.foldl State.resetAllCtx s) := foldl_still State.resetAllCtx resetAllCtx_still ctxIds s
  have attention : (ctxIds.foldl State.resetAllCtx s).attention = s.attention :=
    foldl_same State.attention (fun u id => (resetAllCtx_keeps u id).2.2.2.2) ctxIds s
  unfold State.takeResetAll
  generalize ctxIds.foldl State.resetAllCtx s = u at still attention
  dsimp only
  rw [markTaken_of given]
  · exact ⟨State.faultAt_emptyFaults u, rfl, rfl, still.profiles, attention, still.pending⟩
  · exact still.link

/-- The wait is over as RESET_ALL is taken exactly where no channel is in BEAT and no context ON_BUS (R187). -/
theorem takeResetAll_reinitDue_iff {s : State} {p : List Byte} (given : Dispatched .resetAll p s) :
    s.takeResetAll.reinitDue = true ↔ (∀ c copy stage, (s.chanAt c).state ≠ .beat copy stage) ∧
      ∀ id r b stamp m, s.ctxAt id ≠ some ⟨r, .onBus b stamp m⟩ := by
  obtain ⟨_, startUp, _⟩ := takeResetAll_blocks given
  simp only [reinitDue_iff, startUp, true_and, chanAt_of_chans (takeResetAll_chans s), takeResetAll_ctxAt, atResetAll_none_iff]

theorem exec_resetAll {s : State} {p : List Byte} (given : Dispatched .resetAll p s) :
    exec .resetAll s = .next s.takeResetAll.endWait := by
  rw [exec, execResetAll, own_of given]

/-- Settles O49: whether reinitialisation follows directly, and else what the taking of RESET_ALL leaves, block by block. -/
theorem resetAllStopsThePart : Obligations.ResetAllStopsThePart := by
  refine ⟨fun s p given quiet off => ?direct, fun s p given busy => ?waits⟩
  all_goals obtain ⟨faults, startUp, link, profiles, attention, pending⟩ := takeResetAll_blocks given
  case direct =>
    have due := (takeResetAll_reinitDue_iff given).2 ⟨quiet, off⟩
    have levels : s.takeResetAll.startUp.levels = s.startUp.levels := by rw [startUp]
    refine ⟨_, exec_resetAll given, ?_⟩
    rw [← levels]
    exact endWait_reinitialised due link pending
  case waits =>
    have not_due : ¬ s.takeResetAll.reinitDue = true := by
      intro due
      obtain ⟨quiet, off⟩ := (takeResetAll_reinitDue_iff given).1 due
      rcases busy with ⟨c, copy, stage, beat⟩ | ⟨id, r, b, stamp, m, on⟩
      · exact quiet c copy stage beat
      · exact off id r b stamp m on
    refine ⟨s.takeResetAll, ?_, takeResetAll_portAt s, fun id r b stamp m on => ?_, fun id off => ?_, takeResetAll_slotAt s,
      takeResetAll_set s, faults, startUp, link, profiles, takeResetAll_chans s, attention, pending⟩
    · rw [exec_resetAll given, endWait_not_due not_due]
    · rw [takeResetAll_ctxAt, on]
      rfl
    · rw [takeResetAll_ctxAt]
      exact atResetAll_none_iff.2 off

end Sys2Proof.Machine
end

section
/-! The queue of commands: what one step takes from it. -/

namespace Sys2Proof.Machine

/-- Settles O1: a queue's front command is carried out on the rest (LOG 1), and an empty queue idles (LOG 2). -/
theorem stepTakesTheFrontCommand : Obligations.StepTakesTheFrontCommand := by
  refine ⟨fun c rest s => ?front, fun s empty => ?idle⟩
  case front =>
    have queued : { s with pending := c :: rest }.pending = c :: rest := rfl
    exact step_cons queued
  case idle => exact step_empty empty

end Sys2Proof.Machine
end
